-- ==== Sys2Proof/Word.lean ====
section
/-!
DEFINITION. The word types of the BX6 (01 R13, 02 R42) and the fields of its instruction formats, one structure for each
format of 03 R68, R71 and R72, with the fields named as R68 names them (lower case). A field marked reserved has no
place here: the decoder refuses a word in which it is not zero.
-/
namespace Sys2Proof

abbrev Byte := BitVec 8
abbrev Word := BitVec 64
abbrev Vec := BitVec 1024
abbrev Pred := BitVec 128

/-- A finite map from numbers: pairs in strictly rising order of key, none of them holding the default value of the map
(which the reader names), so that equal maps are equal lists. -/
abbrev FMap (α : Type) := List (Nat × α)

/-- The guard fields GN and GP of the header (03 R64). -/
structure Guard where
  gn : BitVec 1
  gp : BitVec 4
  deriving DecidableEq, Repr

structure FS where
  g : Guard
  sd : BitVec 6
  sa : BitVec 6
  sb : BitVec 6
  sc : BitVec 6
  fp : BitVec 3
  fo : BitVec 3
  fn : BitVec 4
  deriving DecidableEq, Repr

structure FI where
  g : Guard
  sd : BitVec 6
  sa : BitVec 6
  fp : BitVec 3
  fo : BitVec 3
  imm : BitVec 30
  deriving DecidableEq, Repr

/-- Format F-I with the literal of the 96-bit word in place of imm30 (03 R71). -/
structure FI96 where
  g : Guard
  sd : BitVec 6
  sa : BitVec 6
  fp : BitVec 3
  fo : BitVec 3
  lit : BitVec 32
  deriving DecidableEq, Repr

structure FK where
  g : Guard
  sd : BitVec 6
  k32 : BitVec 32
  deriving DecidableEq, Repr

structure FK96 where
  g : Guard
  sd : BitVec 6
  k32 : BitVec 32
  lit : BitVec 32
  deriving DecidableEq, Repr

structure FB where
  g : Guard
  sa : BitVec 6
  sb : BitVec 6
  fp : BitVec 3
  fo : BitVec 3
  off : BitVec 30
  deriving DecidableEq, Repr

structure FB96 where
  g : Guard
  sa : BitVec 6
  sb : BitVec 6
  fp : BitVec 3
  fo : BitVec 3
  lit : BitVec 32
  deriving DecidableEq, Repr

structure FL where
  g : Guard
  ln : BitVec 2
  immc : BitVec 1
  sa : BitVec 6
  cnt : BitVec 16
  fin : BitVec 23
  deriving DecidableEq, Repr

structure FM where
  g : Guard
  vd : BitVec 10
  sa : BitVec 6
  sb : BitVec 6
  cls : BitVec 4
  fp : BitVec 3
  fo : BitVec 3
  pi : BitVec 1
  z : BitVec 1
  imm : BitVec 14
  deriving DecidableEq, Repr

structure FM96 where
  g : Guard
  vd : BitVec 10
  sa : BitVec 6
  sb : BitVec 6
  cls : BitVec 4
  fp : BitVec 3
  fo : BitVec 3
  pi : BitVec 1
  z : BitVec 1
  lit : BitVec 32
  deriving DecidableEq, Repr

structure FX where
  g : Guard
  vd : BitVec 10
  vi : BitVec 10
  sa : BitVec 6
  cls : BitVec 4
  sc : BitVec 3
  ty : BitVec 4
  fp : BitVec 3
  fo : BitVec 3
  deriving DecidableEq, Repr

structure FA where
  g : Guard
  sd : BitVec 6
  sa : BitVec 6
  sb : BitVec 6
  sc : BitVec 6
  cls : BitVec 4
  scope : BitVec 3
  fp : BitVec 3
  fo : BitVec 3
  wd : BitVec 1
  deriving DecidableEq, Repr

structure FY where
  g : Guard
  sd : BitVec 6
  sa : BitVec 6
  sb : BitVec 6
  fp : BitVec 3
  fo : BitVec 3
  k : BitVec 24
  deriving DecidableEq, Repr

structure FE where
  g : Guard
  kp : BitVec 6
  kw1 : BitVec 6
  kw2 : BitVec 6
  kw3 : BitVec 6
  a1 : BitVec 6
  a2 : BitVec 6
  a3 : BitVec 6
  sc : BitVec 3
  rel : BitVec 1
  fn : BitVec 2
  deriving DecidableEq, Repr

structure X3 where
  g : Guard
  vd : BitVec 10
  va : BitVec 10
  vb : BitVec 10
  ty : BitVec 4
  rm : BitVec 3
  fp : BitVec 3
  fo : BitVec 3
  md : BitVec 4
  sat : BitVec 1
  deriving DecidableEq, Repr

/-- The 32-bit formats of 03 R72. -/
structure CS where
  sd : BitVec 5
  sa : BitVec 5
  sb : BitVec 5
  deriving DecidableEq, Repr

structure CB where
  sa : BitVec 5
  sb : BitVec 5
  off : BitVec 11
  deriving DecidableEq, Repr

structure CJ where
  sd : BitVec 5
  off : BitVec 19
  deriving DecidableEq, Repr

structure CI where
  sd : BitVec 5
  sa : BitVec 5
  imm : BitVec 10
  deriving DecidableEq, Repr

structure CL where
  sd : BitVec 5
  sa : BitVec 5
  imm : BitVec 11
  deriving DecidableEq, Repr

structure CT where
  sv : BitVec 5
  sa : BitVec 5
  imm : BitVec 11
  deriving DecidableEq, Repr

structure CV where
  vd : BitVec 6
  va : BitVec 6
  vb : BitVec 6
  ty : BitVec 4
  deriving DecidableEq, Repr

structure CR where
  v : BitVec 6
  sa : BitVec 5
  imm : BitVec 12
  deriving DecidableEq, Repr

/-- A request that reaches package memory from outside the cores: the host over PCIe (10 R246), a camp core (17 R354)
or another package (08 R202). `kind` is 0 a load, 1 a store, 2 an atomic add, 3 swap, 4 and, 5 or, 6 xor, 7 signed
minimum, 8 signed maximum, 9 unsigned minimum, 10 unsigned maximum, 11 compare and swap, 12 a barrier arrival, 13 tag.get,
14 tag.set, 15 vld.t, 16 vst.t (for these two `bytes` holds the guard, from bit 128 up the rounding mode, from bit 131 up the traps
that STM_FPCTL enables, and `compare` the coordinates), of a camp core 17 LR, 18 SC and 19 an instruction fetch, 20 the read of
bar.wt, 21 the load of vld.ff, 22 the checks of park, 23 a read of a
register by the host, 24 a stream's fetch of an instruction word, 25 the length probe of `loop`. Of a row store `compare` holds the lanes; of an element of a vamo it is 1. `user`: the agent is at user
level (01 R20). -/
structure Req where
  asid : Nat
  handle : Word
  kind : Nat
  bytes : Nat
  value : Vec
  compare : Word
  user : Bool
  deriving DecidableEq, Repr

/-- What data flits carry once their payload is read (18 R361; the payload's own encoding is not in the manual): the
transaction's source package and 20-bit tag (18 R363), its destination package, its route so far (the global hops taken and the
intermediate group that it has still to reach, R368) and its content. Kind 0 is an access of a stream of
another package to tensors of this one: `reqs`, with the numbers of its elements, all checked before any performs. Kind 6 is the checks
alone, kind 11 accesses whose checks have passed. Kind 1 is an engine write (13 R303, 18 R381, R386): `runs` of bytes at offsets of the
tensor that `req` names, of tag format `first`, then the amounts `ctrs` added to counters in the same address space. With `log` 3 they
are a collective's, in chunks (18 R377); with `log` 1 they
are a slab's, and `words` are the chunk length, the slab's first offset and the counter array (13 R304); with `log` 2 they are a tile of a
drain, and `words` are the offset at which the drain starts, the bytes of a tile, and the tags of all its tiles. Kind 7 is the checks of
an engine write of `runs`, whose bytes are all 0 (`words`: the first counter and the counters' bytes, the slab and its bytes), and kind 8
an engine read of them. Kind 12 is an operation's read of `runs` through the handle of a REMOTE tensor (18 R369), whose reply holds in
`words` the TBYTES and the tags of the tiles read, and kind 13 its atomic add of `ctrs`, whose reply holds the old value. Kind 9 is an access of the host and kind 10 one of
camp core `rank`. Kind 2 is a
contribution to the collective of map `map` and SEQ `seq` by `rank`: the block (`first`, `log`), the words of its CB and its elements
(18 R371). Kind 3 is a combined result and kind 4 the end of a collective by an abort with value `first`. Kind 5 is the reply to the
transaction with this tag: a trap code or flags in `first`, the element or the offset that a trap belongs to in `rank`, the handle in
`req`, and in `runs` the bytes read, by element. -/
structure Txn where
  src : Nat
  dst : Nat
  tag : Nat
  hops : Nat
  via : Option Nat
  kind : Nat
  req : Req
  reqs : List (Nat × Req)
  runs : List (Nat × List Byte)
  ctrs : List (Word × Nat)
  map : Nat
  seq : Nat
  rank : Nat
  first : Nat
  log : Nat
  words : List Word
  data : List Byte
  deriving DecidableEq, Repr

/-- Part of a transaction that fills one flit (18 R361): the virtual channel, the payload, and, with the last part, what the parts
together carry. -/
structure Part where
  vc : BitVec 2
  payload : List Byte
  txn : Option Txn
  deriving DecidableEq, Repr

/-- A flit (18 R361) as the receiver has it: its fields, and whether it lies in an uncorrectable codeword (R362). -/
structure Flit where
  seq : BitVec 16
  ack : BitVec 16
  typ : Byte
  vc : BitVec 8
  len : BitVec 16
  payload : List Byte
  crc : BitVec 32
  uncorrectable : Bool
  txn : Option Txn
  deriving DecidableEq, Repr

end Sys2Proof
end

