-- ==== Sys2Proof/Config.lean ====
section
/-!
DEFINITION. The free values of the model: constants with no body, so that nothing can be proved of which value they take
(notes/assumptions/6.md lists each of them with the words of the manual that leave it open).
-/
namespace Sys2Proof.Config

/-- A faithful result (06 R138): the fraction, as numerator and denominator, of the bracket above the multiple `k` of 2^`q` from which
on the bracketing value of larger magnitude is delivered, by OP9, type, rounding mode, part of the domain and sign. -/
opaque faithfulCut (op ty rm part : Nat) (s : Bool) (q : Int) (k : Nat) : Nat × Nat

/-- The tree of an arrival-mode combination (18 R374): for element `i` of combination number `n`, which of the inputs still to
be combined is taken next. -/
opaque arrivalPick (n i step : Nat) : Nat

/-- What a Prism operation leaves in its workspace (13 R290). -/
opaque workspaceByte (n a : Nat) : Byte

/-- The clk that a step takes (01 R23, 04 R103). -/
opaque clkStep (n : Nat) : Word

/-- The cycles of the camp clock that a step takes (17 R351). -/
opaque campStep (n : Nat) : Word

/-- Whether a dispatch uses a method entry that the sequencer has cached, or reads it again (07 R162: until a TRS_MFLUSH either may
happen), by the free-value index and the entry. -/
opaque methodKept (n i : Nat) : Bool

/-- The duration of a launch in ns (07 R172). -/
opaque launchTime (n : Nat) : BitVec 56

/-- Whether a failure lies in the same µs as the failure that a launch has recorded (07 R172). -/
opaque sameMicrosecond (n : Nat) : Bool

/-- Whether writing or reading a team frame meets an uncorrectable error (14 R323). -/
opaque frameFails (n : Nat) : Bool

/-- Measured power: static and uncore draw, a domain's draw, a core's power at a ladder step, and the energy of a window
(16 R343, R344), in W but a core's in mW; the hottest junction. Machine/Package.lean bounds each of them by 00 R3. -/
opaque staticW (n : Nat) : Nat
opaque demandW (n dom : Nat) : Nat
opaque coreW (n core f g : Nat) : Nat
opaque energyMj (n : Nat) : Word
opaque junction (n : Nat) : Nat

/-- The measurements M0 and M1 (16 R348) that start `n` made, the attestation signature and the certificate (16 R349). -/
opaque m0 (n i : Nat) : Byte
opaque m1 (n i : Nat) : Byte
opaque signature (msg : List Byte) (i : Nat) : Byte
opaque certLength : BitVec 12
opaque certByte (i : Nat) : Byte

/-- Memory after a start (16 R346): the byte at a key that had been written, after start number `n`. -/
opaque hbmByte (n a : Nat) : Byte

/-- Whether a port comes up in the optical training of start `n` (16 R346), and this package's number, which training sets
(18 R388). -/
opaque training (n port : Nat) : Bool
opaque packageNumber (n : Nat) : Nat

/-- The entries of the communication queue of a die's HBM controller (08 R206, R207) while there is such traffic; only timing depends on
them. -/
opaque commQueue (n die : Nat) : Nat

/-- The payload bytes of a transaction (18 R361), and the intermediate group of a route that is not minimal (R368). -/
opaque payload (t : Txn) : List Byte
opaque viaGroup (n : Nat) : Nat

/-- Which 128 B rows (of keys) an engine operation reads ahead of the rest of its sources (10 R242, R243). -/
opaque readsNow (n row : Nat) : Bool

/-- Whether an agent of another package has written a REMOTE row since a stream's last load of it (09 R230). -/
opaque farWritten (n : Nat) : Bool

/-- FREQ and GATE of PWR_STAT for a reader that is no core (16 R342). -/
opaque readerGrant (n : Nat) : Byte

/-- The occupancy of a port that is up over the last 2 µs (18 R388). -/
opaque utilisation (n port : Nat) : BitVec 16

end Sys2Proof.Config
end

