-- ==== Sys2Proof/Syntax.lean ====
section
/-!
DEFINITION. The instructions and events of the BX6: one constructor for each row of spec/opcode_table.json,
named after the row's mnemonic, the events first (Lean compiles no constructor with fields past its 244th, so that the decoder, which
builds the last ones, is marked noncomputable; the kernel evaluates all of them). An instruction carries the fields of its format (03 R68, R71, R72); an event
(95_what_each_step_holds.md) carries the numbers that say which agent it happens to.
-/
namespace Sys2Proof

inductive Instr where
  | coreQformatWrite (c : Nat)
  | parkLimitExpiry (k : Nat)
  | barrierReread (k : Nat)
  | accessPerform (a j : Nat)
  | loadReturn (a j : Nat)
  | remoteReply (a : Nat) (code : Byte) (v : Vec)
  | engineWriteResume (o : Nat)
  | walkReturn (w : Nat)
  | mirrorChunkArrive (o j : Nat)
  | engineOpStart (o : Nat)
  | engineOpComplete (o : Nat)
  | chainFire (o : Nat)
  | slotEmit (n : Nat)
  | collTimeout (n : Nat)
  | teamSwap (t : Nat)
  | teamResume (t c : Nat)
  | preemptRequest (t : Nat)
  | preemptStop (t : Nat)
  | preemptDeferExpiry (t : Nat)
  | doorbell (q : Nat) (v : Word)
  | launchFetch (q : Nat)
  | canall (q : Nat)
  | canone (q : Nat) (n : BitVec 32)
  | cancelComplete (i : Nat)
  | dispatch (i n : Nat)
  | arenaRangeTaken (i n r : Nat)
  | makeShares (i n r : Nat)
  | placeShare (p : Nat)
  | shareEnd (t : Nat)
  | conditionalNode (i n : Nat)
  | switchNode (i n : Nat)
  | loopNode (i n : Nat)
  | eventNode (i n : Nat)
  | eventReread (i n m : Nat)
  | eventTimeout (i n : Nat)
  | priorityRise (p : Nat)
  | reservation (p : Nat)
  | trsMflush (v : Word)
  | trsResume (a : Nat) (v : Word)
  | registerWrite (ix : Nat) (v : Word)
  | arbiterWindow
  | thermalHold
  | tamperEvent (e : BitVec 3)
  | coldStart
  | warmStart
  | secResetWarm
  | secResetCold
  | startTimeout
  | startEnd (reason : Byte) (ver : Byte)
  | attestReport (v : Word)
  | attestCertificate (v : Word)
  | attestDone
  | i3cRead (ix : BitVec 16)
  | i3cWrite (ix : BitVec 16) (v : Word)
  | jtagBypass
  | jtagIdcode
  | jtagSamplePreload
  | jtagExtest
  | jtagDebugUnlock (valid : Bool)
  | cmpHbase (v : Word)
  | cmpStart (v : Word)
  | cmpStop (v : Word)
  | aseqWrite (h : Nat) (v : Word)
  | post (h : Nat) (v : Word)
  | hamperHeaderWrite (camp : Bool) (h o : Nat) (bs : List Byte)
  | stepExpiry (h : Nat)
  | wallExpiry (h : Nat)
  | episodeEcall (c : Nat) (a7 : Word)
  | episodeException (c : Nat) (cause : Byte)
  | campAccess (c : Nat) (r : Req)
  | flitReceive (p : Nat) (f : Flit)
  | nakReceive (p : Nat) (q : BitVec 16)
  | replayTimeout (p : Nat)
  | wavelengthFail (p w : Nat)
  | transactionLost (src : Nat) (tag : Nat)
  | lmaskWrite (p : Nat) (m : BitVec 4)
  | restripeStart (p : Nat)
  | restripeDrained (p : Nat)
  | restripeMarkerAck (p : Nat)
  | lreqWrite (p : Nat) (r : BitVec 2)
  | laserStateReached (p : Nat) (r : BitVec 2)
  | laserWake (p : Nat)
  | healthUpdate (p w : Nat) (opt ber corr unc : Word)
  | hostAccess (r : Req)
  | parkEarlyResume (k : Nat)
  | add (f : FS)
  | sub (f : FS)
  | and (f : FS)
  | or (f : FS)
  | xor (f : FS)
  | sll (f : FS)
  | srl (f : FS)
  | sra (f : FS)
  | slt (f : FS)
  | sltu (f : FS)
  | mul (f : FS)
  | mulh (f : FS)
  | mulhu (f : FS)
  | div (f : FS)
  | divu (f : FS)
  | rem (f : FS)
  | remu (f : FS)
  | min (f : FS)
  | max (f : FS)
  | minu (f : FS)
  | maxu (f : FS)
  | clz (f : FS)
  | ctz (f : FS)
  | popc (f : FS)
  | sel (f : FS)
  | nop (f : FS)
  | addX32 (f : CS)
  | subX32 (f : CS)
  | andX32 (f : CS)
  | orX32 (f : CS)
  | xorX32 (f : CS)
  | sllX32 (f : CS)
  | srlX32 (f : CS)
  | sraX32 (f : CS)
  | sltX32 (f : CS)
  | sltuX32 (f : CS)
  | mulX32 (f : CS)
  | mulhX32 (f : CS)
  | mulhuX32 (f : CS)
  | divX32 (f : CS)
  | divuX32 (f : CS)
  | remX32 (f : CS)
  | remuX32 (f : CS)
  | minX32 (f : CS)
  | maxX32 (f : CS)
  | minuX32 (f : CS)
  | maxuX32 (f : CS)
  | clzX32 (f : CS)
  | ctzX32 (f : CS)
  | popcX32 (f : CS)
  | selX32 (f : CS)
  | nopX32
  | addi (f : FI)
  | andi (f : FI)
  | ori (f : FI)
  | xori (f : FI)
  | slli (f : FI)
  | srli (f : FI)
  | srai (f : FI)
  | slti (f : FI)
  | sltiu (f : FI)
  | addiX32 (f : CI)
  | andiX32 (f : CI)
  | oriX32 (f : CI)
  | xoriX32 (f : CI)
  | slliX32 (f : CI)
  | srliX32 (f : CI)
  | sraiX32 (f : CI)
  | sltiX32 (f : CI)
  | sltiuX32 (f : CI)
  | addiX96 (f : FI96)
  | andiX96 (f : FI96)
  | oriX96 (f : FI96)
  | xoriX96 (f : FI96)
  | sltiX96 (f : FI96)
  | sltiuX96 (f : FI96)
  | extI (f : FI)
  | li (f : FK)
  | liX96 (f : FK96)
  | beq (f : FB)
  | bne (f : FB)
  | blt (f : FB)
  | bge (f : FB)
  | bltu (f : FB)
  | bgeu (f : FB)
  | beqX32 (f : CB)
  | bneX32 (f : CB)
  | bltX32 (f : CB)
  | bgeX32 (f : CB)
  | bltuX32 (f : CB)
  | bgeuX32 (f : CB)
  | beqX96 (f : FB96)
  | bneX96 (f : FB96)
  | bltX96 (f : FB96)
  | bgeX96 (f : FB96)
  | bltuX96 (f : FB96)
  | bgeuX96 (f : FB96)
  | jal (f : FB)
  | jalX32 (f : CJ)
  | jalX96 (f : FB96)
  | jalr (f : FI)
  | jalrX96 (f : FI96)
  | loopI (f : FL)
  | ctlRd (f : FY)
  | ctlWr (f : FY)
  | ctlSet (f : FY)
  | ctlClr (f : FY)
  | vadd (f : X3)
  | vsub (f : X3)
  | vmul (f : X3)
  | vfma (f : X3)
  | vaddX32 (f : CV)
  | vsubX32 (f : CV)
  | vmulX32 (f : CV)
  | vfmaX32 (f : CV)
  | vminX32 (f : CV)
  | vmaxX32 (f : CV)
  | vandX32 (f : CV)
  | vorX32 (f : CV)
  | vdiv (f : X3)
  | vsqrt (f : X3)
  | vrcp (f : X3)
  | vrsq (f : X3)
  | vexp (f : X3)
  | vlog (f : X3)
  | vexp2 (f : X3)
  | vlog2 (f : X3)
  | vsin (f : X3)
  | vcos (f : X3)
  | vmin (f : X3)
  | vmax (f : X3)
  | vabs (f : X3)
  | vneg (f : X3)
  | vclass (f : X3)
  | vand (f : X3)
  | vor (f : X3)
  | vxor (f : X3)
  | vandn (f : X3)
  | vsll (f : X3)
  | vsrl (f : X3)
  | vsra (f : X3)
  | vmulh (f : X3)
  | vmulhu (f : X3)
  | vcmp (f : X3)
  | vsel (f : X3)
  | vcvt (f : X3)
  | vcmul (f : X3)
  | vredAdd (f : X3)
  | vredMin (f : X3)
  | vredMax (f : X3)
  | vscanAdd (f : X3)
  | vperm (f : X3)
  | vslide (f : X3)
  | vrotm (f : X3)
  | vbcast (f : X3)
  | vmov (f : X3)
  | vins (f : X3)
  | vext (f : X3)
  | vpopc (f : X3)
  | vclz (f : X3)
  | pcnt (f : X3)
  | pand (f : X3)
  | por (f : X3)
  | pxor (f : X3)
  | pnot (f : X3)
  | pfirst (f : X3)
  | ppopc (f : X3)
  | pany (f : X3)
  | qPush (f : X3)
  | qPop (f : X3)
  | bqPush (f : FB)
  | bqBr (f : FB)
  | bqBrX96 (f : FB96)
  | ndArg (f : FY)
  | wid (f : FY)
  | doneI (f : FY)
  | grSig (f : FY)
  | ldB (f : FM)
  | ldH (f : FM)
  | ldW (f : FM)
  | ldD (f : FM)
  | stB (f : FM)
  | stH (f : FM)
  | stW (f : FM)
  | stD (f : FM)
  | ldBX32 (f : CL)
  | ldHX32 (f : CL)
  | ldWX32 (f : CL)
  | ldDX32 (f : CL)
  | ldBZX32 (f : CL)
  | ldHZX32 (f : CL)
  | ldWZX32 (f : CL)
  | stBX32 (f : CT)
  | stHX32 (f : CT)
  | stWX32 (f : CT)
  | stDX32 (f : CT)
  | ldBX96 (f : FM96)
  | ldHX96 (f : FM96)
  | ldWX96 (f : FM96)
  | ldDX96 (f : FM96)
  | stBX96 (f : FM96)
  | stHX96 (f : FM96)
  | stWX96 (f : FM96)
  | stDX96 (f : FM96)
  | vldRow (f : FM)
  | vstRow (f : FM)
  | vldRowX32 (f : CR)
  | vstRowX32 (f : CR)
  | vldRowX96 (f : FM96)
  | vstRowX96 (f : FM96)
  | vldFf (f : FM)
  | vldFfX96 (f : FM96)
  | vldT (f : FM)
  | vstT (f : FM)
  | tagGet (f : FM)
  | tagSet (f : FM)
  | vgat (f : FX)
  | vsct (f : FX)
  | vamoOr (f : FX)
  | vamoAdd (f : FX)
  | vamoMax (f : FX)
  | amoAdd (f : FA)
  | amoSwap (f : FA)
  | amoAnd (f : FA)
  | amoOr (f : FA)
  | amoXor (f : FA)
  | amoMin (f : FA)
  | amoMax (f : FA)
  | amoMinu (f : FA)
  | amoMaxu (f : FA)
  | amoCas (f : FA)
  | barInit (f : FY)
  | barArr (f : FY)
  | barWt (f : FY)
  | tbar (f : FY)
  | fenceCls (f : FY)
  | xfence (f : FY)
  | wait (f : FY)
  | waitc (f : FY)
  | park (f : FY)
  | mtxLdt (f : FE)
  | mtxWb (f : FE)
  | mtxGo (f : FE)
  | mtxClr (f : FE)
  | mtxRd (f : FE)
  | mtxSt (f : FE)
  | przCfg (f : FE)
  | przFft (f : FE)
  | przSht (f : FE)
  | cpy (f : FE)
  | cpyCvt (f : FE)
  | cpyG (f : FE)
  | mirGo (f : FE)
  | colWr (f : FE)
  | colRed (f : FE)
  | colArm (f : FE)
  | colCtr (f : FE)
  | cowMark (f : FE)
  | drnGo (f : FE)
  | svc (f : FY)
  | rte (f : FY)
  | brk (f : FY)
  | halt (f : FY)
  | rgnOpen (f : FY)
  | rgnClose (f : FY)
  | tinvInvalidate (f : FY)
  | tinvInvalidateTensor (f : FY)
  | tinvInvalidateAsid (f : FY)
  | tinvUnmap (f : FY)
  | tinvMoveBegin (f : FY)
  | tinvMoveCommit (f : FY)
  | tinvMoveAbort (f : FY)
  | pin (f : FY)
  | unpin (f : FY)
  | fltRd (f : FY)
  deriving DecidableEq, Repr

end Sys2Proof
end

