-- ==== Sys2Proof/Machine/Legal.lean ====
section
/-!
DEFINITION. Which instructions are legal: check 2 of the decoding order (03 R75) on the fields of an instruction, with the
accepted values that each instruction's own rule gives. The decoder refuses an instruction that fails one of these.
-/
namespace Sys2Proof

/-- Why a word is refused (each one raises ILLEGAL, 03 R75). -/
inductive Reject where
  | truncated            -- fewer bytes than the word's length (03 R63)
  | majorUnallocated     -- a 32-bit word's major opcode (03 R72)
  | opcodeUnallocated    -- an OP9 that is not in the table (03 R74)
  | selUnallocated       -- SEL, CND or SZ of a 32-bit word (03 R73), mode 7 of tinv (14 R326)
  | reservedNonzero      -- a field marked reserved (03 R68)
  | replacedNonzero      -- the field that a literal replaces (03 R71)
  | noLiteralForm        -- a 96-bit word of another opcode (03 R71)
  | guardNeverTrue       -- GN = 1 with GP = 0 (03 R64)
  | fifoSeven            -- FP or FO of 7 (03 R66)
  | scopeSeven           -- SC of 7 (03 R67)
  | unusedNonzero        -- a field the instruction does not use (03 R70)
  | typeRefused          -- TY
  | roundingRefused      -- RM
  | satRefused           -- SAT
  | modRefused           -- MOD, FN, Z, K24 or PI
  | immediateRefused     -- an immediate out of its range
  | noSuchRegister       -- a control register index that names no register (01 R22)
  deriving DecidableEq, Repr

/-- The first failing check of a list. -/
def firstReject : List (Bool × Reject) → Option Reject
  | [] => none
  | (ok, r) :: t => if ok then firstReject t else some r

/-- Every guard but `(~p0)` (03 R64). -/
def Guard.ok (g : Guard) : Bool := !(g.gn == 1 && g.gp == 0)

def guardFifo (g : Guard) (fp fo : BitVec 3) : List (Bool × Reject) :=
  [(g.ok, .guardNeverTrue), (fp != 7 && fo != 7, .fifoSeven)]

/-- The control-register indices that name a register (01 R23, 05 R120, 07 R174, 08 R205, R207, 12 R279, 13 R306,
14 R337, 16 R342, 17 R360, 18 R364, R388). -/
def ctlExists (i : Nat) : Bool :=
  i ≤ 0x009 || (0x010 ≤ i && i ≤ 0x01B) || (0x100 ≤ i && i ≤ 0x104) || i == 0x200 || (0x208 ≤ i && i ≤ 0x21C) ||
  i == 0x220 || i == 0x221 || i == 0x300 || i == 0x301 || (0x400 ≤ i && i ≤ 0x404) || (0x500 ≤ i && i ≤ 0x502) ||
  i == 0x508 || i == 0x510 || i == 0x600 || (0x610 ≤ i && i ≤ 0x61D) || i == 0x700 || i == 0x701 || i == 0x710 ||
  (0x800 ≤ i && i ≤ 0x802) || (0x808 ≤ i && i ≤ 0x80B) || (0x900 ≤ i && i ≤ 0x905) || (0xA00 ≤ i && i ≤ 0xA14) ||
  (0xB00 ≤ i && i ≤ 0xB04) || (0xC00 ≤ i && i ≤ 0xCFF)

/-- Format F-S (04 R86): which of sat, sc, sb and the sources the instruction takes. -/
def checkFS (f : FS) (sat sc sb regs : Bool) : Option Reject :=
  firstReject (guardFifo f.g f.fp f.fo ++
    [(decide (f.fn.toNat ≤ (if sat then 1 else 0)), .satRefused), (sc || f.sc == 0, .unusedNonzero),
     (sb || f.sb == 0, .unusedNonzero), (regs || (f.sa == 0 && f.sd == 0), .unusedNonzero)])

def checkFI (f : FI) (immOk : Bool) : Option Reject :=
  firstReject (guardFifo f.g f.fp f.fo ++ [(immOk, .immediateRefused)])

def checkFI96 (f : FI96) : Option Reject := firstReject (guardFifo f.g f.fp f.fo)

/-- The amounts of an immediate shift, 0 to 127 (04 R89). -/
def shiftOk (f : FI) : Bool := f.imm.toNat ≤ 127

/-- The sub-fields of `ext` (04 R90). -/
def extOk (f : FI) : Bool :=
  f.imm.toNat < 2 ^ 13 && f.imm.toNat % 64 + f.imm.toNat / 64 % 64 + 1 ≤ 64

def checkFB (f : FB) (more : List (Bool × Reject)) : Option Reject := firstReject (guardFifo f.g f.fp f.fo ++ more)

def checkFB96 (f : FB96) (more : List (Bool × Reject)) : Option Reject :=
  firstReject (guardFifo f.g f.fp f.fo ++ more)

/-- `loop` (04 R96). -/
def checkFL (f : FL) : Option Reject :=
  firstReject [(f.g.ok, .guardNeverTrue), (2 ≤ f.fin.toNat, .immediateRefused),
    (f.immc == 1 || f.cnt == 0, .unusedNonzero), (f.immc == 0 || f.sa == 0, .unusedNonzero)]

/-- Format F-Y: which registers the instruction takes and whether K24 is accepted. -/
def checkFY (f : FY) (sd sa sb kOk : Bool) : Option Reject :=
  firstReject (guardFifo f.g f.fp f.fo ++
    [(sd || f.sd == 0, .unusedNonzero), (sa || f.sa == 0, .unusedNonzero), (sb || f.sb == 0, .unusedNonzero),
     (kOk, .modRefused)])

/-- A `ctl` instruction (04 R100, R104). -/
def checkCtl (f : FY) (rd : Bool) : Option Reject :=
  match checkFY f rd (!rd) false (f.k.toNat < 0x1000) with
  | some r => some r
  | none => firstReject [(ctlExists f.k.toNat, .noSuchRegister)]

/-- How an X3 instruction uses a register field (03 R69). -/
inductive Use where
  | vec | pred | scal | queue | zero
  deriving DecidableEq, Repr

def Use.ok (u : Use) (f : BitVec 10) : Bool :=
  match u with
  | .vec => true
  | .pred => f.toNat < 16
  | .scal => f.toNat < 64
  | .queue => f.toNat < 8
  | .zero => f == 0

def tyInt (t : BitVec 4) : Bool := t.toNat ≤ 7
def tyFloat (t : BitVec 4) : Bool := 8 ≤ t.toNat && t.toNat ≤ 11
def tySigned (t : BitVec 4) : Bool := t.toNat ≤ 3

/-- The rounding values a rounding type takes (02 R47). -/
def rmOk (rm : BitVec 3) : Bool := rm != 5 && rm != 6

/-- What R132 (06) accepts of one instruction: types, rounding, saturation and MOD, and the uses of the three fields. -/
def checkX3 (f : X3) (ty : Bool) (rounds sat md : Bool) (d a b : Use) : Option Reject :=
  firstReject (guardFifo f.g f.fp f.fo ++
    [(ty, .typeRefused),
     (if rounds && tyFloat f.ty then rmOk f.rm else f.rm == 0, .roundingRefused),
     (sat || f.sat == 0, .satRefused), (md, .modRefused),
     (d.ok f.vd && a.ok f.va && b.ok f.vb, .unusedNonzero)])

def ty11 (f : X3) : Bool := f.ty.toNat ≤ 11
def zr (f : X3) : Bool := f.md.toNat ≤ 1

/-- The element width of a type code 0 to 11, in bits (02 R42). -/
def tyWidth (t : Nat) : Nat :=
  match t with
  | 0 => 8 | 1 => 16 | 2 => 32 | 3 => 64 | 4 => 8 | 5 => 16 | 6 => 32 | 7 => 64
  | 8 => 16 | 9 => 16 | 10 => 32 | 11 => 64 | _ => 32

/-- `vcvt` (06 R142). -/
def checkVcvt (f : X3) : Option Reject :=
  let td := f.ty.toNat
  let ts := f.md.toNat
  let ii := tyInt f.ty && tyInt f.md
  let wd := tyWidth td
  let ws := tyWidth ts
  firstReject (guardFifo f.g f.fp f.fo ++
    [(decide (td ≤ 11), .typeRefused), (decide (ts ≤ 11) && ts != td, .modRefused),
     (if ii then f.rm == 0 else rmOk f.rm, .roundingRefused), (ii || f.sat == 0, .satRefused),
     (decide (f.vb.toNat < max wd ws / min wd ws), .unusedNonzero)])

/-- The predicate instructions take 0 in TY, RM, SAT and MOD (06 R132). -/
def checkP (f : X3) (d a b : Use) : Option Reject := checkX3 f (f.ty == 0) false false (f.md == 0) d a b

/-- A 32-bit C-V word takes the types that R132 gives its instruction (06 R134). -/
def checkCV (f : CV) : Option Reject := firstReject [(f.ty.toNat ≤ 11, .typeRefused)]

/-- Format F-M (09 R208): `d` how vd is used, which of sb, imm14, Z and PI are taken, and the pointer rule. -/
def checkFM (f : FM) (d : Use) (sb imm z pi : Bool) (noAlias : Bool) : Option Reject :=
  firstReject (guardFifo f.g f.fp f.fo ++
    [(d.ok f.vd, .unusedNonzero), (sb || f.sb == 0, .unusedNonzero), (imm || f.imm == 0, .unusedNonzero),
     (z || f.z == 0, .modRefused), (pi || f.pi == 0, .modRefused), (f.pi == 0 || noAlias, .modRefused)])

def checkFM96 (f : FM96) (d : Use) (sb z : Bool) (noAlias : Bool) : Option Reject :=
  firstReject (guardFifo f.g f.fp f.fo ++
    [(d.ok f.vd, .unusedNonzero), (sb || f.sb == 0, .unusedNonzero), (z || f.z == 0, .modRefused),
     (f.pi == 0 || noAlias, .modRefused)])

/-- Gather, scatter and vector atomics (09 R219). -/
def checkFX (f : FX) (ty : Bool) (scope : Bool) : Option Reject :=
  firstReject (guardFifo f.g f.fp f.fo ++
    [(ty, .typeRefused), (f.sc != 7, .scopeSeven), (scope || f.sc == 0, .unusedNonzero)])

def ty32or64 (t : BitVec 4) : Bool :=
  t == 2 || t == 3 || t == 6 || t == 7 || t == 10 || t == 11

def tyInt32or64 (t : BitVec 4) : Bool := t == 2 || t == 3 || t == 6 || t == 7

def checkFA (f : FA) (cas : Bool) : Option Reject :=
  firstReject (guardFifo f.g f.fp f.fo ++ [(f.scope != 7, .scopeSeven), (cas || f.sc == 0, .unusedNonzero)])

/-- Format F-E (12 R270, 13 R281, 18 R380): which of A2, A3, REL and FN are taken. -/
def checkFE (f : FE) (a2 a3 rel fn : Bool) : Option Reject :=
  firstReject
    [(f.g.ok, .guardNeverTrue), (f.sc != 7, .scopeSeven), (a2 || f.a2 == 0, .unusedNonzero),
     (a3 || f.a3 == 0, .unusedNonzero), (rel || f.rel == 0, .modRefused), (fn || f.fn == 0, .modRefused)]

/-- K24 of a barrier: SC in [2:0] and nothing else (09 R223). -/
def barK (f : FY) : Bool := f.k.toNat ≤ 6

/-- No guard and no FIFO fields (14 R331, `rte`). -/
def bare (f : FY) : Bool := f.g.gn == 0 && f.g.gp == 0 && f.fp == 0 && f.fo == 0

def tinvK (f : FY) (mode : Nat) : Bool := f.k.toNat % 4096 == mode

/-- Check 2 of the decoding order (03 R75) for every instruction; the events of the machine have no word and no check. -/
def Instr.check : Instr → Option Reject
  | .add f => checkFS f true false true true
  | .sub f => checkFS f true false true true
  | .and f | .or f | .xor f | .sll f | .srl f | .sra f | .slt f | .sltu f | .mul f | .mulh f | .mulhu f | .div f | .divu f
  | .rem f | .remu f | .min f | .max f | .minu f | .maxu f => checkFS f false false true true
  | .clz f | .ctz f | .popc f => checkFS f false false false true
  | .sel f => checkFS f false true true true
  | .nop f => checkFS f false false false false
  | .clzX32 f | .ctzX32 f | .popcX32 f => firstReject [(f.sb == 0, .unusedNonzero)]
  | .addi f | .andi f | .ori f | .xori f | .slti f | .sltiu f | .jalr f => checkFI f true
  | .slli f | .srli f | .srai f => checkFI f (shiftOk f)
  | .extI f => checkFI f (extOk f)
  | .slliX32 f | .srliX32 f | .sraiX32 f => firstReject [(f.imm.toNat ≤ 127, .immediateRefused)]
  | .addiX96 f | .andiX96 f | .oriX96 f | .xoriX96 f | .sltiX96 f | .sltiuX96 f | .jalrX96 f => checkFI96 f
  | .li f => firstReject [(f.g.ok, .guardNeverTrue)]
  | .liX96 f => firstReject [(f.g.ok, .guardNeverTrue)]
  | .beq f | .bne f | .blt f | .bge f | .bltu f | .bgeu f => checkFB f []
  | .jal f => checkFB f [(f.sb == 0, .unusedNonzero)]
  | .beqX96 f | .bneX96 f | .bltX96 f | .bgeX96 f | .bltuX96 f | .bgeuX96 f => checkFB96 f []
  | .jalX96 f => checkFB96 f [(f.sb == 0, .unusedNonzero)]
  | .bqPush f => checkFB f [(f.sb.toNat ≤ 5, .unusedNonzero), (f.off == 0, .unusedNonzero)]
  | .bqBr f => checkFB f [(f.sb.toNat ≤ 5, .unusedNonzero), (f.sa == 0, .unusedNonzero)]
  | .bqBrX96 f => checkFB96 f [(f.sb.toNat ≤ 5, .unusedNonzero), (f.sa == 0, .unusedNonzero)]
  | .loopI f => checkFL f
  | .ctlRd f => checkCtl f true
  | .ctlWr f | .ctlSet f | .ctlClr f => checkCtl f false
  | .vadd f | .vsub f | .vmul f | .vfma f => checkX3 f (ty11 f) true (tyInt f.ty) (zr f) .vec .vec .vec
  | .vdiv f => checkX3 f (tyFloat f.ty) true false (zr f) .vec .vec .vec
  | .vsqrt f | .vrcp f | .vrsq f => checkX3 f (tyFloat f.ty) true false (zr f) .vec .vec .zero
  | .vexp f | .vlog f | .vexp2 f | .vlog2 f | .vsin f | .vcos f =>
    checkX3 f (f.ty == 10 || f.ty == 11) true false (zr f) .vec .vec .zero
  | .vmin f | .vmax f => checkX3 f (ty11 f) false false (zr f) .vec .vec .vec
  | .vabs f | .vneg f => checkX3 f (ty11 f) false (tySigned f.ty) (zr f) .vec .vec .zero
  | .vclass f => checkX3 f (tyFloat f.ty) false false (zr f) .vec .vec .zero
  | .vand f | .vor f | .vxor f | .vandn f => checkX3 f (ty11 f) false false (zr f) .vec .vec .vec
  | .vmov f => checkX3 f (ty11 f) false false (zr f) .vec .vec .zero
  | .vsll f | .vsrl f | .vsra f => checkX3 f (tyInt f.ty) false false (zr f) .vec .vec .vec
  | .vpopc f | .vclz f => checkX3 f (tyInt f.ty) false false (zr f) .vec .vec .zero
  | .vmulh f => checkX3 f (tySigned f.ty) false false (zr f) .vec .vec .vec
  | .vmulhu f => checkX3 f (tyInt f.ty && !tySigned f.ty) false false (zr f) .vec .vec .vec
  | .vcmp f => checkX3 f (ty11 f) false false (f.md.toNat ≤ 5 || (f.md == 6 && tyFloat f.ty)) .pred .vec .vec
  | .vsel f => checkX3 f (ty11 f) false false true .vec .vec .vec
  | .vcvt f => checkVcvt f
  | .vcmul f => checkX3 f (tyFloat f.ty) true false (zr f) .vec .vec .vec
  | .vredAdd f | .vscanAdd f => checkX3 f (ty11 f) true (tyInt f.ty) (f.md == 0) .vec .vec .zero
  | .vredMin f | .vredMax f => checkX3 f (ty11 f) false false (f.md == 0) .vec .vec .zero
  | .vperm f => checkX3 f (ty11 f) false false (zr f) .vec .vec .vec
  | .vslide f | .vrotm f => checkX3 f (ty11 f) false false true .vec .vec .vec
  | .vbcast f => checkX3 f (ty11 f) false false (zr f) .vec .scal .zero
  | .vins f => checkX3 f (ty11 f) false false (f.md == 0) .vec .scal .scal
  | .vext f => checkX3 f (ty11 f) false false (f.md == 0) .scal .vec .scal
  | .pcnt f => checkX3 f (ty11 f) false false (f.md == 0) .pred .scal .zero
  | .pand f | .por f | .pxor f => checkP f .pred .pred .pred
  | .pnot f | .pfirst f => checkP f .pred .pred .zero
  | .ppopc f | .pany f => checkP f .scal .pred .zero
  | .qPush f => checkP f .queue .vec .zero
  | .qPop f => checkP f .vec .queue .zero
  | .vaddX32 f | .vsubX32 f | .vmulX32 f | .vfmaX32 f | .vminX32 f | .vmaxX32 f | .vandX32 f | .vorX32 f => checkCV f
  | .ndArg f => checkFY f true false false
      (f.k.toNat ≤ 5 || (8 ≤ f.k.toNat && f.k.toNat ≤ 13) || (16 ≤ f.k.toNat && f.k.toNat ≤ 19) ||
        (32 ≤ f.k.toNat && f.k.toNat ≤ 47))
  | .wid f => checkFY f true false false (f.k.toNat ≤ 7)
  | .doneI f => checkFY f false false false (f.k == 0)
  | .grSig f => checkFY f false true false (f.k == 0)
  | .ldB f | .ldH f | .ldW f => checkFM f .scal false true true true (f.vd.toNat != f.sa.toNat)
  | .ldD f => checkFM f .scal false true false true (f.vd.toNat != f.sa.toNat)
  | .stB f | .stH f | .stW f | .stD f => checkFM f .scal false true false true true
  | .ldBX96 f | .ldHX96 f | .ldWX96 f => checkFM96 f .scal false true (f.vd.toNat != f.sa.toNat)
  | .ldDX96 f => checkFM96 f .scal false false (f.vd.toNat != f.sa.toNat)
  | .stBX96 f | .stHX96 f | .stWX96 f | .stDX96 f => checkFM96 f .scal false false true
  | .vldRow f | .vstRow f => checkFM f .vec false true false true true
  | .vldRowX96 f | .vstRowX96 f => checkFM96 f .vec false false true
  | .vldFf f => checkFM f .vec true true false true (f.sb != f.sa)
  | .vldFfX96 f => checkFM96 f .vec true false (f.sb != f.sa)
  | .vldT f | .vstT f => checkFM f .vec true false false false true
  | .tagGet f => checkFM f .scal false false false false true
  | .tagSet f => checkFM f .zero true false false false true
  | .vgat f | .vsct f => checkFX f (ty32or64 f.ty) false
  | .vamoOr f | .vamoAdd f | .vamoMax f => checkFX f (tyInt32or64 f.ty) true
  | .amoAdd f | .amoSwap f | .amoAnd f | .amoOr f | .amoXor f | .amoMin f | .amoMax f | .amoMinu f | .amoMaxu f =>
    checkFA f false
  | .amoCas f => checkFA f true
  | .barInit f => checkFY f false true true (barK f)
  | .barArr f => checkFY f false true false (barK f)
  | .barWt f => checkFY f false true true (barK f)
  | .tbar f => checkFY f false false false (f.k == 0)
  | .fenceCls f => checkFY f false false false (f.k.toNat < 7 * 2 ^ 16)
  | .xfence f => checkFY f false false false (f.k.toNat < 7 * 2 ^ 16 && f.k.toNat % 2 ^ 16 == 0)
  | .wait f => checkFY f false false false (f.k.toNat < 64)
  | .waitc f => checkFY f false false false true
  | .park f => checkFY f false true false (f.k == 0)
  | .mtxLdt f => checkFE f true true false false
  | .mtxWb f => checkFE f true false true false
  | .mtxGo f => checkFE f true false true false
  | .mtxClr f => checkFE f true false false false
  | .mtxRd f => if f.a2.toNat < 16 then checkFE f true true false false else some .unusedNonzero
  | .mtxSt f => checkFE f true true true false
  | .przCfg f => checkFE f false false true false
  | .przFft f | .przSht f | .cpy f | .cpyCvt f => checkFE f true true true false
  | .cpyG f => checkFE f true true true true
  | .mirGo f => checkFE f true false true false
  | .colWr f | .colRed f | .colArm f | .colCtr f | .drnGo f => checkFE f true true true false
  | .cowMark f => checkFE f true false true false
  | .svc f | .brk f => checkFY f false false false (f.k.toNat < 2 ^ 16)
  | .rte f => if bare f then checkFY f false false false (f.k == 0) else some .unusedNonzero
  | .halt f => checkFY f false true false (f.k == 0)
  | .rgnOpen f =>
    checkFY f false true true (f.fp == 0 && f.fo == 0 && f.k.toNat < 2 ^ 21 &&
      f.k.toNat % 2 ^ 10 + f.k.toNat / 2 ^ 10 % 2 ^ 11 ≤ 1024)
  | .rgnClose f => checkFY f false false false (f.fp == 0 && f.fo == 0 && f.k.toNat == 2 ^ 21)
  | .tinvInvalidate f => checkFY f true true true (tinvK f 0)
  | .tinvInvalidateTensor f => checkFY f true true true (tinvK f 1)
  | .tinvInvalidateAsid f => checkFY f true true true (tinvK f 2)
  | .tinvUnmap f => checkFY f true true true (tinvK f 3)
  | .tinvMoveBegin f => checkFY f true true true (tinvK f 4)
  | .tinvMoveCommit f => checkFY f true true true (tinvK f 5)
  | .tinvMoveAbort f => checkFY f true true true (tinvK f 6)
  | .pin f | .unpin f => checkFY f true true true (f.k.toNat % 4096 == 0)
  | .fltRd f => checkFY f true false false (f.k.toNat ≤ 3)
  | .addX32 .. | .subX32 .. | .andX32 .. | .orX32 .. | .xorX32 .. | .sllX32 .. | .srlX32 .. | .sraX32 ..
  | .sltX32 .. | .sltuX32 .. | .mulX32 .. | .mulhX32 .. | .mulhuX32 .. | .divX32 .. | .divuX32 .. | .remX32 ..
  | .remuX32 .. | .minX32 .. | .maxX32 .. | .minuX32 .. | .maxuX32 .. | .selX32 .. | .nopX32 .. | .addiX32 ..
  | .andiX32 .. | .oriX32 .. | .xoriX32 .. | .sltiX32 .. | .sltiuX32 .. | .beqX32 .. | .bneX32 .. | .bltX32 ..
  | .bgeX32 .. | .bltuX32 .. | .bgeuX32 .. | .jalX32 .. | .coreQformatWrite .. | .parkLimitExpiry .. | .ldBX32 ..
  | .ldHX32 .. | .ldWX32 .. | .ldDX32 .. | .ldBZX32 .. | .ldHZX32 .. | .ldWZX32 .. | .stBX32 .. | .stHX32 ..
  | .stWX32 .. | .stDX32 .. | .vldRowX32 .. | .vstRowX32 .. | .barrierReread .. | .accessPerform ..
  | .loadReturn .. | .remoteReply .. | .engineWriteResume .. | .walkReturn .. | .mirrorChunkArrive ..
  | .engineOpStart .. | .engineOpComplete .. | .chainFire .. | .slotEmit .. | .collTimeout .. | .teamSwap ..
  | .teamResume .. | .preemptRequest .. | .preemptStop .. | .preemptDeferExpiry .. | .doorbell .. | .launchFetch ..
  | .canall .. | .canone .. | .cancelComplete .. | .dispatch .. | .arenaRangeTaken .. | .makeShares ..
  | .placeShare .. | .shareEnd .. | .conditionalNode .. | .switchNode .. | .loopNode .. | .eventNode ..
  | .eventReread .. | .eventTimeout .. | .priorityRise .. | .reservation .. | .trsMflush .. | .trsResume ..
  | .registerWrite .. | .arbiterWindow .. | .thermalHold .. | .tamperEvent .. | .coldStart .. | .warmStart ..
  | .secResetWarm .. | .secResetCold .. | .startTimeout .. | .startEnd .. | .attestReport ..
  | .attestCertificate .. | .attestDone .. | .i3cRead .. | .i3cWrite .. | .jtagBypass .. | .jtagIdcode ..
  | .jtagSamplePreload .. | .jtagExtest .. | .jtagDebugUnlock .. | .cmpHbase .. | .cmpStart .. | .cmpStop ..
  | .aseqWrite .. | .post .. | .hamperHeaderWrite .. | .stepExpiry .. | .wallExpiry .. | .episodeEcall ..
  | .episodeException .. | .campAccess .. | .flitReceive .. | .nakReceive .. | .replayTimeout ..
  | .wavelengthFail .. | .transactionLost .. | .lmaskWrite .. | .restripeStart .. | .restripeDrained ..
  | .restripeMarkerAck .. | .lreqWrite .. | .laserStateReached .. | .laserWake .. | .healthUpdate ..
  | .hostAccess .. | .parkEarlyResume .. => none

end Sys2Proof
end

