-- ==== Sys2Proof/WellFormed.lean ====
section
/-!
DEFINITION. The well-formed instructions: those whose fields pass check 2 of the decoding order (03 R75). The checks
themselves stand in Machine/Legal.lean.
-/
namespace Sys2Proof

/-- An instruction is well formed when no check of its fields refuses it. -/
abbrev Instr.wf (i : Instr) : Prop := i.check = none

end Sys2Proof
end

