-- ==== Sys2Proof/Decode.lean ====
section
/-!
DEFINITION. Decoding and encoding (03). A word is read as one number, its byte at the lowest address least significant
(00 R7), and cut into its fields from bit 0 upward; the encoder joins the same fields. Decoding is total on every list of
bytes and refuses by name.
-/
namespace Sys2Proof

/-- Fields joined from the least significant upward: a width and a value each. -/
def packFields : List (Nat × Nat) → Nat
  | [] => 0
  | (w, v) :: t => v + 2 ^ w * packFields t

/-- A number cut into fields of the given widths from the least significant upward. -/
def cutFields : List Nat → Nat → List Nat
  | [], _ => []
  | w :: t, n => n % 2 ^ w :: cutFields t (n / 2 ^ w)

/-- The header of a 64- or 96-bit word (03 R64): L, OP9, GP, GN. -/
def header (l op : Nat) (g : Guard) : List (Nat × Nat) := [(2, l), (9, op), (4, g.gp.toNat), (1, g.gn.toNat)]

def guardOf (gp gn : Nat) : Guard := ⟨BitVec.ofNat 1 gn, BitVec.ofNat 4 gp⟩

/-- Format FS of 03 R68. -/
def encFS (op : Nat) (f : FS) : Nat :=
  packFields (header 2 op f.g ++ [(6, f.sd.toNat), (6, f.sa.toNat), (6, f.sb.toNat), (6, f.sc.toNat), (3, f.fp.toNat), (3, f.fo.toNat), (4, f.fn.toNat), (14, 0)])

def decFS (mk : FS → Instr) (w : Nat) : Except Reject Instr :=
  match cutFields [2, 9, 4, 1, 6, 6, 6, 6, 3, 3, 4, 14] w with
  | [_, _, gp, gn, sd, sa, sb, sc, fp, fo, fn, r0] =>
    if r0 = 0 then .ok (mk ⟨guardOf gp gn, BitVec.ofNat 6 sd, BitVec.ofNat 6 sa, BitVec.ofNat 6 sb, BitVec.ofNat 6 sc, BitVec.ofNat 3 fp, BitVec.ofNat 3 fo, BitVec.ofNat 4 fn⟩) else .error .reservedNonzero
  | _ => .error .truncated

/-- Format FI of 03 R68. -/
def encFI (op : Nat) (f : FI) : Nat :=
  packFields (header 2 op f.g ++ [(6, f.sd.toNat), (6, f.sa.toNat), (3, f.fp.toNat), (3, f.fo.toNat), (30, f.imm.toNat)])

def decFI (mk : FI → Instr) (w : Nat) : Except Reject Instr :=
  match cutFields [2, 9, 4, 1, 6, 6, 3, 3, 30] w with
  | [_, _, gp, gn, sd, sa, fp, fo, imm] =>
    .ok (mk ⟨guardOf gp gn, BitVec.ofNat 6 sd, BitVec.ofNat 6 sa, BitVec.ofNat 3 fp, BitVec.ofNat 3 fo, BitVec.ofNat 30 imm⟩)
  | _ => .error .truncated

/-- Format FK of 03 R68. -/
def encFK (op : Nat) (f : FK) : Nat :=
  packFields (header 2 op f.g ++ [(6, f.sd.toNat), (10, 0), (32, f.k32.toNat)])

def decFK (mk : FK → Instr) (w : Nat) : Except Reject Instr :=
  match cutFields [2, 9, 4, 1, 6, 10, 32] w with
  | [_, _, gp, gn, sd, r0, k32] =>
    if r0 = 0 then .ok (mk ⟨guardOf gp gn, BitVec.ofNat 6 sd, BitVec.ofNat 32 k32⟩) else .error .reservedNonzero
  | _ => .error .truncated

/-- Format FB of 03 R68. -/
def encFB (op : Nat) (f : FB) : Nat :=
  packFields (header 2 op f.g ++ [(6, f.sa.toNat), (6, f.sb.toNat), (3, f.fp.toNat), (3, f.fo.toNat), (30, f.off.toNat)])

def decFB (mk : FB → Instr) (w : Nat) : Except Reject Instr :=
  match cutFields [2, 9, 4, 1, 6, 6, 3, 3, 30] w with
  | [_, _, gp, gn, sa, sb, fp, fo, off] =>
    .ok (mk ⟨guardOf gp gn, BitVec.ofNat 6 sa, BitVec.ofNat 6 sb, BitVec.ofNat 3 fp, BitVec.ofNat 3 fo, BitVec.ofNat 30 off⟩)
  | _ => .error .truncated

/-- Format FL of 03 R68. -/
def encFL (op : Nat) (f : FL) : Nat :=
  packFields (header 2 op f.g ++ [(2, f.ln.toNat), (1, f.immc.toNat), (6, f.sa.toNat), (16, f.cnt.toNat), (23, f.fin.toNat)])

def decFL (mk : FL → Instr) (w : Nat) : Except Reject Instr :=
  match cutFields [2, 9, 4, 1, 2, 1, 6, 16, 23] w with
  | [_, _, gp, gn, ln, immc, sa, cnt, fin] =>
    .ok (mk ⟨guardOf gp gn, BitVec.ofNat 2 ln, BitVec.ofNat 1 immc, BitVec.ofNat 6 sa, BitVec.ofNat 16 cnt, BitVec.ofNat 23 fin⟩)
  | _ => .error .truncated

/-- Format FM of 03 R68. -/
def encFM (op : Nat) (f : FM) : Nat :=
  packFields (header 2 op f.g ++ [(10, f.vd.toNat), (6, f.sa.toNat), (6, f.sb.toNat), (4, f.cls.toNat), (3, f.fp.toNat), (3, f.fo.toNat), (1, f.pi.toNat), (1, f.z.toNat), (14, f.imm.toNat)])

def decFM (mk : FM → Instr) (w : Nat) : Except Reject Instr :=
  match cutFields [2, 9, 4, 1, 10, 6, 6, 4, 3, 3, 1, 1, 14] w with
  | [_, _, gp, gn, vd, sa, sb, cls, fp, fo, pi, z, imm] =>
    .ok (mk ⟨guardOf gp gn, BitVec.ofNat 10 vd, BitVec.ofNat 6 sa, BitVec.ofNat 6 sb, BitVec.ofNat 4 cls, BitVec.ofNat 3 fp, BitVec.ofNat 3 fo, BitVec.ofNat 1 pi, BitVec.ofNat 1 z, BitVec.ofNat 14 imm⟩)
  | _ => .error .truncated

/-- Format FX of 03 R68. -/
def encFX (op : Nat) (f : FX) : Nat :=
  packFields (header 2 op f.g ++ [(10, f.vd.toNat), (10, f.vi.toNat), (6, f.sa.toNat), (4, f.cls.toNat), (3, f.sc.toNat), (4, f.ty.toNat), (3, f.fp.toNat), (3, f.fo.toNat), (5, 0)])

def decFX (mk : FX → Instr) (w : Nat) : Except Reject Instr :=
  match cutFields [2, 9, 4, 1, 10, 10, 6, 4, 3, 4, 3, 3, 5] w with
  | [_, _, gp, gn, vd, vi, sa, cls, sc, ty, fp, fo, r0] =>
    if r0 = 0 then .ok (mk ⟨guardOf gp gn, BitVec.ofNat 10 vd, BitVec.ofNat 10 vi, BitVec.ofNat 6 sa, BitVec.ofNat 4 cls, BitVec.ofNat 3 sc, BitVec.ofNat 4 ty, BitVec.ofNat 3 fp, BitVec.ofNat 3 fo⟩) else .error .reservedNonzero
  | _ => .error .truncated

/-- Format FA of 03 R68. -/
def encFA (op : Nat) (f : FA) : Nat :=
  packFields (header 2 op f.g ++ [(6, f.sd.toNat), (6, f.sa.toNat), (6, f.sb.toNat), (6, f.sc.toNat), (4, f.cls.toNat), (3, f.scope.toNat), (3, f.fp.toNat), (3, f.fo.toNat), (1, f.wd.toNat), (10, 0)])

def decFA (mk : FA → Instr) (w : Nat) : Except Reject Instr :=
  match cutFields [2, 9, 4, 1, 6, 6, 6, 6, 4, 3, 3, 3, 1, 10] w with
  | [_, _, gp, gn, sd, sa, sb, sc, cls, scope, fp, fo, wd, r0] =>
    if r0 = 0 then .ok (mk ⟨guardOf gp gn, BitVec.ofNat 6 sd, BitVec.ofNat 6 sa, BitVec.ofNat 6 sb, BitVec.ofNat 6 sc, BitVec.ofNat 4 cls, BitVec.ofNat 3 scope, BitVec.ofNat 3 fp, BitVec.ofNat 3 fo, BitVec.ofNat 1 wd⟩) else .error .reservedNonzero
  | _ => .error .truncated

/-- Format FY of 03 R68. -/
def encFY (op : Nat) (f : FY) : Nat :=
  packFields (header 2 op f.g ++ [(6, f.sd.toNat), (6, f.sa.toNat), (6, f.sb.toNat), (3, f.fp.toNat), (3, f.fo.toNat), (24, f.k.toNat)])

def decFY (mk : FY → Instr) (w : Nat) : Except Reject Instr :=
  match cutFields [2, 9, 4, 1, 6, 6, 6, 3, 3, 24] w with
  | [_, _, gp, gn, sd, sa, sb, fp, fo, k] =>
    .ok (mk ⟨guardOf gp gn, BitVec.ofNat 6 sd, BitVec.ofNat 6 sa, BitVec.ofNat 6 sb, BitVec.ofNat 3 fp, BitVec.ofNat 3 fo, BitVec.ofNat 24 k⟩)
  | _ => .error .truncated

/-- Format FE of 03 R68. -/
def encFE (op : Nat) (f : FE) : Nat :=
  packFields (header 2 op f.g ++ [(6, f.kp.toNat), (6, f.kw1.toNat), (6, f.kw2.toNat), (6, f.kw3.toNat), (6, f.a1.toNat), (6, f.a2.toNat), (6, f.a3.toNat), (3, f.sc.toNat), (1, f.rel.toNat), (2, f.fn.toNat)])

def decFE (mk : FE → Instr) (w : Nat) : Except Reject Instr :=
  match cutFields [2, 9, 4, 1, 6, 6, 6, 6, 6, 6, 6, 3, 1, 2] w with
  | [_, _, gp, gn, kp, kw1, kw2, kw3, a1, a2, a3, sc, rel, fn] =>
    .ok (mk ⟨guardOf gp gn, BitVec.ofNat 6 kp, BitVec.ofNat 6 kw1, BitVec.ofNat 6 kw2, BitVec.ofNat 6 kw3, BitVec.ofNat 6 a1, BitVec.ofNat 6 a2, BitVec.ofNat 6 a3, BitVec.ofNat 3 sc, BitVec.ofNat 1 rel, BitVec.ofNat 2 fn⟩)
  | _ => .error .truncated

/-- Format X3 of 03 R68. -/
def encX3 (op : Nat) (f : X3) : Nat :=
  packFields (header 2 op f.g ++ [(10, f.vd.toNat), (10, f.va.toNat), (10, f.vb.toNat), (4, f.ty.toNat), (3, f.rm.toNat), (3, f.fp.toNat), (3, f.fo.toNat), (4, f.md.toNat), (1, f.sat.toNat)])

def decX3 (mk : X3 → Instr) (w : Nat) : Except Reject Instr :=
  match cutFields [2, 9, 4, 1, 10, 10, 10, 4, 3, 3, 3, 4, 1] w with
  | [_, _, gp, gn, vd, va, vb, ty, rm, fp, fo, md, sat] =>
    .ok (mk ⟨guardOf gp gn, BitVec.ofNat 10 vd, BitVec.ofNat 10 va, BitVec.ofNat 10 vb, BitVec.ofNat 4 ty, BitVec.ofNat 3 rm, BitVec.ofNat 3 fp, BitVec.ofNat 3 fo, BitVec.ofNat 4 md, BitVec.ofNat 1 sat⟩)
  | _ => .error .truncated

/-- Format FI96 of 03 R71. -/
def encFI96 (op : Nat) (f : FI96) : Nat :=
  packFields (header 3 op f.g ++ [(6, f.sd.toNat), (6, f.sa.toNat), (3, f.fp.toNat), (3, f.fo.toNat), (30, 0), (32, f.lit.toNat)])

def decFI96 (mk : FI96 → Instr) (w : Nat) : Except Reject Instr :=
  match cutFields [2, 9, 4, 1, 6, 6, 3, 3, 30, 32] w with
  | [_, _, gp, gn, sd, sa, fp, fo, x, lit] =>
    if x = 0 then .ok (mk ⟨guardOf gp gn, BitVec.ofNat 6 sd, BitVec.ofNat 6 sa, BitVec.ofNat 3 fp, BitVec.ofNat 3 fo, BitVec.ofNat 32 lit⟩) else .error .replacedNonzero
  | _ => .error .truncated

/-- Format FB96 of 03 R71. -/
def encFB96 (op : Nat) (f : FB96) : Nat :=
  packFields (header 3 op f.g ++ [(6, f.sa.toNat), (6, f.sb.toNat), (3, f.fp.toNat), (3, f.fo.toNat), (30, 0), (32, f.lit.toNat)])

def decFB96 (mk : FB96 → Instr) (w : Nat) : Except Reject Instr :=
  match cutFields [2, 9, 4, 1, 6, 6, 3, 3, 30, 32] w with
  | [_, _, gp, gn, sa, sb, fp, fo, x, lit] =>
    if x = 0 then .ok (mk ⟨guardOf gp gn, BitVec.ofNat 6 sa, BitVec.ofNat 6 sb, BitVec.ofNat 3 fp, BitVec.ofNat 3 fo, BitVec.ofNat 32 lit⟩) else .error .replacedNonzero
  | _ => .error .truncated

/-- Format FM96 of 03 R71. -/
def encFM96 (op : Nat) (f : FM96) : Nat :=
  packFields (header 3 op f.g ++ [(10, f.vd.toNat), (6, f.sa.toNat), (6, f.sb.toNat), (4, f.cls.toNat), (3, f.fp.toNat), (3, f.fo.toNat), (1, f.pi.toNat), (1, f.z.toNat), (14, 0), (32, f.lit.toNat)])

def decFM96 (mk : FM96 → Instr) (w : Nat) : Except Reject Instr :=
  match cutFields [2, 9, 4, 1, 10, 6, 6, 4, 3, 3, 1, 1, 14, 32] w with
  | [_, _, gp, gn, vd, sa, sb, cls, fp, fo, pi, z, x, lit] =>
    if x = 0 then .ok (mk ⟨guardOf gp gn, BitVec.ofNat 10 vd, BitVec.ofNat 6 sa, BitVec.ofNat 6 sb, BitVec.ofNat 4 cls, BitVec.ofNat 3 fp, BitVec.ofNat 3 fo, BitVec.ofNat 1 pi, BitVec.ofNat 1 z, BitVec.ofNat 32 lit⟩) else .error .replacedNonzero
  | _ => .error .truncated

/-- Format FK96 of 03 R71. -/
def encFK96 (op : Nat) (f : FK96) : Nat :=
  packFields (header 3 op f.g ++ [(6, f.sd.toNat), (10, 0), (32, f.k32.toNat), (32, f.lit.toNat)])

def decFK96 (mk : FK96 → Instr) (w : Nat) : Except Reject Instr :=
  match cutFields [2, 9, 4, 1, 6, 10, 32, 32] w with
  | [_, _, gp, gn, sd, r0, k32, lit] =>
    if r0 = 0 then .ok (mk ⟨guardOf gp gn, BitVec.ofNat 6 sd, BitVec.ofNat 32 k32, BitVec.ofNat 32 lit⟩) else .error .reservedNonzero
  | _ => .error .truncated

/-- Format C-S of 03 R72. -/
def encCS (mj sel : Nat) (f : CS) : Nat := packFields [(8, mj), (5, f.sd.toNat), (5, f.sa.toNat), (5, f.sb.toNat), (9, sel)]

def decCS (mk : CS → Instr) (w : Nat) : Except Reject Instr :=
  match cutFields [8, 5, 5, 5, 9] w with
  | [_, sd, sa, sb, _] => .ok (mk ⟨BitVec.ofNat 5 sd, BitVec.ofNat 5 sa, BitVec.ofNat 5 sb⟩)
  | _ => .error .truncated

/-- Format C-B of 03 R72. -/
def encCB (mj sel : Nat) (f : CB) : Nat := packFields [(8, mj), (5, f.sa.toNat), (5, f.sb.toNat), (3, sel), (11, f.off.toNat)]

def decCB (mk : CB → Instr) (w : Nat) : Except Reject Instr :=
  match cutFields [8, 5, 5, 3, 11] w with
  | [_, sa, sb, _, off] => .ok (mk ⟨BitVec.ofNat 5 sa, BitVec.ofNat 5 sb, BitVec.ofNat 11 off⟩)
  | _ => .error .truncated

/-- Format C-J of 03 R72. -/
def encCJ (mj : Nat) (f : CJ) : Nat := packFields [(8, mj), (5, f.sd.toNat), (19, f.off.toNat)]

def decCJ (mk : CJ → Instr) (w : Nat) : Except Reject Instr :=
  match cutFields [8, 5, 19] w with
  | [_, sd, off] => .ok (mk ⟨BitVec.ofNat 5 sd, BitVec.ofNat 19 off⟩)
  | _ => .error .truncated

/-- Format C-I of 03 R72. -/
def encCI (mj sel : Nat) (f : CI) : Nat := packFields [(8, mj), (5, f.sd.toNat), (5, f.sa.toNat), (4, sel), (10, f.imm.toNat)]

def decCI (mk : CI → Instr) (w : Nat) : Except Reject Instr :=
  match cutFields [8, 5, 5, 4, 10] w with
  | [_, sd, sa, _, imm] => .ok (mk ⟨BitVec.ofNat 5 sd, BitVec.ofNat 5 sa, BitVec.ofNat 10 imm⟩)
  | _ => .error .truncated

/-- Format C-L of 03 R72. -/
def encCL (mj sel : Nat) (f : CL) : Nat := packFields [(8, mj), (5, f.sd.toNat), (5, f.sa.toNat), (3, sel), (11, f.imm.toNat)]

def decCL (mk : CL → Instr) (w : Nat) : Except Reject Instr :=
  match cutFields [8, 5, 5, 3, 11] w with
  | [_, sd, sa, _, imm] => .ok (mk ⟨BitVec.ofNat 5 sd, BitVec.ofNat 5 sa, BitVec.ofNat 11 imm⟩)
  | _ => .error .truncated

/-- Format C-T of 03 R72. -/
def encCT (mj sel : Nat) (f : CT) : Nat := packFields [(8, mj), (5, f.sv.toNat), (5, f.sa.toNat), (2, sel), (1, 0), (11, f.imm.toNat)]

def decCT (mk : CT → Instr) (w : Nat) : Except Reject Instr :=
  match cutFields [8, 5, 5, 2, 1, 11] w with
  | [_, sv, sa, _, r, imm] => if r = 0 then .ok (mk ⟨BitVec.ofNat 5 sv, BitVec.ofNat 5 sa, BitVec.ofNat 11 imm⟩) else .error .reservedNonzero
  | _ => .error .truncated

/-- Format C-V of 03 R72. -/
def encCV (mj sel : Nat) (f : CV) : Nat := packFields [(8, mj), (6, f.vd.toNat), (6, f.va.toNat), (6, f.vb.toNat), (4, f.ty.toNat), (2, sel)]

def decCV (mk : CV → Instr) (w : Nat) : Except Reject Instr :=
  match cutFields [8, 6, 6, 6, 4, 2] w with
  | [_, vd, va, vb, ty, _] => .ok (mk ⟨BitVec.ofNat 6 vd, BitVec.ofNat 6 va, BitVec.ofNat 6 vb, BitVec.ofNat 4 ty⟩)
  | _ => .error .truncated

/-- Format C-R of 03 R72. -/
def encCR (mj sel : Nat) (f : CR) : Nat := packFields [(8, mj), (6, f.v.toNat), (5, f.sa.toNat), (1, sel), (12, f.imm.toNat)]

def decCR (mk : CR → Instr) (w : Nat) : Except Reject Instr :=
  match cutFields [8, 6, 5, 1, 12] w with
  | [_, v, sa, _, imm] => .ok (mk ⟨BitVec.ofNat 6 v, BitVec.ofNat 5 sa, BitVec.ofNat 12 imm⟩)
  | _ => .error .truncated

/-- The opcode map (03 R74), with the modes of `rgn` (14 R313) and `tinv` (14 R326) told apart. -/
noncomputable def decode64 (w : Nat) : Except Reject Instr :=
  match w / 4 % 512 with
  | 0x001 => decFS .add w
  | 0x002 => decFS .sub w
  | 0x003 => decFS .and w
  | 0x004 => decFS .or w
  | 0x005 => decFS .xor w
  | 0x006 => decFS .sll w
  | 0x007 => decFS .srl w
  | 0x008 => decFS .sra w
  | 0x009 => decFS .slt w
  | 0x00A => decFS .sltu w
  | 0x00B => decFS .mul w
  | 0x00C => decFS .mulh w
  | 0x00D => decFS .mulhu w
  | 0x00E => decFS .div w
  | 0x00F => decFS .divu w
  | 0x010 => decFS .rem w
  | 0x011 => decFS .remu w
  | 0x012 => decFS .min w
  | 0x013 => decFS .max w
  | 0x014 => decFS .minu w
  | 0x015 => decFS .maxu w
  | 0x016 => decFS .clz w
  | 0x017 => decFS .ctz w
  | 0x018 => decFS .popc w
  | 0x019 => decFS .sel w
  | 0x01A => decFS .nop w
  | 0x020 => decFI .addi w
  | 0x021 => decFI .andi w
  | 0x022 => decFI .ori w
  | 0x023 => decFI .xori w
  | 0x024 => decFI .slli w
  | 0x025 => decFI .srli w
  | 0x026 => decFI .srai w
  | 0x027 => decFI .slti w
  | 0x028 => decFI .sltiu w
  | 0x029 => decFI .extI w
  | 0x02A => decFK .li w
  | 0x030 => decFB .beq w
  | 0x031 => decFB .bne w
  | 0x032 => decFB .blt w
  | 0x033 => decFB .bge w
  | 0x034 => decFB .bltu w
  | 0x035 => decFB .bgeu w
  | 0x036 => decFB .jal w
  | 0x037 => decFI .jalr w
  | 0x038 => decFL .loopI w
  | 0x03C => decFY .ctlRd w
  | 0x03D => decFY .ctlWr w
  | 0x03E => decFY .ctlSet w
  | 0x03F => decFY .ctlClr w
  | 0x040 => decX3 .vadd w
  | 0x041 => decX3 .vsub w
  | 0x042 => decX3 .vmul w
  | 0x043 => decX3 .vfma w
  | 0x044 => decX3 .vdiv w
  | 0x045 => decX3 .vsqrt w
  | 0x046 => decX3 .vrcp w
  | 0x047 => decX3 .vrsq w
  | 0x048 => decX3 .vexp w
  | 0x049 => decX3 .vlog w
  | 0x04A => decX3 .vexp2 w
  | 0x04B => decX3 .vlog2 w
  | 0x04C => decX3 .vsin w
  | 0x04D => decX3 .vcos w
  | 0x04E => decX3 .vmin w
  | 0x04F => decX3 .vmax w
  | 0x050 => decX3 .vabs w
  | 0x051 => decX3 .vneg w
  | 0x052 => decX3 .vclass w
  | 0x053 => decX3 .vand w
  | 0x054 => decX3 .vor w
  | 0x055 => decX3 .vxor w
  | 0x056 => decX3 .vandn w
  | 0x057 => decX3 .vsll w
  | 0x058 => decX3 .vsrl w
  | 0x059 => decX3 .vsra w
  | 0x05A => decX3 .vmulh w
  | 0x05B => decX3 .vmulhu w
  | 0x05C => decX3 .vcmp w
  | 0x05D => decX3 .vsel w
  | 0x05E => decX3 .vcvt w
  | 0x05F => decX3 .vcmul w
  | 0x060 => decX3 .vredAdd w
  | 0x061 => decX3 .vredMin w
  | 0x062 => decX3 .vredMax w
  | 0x063 => decX3 .vscanAdd w
  | 0x064 => decX3 .vperm w
  | 0x065 => decX3 .vslide w
  | 0x066 => decX3 .vrotm w
  | 0x067 => decX3 .vbcast w
  | 0x068 => decX3 .vmov w
  | 0x069 => decX3 .vins w
  | 0x06A => decX3 .vext w
  | 0x06B => decX3 .vpopc w
  | 0x06C => decX3 .vclz w
  | 0x070 => decX3 .pcnt w
  | 0x071 => decX3 .pand w
  | 0x072 => decX3 .por w
  | 0x073 => decX3 .pxor w
  | 0x074 => decX3 .pnot w
  | 0x075 => decX3 .pfirst w
  | 0x076 => decX3 .ppopc w
  | 0x077 => decX3 .pany w
  | 0x078 => decX3 .qPush w
  | 0x079 => decX3 .qPop w
  | 0x07A => decFB .bqPush w
  | 0x07B => decFB .bqBr w
  | 0x080 => decFY .ndArg w
  | 0x081 => decFY .wid w
  | 0x082 => decFY .doneI w
  | 0x083 => decFY .grSig w
  | 0x090 => decFM .ldB w
  | 0x091 => decFM .ldH w
  | 0x092 => decFM .ldW w
  | 0x093 => decFM .ldD w
  | 0x094 => decFM .stB w
  | 0x095 => decFM .stH w
  | 0x096 => decFM .stW w
  | 0x097 => decFM .stD w
  | 0x098 => decFM .vldRow w
  | 0x099 => decFM .vstRow w
  | 0x09A => decFM .vldT w
  | 0x09B => decFM .vstT w
  | 0x09C => decFM .vldFf w
  | 0x09D => decFM .tagGet w
  | 0x09E => decFM .tagSet w
  | 0x0A0 => decFX .vgat w
  | 0x0A1 => decFX .vsct w
  | 0x0A2 => decFX .vamoOr w
  | 0x0A3 => decFX .vamoAdd w
  | 0x0A4 => decFX .vamoMax w
  | 0x0A8 => decFA .amoAdd w
  | 0x0A9 => decFA .amoSwap w
  | 0x0AA => decFA .amoAnd w
  | 0x0AB => decFA .amoOr w
  | 0x0AC => decFA .amoXor w
  | 0x0AD => decFA .amoMin w
  | 0x0AE => decFA .amoMax w
  | 0x0AF => decFA .amoMinu w
  | 0x0B0 => decFA .amoMaxu w
  | 0x0B1 => decFA .amoCas w
  | 0x0B8 => decFY .barInit w
  | 0x0B9 => decFY .barArr w
  | 0x0BA => decFY .barWt w
  | 0x0BB => decFY .tbar w
  | 0x0BC => decFY .fenceCls w
  | 0x0BD => decFY .xfence w
  | 0x0BE => decFY .wait w
  | 0x0BF => decFY .waitc w
  | 0x0C0 => decFY .park w
  | 0x0D0 => decFE .mtxLdt w
  | 0x0D1 => decFE .mtxWb w
  | 0x0D2 => decFE .mtxGo w
  | 0x0D3 => decFE .mtxClr w
  | 0x0D4 => decFE .mtxRd w
  | 0x0D5 => decFE .mtxSt w
  | 0x0D8 => decFE .przCfg w
  | 0x0D9 => decFE .przFft w
  | 0x0DA => decFE .przSht w
  | 0x0DB => decFE .cpy w
  | 0x0DC => decFE .cpyCvt w
  | 0x0DD => decFE .cpyG w
  | 0x0DE => decFE .mirGo w
  | 0x0E0 => decFE .colWr w
  | 0x0E1 => decFE .colRed w
  | 0x0E2 => decFE .colArm w
  | 0x0E3 => decFE .colCtr w
  | 0x0E4 => decFE .cowMark w
  | 0x0E5 => decFE .drnGo w
  | 0x0F0 => decFY .svc w
  | 0x0F1 => decFY .rte w
  | 0x0F2 => decFY .brk w
  | 0x0F3 => decFY .halt w
  | 0x0F4 => if w / 2 ^ 61 % 2 = 1 then decFY .rgnClose w else decFY .rgnOpen w
  | 0x0F5 =>
    match w / 2 ^ 40 % 8 with
    | 0 => decFY .tinvInvalidate w
    | 1 => decFY .tinvInvalidateTensor w
    | 2 => decFY .tinvInvalidateAsid w
    | 3 => decFY .tinvUnmap w
    | 4 => decFY .tinvMoveBegin w
    | 5 => decFY .tinvMoveCommit w
    | 6 => decFY .tinvMoveAbort w
    | _ => .error .selUnallocated
  | 0x0F6 => decFY .pin w
  | 0x0F7 => decFY .unpin w
  | 0x0F8 => decFY .fltRd w
  | _ => .error .opcodeUnallocated

/-- The 96-bit words (03 R71): the format of the 64-bit word with the literal in place of one field. -/
noncomputable def decode96 (w : Nat) : Except Reject Instr :=
  match w / 4 % 512 with
  | 0x020 => decFI96 .addiX96 w
  | 0x021 => decFI96 .andiX96 w
  | 0x022 => decFI96 .oriX96 w
  | 0x023 => decFI96 .xoriX96 w
  | 0x027 => decFI96 .sltiX96 w
  | 0x028 => decFI96 .sltiuX96 w
  | 0x02A => decFK96 .liX96 w
  | 0x030 => decFB96 .beqX96 w
  | 0x031 => decFB96 .bneX96 w
  | 0x032 => decFB96 .bltX96 w
  | 0x033 => decFB96 .bgeX96 w
  | 0x034 => decFB96 .bltuX96 w
  | 0x035 => decFB96 .bgeuX96 w
  | 0x036 => decFB96 .jalX96 w
  | 0x037 => decFI96 .jalrX96 w
  | 0x07B => decFB96 .bqBrX96 w
  | 0x090 => decFM96 .ldBX96 w
  | 0x091 => decFM96 .ldHX96 w
  | 0x092 => decFM96 .ldWX96 w
  | 0x093 => decFM96 .ldDX96 w
  | 0x094 => decFM96 .stBX96 w
  | 0x095 => decFM96 .stHX96 w
  | 0x096 => decFM96 .stWX96 w
  | 0x097 => decFM96 .stDX96 w
  | 0x098 => decFM96 .vldRowX96 w
  | 0x099 => decFM96 .vstRowX96 w
  | 0x09C => decFM96 .vldFfX96 w
  | _ => .error .noLiteralForm

/-- The 32-bit words (03 R72, R73), by MJ and then by OP9, CND, SEL, SZ or ST. -/
noncomputable def decode32 (w : Nat) : Except Reject Instr :=
  match w % 256 with
  | 0x00 =>
    match w / 2 ^ 23 % 512 with
    | 0x1 => decCS .addX32 w
    | 0x2 => decCS .subX32 w
    | 0x3 => decCS .andX32 w
    | 0x4 => decCS .orX32 w
    | 0x5 => decCS .xorX32 w
    | 0x6 => decCS .sllX32 w
    | 0x7 => decCS .srlX32 w
    | 0x8 => decCS .sraX32 w
    | 0x9 => decCS .sltX32 w
    | 0xA => decCS .sltuX32 w
    | 0xB => decCS .mulX32 w
    | 0xC => decCS .mulhX32 w
    | 0xD => decCS .mulhuX32 w
    | 0xE => decCS .divX32 w
    | 0xF => decCS .divuX32 w
    | 0x10 => decCS .remX32 w
    | 0x11 => decCS .remuX32 w
    | 0x12 => decCS .minX32 w
    | 0x13 => decCS .maxX32 w
    | 0x14 => decCS .minuX32 w
    | 0x15 => decCS .maxuX32 w
    | 0x16 => decCS .clzX32 w
    | 0x17 => decCS .ctzX32 w
    | 0x18 => decCS .popcX32 w
    | 0x19 => decCS .selX32 w
    | 0x1A => if w / 256 % 2 ^ 15 = 0 then .ok .nopX32 else .error .unusedNonzero
    | _ => .error .opcodeUnallocated
  | 0x01 =>
    match w / 2 ^ 18 % 8 with
    | 0x0 => decCB .beqX32 w
    | 0x1 => decCB .bneX32 w
    | 0x2 => decCB .bltX32 w
    | 0x3 => decCB .bgeX32 w
    | 0x4 => decCB .bltuX32 w
    | 0x5 => decCB .bgeuX32 w
    | _ => .error .selUnallocated
  | 0x04 => decCJ .jalX32 w
  | 0x05 =>
    match w / 2 ^ 18 % 16 with
    | 0x0 => decCI .addiX32 w
    | 0x1 => decCI .andiX32 w
    | 0x2 => decCI .oriX32 w
    | 0x3 => decCI .xoriX32 w
    | 0x4 => decCI .slliX32 w
    | 0x5 => decCI .srliX32 w
    | 0x6 => decCI .sraiX32 w
    | 0x7 => decCI .sltiX32 w
    | 0x8 => decCI .sltiuX32 w
    | _ => .error .selUnallocated
  | 0x08 =>
    match w / 2 ^ 18 % 8 with
    | 0x0 => decCL .ldBX32 w
    | 0x1 => decCL .ldHX32 w
    | 0x2 => decCL .ldWX32 w
    | 0x3 => decCL .ldDX32 w
    | 0x4 => decCL .ldBZX32 w
    | 0x5 => decCL .ldHZX32 w
    | 0x6 => decCL .ldWZX32 w
    | _ => .error .selUnallocated
  | 0x09 =>
    match w / 2 ^ 18 % 4 with
    | 0x0 => decCT .stBX32 w
    | 0x1 => decCT .stHX32 w
    | 0x2 => decCT .stWX32 w
    | 0x3 => decCT .stDX32 w
    | _ => .error .selUnallocated
  | 0x0C =>
    match w / 2 ^ 30 % 4 with
    | 0x0 => decCV .vaddX32 w
    | 0x1 => decCV .vsubX32 w
    | 0x2 => decCV .vmulX32 w
    | 0x3 => decCV .vfmaX32 w
    | _ => .error .selUnallocated
  | 0x0D =>
    match w / 2 ^ 30 % 4 with
    | 0x0 => decCV .vminX32 w
    | 0x1 => decCV .vmaxX32 w
    | 0x2 => decCV .vandX32 w
    | 0x3 => decCV .vorX32 w
    | _ => .error .selUnallocated
  | 0x10 =>
    match w / 2 ^ 19 % 2 with
    | 0x0 => decCR .vldRowX32 w
    | 0x1 => decCR .vstRowX32 w
    | _ => .error .selUnallocated
  | _ => .error .majorUnallocated

/-- The length in bytes that a word's bits [1:0] give it (03 R63). -/
def wordLength (w : Nat) : Nat := match w % 4 with | 0 => 4 | 1 => 4 | 2 => 8 | _ => 12

/-- An instruction that its own checks accept (03 R75, check 2). -/
def accept (r : Except Reject Instr) : Except Reject Instr :=
  match r with
  | .ok i => match i.check with | none => .ok i | some e => .error e
  | .error e => .error e

/-- The instruction in the word whose bits are `w`; bits above the word's length are ignored. -/
noncomputable def decodeWord (w : Nat) : Except Reject Instr :=
  match w % 4 with
  | 2 => accept (decode64 (w % 2 ^ 64))
  | 3 => accept (decode96 (w % 2 ^ 96))
  | _ => accept (decode32 (w % 2 ^ 32))

/-- The number that a list of bytes holds, the first byte least significant (00 R7). -/
def bytesToNat : List Byte → Nat
  | [] => 0
  | b :: t => b.toNat + 256 * bytesToNat t

/-- The low `n` bytes of a number, least significant first. -/
def natToBytes : Nat → Nat → List Byte
  | 0, _ => []
  | n + 1, w => BitVec.ofNat 8 w :: natToBytes n (w / 256)

/-- Decoding of the word at the head of any list of bytes: the instruction and the bytes after it, or why not. -/
noncomputable def decode (bs : List Byte) : Except Reject (Instr × List Byte) :=
  let n := wordLength (bytesToNat (bs.take 4))
  if bs.length < 4 || bs.length < n then .error .truncated
  else match decodeWord (bytesToNat (bs.take n)) with
    | .ok i => .ok (i, bs.drop n)
    | .error e => .error e

/-- The instruction whose bits are `w` as spec/opcode_table.json numbers them: bit 0 the least significant of the first
byte, and the bits above `nbits` zero. -/
noncomputable def decodeTableWord (nbits w : Nat) : Option Instr :=
  match decode (natToBytes 12 (w % 2 ^ nbits)) with
  | .ok (i, _) => some i
  | .error _ => none

/-- The word of an instruction and its length in bytes; none for an event, which has no word. -/
def encode : Instr → Option (Nat × Nat)
  | .add f => some (8, encFS 0x001 f)
  | .sub f => some (8, encFS 0x002 f)
  | .and f => some (8, encFS 0x003 f)
  | .or f => some (8, encFS 0x004 f)
  | .xor f => some (8, encFS 0x005 f)
  | .sll f => some (8, encFS 0x006 f)
  | .srl f => some (8, encFS 0x007 f)
  | .sra f => some (8, encFS 0x008 f)
  | .slt f => some (8, encFS 0x009 f)
  | .sltu f => some (8, encFS 0x00A f)
  | .mul f => some (8, encFS 0x00B f)
  | .mulh f => some (8, encFS 0x00C f)
  | .mulhu f => some (8, encFS 0x00D f)
  | .div f => some (8, encFS 0x00E f)
  | .divu f => some (8, encFS 0x00F f)
  | .rem f => some (8, encFS 0x010 f)
  | .remu f => some (8, encFS 0x011 f)
  | .min f => some (8, encFS 0x012 f)
  | .max f => some (8, encFS 0x013 f)
  | .minu f => some (8, encFS 0x014 f)
  | .maxu f => some (8, encFS 0x015 f)
  | .clz f => some (8, encFS 0x016 f)
  | .ctz f => some (8, encFS 0x017 f)
  | .popc f => some (8, encFS 0x018 f)
  | .sel f => some (8, encFS 0x019 f)
  | .nop f => some (8, encFS 0x01A f)
  | .addX32 f => some (4, encCS 0x00 0x1 f)
  | .subX32 f => some (4, encCS 0x00 0x2 f)
  | .andX32 f => some (4, encCS 0x00 0x3 f)
  | .orX32 f => some (4, encCS 0x00 0x4 f)
  | .xorX32 f => some (4, encCS 0x00 0x5 f)
  | .sllX32 f => some (4, encCS 0x00 0x6 f)
  | .srlX32 f => some (4, encCS 0x00 0x7 f)
  | .sraX32 f => some (4, encCS 0x00 0x8 f)
  | .sltX32 f => some (4, encCS 0x00 0x9 f)
  | .sltuX32 f => some (4, encCS 0x00 0xA f)
  | .mulX32 f => some (4, encCS 0x00 0xB f)
  | .mulhX32 f => some (4, encCS 0x00 0xC f)
  | .mulhuX32 f => some (4, encCS 0x00 0xD f)
  | .divX32 f => some (4, encCS 0x00 0xE f)
  | .divuX32 f => some (4, encCS 0x00 0xF f)
  | .remX32 f => some (4, encCS 0x00 0x10 f)
  | .remuX32 f => some (4, encCS 0x00 0x11 f)
  | .minX32 f => some (4, encCS 0x00 0x12 f)
  | .maxX32 f => some (4, encCS 0x00 0x13 f)
  | .minuX32 f => some (4, encCS 0x00 0x14 f)
  | .maxuX32 f => some (4, encCS 0x00 0x15 f)
  | .clzX32 f => some (4, encCS 0x00 0x16 f)
  | .ctzX32 f => some (4, encCS 0x00 0x17 f)
  | .popcX32 f => some (4, encCS 0x00 0x18 f)
  | .selX32 f => some (4, encCS 0x00 0x19 f)
  | .nopX32 => some (4, 0x0D000000)
  | .addi f => some (8, encFI 0x020 f)
  | .andi f => some (8, encFI 0x021 f)
  | .ori f => some (8, encFI 0x022 f)
  | .xori f => some (8, encFI 0x023 f)
  | .slli f => some (8, encFI 0x024 f)
  | .srli f => some (8, encFI 0x025 f)
  | .srai f => some (8, encFI 0x026 f)
  | .slti f => some (8, encFI 0x027 f)
  | .sltiu f => some (8, encFI 0x028 f)
  | .addiX32 f => some (4, encCI 0x05 0x0 f)
  | .andiX32 f => some (4, encCI 0x05 0x1 f)
  | .oriX32 f => some (4, encCI 0x05 0x2 f)
  | .xoriX32 f => some (4, encCI 0x05 0x3 f)
  | .slliX32 f => some (4, encCI 0x05 0x4 f)
  | .srliX32 f => some (4, encCI 0x05 0x5 f)
  | .sraiX32 f => some (4, encCI 0x05 0x6 f)
  | .sltiX32 f => some (4, encCI 0x05 0x7 f)
  | .sltiuX32 f => some (4, encCI 0x05 0x8 f)
  | .addiX96 f => some (12, encFI96 0x020 f)
  | .andiX96 f => some (12, encFI96 0x021 f)
  | .oriX96 f => some (12, encFI96 0x022 f)
  | .xoriX96 f => some (12, encFI96 0x023 f)
  | .sltiX96 f => some (12, encFI96 0x027 f)
  | .sltiuX96 f => some (12, encFI96 0x028 f)
  | .extI f => some (8, encFI 0x029 f)
  | .li f => some (8, encFK 0x02A f)
  | .liX96 f => some (12, encFK96 0x02A f)
  | .beq f => some (8, encFB 0x030 f)
  | .bne f => some (8, encFB 0x031 f)
  | .blt f => some (8, encFB 0x032 f)
  | .bge f => some (8, encFB 0x033 f)
  | .bltu f => some (8, encFB 0x034 f)
  | .bgeu f => some (8, encFB 0x035 f)
  | .beqX32 f => some (4, encCB 0x01 0x0 f)
  | .bneX32 f => some (4, encCB 0x01 0x1 f)
  | .bltX32 f => some (4, encCB 0x01 0x2 f)
  | .bgeX32 f => some (4, encCB 0x01 0x3 f)
  | .bltuX32 f => some (4, encCB 0x01 0x4 f)
  | .bgeuX32 f => some (4, encCB 0x01 0x5 f)
  | .beqX96 f => some (12, encFB96 0x030 f)
  | .bneX96 f => some (12, encFB96 0x031 f)
  | .bltX96 f => some (12, encFB96 0x032 f)
  | .bgeX96 f => some (12, encFB96 0x033 f)
  | .bltuX96 f => some (12, encFB96 0x034 f)
  | .bgeuX96 f => some (12, encFB96 0x035 f)
  | .jal f => some (8, encFB 0x036 f)
  | .jalX32 f => some (4, encCJ 0x04 f)
  | .jalX96 f => some (12, encFB96 0x036 f)
  | .jalr f => some (8, encFI 0x037 f)
  | .jalrX96 f => some (12, encFI96 0x037 f)
  | .loopI f => some (8, encFL 0x038 f)
  | .ctlRd f => some (8, encFY 0x03C f)
  | .ctlWr f => some (8, encFY 0x03D f)
  | .ctlSet f => some (8, encFY 0x03E f)
  | .ctlClr f => some (8, encFY 0x03F f)
  | .vadd f => some (8, encX3 0x040 f)
  | .vsub f => some (8, encX3 0x041 f)
  | .vmul f => some (8, encX3 0x042 f)
  | .vfma f => some (8, encX3 0x043 f)
  | .vaddX32 f => some (4, encCV 0x0C 0x0 f)
  | .vsubX32 f => some (4, encCV 0x0C 0x1 f)
  | .vmulX32 f => some (4, encCV 0x0C 0x2 f)
  | .vfmaX32 f => some (4, encCV 0x0C 0x3 f)
  | .vminX32 f => some (4, encCV 0x0D 0x0 f)
  | .vmaxX32 f => some (4, encCV 0x0D 0x1 f)
  | .vandX32 f => some (4, encCV 0x0D 0x2 f)
  | .vorX32 f => some (4, encCV 0x0D 0x3 f)
  | .vdiv f => some (8, encX3 0x044 f)
  | .vsqrt f => some (8, encX3 0x045 f)
  | .vrcp f => some (8, encX3 0x046 f)
  | .vrsq f => some (8, encX3 0x047 f)
  | .vexp f => some (8, encX3 0x048 f)
  | .vlog f => some (8, encX3 0x049 f)
  | .vexp2 f => some (8, encX3 0x04A f)
  | .vlog2 f => some (8, encX3 0x04B f)
  | .vsin f => some (8, encX3 0x04C f)
  | .vcos f => some (8, encX3 0x04D f)
  | .vmin f => some (8, encX3 0x04E f)
  | .vmax f => some (8, encX3 0x04F f)
  | .vabs f => some (8, encX3 0x050 f)
  | .vneg f => some (8, encX3 0x051 f)
  | .vclass f => some (8, encX3 0x052 f)
  | .vand f => some (8, encX3 0x053 f)
  | .vor f => some (8, encX3 0x054 f)
  | .vxor f => some (8, encX3 0x055 f)
  | .vandn f => some (8, encX3 0x056 f)
  | .vsll f => some (8, encX3 0x057 f)
  | .vsrl f => some (8, encX3 0x058 f)
  | .vsra f => some (8, encX3 0x059 f)
  | .vmulh f => some (8, encX3 0x05A f)
  | .vmulhu f => some (8, encX3 0x05B f)
  | .vcmp f => some (8, encX3 0x05C f)
  | .vsel f => some (8, encX3 0x05D f)
  | .vcvt f => some (8, encX3 0x05E f)
  | .vcmul f => some (8, encX3 0x05F f)
  | .vredAdd f => some (8, encX3 0x060 f)
  | .vredMin f => some (8, encX3 0x061 f)
  | .vredMax f => some (8, encX3 0x062 f)
  | .vscanAdd f => some (8, encX3 0x063 f)
  | .vperm f => some (8, encX3 0x064 f)
  | .vslide f => some (8, encX3 0x065 f)
  | .vrotm f => some (8, encX3 0x066 f)
  | .vbcast f => some (8, encX3 0x067 f)
  | .vmov f => some (8, encX3 0x068 f)
  | .vins f => some (8, encX3 0x069 f)
  | .vext f => some (8, encX3 0x06A f)
  | .vpopc f => some (8, encX3 0x06B f)
  | .vclz f => some (8, encX3 0x06C f)
  | .pcnt f => some (8, encX3 0x070 f)
  | .pand f => some (8, encX3 0x071 f)
  | .por f => some (8, encX3 0x072 f)
  | .pxor f => some (8, encX3 0x073 f)
  | .pnot f => some (8, encX3 0x074 f)
  | .pfirst f => some (8, encX3 0x075 f)
  | .ppopc f => some (8, encX3 0x076 f)
  | .pany f => some (8, encX3 0x077 f)
  | .qPush f => some (8, encX3 0x078 f)
  | .qPop f => some (8, encX3 0x079 f)
  | .bqPush f => some (8, encFB 0x07A f)
  | .bqBr f => some (8, encFB 0x07B f)
  | .bqBrX96 f => some (12, encFB96 0x07B f)
  | .ndArg f => some (8, encFY 0x080 f)
  | .wid f => some (8, encFY 0x081 f)
  | .doneI f => some (8, encFY 0x082 f)
  | .grSig f => some (8, encFY 0x083 f)
  | .ldB f => some (8, encFM 0x090 f)
  | .ldH f => some (8, encFM 0x091 f)
  | .ldW f => some (8, encFM 0x092 f)
  | .ldD f => some (8, encFM 0x093 f)
  | .stB f => some (8, encFM 0x094 f)
  | .stH f => some (8, encFM 0x095 f)
  | .stW f => some (8, encFM 0x096 f)
  | .stD f => some (8, encFM 0x097 f)
  | .ldBX32 f => some (4, encCL 0x08 0x0 f)
  | .ldHX32 f => some (4, encCL 0x08 0x1 f)
  | .ldWX32 f => some (4, encCL 0x08 0x2 f)
  | .ldDX32 f => some (4, encCL 0x08 0x3 f)
  | .ldBZX32 f => some (4, encCL 0x08 0x4 f)
  | .ldHZX32 f => some (4, encCL 0x08 0x5 f)
  | .ldWZX32 f => some (4, encCL 0x08 0x6 f)
  | .stBX32 f => some (4, encCT 0x09 0x0 f)
  | .stHX32 f => some (4, encCT 0x09 0x1 f)
  | .stWX32 f => some (4, encCT 0x09 0x2 f)
  | .stDX32 f => some (4, encCT 0x09 0x3 f)
  | .ldBX96 f => some (12, encFM96 0x090 f)
  | .ldHX96 f => some (12, encFM96 0x091 f)
  | .ldWX96 f => some (12, encFM96 0x092 f)
  | .ldDX96 f => some (12, encFM96 0x093 f)
  | .stBX96 f => some (12, encFM96 0x094 f)
  | .stHX96 f => some (12, encFM96 0x095 f)
  | .stWX96 f => some (12, encFM96 0x096 f)
  | .stDX96 f => some (12, encFM96 0x097 f)
  | .vldRow f => some (8, encFM 0x098 f)
  | .vstRow f => some (8, encFM 0x099 f)
  | .vldRowX32 f => some (4, encCR 0x10 0x0 f)
  | .vstRowX32 f => some (4, encCR 0x10 0x1 f)
  | .vldRowX96 f => some (12, encFM96 0x098 f)
  | .vstRowX96 f => some (12, encFM96 0x099 f)
  | .vldFf f => some (8, encFM 0x09C f)
  | .vldFfX96 f => some (12, encFM96 0x09C f)
  | .vldT f => some (8, encFM 0x09A f)
  | .vstT f => some (8, encFM 0x09B f)
  | .tagGet f => some (8, encFM 0x09D f)
  | .tagSet f => some (8, encFM 0x09E f)
  | .vgat f => some (8, encFX 0x0A0 f)
  | .vsct f => some (8, encFX 0x0A1 f)
  | .vamoOr f => some (8, encFX 0x0A2 f)
  | .vamoAdd f => some (8, encFX 0x0A3 f)
  | .vamoMax f => some (8, encFX 0x0A4 f)
  | .amoAdd f => some (8, encFA 0x0A8 f)
  | .amoSwap f => some (8, encFA 0x0A9 f)
  | .amoAnd f => some (8, encFA 0x0AA f)
  | .amoOr f => some (8, encFA 0x0AB f)
  | .amoXor f => some (8, encFA 0x0AC f)
  | .amoMin f => some (8, encFA 0x0AD f)
  | .amoMax f => some (8, encFA 0x0AE f)
  | .amoMinu f => some (8, encFA 0x0AF f)
  | .amoMaxu f => some (8, encFA 0x0B0 f)
  | .amoCas f => some (8, encFA 0x0B1 f)
  | .barInit f => some (8, encFY 0x0B8 f)
  | .barArr f => some (8, encFY 0x0B9 f)
  | .barWt f => some (8, encFY 0x0BA f)
  | .tbar f => some (8, encFY 0x0BB f)
  | .fenceCls f => some (8, encFY 0x0BC f)
  | .xfence f => some (8, encFY 0x0BD f)
  | .wait f => some (8, encFY 0x0BE f)
  | .waitc f => some (8, encFY 0x0BF f)
  | .park f => some (8, encFY 0x0C0 f)
  | .mtxLdt f => some (8, encFE 0x0D0 f)
  | .mtxWb f => some (8, encFE 0x0D1 f)
  | .mtxGo f => some (8, encFE 0x0D2 f)
  | .mtxClr f => some (8, encFE 0x0D3 f)
  | .mtxRd f => some (8, encFE 0x0D4 f)
  | .mtxSt f => some (8, encFE 0x0D5 f)
  | .przCfg f => some (8, encFE 0x0D8 f)
  | .przFft f => some (8, encFE 0x0D9 f)
  | .przSht f => some (8, encFE 0x0DA f)
  | .cpy f => some (8, encFE 0x0DB f)
  | .cpyCvt f => some (8, encFE 0x0DC f)
  | .cpyG f => some (8, encFE 0x0DD f)
  | .mirGo f => some (8, encFE 0x0DE f)
  | .colWr f => some (8, encFE 0x0E0 f)
  | .colRed f => some (8, encFE 0x0E1 f)
  | .colArm f => some (8, encFE 0x0E2 f)
  | .colCtr f => some (8, encFE 0x0E3 f)
  | .cowMark f => some (8, encFE 0x0E4 f)
  | .drnGo f => some (8, encFE 0x0E5 f)
  | .svc f => some (8, encFY 0x0F0 f)
  | .rte f => some (8, encFY 0x0F1 f)
  | .brk f => some (8, encFY 0x0F2 f)
  | .halt f => some (8, encFY 0x0F3 f)
  | .rgnOpen f => some (8, encFY 0x0F4 f)
  | .rgnClose f => some (8, encFY 0x0F4 f)
  | .tinvInvalidate f => some (8, encFY 0x0F5 f)
  | .tinvInvalidateTensor f => some (8, encFY 0x0F5 f)
  | .tinvInvalidateAsid f => some (8, encFY 0x0F5 f)
  | .tinvUnmap f => some (8, encFY 0x0F5 f)
  | .tinvMoveBegin f => some (8, encFY 0x0F5 f)
  | .tinvMoveCommit f => some (8, encFY 0x0F5 f)
  | .tinvMoveAbort f => some (8, encFY 0x0F5 f)
  | .pin f => some (8, encFY 0x0F6 f)
  | .unpin f => some (8, encFY 0x0F7 f)
  | .fltRd f => some (8, encFY 0x0F8 f)
  | .coreQformatWrite .. => none
  | .parkLimitExpiry .. => none
  | .barrierReread .. => none
  | .accessPerform .. => none
  | .loadReturn .. => none
  | .remoteReply .. => none
  | .engineWriteResume .. => none
  | .walkReturn .. => none
  | .mirrorChunkArrive .. => none
  | .engineOpStart .. => none
  | .engineOpComplete .. => none
  | .chainFire .. => none
  | .slotEmit .. => none
  | .collTimeout .. => none
  | .teamSwap .. => none
  | .teamResume .. => none
  | .preemptRequest .. => none
  | .preemptStop .. => none
  | .preemptDeferExpiry .. => none
  | .doorbell .. => none
  | .launchFetch .. => none
  | .canall .. => none
  | .canone .. => none
  | .cancelComplete .. => none
  | .dispatch .. => none
  | .arenaRangeTaken .. => none
  | .makeShares .. => none
  | .placeShare .. => none
  | .shareEnd .. => none
  | .conditionalNode .. => none
  | .switchNode .. => none
  | .loopNode .. => none
  | .eventNode .. => none
  | .eventReread .. => none
  | .eventTimeout .. => none
  | .priorityRise .. => none
  | .reservation .. => none
  | .trsMflush .. => none
  | .trsResume .. => none
  | .registerWrite .. => none
  | .arbiterWindow .. => none
  | .thermalHold .. => none
  | .tamperEvent .. => none
  | .coldStart .. => none
  | .warmStart .. => none
  | .secResetWarm .. => none
  | .secResetCold .. => none
  | .startTimeout .. => none
  | .startEnd .. => none
  | .attestReport .. => none
  | .attestCertificate .. => none
  | .attestDone .. => none
  | .i3cRead .. => none
  | .i3cWrite .. => none
  | .jtagBypass .. => none
  | .jtagIdcode .. => none
  | .jtagSamplePreload .. => none
  | .jtagExtest .. => none
  | .jtagDebugUnlock .. => none
  | .cmpHbase .. => none
  | .cmpStart .. => none
  | .cmpStop .. => none
  | .aseqWrite .. => none
  | .post .. => none
  | .hamperHeaderWrite .. => none
  | .stepExpiry .. => none
  | .wallExpiry .. => none
  | .episodeEcall .. => none
  | .episodeException .. => none
  | .campAccess .. => none
  | .flitReceive .. => none
  | .nakReceive .. => none
  | .replayTimeout .. => none
  | .wavelengthFail .. => none
  | .transactionLost .. => none
  | .lmaskWrite .. => none
  | .restripeStart .. => none
  | .restripeDrained .. => none
  | .restripeMarkerAck .. => none
  | .lreqWrite .. => none
  | .laserStateReached .. => none
  | .laserWake .. => none
  | .healthUpdate .. => none
  | .hostAccess .. => none
  | .parkEarlyResume .. => none

/-- The instruction bytes as they stand in memory. -/
def encodeBytes (i : Instr) : List Byte :=
  match encode i with
  | some (n, w) => natToBytes n w
  | none => []

end Sys2Proof
end

