-- ==== Sys2Proof/Machine/State.lean ====
section
/-!
DEFINITION. The state of one BX6 package, as plain data, and the state right after reset. Each record cites the rules that name
its fields; INVENTORY.md lists them one by one. Fields marked "model's own" are not the manual's (notes/assumptions/1.md).
Streams are numbered core × 3 + (0 for L, 1 for M, 2 for S); cores die × 24 + cluster × 6 + core.
-/
namespace Sys2Proof.Machine

/-- Reasons for the machine to stop. There is none: every trap, failure and loss that the manual describes is a next state.
Nothing raises a value of this type, so no run ends in one (safe). -/
inductive Fault where
  deriving DecidableEq, Repr

/-- Reasons to answer with no meaning. -/
inductive Refusal where
  /-- The instruction has no meaning in this model; raised by an arm of exec alone (safe: nothing can be proved of the run). -/
  | notModelled (mnemonic : String)
  deriving DecidableEq, Repr

/-! ### Streams -/

/-- One level of hardware loop: lcN, STM_LBn, STM_LEn (01 R13, 04 R96). -/
structure Loop where
  lc : BitVec 32
  lb : Word
  le : Word
  deriving DecidableEq, Repr

/-- What flt.rd returns (14 R334). -/
structure Flt where
  i0 : Word
  i1 : Word
  i2 : Word
  i3 : Word
  deriving DecidableEq, Repr

/-- What `rgn` records: control registers beside the region registers (14 R313), and the trap being handled (R334), which a region save
restores with the status (R317). -/
structure Snap where
  l0 : Loop
  l1 : Loop
  l2 : Loop
  l3 : Loop
  status : Word
  fpctl : Word
  rgn : Word
  rgnpc : Word
  rgns : Word
  rgnp : Word
  epc : Word
  cause : Word
  tval : Word
  tvec : Word
  scratch : Word
  flt : Flt
  deriving DecidableEq, Repr

/-- What a stream is doing (01 R30, R35, 05 R126, R130, 09 R224, R225, 07 R178). -/
inductive Run where
  | idle                                    -- no entry point, or no team
  | running
  | parked (rows : List Nat)                -- on the 128 B rows with these numbers
  | atBar (f : FY)                          -- waits at this bar.wt
  | atTbar (f : FY)                         -- has arrived at this tbar
  | atFormat                                -- a CORE_QSRC or CORE_QSNK write has issued and not retired (05 R119)
  | retiring                                -- its last instruction has issued and not retired (12 R275 with STEP, 14 R327)
  | atRemote (a : Nat)                      -- waits for the reply to access a (08 R202)
  | finished                                -- has executed done
  | stopped                                 -- a double trap, the end of its share, or a halt
  deriving DecidableEq, Repr

/-- What a running stream waits for when it could not issue (05 R130): a token or room in FIFO `n`; room or elements in data
queue `n`; room or an outcome in outcome queue `n`; token k`n`; the four counts of waitc; what `done` waits for. -/
inductive Wait where
  | pop (n : Nat)
  | push (n : Nat)
  | rowRoom (n : Nat)
  | elements (n : Nat)
  | outRoom (n : Nat)
  | outcome (n : Nat)
  | token (n : Nat)
  | counts (nl ns nc nt : Nat)
  | ending
  deriving DecidableEq, Repr

/-- The most recent ld or vld.row: its rows (two, where an 8-byte load spans them), what it returned, and those of them to which a write
has performed since (05 R125, 09 R230). -/
structure LastLoad where
  rows : List Nat
  value : Vec
  written : List Nat
  deriving DecidableEq, Repr

/-- The run of takings of one backward branch (05 R125). -/
structure Spin where
  pc : Word
  count : Nat
  regs : List Word
  load : Option (List Nat × Vec)
  deriving DecidableEq, Repr

/-- A fence that has issued and not retired (09 R227, R228): the number from which on the stream's accesses come after it, the classes
and the scope that it orders, whether it keeps engine instructions back, and whether a `jal` or `jalr` has followed it (01 R20). -/
structure Fence where
  num : Nat
  mask : BitVec 16
  scope : Nat
  engine : Bool
  jumped : Bool
  deriving DecidableEq, Repr

/-- Tiles of an address space: all of them, or a count of those of one tensor from a first tile on (14 R326). -/
abbrev TileSet := Nat × Option (Nat × Nat × Nat)

/-- An instruction that has issued and not retired, in program order (05 R108, R114, 09 R211, R227, 10 R241, 12 R275, 14 R327): what it
pushes when it retires, the accesses that are over first (only their parts in `tiles`, if it names some) and the operation, the
vector registers that it writes then (register, the bits it writes, their values), whether it is still to be counted, and the order
that it keeps if it is a fence. -/
structure Late where
  fp : BitVec 3
  outcome : Option (Nat × Bool)
  accs : List Nat
  tiles : Option TileSet
  op : Option Nat
  writes : List (Nat × Vec × Vec)
  counts : Bool
  fence : Option Fence
  deriving DecidableEq, Repr

/-- The state of one stream beside its s and p registers. STM_CYCLE reads `cycle` and the time passed together (01 R23). -/
structure Ctl where
  l0 : Loop
  l1 : Loop
  l2 : Loop
  l3 : Loop
  pc : Word
  status : Word
  fpctl : Word
  fpflags : Word
  cycle : Word
  instret : Word
  parks : Word
  rgn : Word
  rgnpc : Word
  rgns : Word
  rgnp : Word
  epc : Word
  cause : Word
  tval : Word
  tvec : Word
  scratch : Word
  glatch : Word
  snap : Option Snap
  run : Run
  blocked : Option Wait
  lastLoad : Option LastLoad
  spin : Option Spin
  tbars : Nat
  flt : Flt
  walked : List (Nat × Nat)     -- the tiles that the instruction at the pc has walked (14 R334)
  code : Option (Word × List Byte)   -- the word of the instruction at this handle, as another package has returned it (01 R20, 08 R202)
  late : List Late
  deriving DecidableEq, Repr

/-! ### Cores -/

/-- The state of a token (09 R229, 14 R318). -/
inductive Tok where
  | complete | cancelled | incomplete
  deriving DecidableEq, Repr

/-- A fault of an engine operation: its CAUSE code, its TVAL, and whether a store or write raised it (14 R311, R334). -/
abbrev Flaw := Byte × Word × Bool

/-- A fault record of an engine operation that awaits delivery (12 R277, 13 R282, 14 R311); `order` is its place in ENG
order, `k` the stream that issued it (none after a resumption, whose frame does not name it). -/
structure FaultRec where
  order : Nat
  k : Option Nat
  kp : Nat
  op9 : Nat
  code : Byte
  tval : Word
  item1 : Word
  far : Nat                     -- the package of the remote access that failed (14 R334 item 2)
  deriving DecidableEq, Repr

/-- A data queue (05 R117): rows oldest first, and the elements already consumed of the head row. -/
structure DQ where
  rows : List Vec
  used : Nat
  deriving DecidableEq, Repr

/-- The record of a weight-buffer slot (12 R266). -/
inductive SlotRec where
  | empty
  | cont
  | panel (tag : BitVec 16) (s0 s1 : Nat) (tbytes : Nat) (handle : Word)
  deriving DecidableEq, Repr

/-- The Prism plan (13 R283): the block's eight words, whether they are valid, and the block's handle. -/
structure Plan where
  words : List Word
  valid : Bool
  handle : Word
  deriving DecidableEq, Repr

/-- An entry of a tile translation cache (08 R200). -/
structure Tlb where
  asid : Nat
  tid : Nat
  n : Nat
  w0 : Word
  w1 : Word
  deriving DecidableEq, Repr

/-- A write of a queue format register that has issued and not retired (05 R119). -/
structure QFmt where
  k : Nat
  ix : Nat
  value : Word
  fp : BitVec 3
  deriving DecidableEq, Repr

/-- The state that the three streams of a core share (05 R107, R120, 12 R256, 13 R283). -/
structure Core where
  toks : FMap Tok
  faults : List FaultRec
  fifo : FMap Nat
  bq : FMap (List Bool)
  dq : FMap DQ
  qsrc : FMap Word
  qsnk : FMap Word
  qflags : Word
  parklim : Word
  teamInfo : Word
  teamWait : Word
  livesp : Word
  liveacc : Word
  shadow : List Word
  slots : FMap SlotRec
  mtxFlags : Word
  plan : Option Plan
  przFlags : Word
  przCflags : Word
  lnkCflags : Word
  freq : Nat
  gate : Nat
  team : Option Nat
  tlb : List Tlb
  qfmt : Option QFmt
  deriving DecidableEq, Repr

/-! ### Memory accesses -/

/-- Where bytes lie: at a known byte of a local level, or at an offset of a tensor, reached through its tile's frame. -/
inductive Spot where
  | key (a : Nat)
  | tile (asid tid off : Nat)
  | nowhere                       -- a suppressed byte (08 R203): reads zero, is not written
  | pair (lo hi : Spot)           -- a doubleword whose two words lie apart (09 R220)
  deriving DecidableEq, Repr

/-- Whether and how a store is made, for the tags it needs (08 R194). -/
inductive Want where
  | load
  | scalar (bytes : Nat)     -- scalar stores and atomics, vsct and vamo elements
  | row
  | tensor                   -- vst.t
  | sequencer                -- writes that every tile with bytes accepts (07 R396)
  deriving DecidableEq, Repr

/-- What an atomic does at its home (09 R219, R221, R223). -/
inductive Amo where
  | add | swap | and | or | xor | min | max | minu | maxu | cas | arrive
  deriving DecidableEq, Repr

/-- One single-copy atomic piece of an access that has not performed: its place, for a store its bytes, and the element and
the byte of it that it holds. -/
structure Piece where
  spot : Spot
  len : Nat
  data : List Byte
  elem : Nat
  pos : Nat
  deriving DecidableEq, Repr

/-- What an outstanding access does when it performs. -/
inductive AKind where
  | loadS (sd : Nat) (zext : Bool)                      -- ld.*
  | loadV (vd : Nat) (width : Nat) (mask : Pred) (note : Bool)  -- vld.row (noted, 05 R125), vld.ff, vgat, vld.t
  | store                                               -- st.*, vst.t, bar.init
  | row (mask : Pred)                                   -- vst.row: bit j for lane j
  | scatter                                             -- vsct: pieces of one location in ascending order
  | amo (op : Amo) (w : Nat) (x cmp : Word) (sd : Option Nat)
  | vamo (op : Amo) (w : Nat)                           -- each piece's data is its operand
  | tag (t : BitVec 16)                                 -- tag.set
  deriving DecidableEq, Repr

/-- An outstanding access of a stream (09 R211). Of a remote one (08 R202) each piece stands for a request that has been sent: its
transaction's tag in `elem`, the package in `pos` and its lowest element in `len`; `reply` is the answer once it is complete: a trap code or flags, the element
that the trap belongs to, and the value; with `probe` the requests were checked and did nothing else. `near` are the parts that lie in
this package, checked before the requests were sent. -/
structure Access where
  k : Nat
  cls : Nat
  scope : Nat
  rel : Bool                -- bar.arr: a release (10 R238)
  kind : AKind
  pieces : List Piece
  got : List (Nat × Nat × List Byte)   -- element, byte of the element, bytes read
  want : Want
  rows : List Nat           -- the rows that it reaches
  remote : Bool
  near : List Piece
  probe : Bool
  reply : Option (Byte × Nat × Vec)
  handle : Word
  pc : Word
  op9 : Nat
  deriving DecidableEq, Repr

/-- A walk of a tile table in progress (08 R200, 14 R327): the port's core, the tile, the entry address and the ISEQ read. -/
structure Walk where
  core : Nat
  asid : Nat
  tid : Nat
  n : Nat
  iseq : BitVec 32
  w0 : Word
  w1 : Word
  deriving DecidableEq, Repr

/-! ### Engines -/

/-- What an engine operation still has to write to one tile (10 R242, 08 R195): runs of bytes at offsets of the tile, and,
when the operation covers the whole tile, the tag it gives it; `fmts` are the formats of a tile that take the bytes as a write in part,
beside raw. With `tid` 0 the runs lie at keys of a local level. -/
structure WUnit where
  asid : Nat
  tid : Nat
  n : Nat
  runs : List (Nat × List Byte)
  whole : Option (BitVec 16)
  fmts : List Nat
  deriving DecidableEq, Repr

/-- A part of an engine operation's writes that reaches its home in a step of its own (13 R302 to R305, 18 R377, R381, R386): the
participant (of drn.go, the tile), its package, the bytes, by tile, which are all written in that step, and the counters they are
counted in. For another package it is a transaction: `tag` once it has left, the tensor through whose handle it goes, if it does, what
LINK_LOST would report, and the rest of the transaction (`kind`, `log` and `words` of Word.lean). -/
structure MPiece where
  rank : Nat
  pkg : Nat
  units : List WUnit
  thru : Option Nat
  ctrs : List (Word × Nat)
  tag : Option Nat
  lost : Word
  kind : Nat
  log : Nat
  words : List Word
  deriving DecidableEq, Repr

/-- Bytes of a REMOTE tensor that an operation has read by its handle (18 R369): the tensor, the first offset, the TBYTES and the tags of
the tiles that they lie in. -/
structure FarBytes where
  tid : Nat
  off : Nat
  tbytes : Nat
  tags : List Nat
  data : List Byte
  deriving DecidableEq, Repr

/-- A transaction that has arrived and is not yet over (08 R202): of an engine write whose checks have passed, what is still to be
written, line by line or chunk by chunk, the tiles whose new tag is in force, and the refusal to answer in the end; of accesses whose
checks have passed, those still to perform, and what the others have answered. -/
structure Arrival where
  txn : Txn
  units : Option (List (List WUnit))
  retagged : List (Nat × Nat × Nat)
  refused : Option (Byte × Word)
  left : Option (List (Nat × Req))
  flags : Byte
  got : List (Nat × List Byte)
  deriving DecidableEq, Repr

/-- A write that a home holds for a MOVING tile: a piece of access `a`, a unit or a piece of operation `o`, access `i` of an arrival, or a
line or chunk of an engine write of another package. -/
inductive HeldWrite where
  | access (a : Nat) (p : Piece)
  | unit (o : Nat) (u : WUnit)
  | piece (o : Nat) (p : MPiece)
  | elem (t : Txn) (i : Nat)
  | line (t : Txn) (us : List WUnit)
  deriving DecidableEq, Repr

/-- A held write (14 R329), in the order of arrival: the tile, and the home slice that holds it (08 R187). -/
structure Held where
  asid : Nat
  tid : Nat
  n : Nat
  slice : Nat
  what : HeldWrite
  deriving DecidableEq, Repr

inductive OState where
  | issued                      -- waits for its tokens and its turn
  | asking                      -- its checks are being made in other packages (13 R303)
  | writing                     -- has read; writes or pieces remain
  | armed                       -- col.arm: the chain has not fired
  | fired                       -- its chain's entries run
  | contributed                 -- col.red: its contribution is in
  | ready                       -- all accesses performed
  deriving DecidableEq, Repr

/-- An engine operation issued and not completed (10 R242, 12 R257, R258). -/
structure Op where
  core : Nat
  k : Nat
  team : Nat
  asid : Nat
  op9 : Nat
  kp : Nat
  kws : List Nat                -- operations waited for (their numbers), fixed at issue
  sc : Nat
  rel : Bool
  fn : Nat
  a1 : Word
  a2 : Word
  a3 : Word
  user : Bool                   -- issued at user level
  vd : Nat                      -- mtx.rd: its destination
  order : Nat
  table : List Word
  state : OState
  flags : Word
  fault : Option Flaw
  far : Nat                     -- the package whose answer was that fault, or 0
  units : List WUnit
  pieces : List MPiece
  adds : List (Option Nat × Word × Nat)   -- counters to add to at the end: the address space, if not the issuer's own
  region : Bool                 -- issued in the region of its stream that is open now (14 R317)
  seen : List (Nat × List Host.Cell)   -- memory as it has read some of its rows already: the choice of rows, and their bytes (10 R242)
  data : List Byte              -- the bytes of a source in another package, once they have come (13 R301)
  cache : List FarBytes         -- what it has read through handles of REMOTE tensors (18 R369)
  deferred : Bool               -- its writes perform one line after another (10 R242)
  retagged : List (Nat × Nat × Nat)   -- the tiles, covered whole, whose new tag is in force (08 R195)
  parent : Option Nat           -- the armed chain it is an entry of
  ended : List (Nat × Word × Option FaultRec)   -- an armed chain's entries that have completed: OP9, flags, fault (18 R383)
  wprev : Option Nat            -- the entry it waits for
  deriving DecidableEq, Repr

/-- A contribution to a collective (18 R371), or several that a reduction slot has combined (R376): the lowest rank, all ranks, the
conditions of the combining, the operation that made it, the port it came in by, its block, the words of its CB and its elements. -/
structure Contrib where
  rank : Nat
  ranks : List Nat
  flags : BitVec 5
  op : Option Nat
  port : Option Nat
  lfirst : Nat
  llog2 : Nat
  words : List Word
  data : List Byte
  deriving DecidableEq, Repr

/-- A collective in progress, by its map and SEQ: the number of its participants, its contributions, its reduction slot, whether its one
result has been sent, the result that came from elsewhere, the value with which it was aborted and the ranks of this package whose
operation has completed. With no contribution and no abort it is the record of one that is over here, `number` when. -/
structure Coll where
  map : Nat
  seq : Nat
  parts : Nat
  contribs : List Contrib
  slot : Option Nat
  emitted : Bool
  result : Option (List Byte × BitVec 5)
  aborted : Option Word
  told : List Nat
  sent : List (Nat × Nat)       -- tags of its transactions that left this package, and the lowest rank at their destination
  number : Nat
  deriving DecidableEq, Repr

/-! ### Teams and graphs -/

inductive TState where
  | placed
  | halting (word : Word)       -- stopped by halt, which waits for a frame slot (14 R320)
  | saving (reason : Nat) (full : Bool) (cause : Nat) (slot : Nat)   -- stopped; operations and accesses drain (14 R317)
  | swapped (reason : Nat) (slot : Nat)
  deriving DecidableEq, Repr

/-- Model's own: what the frame of a swapped team has no place for. Of each stream what it does, its region's entry and the trap it handles;
by rank, of each token's fault record its place in ENG order and the stream that issued the operation, and the handle of the plan, if there
is one. -/
structure Kept where
  runs : List (Run × Option Snap × Flt)
  recs : List (List (Nat × Nat × Option Nat × Word × Nat))
  plans : List (Option Word)
  deriving DecidableEq, Repr

/-- A team and the share it runs (05 R127 to R131). -/
structure Team where
  asid : Nat
  inst : Nat
  node : Nat
  run : Nat
  conv : Option Nat             -- the conversion of the run that it serves (07 R166)
  base : Word                   -- the share's base identifier
  shares : Nat                  -- the number of shares in the run
  method6 : Word
  rgn : Bool
  die : Nat
  cluster : Nat
  cores : List Nat              -- by rank; empty while swapped
  kept : Kept
  w1 : Nat                      -- window 1: first granule of the core scratchpad
  w2 : Nat                      -- window 2: first granule of the cluster memory
  froz : List Nat               -- tensors reached in their frozen version (07 R176)
  state : TState
  request : Bool                -- pre-emption requested
  prio : Nat                    -- the effective priority with which it was placed
  stamp : Nat                   -- when it was placed
  deriving DecidableEq, Repr

/-- A conversion of a run (07 R166). -/
structure Conv where
  operand : Nat
  index : Nat
  entry : List Word
  first : Option Nat            -- its first arena tile once taken
  tiles : Nat
  tags : Word                   -- the tags of its two operands (07 R176, item 16)
  placed : Nat
  live : Nat
  deriving DecidableEq, Repr

inductive RState where
  | resolved | arena | converting | ready | ended
  deriving DecidableEq, Repr

/-- A run of a kernel node (07 R164). -/
structure RunRec where
  first : Nat
  len : Nat
  tags : List (BitVec 16)
  index : Nat
  entry : List Word
  convs : List Conv
  shares : Nat
  placed : Nat
  live : Nat
  state : RState
  deriving DecidableEq, Repr

inductive NState where
  | waiting | due | ready | running | completed | failed | skipped
  deriving DecidableEq, Repr

/-- The sequencer's own record of a node (07 R157, R160). -/
structure NodeSt where
  arrivals : Nat
  real : Bool
  state : NState
  stamp : Nat                   -- when it became ready
  rise : Nat                    -- priority levels risen since then (07 R168)
  rooted : List Nat             -- shards whose full pools it waits for at the root (07 R168)
  iter : Nat
  count : Nat
  met : List Bool
  latched : Bool                -- an event node that is decided and whose RESULT waits to be written (07 R161)
  runs : List RunRec
  args : List Word
  deriving DecidableEq, Repr

/-- A launch in progress (07 R153 to R173). -/
structure Inst where
  queue : Nat
  number : BitVec 32
  asid : Nat
  prio : Nat
  irq : Bool
  cookie : BitVec 32
  compl : Word
  graph : Word
  arena : Word
  nodes : List (List Word)
  succ : List Nat
  events : BitVec 16
  nst : FMap NodeSt
  failed : Option (Nat × Byte × Byte)
  cancelled : Bool
  cancelNode : Nat
  record : Option (Word × Word)          -- a completion record that waits to be written (07 R172, R396)
  deriving DecidableEq, Repr

/-- An entry of a shard's ready pool (07 R168): a run of a node (or its conversion), or a swapped team, whose priority rises by itself;
with the affinity order by which it was handed to the shard (07 R169). `rooted`: the pool is full, and it waits at the root. -/
structure PoolE where
  shard : Nat
  order : List Nat
  rooted : Bool
  inst : Nat
  node : Nat
  run : Nat
  conv : Option Nat
  team : Option Nat
  stamp : Nat
  rise : Nat
  resv : Option (Nat × Nat)
  deriving DecidableEq, Repr

/-- A launch queue (07 R171). -/
structure LQ where
  ring : Word
  asid : Nat
  en : Bool
  log2n : Nat
  err : Bool
  head : BitVec 32
  tail : BitVec 32
  vec : Nat
  marks : List (BitVec 32)
  deriving DecidableEq, Repr

/-! ### Package, links, Campground -/

/-- The four health words of a wavelength (18 R364). -/
structure Health where
  opt : Word
  ber : Word
  corr : Word
  unc : Word
  deriving DecidableEq, Repr

/-- A Jiwen port (18 R361 to R366, R388). -/
structure Port where
  peerPkg : BitVec 10
  peerPort : BitVec 4
  lreq : BitVec 2
  lstate : BitVec 2
  lmask : BitVec 4
  active : BitVec 4
  state : BitVec 2
  nstep : BitVec 3
  replays : BitVec 15
  txSeq : BitVec 16             -- the last SEQ sent
  txAck : BitVec 16             -- the highest ACK received
  rxSeq : BitVec 16             -- the highest SEQ received in order
  mark : BitVec 16              -- SEQ of the last restripe marker in force
  mseq : BitVec 16              -- SEQ of the marker that a change in progress has sent
  target : BitVec 4             -- the mask that a change in progress leads to; 0 on the way to L2
  lit : BitVec 4                -- wavelengths lit and locked
  waking : Bool                 -- the direction wakes from L2 by itself
  buffer : List Flit
  waiting : List Part           -- parts of transactions held back by a change, a full buffer or a dark direction
  resends : FMap Nat
  health : FMap Health
  deriving DecidableEq, Repr

/-- An episode (17 R355, R358). -/
structure Episode where
  hamper : Nat
  asid : Nat
  desc : List Word
  deriving DecidableEq, Repr

/-- Where an access of a camp core goes (17 R354): a byte of a local level, of the header page of a hamper, or of a tensor. -/
inductive CampAt where
  | key (a : Nat)
  | header (h o : Nat)
  | handle (asid : Nat) (h : Word)
  deriving DecidableEq, Repr

/-- An access of a camp core that has issued and not performed (10 R246, 17 R351): its kind (of Word.lean, or 23, a fence between the sets in
`value`), its bytes, the places that it has still to reach (several, if it is misaligned), the register that it loads (f registers from 32
on), what it has loaded, a fault that ends it, and, while it waits for an answer, the answer's tag, then the answer; `instret` before it,
and whether its episode has ended. -/
structure CampOp where
  kind : Nat
  addr : Word
  bytes : Nat
  value : Word
  aq : Bool
  rl : Bool
  places : List CampAt
  dest : Option Nat
  signed : Bool
  out : Bool                    -- its value is reported
  got : List Byte
  fault : Option Nat
  tag : Option Nat
  answer : Option (Byte × List Byte)
  count : Word
  past : Bool
  deriving DecidableEq, Repr

/-- A camp core (17 R351); `resv` is the 128 B row that an LR has reserved, `code` the parts of its next instruction that another package has
returned, with their addresses. -/
structure Camp where
  ep : Option Episode
  pc : Word
  x : FMap Word
  f : FMap Word
  fcsr : BitVec 32
  instret : Word
  resv : Option Nat
  ops : List CampOp
  code : List (Word × List Byte)
  deriving DecidableEq, Repr

inductive Phase where
  | up | cold | warm | recovery | frozen | held
  deriving DecidableEq, Repr

/-- The package registers and what stands behind them (14 R337, 16 R342 to R350, 17 R360, 18 R388). -/
structure Pkg where
  astab : Word
  mapbase : Word
  commq : List Word
  trsCfg : Word
  trsPre : Word
  pwrCfg : Word
  pkgW : Nat
  tj : Nat
  hot : Bool
  overBudget : Bool
  energy : Word
  dom : List (Nat × Nat)
  secBoot : Word
  tamper : Word
  tfuse : Word
  attestDone : Bool
  attestErr : Bool
  attestReq : Option Word
  wfail : Nat
  cfail : Nat
  recov : Bool
  recovFailed : Bool            -- the recovery image has failed (16 R347)
  measured : Option (Nat × Nat) -- the starts that made the measurements M0 and M1 (16 R348); none once they are zeroized
  thermal : Bool                -- the next start follows a thermal hold (16 R345)
  phase : Phase
  lnkId : Word
  lnkCfg : Word
  treeIdx : Word
  hbase : Word
  hbaseSet : Bool
  cmpErr : Word
  campClk : Word                -- cycles of the camp clock since the cold start (17 R351)
  jtag : Nat
  unlocked : Bool
  deriving DecidableEq, Repr

/-- What the package sends out. -/
inductive Out where
  | msix (vec : Nat)
  | i3c (v : Word)
  | i3cNotice (e : Nat)
  | jtag (v : BitVec 32)
  | host (v : Vec)
  | camp (c : Nat) (v : Word)
  | flit (port : Nat) (wave : Nat) (f : Flit)
  deriving DecidableEq, Repr

structure State where
  sregs : FMap Word
  pregs : FMap Pred
  vregs : FMap Vec
  ctls : FMap Ctl
  cores : FMap Core
  accw : FMap (BitVec 32)
  wbuf : List Host.Cell
  mem : List Host.Cell
  hostMem : List Host.Cell
  accs : FMap (Option Access)
  walks : FMap (Option Walk)
  held : List Held
  ops : FMap (Option Op)
  colls : FMap (Option Coll)
  slots : FMap (Option Nat)          -- busy reduction slots and their collectives (18 R376)
  trees : FMap Word
  teams : FMap (Option Team)
  insts : FMap (Option Inst)
  pool : FMap (Option PoolE)
  queues : FMap (Option LQ)
  methods : FMap (Option (List Word))     -- cached method entries: key asid × 65536 + index (07 R162)
  arenas : FMap Nat                  -- the tile after the last range taken, by asid × 2^20 + tensor (07 R166)
  busy : List (Nat × Nat)            -- arena tiles taken: (asid × 2^20 + tensor, tile)
  pins : List (Nat × Nat)            -- pinned tiles: (asid × 2^20 + tensor, tile) (14 R328)
  reserved : FMap (Option Nat)       -- cluster (die × 4 + cluster) and the pool entry that reserves it (07 R169)
  ports : FMap Port
  camps : FMap Camp
  done : List (Nat × Nat)            -- transactions already performed: source and tag (18 R363)
  inbox : List Arrival               -- transactions that have arrived and are not over (08 R202, 13 R305)
  pkg : Pkg
  out : List Out
  failing : List (Nat × Byte)        -- model's own, from here on: teams whose node fails within this step, and why
  cur : Nat
  fetched : BitVec 32
  schedule : List Nat
  inputs : List Instr
  clock : Nat
  nextId : Nat
  time : Word                        -- clk passed (01 R23)
  debts : List (Nat × Nat × Nat)     -- accesses that an access with a number above theirs has passed, their streams, and the scope in which nothing happens until they perform (10 R237, R240, R244)
  wrote : Option (Nat × Vec)         -- the vector register that the step's instruction wrote, and which of its bits
  deriving DecidableEq, Repr

/-! ### Reset -/

def Loop.reset : Loop := ⟨0, 0, 0⟩
def Flt.reset : Flt := ⟨0, 0, 0, 0⟩

/-- A stream after a cold start (01 R29, R30). -/
def Ctl.reset : Ctl :=
  { l0 := .reset, l1 := .reset, l2 := .reset, l3 := .reset, pc := 0, status := 0, fpctl := 0, fpflags := 0, cycle := 0,
    instret := 0, parks := 0, rgn := 0, rgnpc := 0, rgns := 0, rgnp := 0, epc := 0, cause := 0, tval := 0, tvec := 0,
    scratch := 0, glatch := 0, snap := none, run := .idle, blocked := none, lastLoad := none, spin := none, tbars := 0, flt := .reset,
    walked := [], code := none, late := [] }

def DQ.reset : DQ := ⟨[], 0⟩
def Kept.none : Kept := ⟨[], [], []⟩

/-- The shadow table's reset values: level rows with COUNT 1 (12 R279). -/
def shadowReset : List Word := [0, 0, 1, 0, 1, 0, 1, 0, 1, 0, 1, 0, 1, 0]

/-- A core after a cold start (05 R116, R121 to R124, 12 R256, 13 R283, 16 R344). -/
def Core.reset : Core :=
  { toks := [], faults := [], fifo := [], bq := [], dq := [], qsrc := [], qsnk := [], qflags := 0, parklim := 0x10000,
    teamInfo := 0x10, teamWait := 0x9C40, livesp := 0, liveacc := 0, shadow := shadowReset, slots := [], mtxFlags := 0,
    plan := none, przFlags := 0, przCflags := 0, lnkCflags := 0, freq := 20, gate := 0, team := none, tlb := [],
    qfmt := none }

def LQ.reset : LQ :=
  { ring := 0, asid := 0, en := false, log2n := 0, err := false, head := 0, tail := 0, vec := 0, marks := [] }

def NodeSt.reset : NodeSt :=
  { arrivals := 0, real := false, state := .waiting, stamp := 0, rise := 0, rooted := [], iter := 0, count := 0, met := [], latched := false, runs := [],
    args := [] }

def Health.reset : Health := ⟨0, 0, 0, 0⟩

def Port.reset : Port :=
  { peerPkg := 0, peerPort := 0, lreq := 0, lstate := 0, lmask := 0xF, active := 0, state := 0, nstep := 0, replays := 0,
    txSeq := 0, txAck := 0, rxSeq := 0, mark := 0, mseq := 0, target := 0, lit := 0, waking := false, buffer := [], waiting := [],
    resends := [], health := [] }

def Camp.reset : Camp := { ep := none, pc := 0, x := [], f := [], fcsr := 0, instret := 0, resv := none, ops := [], code := [] }

/-- The package registers after a cold start that succeeded (the Reset columns of 14 R337, 16 R344 to R349, 17 R360,
18 R388; the fuses, LNK_ID and the JTAG selection are notes/assumptions/5.md). -/
def Pkg.reset : Pkg :=
  { astab := 0, mapbase := 0, commq := [0x18040, 0x18040, 0x18040, 0x18040, 0x18040, 0x18040, 0x18040, 0x18040],
    trsCfg := 0x3E8, trsPre := 0x2000186A0, pwrCfg := 0x180960, pkgW := 0, tj := 0, hot := false, overBudget := false,
    energy := 0, dom := [(0, 0), (0, 0), (0, 0), (0, 0)], secBoot := 0, tamper := 0, tfuse := 0, attestDone := true,
    attestErr := false, attestReq := none, wfail := 0, cfail := 0, recov := false, recovFailed := false, measured := some (0, 0), thermal := false, phase := .up, lnkId := 0,
    lnkCfg := 0xF424000002710, treeIdx := 0, hbase := 0, hbaseSet := false, cmpErr := 0, campClk := 0, jtag := 0, unlocked := false }

/-- The machine after reset: a cold start that has succeeded. Every stream is idle (01 R30), memory lists nothing. -/
def State.reset : State :=
  { sregs := [], pregs := [], vregs := [], ctls := [], cores := [], accw := [], wbuf := [], mem := [], hostMem := [],
    accs := [], walks := [], held := [], ops := [], colls := [], slots := [], trees := [], teams := [], insts := [],
    pool := [], queues := [], methods := [], arenas := [], busy := [], pins := [], reserved := [], ports := [], camps := [],
    done := [], inbox := [], pkg := .reset, out := [], failing := [], cur := 0, fetched := 0, schedule := [], inputs := [], clock := 0, nextId := 1, time := 0, debts := [], wrote := none }

end Sys2Proof.Machine
end

