-- ==== Sys2Proof/Machine/Basics.lean ====
section
/-!
DEFINITION. Finite maps, memory as bytes at keys, bit fields, the numbers of streams, cores and trap causes, the keys of the levels of
memory, and the accessors of the state.
-/
namespace Sys2Proof

/-! ### Finite maps -/

def FMap.get {α : Type} (d : α) : FMap α → Nat → α
  | [], _ => d
  | (k, v) :: t, n => if k = n then v else FMap.get d t n

def FMap.del {α : Type} (n : Nat) : FMap α → FMap α
  | [] => []
  | (k, v) :: t => if k = n then FMap.del n t else (k, v) :: FMap.del n t

def FMap.ins {α : Type} (n : Nat) (v : α) : FMap α → FMap α
  | [] => [(n, v)]
  | (k, u) :: t => if n < k then (n, v) :: (k, u) :: t else (k, u) :: FMap.ins n v t

/-- Sets a key; a key set to the default value is not listed. -/
def FMap.set {α : Type} [DecidableEq α] (d : α) (m : FMap α) (n : Nat) (v : α) : FMap α :=
  if v = d then FMap.del n m else FMap.ins n v (FMap.del n m)

/-- Strictly rising keys from a bound on, and no default value. -/
def FMap.canon {α : Type} [DecidableEq α] (d : α) : Nat → FMap α → Bool
  | _, [] => true
  | b, (k, v) :: t => decide (b ≤ k) && decide (v ≠ d) && FMap.canon d (k + 1) t

/-- Bytes written at a run of keys. -/
def writeCells (m : List Host.Cell) (a : Nat) : List Byte → List Host.Cell
  | [] => m
  | b :: t => writeCells (FMap.set (0 : Byte) m a b) (a + 1) t

/-- Bytes read from a run of keys. -/
def readCells (m : List Host.Cell) (a : Nat) : Nat → List Byte
  | 0 => []
  | n + 1 => FMap.get (0 : Byte) m a :: readCells m (a + 1) n

/-- The canonical form of memory. -/
def Memory.wf (m : List Host.Cell) : Bool := FMap.canon (0 : Byte) 0 m

/-! ### Bit fields -/

/-- The unsigned value of `len` bits of a word from bit `lo` up. -/
def field (w : Word) (lo len : Nat) : Nat := w.toNat / 2 ^ lo % 2 ^ len

/-- The word with `len` bits from bit `lo` up replaced. -/
def setField (w : Word) (lo len v : Nat) : Word :=
  (w &&& ~~~(BitVec.ofNat 64 ((2 ^ len - 1) * 2 ^ lo))) ||| BitVec.ofNat 64 (v % 2 ^ len * 2 ^ lo)

def bitOf (w : Word) (i : Nat) : Bool := field w i 1 == 1

def sext (n : Nat) (v : BitVec n) : Word := v.signExtend 64

namespace Machine

/-! ### Numbers of streams and cores -/

/-- The stream's kind: 0 L, 1 M, 2 S. -/
def kindOf (k : Nat) : Nat := k % 3
def coreOf (k : Nat) : Nat := k / 3
def dieOf (c : Nat) : Nat := c / 24
def clusterOf (c : Nat) : Nat := c / 6

/-! ### Trap causes (14 R309) -/

def cILLEGAL : Byte := 1
def cPRIV : Byte := 2
def cQUEUE : Byte := 3
def cALIGN : Byte := 4
def cTILE_PROT : Byte := 5
def cTILE_ABSENT : Byte := 6
def cTAG_MISMATCH : Byte := 7
def cARITH : Byte := 8
def cTOKEN : Byte := 9
def cGUARD : Byte := 10
def cBREAK : Byte := 11
def cSVC : Byte := 12
def cLINK_LOST : Byte := 13
def cCOLL_ABORT : Byte := 14
def cNO_METHOD : Byte := 15
def cTAG_RUNS : Byte := 16
def cCURFEW : Byte := 17
def cSWAP_FAIL : Byte := 18

/-! ### Levels of memory as keys (08 R181, R184, R185)

The byte keys of State.mem: HBM at its 39-bit package physical address, the other levels above it. -/

def keyHbm (pa : Nat) : Nat := pa % 2 ^ 39
def keyDie (die off : Nat) : Nat := 2 ^ 40 + die * 2 ^ 25 + off
def keyPad (core off : Nat) : Nat := 2 ^ 41 + core * 2 ^ 22 + off
def keyCluster (cl off : Nat) : Nat := 2 ^ 42 + cl * 2 ^ 24 + off
def keyLane (core lane off : Nat) : Nat := 2 ^ 43 + core * 2 ^ 18 + lane * 2 ^ 13 + off
def keyHub (off : Nat) : Nat := 2 ^ 44 + off
def keyCamp (camp off : Nat) : Nat := 2 ^ 45 + camp * 2 ^ 18 + off

/-! ### Register accessors -/

/-- s0 reads zero (01 R14). -/
def State.sreg (s : State) (k n : Nat) : Word := if n = 0 then 0 else FMap.get 0 s.sregs (k * 64 + n)

/-- p0 reads all ones (01 R14). -/
def State.preg (s : State) (k n : Nat) : Pred :=
  if n = 0 then BitVec.allOnes 128 else FMap.get 0 s.pregs (k * 16 + n)

def State.vreg (s : State) (c n : Nat) : Vec := FMap.get 0 s.vregs (c * 1024 + n)
def State.ctl (s : State) (k : Nat) : Ctl := FMap.get .reset s.ctls k
def State.core (s : State) (c : Nat) : Core := FMap.get .reset s.cores c
def State.acc (s : State) (c w : Nat) : BitVec 32 := FMap.get 0 s.accw (c * 2 ^ 18 + w % 2 ^ 18)
def State.access (s : State) (a : Nat) : Option Access := FMap.get none s.accs a
def State.op (s : State) (o : Nat) : Option Op := FMap.get none s.ops o
def State.team (s : State) (t : Nat) : Option Team := FMap.get none s.teams t
def State.inst (s : State) (i : Nat) : Option Inst := FMap.get none s.insts i
def State.queue (s : State) (q : Nat) : LQ := (FMap.get none s.queues q).getD .reset
def State.port (s : State) (p : Nat) : Port := FMap.get .reset s.ports p
def State.camp (s : State) (c : Nat) : Camp := FMap.get .reset s.camps c
def State.byte (s : State) (a : Nat) : Byte := FMap.get 0 s.mem a
def State.bytes (s : State) (a n : Nat) : List Byte := readCells s.mem a n

/-- The 64-bit word at a key, least significant byte first (00 R7). -/
def State.word (s : State) (a : Nat) : Word := BitVec.ofNat 64 (bytesToNat (s.bytes a 8))

end Machine
end Sys2Proof
end

