-- ==== Sys2Proof/Machine/Tables.lean ====
section
/-!
DEFINITION. The tables that stand between a handle and its bytes: address-space descriptors (14 R324), tensor-table and tile-table
entries (08 R188 to R192, R197).
-/
namespace Sys2Proof.Machine

/-! ### Handles and tables -/

def tidOf (h : Word) : Nat := field h 44 20
def offOf (h : Word) : Nat := field h 0 44
def handleOf (tid off : Nat) : Word := BitVec.ofNat 64 (tid * 2 ^ 44 + off)

/-- Word `i` of the descriptor of an address space (14 R324). -/
def asAddr (s : State) (asid : Nat) : Nat := field s.pkg.astab 0 39 + 128 * asid
def asWord (s : State) (asid i : Nat) : Word := s.word (asAddr s asid + 8 * i)

/-- A tensor-table entry (08 R188). -/
structure Tensor where
  tid : Nat
  addr : Nat
  rd : Bool
  wr : Bool
  ex : Bool
  frozen : Bool
  rank : Nat
  dtag : Nat
  tbytes : Nat
  x : List Nat
  t : List Nat
  bytes : Nat
  ttbase : Nat
  version : Nat
  remote : Bool
  pkg : Nat
  rasid : Nat
  rtid : Nat
  deriving DecidableEq, Repr

def formatOf (tag : Nat) : Nat := tag / 2 ^ 11 % 32
def classOf (tag : Nat) : Nat := tag / 2 ^ 8 % 8
def layoutOf (tag : Nat) : Nat := tag / 2 ^ 4 % 16

/-- A tag with a reserved value or with nonzero bits [3:0] (08 R192). -/
def malformed (tag : Nat) : Bool := 16 ≤ formatOf tag || 4 ≤ classOf tag || 4 ≤ layoutOf tag || tag % 16 != 0

def mkTag (fmt cls lay : Nat) : Nat := fmt * 2 ^ 11 + cls * 2 ^ 8 + lay * 2 ^ 4

/-- Fields of an axis: `List.getD` of the four 16-bit fields of a word. -/
def axes (w : Word) : List Nat := [field w 0 16, field w 16 16, field w 32 16, field w 48 16]

/-- Tiles on each axis, n0 to n3 (08 R189). -/
def Tensor.grid (t : Tensor) (k : Nat) : Nat := (t.x.getD k 0 + 1 + t.t.getD k 0) / (t.t.getD k 0 + 1)
def Tensor.ntiles (t : Tensor) : Nat :=
  if formatOf t.dtag = 0 then (t.bytes + t.tbytes - 1) / t.tbytes else t.grid 0 * t.grid 1 * t.grid 2 * t.grid 3

/-- Granules of a tile's frame (08 R190). -/
def Tensor.g (t : Tensor) : Nat := (t.tbytes + 4095) / 4096

/-- The entry of a tensor, or none when the id names nothing or the entry is treated as not VALID (08 R189). A REMOTE entry is accepted at
any id from 16 on, with any RTID (R181, R188; DESIGN CHOICE, notes/assumptions/107.md). -/
def readTensor (s : State) (asid tid : Nat) : Option Tensor :=
  if tid < 16 || 4096 ≤ asid then none
  else
    let a := field (asWord s asid 0) 0 39 + 64 * tid
    let w0 := s.word a
    let w1 := s.word (a + 8)
    let w2 := s.word (a + 16)
    let w3 := s.word (a + 24)
    let w4 := s.word (a + 32)
    let w5 := s.word (a + 40)
    let w6 := s.word (a + 48)
    let w7 := s.word (a + 56)
    let t : Tensor :=
      { tid := tid, addr := a, rd := bitOf w0 62, wr := bitOf w0 61, ex := bitOf w0 60, frozen := bitOf w0 59,
        rank := field w0 56 3, dtag := field w0 32 16, tbytes := field w0 0 32, x := axes w1, t := axes w2,
        bytes := field w3 0 44, ttbase := field w4 0 39, version := field w5 32 32, remote := bitOf w6 63,
        pkg := field w6 53 10, rasid := field w6 41 12, rtid := field w6 21 20 }
    if !bitOf w0 63 || t.rank == 0 || 5 ≤ t.rank then none
    else if t.remote then some t
    else if t.tbytes == 0 || t.tbytes % 128 != 0 || field w0 48 8 != 0 || field w3 44 20 != 0 || field w4 39 25 != 0 ||
        field w6 0 21 != 0 || field w7 27 37 != 0 then none
    else if (List.range 4).any (fun k => t.rank ≤ k && (t.x.getD k 0 != 0 || t.t.getD k 0 != 0)) then none
    else if formatOf t.dtag = 0 then (if w1 = 0 ∧ w2 = 0 then some t else none)
    else if t.bytes = t.ntiles * t.tbytes then some t else none

/-- A tile-table entry (08 R191). -/
structure Tile where
  addr : Nat
  w0 : Word
  w1 : Word
  deriving DecidableEq, Repr

def Tile.frame (e : Tile) : Nat := field e.w0 36 27
def Tile.valid (e : Tile) : Bool := bitOf e.w0 31
def Tile.cow (e : Tile) : Bool := bitOf e.w0 30
def Tile.pin (e : Tile) : Bool := bitOf e.w0 29
def Tile.moving (e : Tile) : Bool := bitOf e.w0 28
def Tile.tag (e : Tile) : Nat := field e.w0 0 16
def Tile.fvalid (e : Tile) : Bool := bitOf e.w1 63
def Tile.fframe (e : Tile) : Nat := field e.w1 36 27
def Tile.ftag (e : Tile) : Nat := field e.w1 0 16

/-- The entry as a reader of the current version, or of the frozen one (08 R197), takes it. -/
def Tile.viewTag (e : Tile) (froz : Bool) : Nat := if froz && e.fvalid then e.ftag else e.tag
def Tile.viewFrame (e : Tile) (froz : Bool) : Nat := if froz && e.fvalid then e.fframe else e.frame
def Tile.viewValid (e : Tile) (froz : Bool) : Bool := (froz && e.fvalid) || e.valid

/-- No tile of class zero, whose VALID is ignored, is absent (08 R193). -/
def Tile.absent (e : Tile) (froz : Bool) : Bool := classOf (e.viewTag froz) != 1 && !e.viewValid froz

def tileAddr (t : Tensor) (n : Nat) : Nat := t.ttbase + 16 * n
def readTile (s : State) (t : Tensor) (n : Nat) : Tile :=
  let a := tileAddr t n
  ⟨a, s.word a, s.word (a + 8)⟩

/-- The key of byte `b` of a frame (08 R190). -/
def frameKey (tid fr b : Nat) : Nat :=
  if 256 ≤ tid then keyHbm (fr * 4096 + b) else keyDie (fr / 2 ^ 13 % 8) (fr % 2 ^ 13 * 4096 + b)

/-- The home slice of a global line (08 R187): the die in bits 8 to 6, the slice of the die in bits 5 to 0. -/
def homeSlice (pa : Nat) : Nat :=
  let part (i : Nat) : Nat := pa / 2 ^ (8 + 6 * i) % 64
  pa / 2 ^ 36 % 8 * 64 + (part 0 ^^^ part 1 ^^^ part 2 ^^^ part 3 ^^^ pa / 2 ^ 32 % 16)

/-! ### The place of bytes of a tensor -/

/-- The single places of a place. -/
def Spot.flat : Spot → List Spot
  | .pair lo hi => lo.flat ++ hi.flat
  | x => [x]

/-- A place is named by its address space, tensor and offset. -/
def placeOf (asid tid off : Nat) : Nat := (asid * 2 ^ 20 + tid) * 2 ^ 44 + off

/-- The 128 B row of bytes at a key; of bytes of a tensor, which stay the same bytes when their tile moves or is shadowed; of bytes
of a tensor of another package. -/
def keyRow (a : Nat) : Nat := a / 128
def placeRow (asid tid off : Nat) : Nat := 2 ^ 64 + placeOf asid tid off / 128
def farRow (pkg asid tid off : Nat) : Nat := 2 ^ 80 + (pkg * 2 ^ 76 + placeOf asid tid off) / 128

/-- Where the row lies now, as a row of keys. -/
def State.rowNow (s : State) (r : Nat) : Nat :=
  if r < 2 ^ 64 ∨ 2 ^ 80 ≤ r then r
  else
    let p := (r - 2 ^ 64) * 128
    let tid := p / 2 ^ 44 % 2 ^ 20
    let off := p % 2 ^ 44
    match readTensor s (p / 2 ^ 64) tid with
    | some t => keyRow (frameKey tid (readTile s t (off / t.tbytes)).frame (off % t.tbytes))
    | none => r

end Sys2Proof.Machine
end

