-- ==== Sys2Proof/Machine/Wire.lean ====
section
/-!
DEFINITION. What a Jiwen port puts on its wavelengths: flits with their CRC (18 R361), sequence numbers and striping (R362, R365), and the
routes of transactions (R367, R368).
-/
namespace Sys2Proof

/-! ### Flits (18 R361) -/

/-- One bit, then one byte, of the CRC-32 with the polynomial of IEEE 802.3, least significant bit first. -/
def crcBit (c : Nat) : Nat := if c % 2 = 1 then (c / 2) ^^^ 0xEDB88320 else c / 2
def crcByte (c : Nat) (b : Byte) : Nat := (List.range 8).foldl (fun c _ => crcBit c) (c ^^^ b.toNat)
def crc32 (bs : List Byte) : BitVec 32 := BitVec.ofNat 32 (bs.foldl crcByte 0xFFFFFFFF ^^^ 0xFFFFFFFF)

/-- The most payload bytes of one flit. -/
def flitRoom : Nat := 244

/-- Bytes 0 to 251. -/
def Flit.covered (f : Flit) : List Byte :=
  natToBytes 2 f.seq.toNat ++ natToBytes 2 f.ack.toNat ++ [f.typ, f.vc.setWidth 8] ++ natToBytes 2 f.len.toNat ++
    (f.payload ++ List.replicate flitRoom 0).take flitRoom

/-- The CRC fails, or the flit lies in an uncorrectable codeword (R362). -/
def Flit.bad (f : Flit) : Bool := f.uncorrectable || f.crc != crc32 f.covered

/-- A marker's mask, its first payload byte. -/
def Flit.mask (f : Flit) : BitVec 4 := (f.payload.headD 0).setWidth 4

/-- A flit that carries a part of a transaction, or a marker's mask, or nothing. -/
def mkFlit (seq ack : BitVec 16) (typ : Byte) (p : Part) : Flit :=
  let f : Flit := { seq := seq, ack := ack, typ := typ, vc := p.vc.setWidth 8, len := BitVec.ofNat 16 p.payload.length
                    payload := p.payload, crc := 0, uncorrectable := false, txn := p.txn }
  { f with crc := crc32 f.covered }

/-- What a flit with nothing but its header carries. -/
def Part.none : Part := ⟨0, [], Option.none⟩

/-- What a marker carries. -/
def Part.marker (m : BitVec 4) : Part := ⟨0, [m.setWidth 8], Option.none⟩

/-! ### Sending (18 R362, R365, R368) -/

/-- The virtual channel of a transaction: replies and collective traffic (every access of another package by an operation of chapter 18) take
VC3; requests, the slabs of mir.go among them, take the number of their global hops. -/
def Txn.vc (t : Txn) : BitVec 2 :=
  if (2 ≤ t.kind ∧ t.kind ≤ 5) ∨ t.kind = 12 ∨ t.kind = 13 ∨ (t.kind = 1 ∧ t.log ≠ 1) then 3 else BitVec.ofNat 2 t.hops

/-- A transaction cut into parts of one flit each. -/
def Txn.parts (t : Txn) : List Part :=
  let bs := Config.payload t
  let n := max 1 ((bs.length + flitRoom - 1) / flitRoom)
  (List.range n).map fun i => ⟨t.vc, (bs.drop (flitRoom * i)).take flitRoom, if i + 1 = n then some t else Option.none⟩

namespace Machine

/-- The wavelengths of a mask, in ascending order. -/
def waves (m : BitVec 4) : List Nat := (List.range 4).filter m.getLsbD

/-- The wavelength of the flit with SEQ `q`. -/
def Port.wave (p : Port) (q : BitVec 16) : Nat :=
  let l := waves p.active
  l.getD ((q - p.mark - 1).toNat % l.length) 0

/-- A new flit: it takes the next SEQ and is kept until it is acknowledged. -/
def Port.form (p : Port) (typ : Byte) (x : Part) : Port × Flit :=
  let f := mkFlit (p.txSeq + 1) p.rxSeq typ x
  ({ p with txSeq := p.txSeq + 1, buffer := p.buffer ++ [f] }, f)

/-- A new data flit can be formed. -/
def Port.ready (p : Port) : Bool :=
  p.state == 2 && p.nstep == 0 && p.lstate != 2 && p.active != 0 && decide (p.buffer.length < 512)

/-- The port takes transactions at all: it is up and not dark. -/
def Port.open (p : Port) : Bool := p.state == 2 && p.lstate != 2

/-- Waiting parts leave in flits, as many as can. -/
def Port.pump : Nat → Port → Port × List Flit
  | 0, p => (p, [])
  | n + 1, p =>
    match p.waiting with
    | [] => (p, [])
    | x :: t =>
      if p.ready then
        let r := ({ p with waiting := t }).form 1 x
        let q := Port.pump n r.1
        (q.1, r.2 :: q.2)
      else (p, [])

/-- Flits held and parts waiting at a port. -/
def Port.load (p : Port) : Nat := p.buffer.length + p.waiting.length

/-- The flits that a port sends, on their wavelengths. -/
def Port.sends (p : Port) (i : Nat) (fs : List Flit) : List Out := fs.map fun f => .flit i (p.wave f.seq) f

/-! ### Routes (18 R367, R368) -/

/-- The first hop of the minimal route from package `a` to package `b` (R367). -/
def firstHop (a b : Nat) : Nat :=
  let m := a % 12
  let loc (n : Nat) : Nat := (n + 12 - m - 1) % 12
  if a / 12 = b / 12 then loc (b % 12)
  else
    let k := (b / 12 + 61 - a / 12) % 61
    if (k - 1) / 5 = m then 11 + (k - 1) % 5 else loc ((k - 1) / 5)

/-- A transaction that has just arrived. -/
def newArrival (t : Txn) : Arrival :=
  { txn := t, units := none, retagged := [], refused := none, left := none, flags := 0, got := [] }

def ownPackage (s : State) : Nat := field s.pkg.lnkId 0 10

/-- A transaction that leaves its source takes a route through an intermediate group when its first hop is more than twice as full as that
route's; it has left that route when it is in that group. -/
def State.via (s : State) (t : Txn) : Option Nat :=
  let own := ownPackage s
  match t.via with
  | some g => if own / 12 = g then none else some g
  | none =>
    let p1 := s.port (firstHop own t.dst)
    let g := Config.viaGroup s.nextId % 61
    let p2 := s.port (firstHop own (12 * g))
    if p1.load = 0 ∨ t.src ≠ own ∨ t.vc = 3 ∨ t.hops ≠ 0 ∨ g = own / 12 ∨ g = t.dst / 12 ∨ ¬ p2.open ∨ p1.load ≤ 2 * p2.load then none else some g

/-- The port that a transaction leaves by: its route's, or, when that one takes none, another one that is open, or one that is dark, which
then wakes (R363, R366). VC3 leaves the minimal route only where its port is down or lost (R363; DESIGN CHOICE, notes/assumptions/108.md). -/
def State.route (s : State) (t : Txn) : Nat :=
  let m := firstHop (ownPackage s) (match t.via with | some g => 12 * g | none => t.dst)
  let first (f : Port → Bool) : Option Nat := (List.range 16).find? fun i => f (s.port i)
  let up (i : Nat) : Bool := (s.port i).state == 2
  if (s.port m).open ∨ (up m ∧ t.vc = 3) then m
  else (first Port.open).getD (if up m then m else (first fun p => p.state == 2).getD m)

/-- A transaction leaves in flits, or waits at its port; one for this package has arrived. Links that a freeze has stopped form no flit
(16 R348). -/
def State.send (s : State) (t : Txn) : State :=
  if t.dst = ownPackage s then { s with inbox := s.inbox ++ [newArrival t] }
  else
    let t := { t with via := s.via t }
    let i := s.route t
    let x := { s.port i with waiting := (s.port i).waiting ++ t.parts }
    let r := Port.pump (if s.pkg.phase = .frozen then 0 else x.waiting.length) x
    { s with ports := FMap.set .reset s.ports i r.1, out := s.out ++ x.sends i r.2 }

end Machine
end Sys2Proof
end

