-- ==== Sys2Proof/Machine/Ops.lean ====
section
/-!
DEFINITION. The named operations over the state: finite maps, register and memory accessors, the effects (Eff) that every
meaning lists and their one interpreter (State.apply), taking a trap (01 R35), returning from one (01 R36), retiring an
instruction (04 R98) and issuing one (03 R66, R75, 05 R114).
-/
namespace Sys2Proof.Machine

/-- The bits of a register that the hardware holds; the others are reserved and read zero (01 R13, R23 to R27, 14 R337). -/
def Ctl.norm (c : Ctl) : Ctl :=
  { c with
    pc := c.pc &&& ~~~3#64, status := c.status &&& 0xF8#64, fpctl := c.fpctl &&& 0x1F07#64,
    fpflags := c.fpflags &&& 0x1F#64, parks := c.parks &&& 0xFFFFFFFF#64, epc := c.epc &&& ~~~3#64,
    cause := c.cause &&& 0x1FF#64, tvec := c.tvec &&& ~~~3#64, rgnpc := c.rgnpc &&& ~~~3#64,
    rgns := c.rgns &&& ~~~1#64, rgnp := c.rgnp &&& 0xFFFE#64 }

/-! ### Effects -/

/-- One change of the state. -/
inductive Eff where
  | sreg (k n : Nat) (v : Word)
  | preg (k n : Nat) (v : Pred)
  | vreg (c n : Nat) (v : Vec)
  | ctl (k : Nat) (c : Ctl)
  | core (c : Nat) (r : Core)
  | acc (c w : Nat) (v : BitVec 32)
  | clear (c : Nat)                    -- the registers of core `c` and its streams, its accumulators and weight buffer
  | wbuf (a : Nat) (bs : List Byte)
  | store (a : Nat) (bs : List Byte)
  | unit (a : Nat) (bs : List Byte)    -- the hamper unit writes a header
  | headers (b : Nat)                  -- 4,096 header pages from `b` on are cleared
  | wipe (a n : Nat)                   -- bytes of a core or a cluster that no share has written hold 0
  | forget (n : Nat) (hbm : Bool)      -- memory after start `n`: every listed byte, or every one outside HBM, holds a free value
  | host (a : Nat) (bs : List Byte)
  | access (a : Nat) (r : Option Access)
  | walk (a : Nat) (r : Option Walk)
  | held (l : List Held)
  | op (o : Nat) (r : Option Op)
  | coll (n : Nat) (r : Option Coll)
  | slot (n : Nat) (r : Option Nat)
  | tree (n : Nat) (v : Word)
  | team (t : Nat) (r : Option Team)
  | inst (i : Nat) (r : Option Inst)
  | pool (p : Nat) (r : Option PoolE)
  | queue (q : Nat) (r : LQ)
  | method (n : Nat) (r : Option (List Word))
  | arena (n v : Nat)
  | busy (l : List (Nat × Nat))
  | pins (l : List (Nat × Nat))
  | reserve (n : Nat) (r : Option Nat)
  | port (p : Nat) (r : Port)
  | camp (c : Nat) (r : Camp)
  | done (l : List (Nat × Nat))
  | inbox (l : List Arrival)
  | send (t : Txn)                     -- a transaction leaves for its destination package
  | pkg (p : Pkg)
  | out (o : Out)
  | restart (p : Pkg) (ports : FMap Port) (done : List (Nat × Nat))   -- everything else as after a cold start, but memory
  | failing (l : List (Nat × Byte))
  | cur (k : Nat)
  | fetched (w : BitVec 32)
  | schedule (l : List Nat)
  | inputs (l : List Instr)
  | clock (n : Nat)
  | fresh                              -- one more number taken by nextId
  | time (n : Word)
  | debts (l : List (Nat × Nat × Nat))
  | wrote (w : Option (Nat × Vec))

/-- A write to its row wakes a parked stream (05 R126) and is noted beside the last load of the row (09 R230). -/
def Ctl.touch (hit : Nat → Bool) (c : Ctl) : Ctl :=
  { c with
    run := match c.run with
      | .parked rs => if rs.any hit then .running else c.run
      | r => r
    lastLoad := c.lastLoad.map fun l => { l with written := l.written ++ l.rows.filter fun r => hit r && !l.written.contains r } }

/-- Every stream that watches one of the rows, touched. -/
def touchAll (hit : Nat → Bool) : FMap Ctl → FMap Ctl → FMap Ctl
  | [], m => m
  | (k, c) :: t, m => touchAll hit t (if c.touch hit = c then m else FMap.set .reset m k (c.touch hit))

/-- Camp cores that have reserved one of the rows lose it (17 R351). -/
def loseResv (hit : Nat → Bool) : FMap Camp → FMap Camp → FMap Camp
  | [], m => m
  | (k, c) :: t, m =>
    loseResv hit t (if c.resv.any hit then FMap.set .reset m k { c with resv := none } else m)

/-- The rows that a write of `n` bytes at `a` touches. -/
def State.hits (s : State) (a n : Nat) (r : Nat) : Bool :=
  let q := s.rowNow r
  decide (keyRow a ≤ q ∧ q ≤ keyRow (a + n - 1))

/-- What a write leaves of the streams and camp cores that watch its rows. -/
def State.touched (s : State) (hit : Nat → Bool) : State :=
  { s with ctls := touchAll hit s.ctls s.ctls, camps := loseResv hit s.camps s.camps }

/-- Bytes written by any agent. -/
def State.write (s : State) (a : Nat) (bs : List Byte) : State :=
  if bs = [] then s else { s.touched (s.hits a bs.length) with mem := writeCells s.mem a bs }

/-- A byte of the header pages from `b` on. -/
def inHeaders (b a : Nat) : Bool := decide (b ≤ a ∧ a < b + 4096 * 12288 ∧ (a - b) % 12288 < 4096)

/-! ### The hamper unit (17 R352, R353, R356) -/

/-- The key of byte `o` of hamper `h`. -/
def State.hamperKey (s : State) (h o : Nat) : Nat := field s.pkg.hbase 0 39 + 12288 * h + o

/-- The hamper and its byte at a key of a header page. -/
def State.headerAt (s : State) (a : Nat) : Option (Nat × Nat) :=
  let b := field s.pkg.hbase 0 39
  if s.pkg.hbaseSet ∧ b ≤ a ∧ a < b + 4096 * 12288 ∧ (a - b) % 12288 < 4096 then some ((a - b) / 12288, (a - b) % 12288)
  else none

/-- Word `i` of a header. -/
def State.hamper (s : State) (h i : Nat) : Word := s.word (s.hamperKey h (8 * i))

def State.setHamper (s : State) (h i : Nat) (v : Word) : State := s.write (s.hamperKey h (8 * i)) (natToBytes 8 v.toNat)

/-- Word `i` with the bytes `bs`, which start at byte `o` of the header, laid over it. -/
def overWord (old : Word) (i o : Nat) (bs : List Byte) : Word :=
  BitVec.ofNat 64 (bytesToNat ((List.range 8).map fun j =>
    if o ≤ 8 * i + j ∧ 8 * i + j < o + bs.length then bs.getD (8 * i + j - o) 0
    else BitVec.ofNat 8 (old.toNat / 2 ^ (8 * j))))

def touches (i lo n o len : Nat) : Bool := decide (o < 8 * i + lo + n ∧ 8 * i + lo < o + len)

/-- A write of ASEQ from the graph side is accepted, or refused with PROTO (17 R356). -/
def State.aseq (s : State) (h : Nat) (v : Word) : State :=
  if field (s.hamper h 4) 56 8 = 1 ∧ s.hamper h 0 = s.hamper h 1 ∧ v = s.hamper h 1 + 1 then s.setHamper h 0 v
  else s.setHamper h 4 (setField (s.hamper h 4) 44 1 1)

/-- A write to the header page from the graph side: ASEQ, CURVER and ALEN; nothing else is written. -/
def State.graphHeader (s : State) (h o : Nat) (bs : List Byte) : State :=
  let s1 := if touches 0 0 8 o bs.length then s.aseq h (overWord (s.hamper h 0) 0 o bs) else s
  let s2 := if touches 2 0 4 o bs.length then
      s1.setHamper h 2 (setField (s1.hamper h 2) 0 32 (overWord (s1.hamper h 2) 2 o bs).toNat) else s1
  if touches 5 0 2 o bs.length then
    s2.setHamper h 5 (setField (s2.hamper h 5) 0 13 (overWord (s2.hamper h 5) 5 o bs).toNat) else s2

/-- The part of a write that lies in one page of 4 KiB. -/
def State.storePage (s : State) (a : Nat) (bs : List Byte) : State :=
  match s.headerAt a with
  | some (h, o) => s.graphHeader h o bs
  | none => s.write a bs

/-- A write of package memory by any agent but a camp core. -/
def State.store (s : State) (a : Nat) (bs : List Byte) : State :=
  if s.pkg.hbaseSet then
    (List.range ((a + bs.length) / 4096 + 1 - a / 4096)).foldl (fun s i =>
      let lo := max a ((a / 4096 + i) * 4096)
      s.storePage lo ((bs.drop (lo - a)).take ((a / 4096 + i + 1) * 4096 - lo))) s
  else s.write a bs

/-- A listed byte after start `n`. -/
def forgetCell (n : Nat) (hbm : Bool) (e : Host.Cell) : Option Host.Cell :=
  let b := Config.hbmByte n e.1
  if decide (e.1 < 2 ^ 39) && !hbm then some e else if b = 0 then none else some (e.1, b)

/-- The interpreter of effects. Writes to s0 and p0 are discarded (01 R14). -/
def State.apply (s : State) : Eff → State
  | .sreg k n v => if n % 64 = 0 then s else { s with sregs := FMap.set 0 s.sregs (k * 64 + n % 64) v }
  | .preg k n v => if n % 16 = 0 then s else { s with pregs := FMap.set 0 s.pregs (k * 16 + n % 16) v }
  | .vreg c n v => { s with vregs := FMap.set 0 s.vregs (c * 1024 + n % 1024) v }
  | .ctl k c => { s with ctls := FMap.set .reset s.ctls k c.norm }
  | .core c r => { s with cores := FMap.set .reset s.cores c r }
  | .acc c w v => { s with accw := FMap.set 0 s.accw (c * 2 ^ 18 + w % 2 ^ 18) v }
  | .clear c => { s with
      sregs := s.sregs.filter fun e => e.1 / 192 != c
      pregs := s.pregs.filter fun e => e.1 / 48 != c
      vregs := s.vregs.filter fun e => e.1 / 1024 != c
      accw := s.accw.filter fun e => e.1 / 2 ^ 18 != c
      wbuf := s.wbuf.filter fun e => e.1 / 2 ^ 19 != c }
  | .wbuf a bs => { s with wbuf := writeCells s.wbuf a bs }
  | .store a bs => s.store a bs
  | .unit a bs => s.write a bs
  | .headers b => { s.touched (fun r => inHeaders b (s.rowNow r * 128)) with mem := s.mem.filter fun e => !inHeaders b e.1 }
  | .wipe a n => { s with mem := s.mem.filter fun e => !decide (a ≤ e.1 ∧ e.1 < a + n) }
  | .forget n hbm => { s with mem := s.mem.filterMap (forgetCell n hbm) }
  | .host a bs => { s with hostMem := writeCells s.hostMem a bs }
  | .access a r => { s with accs := FMap.set none s.accs a r }
  | .walk a r => { s with walks := FMap.set none s.walks a r }
  | .held l => { s with held := l }
  | .op o r => { s with ops := FMap.set none s.ops o r }
  | .coll n r => { s with colls := FMap.set none s.colls n r }
  | .slot n r => { s with slots := FMap.set none s.slots n r }
  | .tree n v => { s with trees := FMap.set 0 s.trees n v }
  | .team t r => { s with teams := FMap.set none s.teams t r }
  | .inst i r => { s with insts := FMap.set none s.insts i r }
  | .pool p r => { s with pool := FMap.set none s.pool p r }
  | .queue q r => { s with queues := FMap.set none s.queues q (if r = .reset then none else some r) }
  | .method n r => { s with methods := FMap.set none s.methods n r }
  | .arena n v => { s with arenas := FMap.set 0 s.arenas n v }
  | .busy l => { s with busy := l }
  | .pins l => { s with pins := l }
  | .reserve n r => { s with reserved := FMap.set none s.reserved n r }
  | .port p r => { s with ports := FMap.set .reset s.ports p r }
  | .camp c r => { s with camps := FMap.set .reset s.camps c r }
  | .done l => { s with done := l }
  | .inbox l => { s with inbox := l }
  | .send t => s.send t
  | .pkg p => { s with pkg := p }
  | .out o => { s with out := s.out ++ [o] }
  | .restart p ports dn => { State.reset with
      mem := s.mem, hostMem := s.hostMem, pkg := p, ports := ports, done := dn, out := s.out, schedule := s.schedule
      inputs := s.inputs, clock := s.clock, nextId := s.nextId }
  | .failing l => { s with failing := l }
  | .cur k => { s with cur := k }
  | .fetched w => { s with fetched := w }
  | .schedule l => { s with schedule := l }
  | .inputs l => { s with inputs := l }
  | .clock n => { s with clock := n }
  | .fresh => { s with nextId := s.nextId + 1 }
  | .time n => { s with time := n }
  | .debts l => { s with debts := l }
  | .wrote w => { s with wrote := w }

def State.applyAll (s : State) : List Eff → State
  | [] => s
  | e :: t => (s.apply e).applyAll t

/-- What a part of a step does, as a function of the state it starts in. -/
abbrev Fx := State → List Eff

/-- One part after another. -/
def Fx.andThen (p q : Fx) : Fx := fun s => let e := p s; e ++ q (s.applyAll e)

def Fx.none : Fx := fun _ => []

/-- A part for each element of a list, in order. -/
def Fx.each {α : Type} (f : α → Fx) : List α → Fx
  | [] => Fx.none
  | a :: t => (f a).andThen (Fx.each f t)

/-- The outcome of a meaning: the state with its effects. -/
def answer (s : State) (p : Fx) : Host.Outcome State Fault Refusal := .next (s.applyAll (p s))

/-! ### Streams -/

def Ctl.prv (c : Ctl) : Bool := bitOf c.status 4
def Ctl.tip (c : Ctl) : Bool := bitOf c.status 6
def Ctl.step (c : Ctl) : Bool := bitOf c.status 3
def Ctl.open (c : Ctl) : Bool := bitOf c.rgn 63

/-- A vector register takes a value of which the instruction writes the bits of `m`. -/
def putV (c n : Nat) (m v : Vec) : List Eff := [.vreg c n v, .wrote (some (n, m))]

/-- A change of one stream's control record. -/
def onCtl (k : Nat) (f : Ctl → Ctl) : Fx := fun s => [.ctl k (f (s.ctl k))]
def onCore (c : Nat) (f : Core → Core) : Fx := fun s => [.core c (f (s.core c))]

def Ctl.loop (c : Ctl) (n : Nat) : Loop := match n with | 0 => c.l0 | 1 => c.l1 | 2 => c.l2 | _ => c.l3

def Ctl.setLoop (c : Ctl) (n : Nat) (l : Loop) : Ctl :=
  match n with
  | 0 => { c with l0 := l }
  | 1 => { c with l1 := l }
  | 2 => { c with l2 := l }
  | _ => { c with l3 := l }

/-- What `flt.rd` returns for a trap that is no memory trap: the OP9 alone (14 R334). -/
def fltOf (op9 : Nat) : Flt := { Flt.reset with i0 := BitVec.ofNat 64 (op9 * 2 ^ 48) }

/-- Taking a trap (01 R35): the saved registers, the status, the pc; or, with a trap in progress, a double trap, which stops
the stream and fails the share's node (14 R312). -/
def takeTrap (k : Nat) (code : Byte) (imp : Bool) (val : Word) (flt : Flt) : Fx := fun s =>
  let c := s.ctl k
  if c.tip then
    .ctl k { c with status := setField c.status 7 1 1, run := .stopped } ::
      (match (s.core (coreOf k)).team with
       | some t => [.failing (s.failing ++ [(t, code)])]
       | none => [])
  else
    [.ctl k { c with
      epc := c.pc
      cause := BitVec.ofNat 64 ((if imp then 256 else 0) + code.toNat)
      tval := val
      status := setField (setField (setField c.status 5 1 (field c.status 4 1)) 4 1 1) 6 1 1
      pc := c.tvec
      run := .running
      blocked := none
      spin := none
      walked := []
      code := none
      flt := flt }]

/-- Return from a trap (01 R36). -/
def rteCtl (c : Ctl) : Ctl :=
  { c with pc := c.epc, status := setField (setField c.status 4 1 (field c.status 5 1)) 6 1 0, spin := none }

/-- The loop-end action for the levels from `n` − 1 down (04 R98), at the instruction `h` of `len` bytes. -/
def loopEnd (h : Word) (len : Nat) : Nat → Ctl → Ctl
  | 0, c => { c with pc := h + BitVec.ofNat 64 len }
  | n + 1, c =>
    let l := c.loop n
    if l.lc ≠ 0 ∧ l.le = h then
      if 1 < l.lc.toNat then { (c.setLoop n { l with lc := l.lc - 1 }) with pc := l.lb }
      else loopEnd h len n (c.setLoop n { l with lc := 0 })
    else loopEnd h len n c

/-- A token enters a FIFO (05 R114). -/
def pushFifo (c : Nat) (fp : BitVec 3) : Fx := fun s =>
  if fp = 0 then []
  else
    let r := s.core c
    [.core c { r with fifo := FMap.set 0 r.fifo (fp.toNat - 1) (FMap.get 0 r.fifo (fp.toNat - 1) + 1) }]

def popFifo (c : Nat) (fo : BitVec 3) : Fx := fun s =>
  if fo = 0 then []
  else
    let r := s.core c
    [.core c { r with fifo := FMap.set 0 r.fifo (fo.toNat - 1) (FMap.get 0 r.fifo (fo.toNat - 1) - 1) }]

/-- An outcome enters a branch-outcome queue (05 R115). -/
def pushOutcome (c : Nat) (o : Option (Nat × Bool)) : Fx := fun s =>
  match o with
  | none => []
  | some (n, b) =>
    let r := s.core c
    [.core c { r with bq := FMap.set [] r.bq n (FMap.get [] r.bq n ++ [b]) }]

/-- BREAK after a user-level instruction retired with STEP set (01 R24). -/
def stepBreak (k : Nat) (user : Bool) : Fx := fun s =>
  if user && (s.ctl k).step then takeTrap k cBREAK false 0 .reset s else []

/-- The stream that produces into FIFO or outcome queue `n`, and the one that takes from it (03 R66). -/
def producer (n : Nat) : Nat := n / 2
def consumer (n : Nat) : Nat := match n with | 0 => 1 | 1 => 2 | 2 => 0 | 3 => 2 | 4 => 0 | _ => 1

/-- The scalar and vector registers of stream `k` that accesses and engine operations have still to write (01 R15, 09 R211,
12 R275). -/
def pendingS (s : State) (k : Nat) : List Nat :=
  s.accs.filterMap fun e => match e.2 with
    | some a => if a.k = k ∧ a.remote = false then (match a.kind with
        | .loadS sd _ => some sd
        | .amo _ _ _ _ (some sd) => some sd
        | _ => Option.none) else Option.none
    | Option.none => Option.none

def pendingV (s : State) (k : Nat) : List Nat :=
  (s.accs.filterMap fun e => match e.2 with
    | some a => if a.k = k ∧ a.remote = false then (match a.kind with
        | .loadV vd _ _ _ => some vd
        | _ => Option.none) else Option.none
    | Option.none => Option.none) ++
  (s.ops.filterMap fun e => match e.2 with
    | some o => if o.k = k ∧ o.op9 = 0x0D4 then some o.vd else Option.none
    | Option.none => Option.none) ++
  (s.ctl k).late.flatMap fun l => l.writes.map (·.1)

def AKind.isLoad (k : AKind) : Bool := match k with | .loadS _ _ | .loadV _ _ _ _ => true | _ => false

/-- Pushes to FIFO field `fp` of core `c` that have issued and not retired (05 R114). -/
def pendingPush (s : State) (c : Nat) (fp : BitVec 3) : Nat :=
  ((s.ctl (3 * c + producer (fp.toNat - 1))).late.filter fun l => l.fp = fp).length +
  (match (s.core c).qfmt with | some q => if q.fp = fp then 1 else 0 | Option.none => 0)

/-- What the wrapper has to know of an instruction: its length, OP9, guard and FIFO fields, whether it is an element
instruction (03 R65), a supervisor instruction (01 R17) or one that closes a region (14 R314), its registers, and the branch-outcome
queue that it names with the kind of stream that may (03 R66). -/
structure Desc where
  len : Nat
  op9 : Nat
  g : Guard
  fp : BitVec 3
  fo : BitVec 3
  elem : Bool
  priv : Bool
  closes : Bool
  sregs : List Nat
  vregs : List Nat
  bq : Option (Nat × Nat) := none

/-- How an instruction retires in a later step: whether the stream waits for that, the accesses (only their parts in `tiles`, if it names
some) and the operation that are over first, and the order that it keeps until then. -/
structure Slow where
  stall : Bool
  accs : List Nat
  tiles : Option TileSet := none
  op : Option Nat := none
  fence : Option Fence := none

/-- How the body of an instruction ends: in sequence, by a transfer of control, by a trap, by a trap with effects (flags set before ARITH; a region closed before SVC), by not
issuing yet, without a next instruction of its own (the stream waits or ends; the effects say how), or in sequence with its
retirement left to a later step. -/
inductive Act where
  | seq (e : Fx)
  | slow (e : Fx) (r : Slow)
  | jump (e : Fx) (pc : Word)
  | trap (code : Byte) (imp : Bool) (val : Word) (flt : Flt)
  | trapWith (e : Fx) (code : Byte) (val : Word) (flt : Option Flt)
  | wait (e : Fx)
  | stop (e : Fx)

/-- A trap of an instruction that is no memory trap. -/
def Act.raise (d : Desc) (code : Byte) (val : Word) : Act := .trap code false val (fltOf d.op9)

/-- The instruction's bits [31:0], which an ILLEGAL or PRIV reports (01 R28). -/
def State.word32 (s : State) : Word := s.fetched.setWidth 64

/-- An open region closes (14 R314); what was issued in it is no longer inside an open region (R317). -/
def closeRegion (k : Nat) : Fx :=
  (onCtl k fun c => { c with rgn := c.rgn &&& 0x7FFFFFFFFFFFFFFF#64 }).andThen fun s =>
    s.ops.filterMap fun e => match e.2 with
      | some o => if o.k = k ∧ o.region = true then some (.op e.1 (some { o with region := false })) else Option.none
      | Option.none => Option.none

/-- What an instruction pushes when it retires: at once, when the stream's earlier instructions have retired; later otherwise (05 R109,
R114, 10 R241). -/
def retirePush (k : Nat) (fp : BitVec 3) (out : Option (Nat × Bool)) : Fx := fun s =>
  if fp = 0 ∧ out = none then []
  else if (s.ctl k).late = [] then ((pushFifo (coreOf k) fp).andThen (pushOutcome (coreOf k) out)) s
  else onCtl k (fun c => { c with late := c.late ++ [⟨fp, out, [], none, none, [], false, none⟩] }) s

/-- The control record behind an instruction that goes on at `pc`. -/
def Ctl.onward (pc : Word) (c : Ctl) : Ctl := { c with pc := pc, blocked := none, walked := [], code := none }

/-- Retirement in sequence: the loop-end action, the count, the push, and BREAK (04 R98, 01 R23, R24, 03 R66). -/
def retireSeq (k len : Nat) (fp : BitVec 3) (user : Bool) : Fx :=
  ((onCtl k fun c => let c := loopEnd c.pc len 4 c; { c.onward c.pc with instret := c.instret + 1 }).andThen
    (retirePush k fp none)).andThen (stepBreak k user)

/-- Retirement with a transfer of control. -/
def retireJump (k : Nat) (pc : Word) (fp : BitVec 3) (user : Bool) : Fx :=
  ((onCtl k fun c => { c.onward pc with instret := c.instret + 1 }).andThen (retirePush k fp none)).andThen (stepBreak k user)

/-- The stream goes on to the next instruction; its present one retires later. -/
def issueOnly (k len : Nat) (fp : BitVec 3) (r : Slow) : Fx :=
  onCtl k fun c =>
    let c := loopEnd c.pc len 4 c
    { c.onward c.pc with
      late := c.late ++ [⟨fp, none, r.accs, r.tiles, r.op, [], true, r.fence⟩]
      run := if r.stall then .retiring else c.run }

/-- A home holds the write (14 R329). -/
def isHeld (s : State) (w : HeldWrite) : Bool := s.held.any fun h => h.what == w

/-- A piece of an access was translated through one of the tiles: it lies in one, or, of an access in the address space, in a tensor's
frozen version, which stands as a key. -/
def inTiles (s : State) (r : TileSet) (a : Access) (p : Piece) : Bool :=
  p.spot.flat.any fun spot => match spot with
    | .tile x tid off => x == r.1 && (match r.2, readTensor s x tid with
      | none, _ => true
      | some (t, first, count), some tn => tid == t && decide (first ≤ off / tn.tbytes ∧ off / tn.tbytes < first + count)
      | some _, none => false)
    | .key key => decide (key < 2 ^ 41) && ((s.core (coreOf a.k)).team.bind s.team).any (·.asid == r.1)
    | _ => false

/-- The access, or its part in a set of tiles, has still to perform; what a home holds belongs to the tile's new frame (14 R327, R329). -/
def waitsOn (s : State) (tiles : Option TileSet) (n : Nat) : Bool :=
  match s.access n, tiles with
  | none, _ => false
  | some _, none => true
  | some a, some r => !a.remote && a.pieces.any fun p => inTiles s r a p && !isHeld s (.access n p)

/-- An issued instruction can retire: what it waits for is over, and, if it pushes, all the instructions before it have retired (05
R109). -/
def Late.ready (s : State) (first : Bool) (l : Late) : Bool :=
  (first || (l.fp == 0 && l.outcome.isNone)) && l.accs.all (fun a => !waitsOn s l.tiles a) &&
    (match l.op with | some o => (s.op o).isNone | none => true)

/-- Instruction `i` of those of stream `k` that have issued and not retired retires, if it can: its vector registers are written, it is
counted, and it pushes; a stream that waited for its last goes on (05 R108). -/
def retireLate (k i : Nat) : Fx := fun s =>
  match (s.ctl k).late[i]? with
  | none => []
  | some l =>
    if l.ready s (i == 0) then
      let waits := (s.ctl k).run == .retiring && (s.ctl k).late.length == 1
      ((((onCtl k fun c => { c with
            late := c.late.eraseIdx i, instret := c.instret + (if l.counts then 1 else 0), run := if waits then .running else c.run }).andThen
        (Fx.each (fun w s => [.vreg (coreOf k) w.1 ((s.vreg (coreOf k) w.1 &&& ~~~w.2.1) ||| (w.2.2 &&& w.2.1))]) l.writes)).andThen
        ((pushFifo (coreOf k) l.fp).andThen (pushOutcome (coreOf k) l.outcome))).andThen
        (if waits then stepBreak k (!(s.ctl k).prv) else Fx.none)) s
    else []

/-- The guard of an instruction as a predicate (03 R64). -/
def guardPred (s : State) (k : Nat) (g : Guard) : Pred :=
  if g.gn = 1 then ~~~(s.preg k g.gp.toNat) else s.preg k g.gp.toNat

/-- Bit 0 of the guard: a scalar guard (03 R65). -/
def guardTrue (s : State) (k : Nat) (g : Guard) : Bool := (guardPred s k g).getLsbD 0

/-- The stream cannot issue and says what it waits for (05 R130). -/
def block (k : Nat) (w : Wait) : Fx := onCtl k fun c => { c with blocked := some w }

/-- The FIFO or branch-outcome queue that an instruction of this kind of stream names against its direction, as STM_TVAL
reports it; of several, FO's before FP's before that of the instruction itself (03 R66, R75; notes/assumptions/70.md). -/
def misdirected (d : Desc) (kind : Nat) : Option Nat :=
  if d.fo ≠ 0 ∧ consumer (d.fo.toNat - 1) ≠ kind then some (d.fo.toNat - 1)
  else if d.fp ≠ 0 ∧ producer (d.fp.toNat - 1) ≠ kind then some (d.fp.toNat - 1)
  else match d.bq with
    | some (n, own) => if own ≠ kind then some (8 + n) else none
    | none => none

/-- What happens when an instruction reaches issue: the checks of 03 R75 steps 3 and 4, then the waits for registers and
FIFOs, then its body (or, with a scalar guard that is false, nothing but its FIFO fields), then retirement. An instruction that
does not execute closes a region only through its FIFO fields (03 R65, 14 R314). -/
def issueFx (d : Desc) (body : State → Act) : Fx := fun s =>
  let k := s.cur
  let co := coreOf k
  let c := s.ctl k
  let r := s.core co
  let user := !c.prv
  if d.priv && user then takeTrap k cPRIV false s.word32 (fltOf d.op9) s
  else match misdirected d (kindOf k) with
  | some n => takeTrap k cQUEUE false (BitVec.ofNat 64 n) (fltOf d.op9) s
  | none =>
  if d.sregs.any (fun n => n ≠ 0 && (pendingS s k).contains n) || d.vregs.any (pendingV s k).contains then []
  else if d.fo ≠ 0 ∧ FMap.get 0 r.fifo (d.fo.toNat - 1) = 0 then block k (.pop (d.fo.toNat - 1)) s
  else if d.fp ≠ 0 ∧ 64 ≤ FMap.get 0 r.fifo (d.fp.toNat - 1) + pendingPush s co d.fp then block k (.push (d.fp.toNat - 1)) s
  else
    let runs := d.elem || guardTrue s k d.g
    let act := if runs then body s else .seq Fx.none
    let pre : Fx := (if c.open && ((d.closes && runs) || d.fp ≠ 0 || d.fo ≠ 0) then closeRegion k else Fx.none).andThen
      (popFifo co d.fo)
    match act with
    | .seq e => ((pre.andThen e).andThen (retireSeq k d.len d.fp user)) s
    | .slow e r => ((pre.andThen e).andThen (issueOnly k d.len d.fp r)) s
    | .jump e pc => ((pre.andThen e).andThen (retireJump k pc d.fp user)) s
    | .trap code imp val flt => takeTrap k code imp val flt s
    | .trapWith e code val flt => (e.andThen (takeTrap k code false val (flt.getD (fltOf d.op9)))) s
    | .wait e => e s
    | .stop e => (pre.andThen e) s

/-! ### Free values -/

/-- Takes the next free-value index. -/
def tick : Fx := fun s => [.clock (s.clock + 1)]

end Sys2Proof.Machine
end

