-- ==== Sys2Proof/Machine/Flags.lean ====
section
/-!
DEFINITION. Binary floating-point formats, exact values, rounding and exception flags (02 R43 to R50). Elements are raw bits
held as natural numbers. An exact value is a sign, a magnitude and a power of two, so that every sum and product is exact and
is rounded once.
-/
namespace Sys2Proof.Machine

/-- Exception flags in the bit positions of STM_FPFLAGS (01 R26): NV 16, DZ 8, OF 4, UF 2, NX 1. -/
abbrev Fl := BitVec 5

def fNV : Fl := 16
def fDZ : Fl := 8
def fOF : Fl := 4
def fUF : Fl := 2
def fNX : Fl := 1

/-- A result with the flags of its operation. -/
abbrev Val := Nat × Fl

/-- A binary format: its width, trailing significand bits and bias (02 R43). -/
structure Fmt where
  w : Nat
  t : Nat
  bias : Nat
  deriving DecidableEq, Repr

def f16 : Fmt := ⟨16, 10, 15⟩
def bf16 : Fmt := ⟨16, 7, 127⟩
def f32 : Fmt := ⟨32, 23, 127⟩
def f64 : Fmt := ⟨64, 52, 1023⟩

/-- The format of a type code 8 to 11 (03 R67). -/
def fmtOf (ty : Nat) : Fmt := match ty with | 8 => f16 | 9 => bf16 | 10 => f32 | _ => f64

def Fmt.emax (f : Fmt) : Nat := 2 ^ (f.w - 1 - f.t) - 1
def Fmt.signBit (f : Fmt) : Nat := 2 ^ (f.w - 1)
def Fmt.inf (f : Fmt) (s : Bool) : Nat := (if s then f.signBit else 0) + f.emax * 2 ^ f.t
def Fmt.nan (f : Fmt) : Nat := f.emax * 2 ^ f.t + 2 ^ (f.t - 1)
def Fmt.big (f : Fmt) (s : Bool) : Nat := f.inf s - 1
def Fmt.zero (f : Fmt) (s : Bool) : Nat := if s then f.signBit else 0

/-- The value of an element: a NaN (signalling or not), an infinity, or the finite number (−1)^s × m × 2^e. -/
inductive FV where
  | nan (sig : Bool)
  | inf (s : Bool)
  | fin (s : Bool) (m : Nat) (e : Int)
  deriving DecidableEq, Repr

def FV.isNan (v : FV) : Bool := match v with | .nan _ => true | _ => false
def FV.isInf (v : FV) : Bool := match v with | .inf _ => true | _ => false
def FV.isZero (v : FV) : Bool := match v with | .fin _ 0 _ => true | _ => false
def FV.sign (v : FV) : Bool := match v with | .nan _ => false | .inf s => s | .fin s _ _ => s
def FV.signalling (v : FV) : Bool := match v with | .nan b => b | _ => false

/-- The value of an element's bits (02 R43, R44). -/
def Fmt.value (f : Fmt) (x : Nat) : FV :=
  let s := x / f.signBit % 2 == 1
  let e := x / 2 ^ f.t % (f.emax + 1)
  let m := x % 2 ^ f.t
  if e = f.emax then (if m = 0 then .inf s else .nan (m < 2 ^ (f.t - 1)))
  else if e = 0 then .fin s m (1 - (f.bias : Int) - f.t)
  else .fin s (2 ^ f.t + m) ((e : Int) - f.bias - f.t)

/-- The number of bits of a magnitude. -/
def bitLen (m : Nat) : Nat := if m = 0 then 0 else Nat.log2 m + 1

/-- One more unit for a magnitude cut at `q` with the rest `rem` of `2^sh`, in mode 0 to 4 (02 R45). -/
def roundUp (mode : Nat) (s : Bool) (q rem sh : Nat) : Bool :=
  if rem = 0 then false
  else match mode with
    | 0 => 2 ^ sh < 2 * rem || (2 * rem == 2 ^ sh && q % 2 == 1)
    | 1 => false
    | 2 => s
    | 3 => !s
    | _ => 2 ^ sh ≤ 2 * rem

/-- A choice between the two multiples of 2^q that bracket a magnitude: whether the larger one is taken, by q, the smaller multiple
and the rest of 2^sh above it. -/
abbrev Pick := Int → Nat → Nat → Nat → Bool

/-- A magnitude m × 2^e as a multiple of 2^q, and whether anything was lost. -/
def roundBy (up : Pick) (m : Nat) (e q : Int) : Nat × Bool :=
  if q ≤ e then (m * 2 ^ (e - q).toNat, false)
  else
    let sh := (q - e).toNat
    let k := m / 2 ^ sh
    let rem := m % 2 ^ sh
    (if up q k rem sh then k + 1 else k, rem != 0)

/-- The choice of a rounding mode. -/
def pickMode (mode : Nat) (s : Bool) : Pick := fun _ => roundUp mode s

def roundTo (mode : Nat) (s : Bool) (m : Nat) (e q : Int) : Nat × Bool := roundBy (pickMode mode s) m e q

/-- A nonzero exact value delivered in a format by a choice of bracketing values, with the flags of R48; an overflow gives what
the mode says (02 R46). -/
def deliverBy (f : Fmt) (mode : Nat) (up : Pick) (s : Bool) (m : Nat) (e : Int) : Val :=
  if m = 0 then (f.zero s, 0)
  else
    let E : Int := (bitLen m : Int) - 1 + e
    let emin : Int := 1 - (f.bias : Int)
    let q : Int := max (E - f.t) (emin - f.t)
    let (r, inexact) := roundBy up m e q
    let tooBig := (2 ^ (f.t + 1) - 1) * 2 ^ ((f.bias : Int) - f.t - q).toNat < r || ((f.bias : Int) - f.t < q)
    if tooBig then
      let toInf := match mode with | 0 => true | 1 => false | 2 => s | 3 => !s | _ => true
      (if toInf then f.inf s else f.big s, fOF ||| fNX)
    else
      let (r', _) := roundBy up m e (E - f.t)
      let tiny := E < emin - 1 || (E == emin - 1 && r' < 2 ^ (f.t + 1))
      (f.zero s + ((q - (emin - f.t)).toNat * 2 ^ f.t + r),
        (if inexact then fNX else 0) ||| (if inexact && tiny then fUF else 0))

/-- Rounding of a nonzero exact value to a format (02 R45, R46) with the flags of R48. -/
def roundFin (f : Fmt) (mode : Nat) (s : Bool) (m : Nat) (e : Int) : Val := deliverBy f mode (pickMode mode s) s m e

/-- The delivered result of an exact value. -/
def FV.round (f : Fmt) (mode : Nat) (v : FV) : Val :=
  match v with
  | .nan sig => (f.nan, if sig then fNV else 0)
  | .inf s => (f.inf s, 0)
  | .fin s m e => roundFin f mode s m e

/-! ### Exact arithmetic -/

/-- A signed magnitude at a power of two as an integer. -/
def scaled (s : Bool) (m : Nat) (e q : Int) : Int :=
  let a : Int := m * 2 ^ (e - q).toNat
  if s then -a else a

/-- The exact product; 0 × ∞ is invalid. -/
def FV.mul (a b : FV) : FV × Fl :=
  let sg := if a.signalling || b.signalling then fNV else 0
  match a, b with
  | .nan _, _ => (.nan false, sg)
  | _, .nan _ => (.nan false, sg)
  | .inf s, .inf t => (.inf (s != t), 0)
  | .inf s, .fin t m _ => if m = 0 then (.nan false, fNV) else (.inf (s != t), 0)
  | .fin t m _, .inf s => if m = 0 then (.nan false, fNV) else (.inf (s != t), 0)
  | .fin s m e, .fin t n d => (.fin (s != t) (m * n) (e + d), 0)

/-- The exact sum; ∞ − ∞ is invalid. An exact zero takes its sign from R46 (02): the common sign, or the mode's. -/
def FV.add (mode : Nat) (a b : FV) : FV × Fl :=
  let sg := if a.signalling || b.signalling then fNV else 0
  match a, b with
  | .nan _, _ => (.nan false, sg)
  | _, .nan _ => (.nan false, sg)
  | .inf s, .inf t => if s = t then (.inf s, 0) else (.nan false, fNV)
  | .inf s, .fin _ _ _ => (.inf s, 0)
  | .fin _ _ _, .inf s => (.inf s, 0)
  | .fin s m e, .fin t n d =>
    let q := min e d
    let z := scaled s m e q + scaled t n d q
    if z = 0 then (.fin (if s = t then s else mode == 2) 0 q, 0)
    else (.fin (z < 0) z.natAbs q, 0)

def FV.neg (a : FV) : FV := match a with | .nan b => .nan b | .inf s => .inf (!s) | .fin s m e => .fin (!s) m e

/-- The exact sum of several exact terms, to be rounded once; neither its value nor its flags depend on their order (02 R44,
R61). -/
def sumExact (mode : Nat) (l : List (FV × Fl)) : FV × Fl :=
  let vs := l.map (·.1)
  let clash := vs.contains (.inf false) && vs.contains (.inf true)
  let fl := (l.foldl (fun acc x => acc ||| x.2) 0) ||| (if clash || vs.any FV.signalling then fNV else 0)
  if clash || vs.any FV.isNan then (.nan false, fl)
  else match vs with
    | [] => (.fin false 0 0, fl)
    | v :: t => (t.foldl (fun acc x => (FV.add mode acc x).1) v, fl)

/-- An exact result with its flags, rounded. -/
def finish (f : Fmt) (mode : Nat) (r : FV × Fl) : Val :=
  let v := r.1.round f mode
  (v.1, v.2 ||| r.2)

def fadd (f : Fmt) (mode a b : Nat) : Val := finish f mode (FV.add mode (f.value a) (f.value b))
def fsub (f : Fmt) (mode a b : Nat) : Val := finish f mode (FV.add mode (f.value a) (f.value b).neg)
def fmul (f : Fmt) (mode a b : Nat) : Val := finish f mode (FV.mul (f.value a) (f.value b))

/-- a × b + c with one rounding (06 R136). -/
def ffma (f : Fmt) (mode a b c : Nat) : Val :=
  let p := FV.mul (f.value a) (f.value b)
  let r := FV.add mode p.1 (f.value c)
  finish f mode (r.1, r.2 ||| p.2)

/-- a × b ± c × d with one rounding (06 R143). -/
def ftwo (f : Fmt) (mode : Nat) (minus : Bool) (a b c d : Nat) : Val :=
  let p := FV.mul (f.value a) (f.value b)
  let q := FV.mul (f.value c) (f.value d)
  let r := FV.add mode p.1 (if minus then q.1.neg else q.1)
  finish f mode (r.1, r.2 ||| p.2 ||| q.2)

/-- Comparison of two numbers: less, equal, greater; none when unordered. −0 equals +0. -/
def fcompare (f : Fmt) (a b : Nat) : Option Ordering :=
  match f.value a, f.value b with
  | .nan _, _ => none
  | _, .nan _ => none
  | .inf s, .inf t => some (if s = t then .eq else if s then .lt else .gt)
  | .inf s, .fin _ _ _ => some (if s then .lt else .gt)
  | .fin _ _ _, .inf t => some (if t then .gt else .lt)
  | .fin s m e, .fin t n d =>
    let q := min e d
    some (compare (scaled s m e q) (scaled t n d q))

/-- Float minimum and maximum (06 R137): −0 below +0, a number before a NaN. -/
def fminmax (f : Fmt) (isMax : Bool) (a b : Nat) : Val :=
  let fl : Fl := if (f.value a).signalling || (f.value b).signalling then fNV else 0
  if (f.value a).isNan then (if (f.value b).isNan then f.nan else b, fl)
  else if (f.value b).isNan then (a, fl)
  else
    let less := match fcompare f a b with
      | some .lt => true
      | some .eq => (f.value a).sign && !(f.value b).sign
      | _ => false
    (if less != isMax then a else b, fl)

/-- The class of an element (06 R141). -/
def fclass (f : Fmt) (a : Nat) : Nat :=
  match f.value a with
  | .inf true => 1
  | .inf false => 2 ^ 7
  | .nan true => 2 ^ 8
  | .nan false => 2 ^ 9
  | .fin s m _ =>
    if m = 0 then (if s then 2 ^ 3 else 2 ^ 4)
    else if m < 2 ^ f.t then (if s then 2 ^ 2 else 2 ^ 5)
    else (if s then 2 else 2 ^ 6)

/-! ### The summation tree (02 R61) -/

/-- One level of the tree: neighbours combined, a lone one carried. -/
def treeLevel (op : Nat → Nat → Val) : List (Option Val) → List (Option Val)
  | [] => []
  | [a] => [a]
  | a :: b :: t =>
    (match a, b with
      | none, y => y
      | x, none => x
      | some x, some y => let r := op x.1 y.1; some (r.1, r.2 ||| x.2 ||| y.2)) :: treeLevel op t

/-- TreeSum over the present leaves, with `n` levels (enough for 2^n leaves); none when no leaf is present. -/
def treeSum (op : Nat → Nat → Val) : Nat → List (Option Val) → Option Val
  | 0, l => match l with | [] => none | a :: _ => a
  | n + 1, l => treeSum op n (treeLevel op l)

/-- The result of a float reduction: a NaN leaf that met no other one gives the canonical NaN too, and a signalling one NV
(02 R44; notes/assumptions/72.md). -/
def settleNan (f : Fmt) (r : Val) : Val :=
  if (f.value r.1).isNan then (f.nan, r.2 ||| (if (f.value r.1).signalling then fNV else 0)) else r

/-- Levels for a list of leaves. -/
def levels (n : Nat) : Nat := bitLen (n - 1)

end Sys2Proof.Machine
end

