-- ==== Sys2Proof/Machine/Numeric.lean ====
section
/-!
DEFINITION. Conversions (02 R52 to R55), block-scaled integers (02 R56 to R60), and the rounded functions of 06 R138: division,
square root, reciprocals, exponentials, logarithms, sine and cosine. Each function is computed as an exact rational or as
a fixed-point lower bound far closer than any rounding boundary, with a last bit that says "and something more".
-/
namespace Sys2Proof.Machine

/-! ### Integers as elements -/

/-- The value of a w-bit element, signed or unsigned (02 R38). -/
def intVal (w : Nat) (sg : Bool) (x : Nat) : Int :=
  let u := x % 2 ^ w
  if sg && 2 ^ (w - 1) ≤ u then (u : Int) - (2 ^ w : Nat) else u

/-- The low w bits of an integer (02 R39, Wrap). -/
def wrapInt (w : Nat) (z : Int) : Nat := (z % ((2 ^ w : Nat) : Int)).toNat

def intMin (w : Nat) (sg : Bool) : Int := if sg then -((2 ^ (w - 1) : Nat) : Int) else 0
def intMax (w : Nat) (sg : Bool) : Int := if sg then ((2 ^ (w - 1) : Nat) : Int) - 1 else ((2 ^ w : Nat) : Int) - 1

/-- An integer clamped to the range of a type (02 R39, SatS and SatN). -/
def clampInt (w : Nat) (sg : Bool) (z : Int) : Int := max (intMin w sg) (min (intMax w sg) z)

/-- The w bits of an integer result, wrapped or saturated. -/
def putInt (w : Nat) (sg sat : Bool) (z : Int) : Nat := wrapInt w (if sat then clampInt w sg z else z)

/-! ### Conversions -/

/-- A finite value rounded to an integer by a mode, and whether anything was lost. -/
def roundToInt (mode : Nat) (s : Bool) (m : Nat) (e : Int) : Int × Bool :=
  let r := roundTo mode s m e 0
  (if s then -(r.1 : Int) else r.1, r.2)

/-- Float to integer (02 R53). -/
def toIntVal (w : Nat) (sg : Bool) (mode : Nat) (v : FV) : Val :=
  match v with
  | .nan _ => (0, fNV)
  | .inf s => (wrapInt w (if s then intMin w sg else intMax w sg), fNV)
  | .fin s m e =>
    let r := roundToInt mode s m e
    if r.1 < intMin w sg ∨ intMax w sg < r.1 then (wrapInt w (clampInt w sg r.1), fNV)
    else (wrapInt w r.1, if r.2 then fNX else 0)

/-- Integer to float (02 R54). -/
def ofIntVal (f : Fmt) (mode : Nat) (z : Int) : Val := roundFin f mode (z < 0) z.natAbs 0

/-- `Convert` between two element types (02 R52 to R55). -/
def convertElem (ts td mode : Nat) (sat : Bool) (x : Nat) : Val :=
  let ws := tyWidth ts
  let wd := tyWidth td
  if ts ≤ 7 then
    let z := intVal ws (ts ≤ 3) x
    if td ≤ 7 then (putInt wd (td ≤ 3) sat z, 0) else ofIntVal (fmtOf td) mode z
  else
    let v := (fmtOf ts).value x
    if td ≤ 7 then toIntVal wd (td ≤ 3) mode v else v.round (fmtOf td) mode

/-! ### Block-scaled integers -/

/-- The element bits of a block-scaled type code: 12 .mxi4, 13 .mxi6, 14 .mxi8 (02 R57, 03 R67). -/
def mxBits (ty : Nat) : Nat := match ty with | 12 => 4 | 13 => 6 | _ => 8

/-- The bytes of a block (02 R56). -/
def mxBlock (ty : Nat) : Nat := match ty with | 12 => 17 | 13 => 25 | _ => 33

/-- The integer of element `i` of a block (02 R58). -/
def mxInt (ty : Nat) (blk : List Byte) (i : Nat) : Int :=
  let b := mxBits ty
  intVal b true (bytesToNat (blk.take (mxBlock ty - 1)) / 2 ^ (b * i))

def mxScale (ty : Nat) (blk : List Byte) : Nat := (blk.getD (mxBlock ty - 1) 0).toNat

/-- The value of element `i` of a block (02 R57, R60). A NaN block's elements raise NV wherever they are converted. -/
def mxValue (ty : Nat) (blk : List Byte) (i : Nat) : FV :=
  let E := mxScale ty blk
  if E = 255 then .nan true
  else
    let z := mxInt ty blk i
    .fin (z < 0) z.natAbs ((E : Int) - 127 - (mxBits ty - 2 : Nat))

/-- A block from its 32 integers and its scale byte (02 R58). -/
def mxPack (ty : Nat) (is : List Int) (E : Nat) : List Byte :=
  let b := mxBits ty
  let n := is.foldr (fun z acc => acc * 2 ^ b + wrapInt b z) 0
  natToBytes (mxBlock ty - 1) n ++ [BitVec.ofNat 8 E]

/-- `Floor(Log2(x))` of a nonzero finite value. -/
def flog2 (m : Nat) (e : Int) : Int := (Nat.log2 m : Int) + e

/-- `ToMx` (02 R59): 32 values into one block, with its flags. -/
def toMx (ty mode : Nat) (xs : List FV) : List Byte × Fl :=
  let b := mxBits ty
  if xs.any fun x => x.isNan || x.isInf then (mxPack ty (List.replicate 32 0) 255, fNV)
  else
    let logs := xs.filterMap fun x => match x with
      | .fin _ m e => if m = 0 then none else some (flog2 m e + 127)
      | _ => none
    let top : Option Int := logs.foldl (fun acc l => match acc with | none => some l | some a => some (max a l)) none
    let E : Int := match top with | none => 0 | some l => max 0 (min 254 l)
    let tooBig := match top with | none => false | some l => 254 < l
    let one (x : FV) : Int × Bool :=
      match x with
      | .fin s m e =>
        let r := roundToInt mode s m (e - (E - 127) + (b - 2 : Nat))
        let I := max (-(2 ^ (b - 1) - 1 : Nat) : Int) (clampInt b true r.1)
        (I, r.2 || I != r.1)
      | _ => (0, false)
    let rs := xs.map one
    (mxPack ty (rs.map (·.1)) E.toNat,
      (if tooBig then fOF else 0) ||| (if rs.any (·.2) then fNX else 0))

/-- A value out of a block-scaled format, converted to an element type (02 R60). -/
def convertFrom (td mode : Nat) (v : FV) : Val :=
  if td ≤ 7 then toIntVal (tyWidth td) (td ≤ 3) mode v else v.round (fmtOf td) mode

/-! ### Exact quotients and roots -/

/-- The integer square root, from bit `b` of the root down. -/
def isqrtFrom (n : Nat) : Nat → Nat → Nat
  | 0, r => r
  | b + 1, r => let c := r + 2 ^ b; isqrtFrom n b (if c * c ≤ n then c else r)

def isqrt (n : Nat) : Nat := isqrtFrom n (bitLen n / 2 + 1) 0

/-- A magnitude with one more low bit that is 1 exactly when something was cut off. -/
def withSticky (m : Nat) (lost : Bool) : Nat := 2 * m + (if lost then 1 else 0)

/-- The quotient of two finite values, the second not zero. -/
def quotient (s t : Bool) (m n : Nat) (e d : Int) : FV :=
  let k := 80 + bitLen n
  let a := m * 2 ^ k
  .fin (s != t) (withSticky (a / n) (a % n != 0)) (e - d - k - 1)

/-- The square root of a nonnegative finite value. -/
def root (m : Nat) (e : Int) : FV :=
  let odd : Nat := if e % 2 = 0 then 0 else 1
  let a := m * 2 ^ (odd + 160)
  let r := isqrt a
  .fin false (withSticky r (r * r != a)) ((e - odd - 160) / 2 - 1)

/-- The reciprocal square root of a positive finite value. -/
def rootRecip (m : Nat) (e : Int) : FV :=
  let odd : Nat := if e % 2 = 0 then 0 else 1
  let n := m * 2 ^ odd
  let k := 160 + 2 * bitLen n
  let a := 2 ^ k / n
  let r := isqrt a
  .fin false (withSticky r (r * r * n != 2 ^ k)) (-((e - odd) / 2) - (k / 2 : Nat) - 1)

/-! ### Fixed point -/

/-- Fraction bits of the fixed-point functions. -/
def fx : Nat := 320

/-- Σ z^(2j+1)/(2j+1) with alternating signs or not, for z = p/2^q: `n` terms from the power `pw` of term `j`. -/
def oddSeries (alt : Bool) (zz q : Nat) : Nat → Nat → Nat → Int
  | 0, _, _ => 0
  | n + 1, j, pw =>
    let term : Int := (pw / (2 * j + 1) : Nat)
    (if alt && j % 2 == 1 then -term else term) + oddSeries alt zz q n (j + 1) (pw * zz / 2 ^ q)

/-- arctan(1/n) at `q` fraction bits. -/
def atanInv (n q : Nat) : Int := oddSeries true (2 ^ q / (n * n)) q (q / 4 + 8) 0 (2 ^ q / n)

/-- π at `q` fraction bits, to within 2^16 units (Machin's formula). -/
def piFix (q : Nat) : Nat := (16 * atanInv 5 q - 4 * atanInv 239 q).toNat

/-- artanh of z/2^fx, for z at most a third. -/
def atanhFix (z : Nat) : Int := oddSeries false (z * z / 2 ^ fx) fx 120 0 z

def ln2Fix : Int := 2 * atanhFix (2 ^ fx / 3)

/-- ln of a magnitude m scaled into [1, 2). -/
def lnFix (m : Nat) : Int :=
  let l := Nat.log2 m
  let x := m * 2 ^ fx / 2 ^ l
  2 * atanhFix ((x - 2 ^ fx) * 2 ^ fx / (x + 2 ^ fx))

/-- Σ r^j/j! from term `j`, with `n` terms. -/
def expSeries (r : Nat) : Nat → Nat → Nat → Nat
  | 0, _, _ => 0
  | n + 1, j, t => t + expSeries r n (j + 1) (t * r / 2 ^ fx / (j + 1))

/-- sin and cos series: every second term of r^j/j!, with alternating signs. -/
def trigSeries (rr : Nat) : Nat → Nat → Nat → Int
  | 0, _, _ => 0
  | n + 1, j, t => (t : Int) - trigSeries rr n (j + 2) (t * rr / 2 ^ fx / ((j + 1) * (j + 2)))

/-- A fixed-point number known to within 2^20 units as a value with a last bit set: it lies inside an interval that no
rounding boundary divides. -/
def fromFix (z : Int) (e : Int) : FV :=
  .fin (z < 0) (withSticky (z.natAbs / 2 ^ 21) true) (e - fx + 20)

/-- A value just above or below one: nearer to it than that of any operand of magnitude 2^−200 (exponentials) or 2^−100 (cosine) or more, so
that faithful results stay monotonic. -/
def nearOne (up : Bool) : FV := .fin false (if up then 2 ^ 210 + 1 else 2 ^ 210 - 1) (-210)

/-- m × 2^e in fixed point (cut off). -/
def toFix (m : Nat) (e : Int) : Int :=
  if 0 ≤ e + fx then m * 2 ^ (e + fx).toNat else (m / 2 ^ (-(e + fx)).toNat : Nat)

/-- exp of a nonzero finite value, or 2 to it: from a magnitude of 2^13 on, which is far beyond the range of every format, a value beyond all
the others. -/
def expValue (two : Bool) (s : Bool) (m : Nat) (e : Int) : FV :=
  let top := flog2 m e
  if 12 < top then .fin false 3 (if s then -20000 else 20000)
  else if top < -200 then nearOne (!s)
  else
    let x := if s then -toFix m e else toFix m e
    if two then
      let k := x / 2 ^ fx
      let r := x % 2 ^ fx
      if r = 0 then .fin false 1 k
      else fromFix (expSeries (r * ln2Fix / 2 ^ fx).toNat 90 0 (2 ^ fx)) k
    else
      let k := x / ln2Fix
      fromFix (expSeries (x - k * ln2Fix).toNat 90 0 (2 ^ fx)) k

/-- ln or log2 of a positive finite value. -/
def logValue (two : Bool) (m : Nat) (e : Int) : FV :=
  let E := flog2 m e
  if m = 2 ^ Nat.log2 m then
    (if two then .fin (E < 0) E.natAbs 0 else if E = 0 then .fin false 0 0 else fromFix (E * ln2Fix) 0)
  else if two then fromFix (E * 2 ^ fx + lnFix m * 2 ^ fx / ln2Fix) 0
  else fromFix (E * ln2Fix + lnFix m) 0

/-- The whole quarter turns in a magnitude. -/
def quarterTurns (m : Nat) (e : Int) : Nat :=
  if flog2 m e < -100 then 0
  else
    let q := fx + 200 + e.toNat + bitLen m
    2 * (if 0 ≤ e + q then m * 2 ^ (e + q).toNat else m / 2 ^ (-(e + q)).toNat) / piFix q

/-- sin or cos of a nonzero finite value; the argument is reduced with as many bits of π as its exponent needs. -/
def trigValue (cos : Bool) (s : Bool) (m : Nat) (e : Int) : FV :=
  if flog2 m e < -100 then
    (if cos then nearOne false else .fin s (m * 2 ^ 200 - 1) (e - 200))
  else
    let q := fx + 200 + e.toNat + bitLen m
    let p := piFix q
    let x := if 0 ≤ e + q then m * 2 ^ (e + q).toNat else m / 2 ^ (-(e + q)).toNat
    let n := 2 * x / p
    let r := (2 * x - n * p) / 2 / 2 ^ (q - fx)
    let rr := r * r / 2 ^ fx
    let sn := trigSeries rr 50 1 r
    let cs := trigSeries rr 50 0 (2 ^ fx)
    let v : Int := match (if cos then n + 1 else n) % 4 with
      | 0 => sn
      | 1 => cs
      | 2 => -sn
      | _ => -cs
    fromFix (if s && !cos then -v else v) 0

/-! ### The rounded functions of 06 R138 -/

inductive Fun1 where
  | sqrt | rcp | rsq | exp | log | exp2 | log2 | sin | cos
  deriving DecidableEq, Repr

/-- The exact result of a function, with NV and DZ. -/
def Fun1.exact (u : Fun1) (v : FV) : FV × Fl :=
  match v with
  | .nan sg => (.nan false, if sg then fNV else 0)
  | .inf s =>
    (match u with
      | .sqrt => if s then (.nan false, fNV) else (.inf false, 0)
      | .rcp => (.fin s 0 0, 0)
      | .rsq => if s then (.nan false, fNV) else (.fin false 0 0, 0)
      | .exp | .exp2 => if s then (.fin false 0 0, 0) else (.inf false, 0)
      | .log | .log2 => if s then (.nan false, fNV) else (.inf false, 0)
      | .sin | .cos => (.nan false, fNV))
  | .fin s m e =>
    if m = 0 then
      (match u with
        | .sqrt => (.fin s 0 0, 0)
        | .rcp | .rsq => (.inf s, fDZ)
        | .exp | .exp2 | .cos => (.fin false 1 0, 0)
        | .log | .log2 => (.inf true, fDZ)
        | .sin => (.fin s 0 0, 0))
    else match u with
      | .sqrt => if s then (.nan false, fNV) else (root m e, 0)
      | .rcp => (quotient false s 1 m 0 e, 0)
      | .rsq => if s then (.nan false, fNV) else (rootRecip m e, 0)
      | .exp => (expValue false s m e, 0)
      | .exp2 => (expValue true s m e, 0)
      | .log => if s then (.nan false, fNV) else (logValue false m e, 0)
      | .log2 => if s then (.nan false, fNV) else (logValue true m e, 0)
      | .sin => (trigValue false s m e, 0)
      | .cos => (trigValue true s m e, 0)

/-- Whether the result is faithful rather than correctly rounded (06 R138). -/
def Fun1.faithful (u : Fun1) (ty : Nat) : Bool := ty == 11 || u == .sin || u == .cos

/-- The choice of a faithful result: the larger magnitude from a free fraction of the bracket on, so that the result grows with the
exact one (06 R138); `part` is the part of its domain in which sine and cosine are monotonic. -/
def pickFaithful (op ty rm part : Nat) (s : Bool) : Pick := fun q k rem sh =>
  let c := Config.faithfulCut op ty rm part s q k
  rem != 0 && decide (c.1 * 2 ^ sh ≤ rem * c.2)

/-- An exact result with its flags, delivered correctly rounded or faithfully. -/
def finishBy (faithful : Bool) (op ty rm part : Nat) (r : FV × Fl) : Val :=
  match r.1 with
  | .fin s m e =>
    let v := deliverBy (fmtOf ty) rm (if faithful then pickFaithful op ty rm part s else pickMode rm s) s m e
    (v.1, v.2 ||| r.2)
  | _ => finish (fmtOf ty) rm r

/-- The number of quarter turns in an argument of sine and cosine, twice, with its sign; 0 for the other functions. -/
def Fun1.part (u : Fun1) (v : FV) : Nat :=
  match u, v with
  | .sin, .fin s m e => 2 * quarterTurns m e + (if s then 1 else 0)
  | .cos, .fin s m e => 2 * quarterTurns m e + (if s then 1 else 0)
  | _, _ => 0

def Fun1.apply (u : Fun1) (op ty rm a : Nat) : Val :=
  let v := (fmtOf ty).value a
  finishBy (u.faithful ty) op ty rm (u.part v) (u.exact v)

/-- The exact quotient of two values, with its flags. -/
def divExact (x y : FV) : FV × Fl :=
  let sg := if x.signalling || y.signalling then fNV else 0
  match x, y with
  | .nan _, _ => (.nan false, sg)
  | _, .nan _ => (.nan false, sg)
  | .inf _, .inf _ => (.nan false, fNV)
  | .inf s, .fin t _ _ => (.inf (s != t), 0)
  | .fin s _ _, .inf t => (.fin (s != t) 0 0, 0)
  | .fin s m e, .fin t n d =>
    if n = 0 then (if m = 0 then (.nan false, fNV) else (.inf (s != t), fDZ))
    else if m = 0 then (.fin (s != t) 0 0, 0)
    else (quotient s t m n e d, 0)

/-- Float division (06 R138). -/
def fdiv (op ty rm a b : Nat) : Val :=
  let f := fmtOf ty
  finishBy (ty == 11) op ty rm 0 (divExact (f.value a) (f.value b))

end Sys2Proof.Machine
end

