-- ==== Sys2Proof/Machine/Translate.lean ====
section
/-!
DEFINITION. From a handle to bytes (08): address-space descriptors (14 R324), tensor and tile entries (08 R188 to R193), the
local windows and their guard granules (08 R182, R183, R203), the checks of an access in their order (01 R19, 09 R210), the
frame pool and copy-on-write (08 R196, 14 R325), the tile translation caches (08 R200) and instruction fetch (01 R20).
-/
namespace Sys2Proof.Machine

/-! ### Contexts -/

/-- For whom an access is made: the core, the stream whose guard latch it may set, the address space, the team with its
windows, and whether it is user-level. -/
structure Ctx where
  core : Nat
  k : Nat
  asid : Nat
  w1 : Nat
  w1len : Nat
  guard : Nat
  w2 : Nat
  w2len : Nat
  cluster : Nat
  froz : List Nat
  user : Bool
  seen : List (Nat × List Host.Cell) := []
  far : Option (List FarBytes) := none   -- what has been read through handles of REMOTE tensors, of an operation that may do so
  walked : List (Nat × Nat) := []   -- tiles that the access has walked
  code : List (Nat × List Byte) := []   -- the stores, at keys, that fetch sees before they perform (01 R20)
  deriving DecidableEq, Repr

/-- The unit of an engine operation's reads at a key (10 R242): a 256 B line of HBM, a 128 B row elsewhere. -/
def readUnit (a : Nat) : Nat := if a < 2 ^ 39 then a / 256 else 2 ^ 39 + a / 128

/-- What an engine operation has read of a byte ahead of its other sources. -/
def seenByte (a : Nat) : List (Nat × List Host.Cell) → Option Byte
  | [] => none
  | (n, m) :: t => if Config.readsNow n (readUnit a) then some (FMap.get (0 : Byte) m a) else seenByte a t

/-- Bytes as an agent reads them. -/
def Ctx.bytes (c : Ctx) (s : State) (a n : Nat) : List Byte :=
  if c.seen = [] then s.bytes a n else (List.range n).map fun i => (seenByte (a + i) c.seen).getD (s.byte (a + i))

/-- Word 6 of a method entry (07 R162). -/
def spadOf (m : Word) : Nat := field m 50 11
def cmemOf (m : Word) : Nat := field m 38 12
def guardOfMethod (m : Word) : Nat := field m 34 4
def teamSize (m : Word) : Nat := match field m 61 3 with | 0 => 1 | 1 => 2 | 2 => 3 | _ => 6

def teamCtx (tm : Team) (core k : Nat) (user : Bool) : Ctx :=
  { core := core, k := k, asid := tm.asid, w1 := tm.w1,
    w1len := (2 * guardOfMethod tm.method6 + spadOf tm.method6) * 4096, guard := guardOfMethod tm.method6,
    w2 := tm.w2, w2len := cmemOf tm.method6 * 4096, cluster := clusterOf core, froz := tm.froz, user := user }

/-- An agent without windows: the sequencer, the host, a camp core, or an agent of another package. -/
def agentCtx (asid : Nat) (user : Bool) : Ctx :=
  { core := 0, k := 0, asid := asid, w1 := 0, w1len := 0, guard := 0, w2 := 0, w2len := 0, cluster := 0, froz := [], user := user }

def plainCtx (asid : Nat) : Ctx := agentCtx asid true

/-- Item 3 of flt.rd: word 0 of the entry that the access's walk read, or 0 if no walk took place (14 R334). -/
def Ctx.walkWord (c : Ctx) (tid n : Nat) (w0 : Word) : Word := if c.walked.contains (tid, n) then w0 else 0

/-- The context of stream `k`. A core with no team reaches nothing. -/
def State.ctx (s : State) (k : Nat) : Ctx :=
  match (s.core (coreOf k)).team.bind s.team with
  | some tm => { teamCtx tm (coreOf k) k (!(s.ctl k).prv) with walked := (s.ctl k).walked }
  | none => { plainCtx 4096 with core := coreOf k, k := k }

/-! ### Checks -/

def Want.isLoad (w : Want) : Bool := w == .load

/-- The element width in bytes of a tag format 1 to 12. -/
def formatBytes (fmt : Nat) : Nat := tyWidth (fmt - 1) / 8

/-- The store rules of a well-formed tag (08 R193, R194). -/
def Want.accepts (w : Want) (tag : Nat) : Bool :=
  match w with
  | .load => true
  | .sequencer => true
  | .row => classOf tag != 1
  | .tensor => classOf tag == 0 && formatOf tag != 0
  | .scalar b => classOf tag == 0 && (formatOf tag == 0 || (formatOf tag ≤ 12 && formatBytes (formatOf tag) == b))

inductive Place where
  | win1
  | win2
  | tensor (t : Tensor)
  deriving DecidableEq, Repr

/-- Steps 1 to 3 of 01 R19 for the bytes `off` to `off + n − 1` (id 3 and the ids 4 to 15 name nothing here, 08 R181, R182). -/
def placeCheck (s : State) (c : Ctx) (tid off n : Nat) (write : Bool) : Except Byte Place :=
  if tid = 1 then (if off + n ≤ c.w1len ∧ 0 < c.w1len then .ok .win1 else .error cTILE_PROT)
  else if tid = 2 then (if off + n ≤ c.w2len ∧ 0 < c.w2len then .ok .win2 else .error cTILE_PROT)
  else match readTensor s c.asid tid with
    | none => .error cTILE_PROT
    | some t =>
      if !t.remote && t.bytes < off + n then .error cTILE_PROT
      else if write && (!t.wr || (t.ex && c.user) || c.froz.contains tid) then .error cTILE_PROT
      else if !write && !t.rd then .error cTILE_PROT
      else .ok (.tensor t)

/-- What the check of one piece of an access finds. -/
inductive PRes where
  | ok (spot : Spot)
  | guard                        -- a guard granule of window 1: suppressed (08 R203)
  | zero                         -- a load from a class-zero tile
  | trap (code : Byte) (w0 : Word)
  | miss (t : Tensor) (n : Nat)  -- the tile is not in the translation cache
  | remote (t : Tensor)
  deriving DecidableEq, Repr

/-- The cached entry of a tile, or the one in memory when no cache stands before it. -/
def lookupTile (s : State) (cached : Bool) (c : Ctx) (t : Tensor) (n : Nat) : Option Tile :=
  if cached then
    ((s.core c.core).tlb.find? fun e => e.asid == c.asid && e.tid == t.tid && e.n == n).map
      fun e => ⟨tileAddr t n, e.w0, e.w1⟩
  else some (readTile s t n)

/-- Step 4 of 01 R19 and the tag checks (08 R192 to R194) for a piece that lies in one tile. -/
def pieceCheck (s : State) (cached : Bool) (c : Ctx) (p : Place) (off : Nat) (w : Want) : PRes :=
  match p with
  | .win1 =>
    let g := off / 4096
    if g < c.guard || c.w1len / 4096 - c.guard ≤ g then .guard else .ok (.key (keyPad c.core (c.w1 * 4096 + off)))
  | .win2 => .ok (.key (keyCluster c.cluster (c.w2 * 4096 + off)))
  | .tensor t =>
    if t.remote then .remote t
    else
      let n := off / t.tbytes
      match lookupTile s cached c t n with
      | none => .miss t n
      | some e =>
        let fz := c.froz.contains t.tid
        let tag := e.viewTag fz
        if classOf tag = 1 ∧ ¬ malformed tag then
          (if w.isLoad then .zero else if w == .sequencer then .ok (.tile c.asid t.tid off) else .trap cTAG_MISMATCH (c.walkWord t.tid n e.w0))
        else if e.absent fz then .trap cTILE_ABSENT (c.walkWord t.tid n e.w0)
        else if malformed tag then .trap cTAG_MISMATCH (c.walkWord t.tid n e.w0)
        else if w.accepts tag then
          .ok (if fz then .key (frameKey t.tid (e.viewFrame fz) (off % t.tbytes)) else .tile c.asid t.tid off)
        else .trap cTAG_MISMATCH (c.walkWord t.tid n e.w0)

/-! ### The frame pool and copy-on-write -/

/-- TakeFrames (14 R325): `g` granules of the run at HEAD, and what that changes; none when the pool is short. -/
def takeFrames (s : State) (asid g : Nat) : Option (Nat × List Eff) :=
  let w3 := asWord s asid 3
  let w4 := asWord s asid 4
  let head := field w4 0 32
  if head = field w4 32 32 then none
  else
    let a := field w3 0 39 + 8 * (head % 2 ^ field w3 39 5)
    let e := s.word a
    let cnt := field e 32 16
    if cnt < g then none
    else
      let e' := BitVec.ofNat 64 ((cnt - g) * 2 ^ 32 + (field e 0 27 + g) % 2 ^ 27)
      some (field e 0 27, .store a (natToBytes 8 e'.toNat) ::
        (if cnt = g then [.store (asAddr s asid + 32) (natToBytes 4 (head + 1))] else []))

/-- Every cached copy of a tile's entry is dropped (08 R195, R201). -/
def dropTlb (p : Tlb → Bool) : Fx := fun s =>
  s.cores.filterMap fun e =>
    if e.2.tlb.any p then some (.core e.1 { e.2 with tlb := e.2.tlb.filter fun x => !p x }) else none

def sameTile (asid tid n : Nat) (e : Tlb) : Bool := e.asid == asid && e.tid == tid && e.n == n

/-- A new entry for a tile, at its home. -/
def putTile (asid tid n : Nat) (e : Tile) : Fx :=
  Fx.andThen (fun _ => [.store e.addr (natToBytes 8 e.w0.toNat ++ natToBytes 8 e.w1.toNat)])
    (dropTlb (sameTile asid tid n))

/-- The frame's granules copied to another frame. -/
def copyFrame (tid g src dst : Nat) : Fx := fun s =>
  (List.range g).map fun i => .store (frameKey tid (dst + i) 0) (s.bytes (frameKey tid (src + i) 0) 4096)

/-- Shadow (08 R196) without the write itself: a new frame (copied unless the write covers the whole tile), the old one
kept as the frozen copy; none when the pool is short. -/
def shadow (s : State) (asid : Nat) (t : Tensor) (n : Nat) (whole : Bool) : Option (List Eff) :=
  let e := readTile s t n
  match takeFrames s asid t.g with
  | none => none
  | some (fr, es) =>
    let w0 := setField (setField e.w0 36 27 fr) 30 1 0
    let w1 := setField (setField (setField e.w1 36 27 e.frame) 0 16 e.tag) 63 1 1
    some (((Fx.andThen (fun _ => es) (if whole then Fx.none else copyFrame t.tid t.g e.frame fr)).andThen
      (putTile asid t.tid n { e with w0 := w0, w1 := w1 })) s)

/-- A frame of zero bytes for a class-zero tile that is written in part (08 R193): the class becomes 0. -/
def giveFrame (s : State) (asid : Nat) (t : Tensor) (n : Nat) : Option (List Eff) :=
  let e := readTile s t n
  match takeFrames s asid t.g with
  | none => none
  | some (fr, es) =>
    let fz := e.cow
    let w0 := setField (setField (setField (setField e.w0 36 27 fr) 31 1 1) 8 3 0) 30 1 0
    let w1 := if fz then setField (setField (setField e.w1 36 27 e.frame) 0 16 e.tag) 63 1 1 else e.w1
    some (((Fx.andThen (fun _ => es) fun _ =>
        (List.range t.g).map fun i => .store (frameKey t.tid (fr + i) 0) (List.replicate 4096 0)).andThen
      (putTile asid t.tid n { e with w0 := w0, w1 := w1 })) s)

/-! ### Writes held for a tile that moves (14 R329) -/

/-- The tile of a place that is MOVING, with the slice that would hold a write to the place. -/
def movingTile (s : State) : Spot → Option (Nat × Nat × Nat × Nat)
  | .tile asid tid off =>
    (match readTensor s asid tid with
      | some t =>
        let e := readTile s t (off / t.tbytes)
        if e.moving then some (asid, tid, off / t.tbytes, homeSlice (e.frame * 4096 + off % t.tbytes)) else none
      | none => none)
  | .pair lo hi => (match movingTile s lo with | some m => some m | none => movingTile s hi)
  | _ => none

/-- A home takes a write to hold, if its slice holds fewer than 256. -/
def takeHeld (s : State) (asid tid n slice : Nat) (w : HeldWrite) : Option (List Eff) :=
  if isHeld s w then some []
  else if (s.held.filter fun h => h.slice == slice).length < 256 then some [.held (s.held ++ [⟨asid, tid, n, slice, w⟩])]
  else none

/-- What a write finds at the home of its place. -/
inductive Home where
  | write (e : List Eff)      -- performed
  | short                     -- the frame pool is short
  | moving                    -- held
  deriving Inhabited

/-- Runs of bytes written at an offset of a tile's current frame. -/
def tileStore (s : State) (t : Tensor) (off : Nat) (runs : List (Nat × List Byte)) : List Eff :=
  runs.map fun r => .store (frameKey t.tid (readTile s t (off / t.tbytes)).frame (off % t.tbytes + r.1)) r.2

/-- Runs of bytes below offset 4, and those from there on, from that offset. -/
def lowRuns (runs : List (Nat × List Byte)) : List (Nat × List Byte) :=
  (runs.map fun r => (r.1, r.2.take (4 - r.1))).filter fun r => r.2 ≠ []
def highRuns (runs : List (Nat × List Byte)) : List (Nat × List Byte) :=
  (runs.map fun r => (r.1 - 4, r.2.drop (4 - r.1))).filter fun r => r.2 ≠ []

/-- A write of runs of bytes, at offsets from a place, performs at its home in one step (08 R193, R196, 14 R329). -/
def homeWriteRuns (s : State) : Spot → List (Nat × List Byte) → Home
  | .nowhere, _ => .write []
  | .key a, runs => .write (runs.map fun r => .store (a + r.1) r.2)
  | .pair lo hi, runs =>
    (match homeWriteRuns s lo (lowRuns runs) with
      | .write e =>
        (match homeWriteRuns (s.applyAll e) hi (highRuns runs) with
          | .write e2 => .write (e ++ e2)
          | r => r)
      | r => r)
  | .tile asid tid off, runs =>
    match readTensor s asid tid with
    | none => .write []
    | some t =>
      let n := off / t.tbytes
      let e := readTile s t n
      if e.moving then .moving
      else if classOf e.tag = 1 ∧ ¬ malformed e.tag then
        match giveFrame s asid t n with
        | none => .short
        | some es => .write (es ++ tileStore (s.applyAll es) t off runs)
      else if e.cow then
        match shadow s asid t n (runs.any fun r => r.2.length == t.tbytes) with
        | none => .short
        | some es => .write (es ++ tileStore (s.applyAll es) t off runs)
      else .write (tileStore s t off runs)

/-- A write of bytes at a place. -/
def homeWrite (s : State) (spot : Spot) (bs : List Byte) : Home := homeWriteRuns s spot [(0, bs)]

/-- The bytes that a load of a place returns now: the current frame of its tile, or zeros. -/
def spotRead (s : State) : Spot → Nat → List Byte
  | .nowhere, n => List.replicate n 0
  | .key a, n => s.bytes a n
  | .pair lo hi, n => spotRead s lo (min n 4) ++ spotRead s hi (n - 4)
  | .tile asid tid off, n =>
    match readTensor s asid tid with
    | none => List.replicate n 0
    | some t =>
      let e := readTile s t (off / t.tbytes)
      if classOf e.tag = 1 ∧ ¬ malformed e.tag then List.replicate n 0
      else s.bytes (frameKey tid e.frame (off % t.tbytes)) n

/-- The 128 B rows of a place (05 R126). -/
def rowsOfSpot : Spot → List Nat
  | .nowhere => []
  | .key a => [keyRow a]
  | .tile asid tid off => [placeRow asid tid off]
  | .pair lo hi => rowsOfSpot lo ++ rowsOfSpot hi

/-! ### Walks -/

def iseqOf (s : State) (asid : Nat) : BitVec 32 := BitVec.ofNat 32 (field (asWord s asid 2) 0 32)

/-- A walk of tile `n` begins for an access of stream `k`, unless the port already walks it (08 R200, 14 R327 steps 1 and 2). -/
def startWalk (k core asid : Nat) (t : Tensor) (n : Nat) : Fx := fun s =>
  onCtl k (fun c => { c with walked := (t.tid, n) :: c.walked.erase (t.tid, n) }) s ++
  (if s.walks.any fun w => match w.2 with
      | some w => w.core == core && w.asid == asid && w.tid == t.tid && w.n == n
      | none => false then []
  else
    let e := readTile s t n
    [.walk s.nextId (some ⟨core, asid, t.tid, n, iseqOf s asid, e.w0, e.w1⟩), .fresh])

/-- A walk returns: stale, it reads again; otherwise it fills the cache, which keeps 256 entries (14 R327 step 3). -/
def walkReturn (w : Nat) : Fx := fun s =>
  match FMap.get none s.walks w with
  | none => []
  | some r =>
    match readTensor s r.asid r.tid with
    | none => [.walk w none]
    | some t =>
      let e := readTile s t r.n
      if iseqOf s r.asid ≠ r.iseq ∨ e.w0 ≠ r.w0 ∨ e.w1 ≠ r.w1 then
        [.walk w (some { r with iseq := iseqOf s r.asid, w0 := e.w0, w1 := e.w1 })]
      else
        let c := s.core r.core
        [.core r.core { c with
            tlb := (⟨r.asid, r.tid, r.n, r.w0, r.w1⟩ :: c.tlb.filter fun x => !sameTile r.asid r.tid r.n x).take 256 },
          .walk w none]

/-! ### Instruction fetch -/

/-- What fetching a byte comes to: the byte; a trap, with the entry that its walk read (14 R334); or a tensor of another package. -/
inductive FByte where
  | byte (b : Byte)
  | trap (code : Byte) (w0 : Word)
  | remote (t : Tensor)

/-- A byte of a frame as fetch sees it: a store that a fence and a jump of the stream stand behind is seen before it performs (01 R20). -/
def codeByte (s : State) (c : Ctx) (key : Nat) : Byte :=
  c.code.foldl (fun b x => if x.1 ≤ key ∧ key < x.1 + x.2.length then x.2.getD (key - x.1) 0 else b) (s.byte key)

/-- The byte at a handle as instruction fetch takes it (01 R20). Until the fence and the jump of R20 a fetch finds the bytes as they have
performed; the manual allows the others too (notes/assumptions/73.md). `probe`: the length probe of `loop`, which raises no TAG_MISMATCH
(04 R106). -/
def fetchByte (s : State) (c : Ctx) (probe : Bool) (h : Word) : FByte :=
  match readTensor s c.asid (tidOf h) with
  | none => .trap cTILE_PROT 0
  | some t =>
    if !t.ex || (!t.remote && t.bytes ≤ offOf h) then .trap cTILE_PROT 0
    else if t.remote then .remote t
    else
      let fz := c.froz.contains t.tid
      let e := readTile s t (offOf h / t.tbytes)
      let tag := e.viewTag fz
      if e.absent fz then .trap cTILE_ABSENT e.w0
      else if malformed tag && !probe then .trap cTAG_MISMATCH e.w0
      else if classOf tag = 1 then .byte 0
      else .byte (codeByte s c (frameKey t.tid (e.viewFrame fz) (offOf h % t.tbytes)))

/-- What fetching a run of bytes comes to; of a trap, the handle of the byte that fails too, which STM_TVAL then holds
(notes/assumptions/74.md). -/
inductive FWord where
  | bytes (bs : List Byte)
  | trap (code : Byte) (h : Word) (w0 : Word)
  | remote (t : Tensor) (h : Word)

/-- `n` bytes from a handle on, or why the first that cannot be read here is not. -/
def fetchBytes (s : State) (c : Ctx) (probe : Bool) : Nat → Word → FWord
  | 0, _ => .bytes []
  | n + 1, h =>
    match fetchByte s c probe h with
    | .trap code w0 => .trap code h w0
    | .remote t => .remote t h
    | .byte b =>
      match fetchBytes s c probe n (h + 1) with
      | .bytes t => .bytes (b :: t)
      | r => r

/-- The word at a handle, of the length its first bits give it (03 R63). -/
def fetchWord (s : State) (c : Ctx) (h : Word) : FWord :=
  match fetchBytes s c false 4 h with
  | .bytes bs =>
    (match fetchBytes s c false (wordLength (bytesToNat bs) - 4) (h + 4) with
      | .bytes t => .bytes (bs ++ t)
      | r => r)
  | r => r

end Sys2Proof.Machine
end

