-- ==== Sys2Proof/Machine/Operands.lean ====
section
/-!
DEFINITION. Operand forms: the 32-bit and 96-bit words widened to the fields of their 64-bit forms (03 R71 to R73), what the issue
wrapper needs of each format, immediates and effective addresses (09 R209), and vector registers as elements (02 R42,
05 R111).
-/
namespace Sys2Proof

/-! ### Widened forms -/

/-- No guard: `(p0)` (03 R64). -/
def unguarded : Guard := ⟨0, 0⟩

def CS.wide (f : CS) : FS :=
  { g := unguarded, sd := f.sd.setWidth 6, sa := f.sa.setWidth 6, sb := f.sb.setWidth 6, sc := 0, fp := 0, fo := 0, fn := 0 }

/-- An immediate instruction in any of its three words: the immediate is already extended. -/
structure ImmForm where
  g : Guard
  sd : Nat
  sa : Nat
  fp : BitVec 3
  fo : BitVec 3
  imm : Word
  len : Nat

def FI.form (f : FI) : ImmForm := ⟨f.g, f.sd.toNat, f.sa.toNat, f.fp, f.fo, sext 30 f.imm, 8⟩
def FI96.form (f : FI96) : ImmForm := ⟨f.g, f.sd.toNat, f.sa.toNat, f.fp, f.fo, sext 32 f.lit, 12⟩
def CI.form (f : CI) : ImmForm := ⟨unguarded, f.sd.toNat, f.sa.toNat, 0, 0, sext 10 f.imm, 4⟩

/-- A branch in any of its three words: the offset in bytes (04 R92). -/
structure BranchForm where
  g : Guard
  sa : Nat
  sb : Nat
  fp : BitVec 3
  fo : BitVec 3
  off : Word
  len : Nat

def FB.form (f : FB) : BranchForm := ⟨f.g, f.sa.toNat, f.sb.toNat, f.fp, f.fo, 4 * sext 30 f.off, 8⟩
def FB96.form (f : FB96) : BranchForm := ⟨f.g, f.sa.toNat, f.sb.toNat, f.fp, f.fo, 4 * sext 32 f.lit, 12⟩
def CB.form (f : CB) : BranchForm := ⟨unguarded, f.sa.toNat, f.sb.toNat, 0, 0, 4 * sext 11 f.off, 4⟩

/-- `jal` holds sd in the sa field (04 R93). -/
def CJ.form (f : CJ) : BranchForm := ⟨unguarded, f.sd.toNat, 0, 0, 0, 4 * sext 19 f.off, 4⟩

/-- A memory instruction in any of its words (09 R208, R209): `v` is the vd field, `off` the offset not yet scaled. -/
structure MemForm where
  g : Guard
  v : Nat
  sa : Nat
  sb : Nat
  cls : Nat
  fp : BitVec 3
  fo : BitVec 3
  pi : Bool
  z : Bool
  off : Word
  len : Nat

def FM.form (f : FM) : MemForm :=
  ⟨f.g, f.vd.toNat, f.sa.toNat, f.sb.toNat, f.cls.toNat, f.fp, f.fo, f.pi == 1, f.z == 1, sext 14 f.imm, 8⟩
def FM96.form (f : FM96) : MemForm :=
  ⟨f.g, f.vd.toNat, f.sa.toNat, f.sb.toNat, f.cls.toNat, f.fp, f.fo, f.pi == 1, f.z == 1, sext 32 f.lit, 12⟩
def CL.form (f : CL) (z : Bool) : MemForm :=
  ⟨unguarded, f.sd.toNat, f.sa.toNat, 0, 0, 0, 0, false, z, sext 11 f.imm, 4⟩
def CT.form (f : CT) : MemForm := ⟨unguarded, f.sv.toNat, f.sa.toNat, 0, 0, 0, 0, false, false, sext 11 f.imm, 4⟩
def CR.form (f : CR) : MemForm := ⟨unguarded, f.v.toNat, f.sa.toNat, 0, 0, 0, 0, false, false, sext 12 f.imm, 4⟩

/-- The 32-bit vector form (06 R134): RM is 7 for a rounding type that rounds, and 0 otherwise. -/
def CV.wide (f : CV) (rounds : Bool) : X3 :=
  { g := unguarded, vd := f.vd.setWidth 10, va := f.va.setWidth 10, vb := f.vb.setWidth 10, ty := f.ty,
    rm := if rounds && 8 ≤ f.ty.toNat then 7 else 0, fp := 0, fo := 0, md := 0, sat := 0 }

namespace Machine

/-! ### Effective addresses (09 R209) -/

/-- The access address of a memory instruction and, with PI, the base it leaves behind. -/
def memEa (f : MemForm) (s : State) (scale : Nat) : Word :=
  let base := s.sreg s.cur f.sa
  if f.pi then base else base + f.off * BitVec.ofNat 64 scale

def memBump (f : MemForm) (s : State) (scale : Nat) : List Eff :=
  if f.pi then [.sreg s.cur f.sa (s.sreg s.cur f.sa + f.off * BitVec.ofNat 64 scale)] else []

/-! ### Descriptors -/

def scalarDesc (op9 len : Nat) (g : Guard) (fp fo : BitVec 3) (sregs : List Nat) : Desc :=
  { len := len, op9 := op9, g := g, fp := fp, fo := fo, elem := false, priv := false, closes := false, sregs := sregs,
    vregs := [] }

def elemDesc (op9 len : Nat) (g : Guard) (fp fo : BitVec 3) (sregs vregs : List Nat) : Desc :=
  { len := len, op9 := op9, g := g, fp := fp, fo := fo, elem := true, priv := false, closes := false, sregs := sregs,
    vregs := vregs }

def fyDesc (f : FY) (op9 : Nat) (sregs : List Nat) : Desc := scalarDesc op9 8 f.g f.fp f.fo sregs

/-! ### Vectors as elements -/

def elemCount (w : Nat) : Nat := 1024 / w

/-- Element `i` of width `w` (02 R42). -/
def elemAt (w : Nat) (v : Vec) (i : Nat) : Nat := v.toNat / 2 ^ (w * i) % 2 ^ w

def elemsOf (w : Nat) (v : Vec) : List Nat := (List.range (elemCount w)).map (elemAt w v)

/-- Elements packed from bit 0 up. -/
def packElems (w : Nat) (l : List Nat) : Vec := BitVec.ofNat 1024 (l.foldr (fun x acc => acc * 2 ^ w + x % 2 ^ w) 0)

/-- The destination of an element instruction (05 R111, 06 R133): enabled elements take the result, the others are zeroed
or kept. -/
def mergeElems (w : Nat) (g : Pred) (zero : Bool) (old : Vec) (new : Nat → Nat) : Vec :=
  packElems w ((List.range (elemCount w)).map fun i =>
    if g.getLsbD i then new i else if zero then 0 else elemAt w old i)

/-- The bits of the elements that `p` picks out (05 R108). -/
def elemMask (w : Nat) (p : Nat → Bool) : Vec :=
  packElems w ((List.range (elemCount w)).map fun i => if p i then 2 ^ w - 1 else 0)

/-- A predicate from its bits below `n`; the others are 0. -/
def predOf (n : Nat) (p : Nat → Bool) : Pred :=
  BitVec.ofNat 128 ((List.range n).foldr (fun i acc => 2 * acc + (if p i then 1 else 0)) 0)

/-- The union of flags. -/
def joinFlags (l : List Fl) : Fl := l.foldl (· ||| ·) 0

/-- Bytes of a vector register, and a register from bytes. -/
def vecBytes (v : Vec) : List Byte := natToBytes 128 v.toNat
def vecOfBytes (l : List Byte) : Vec := BitVec.ofNat 1024 (bytesToNat l)

end Machine
end Sys2Proof
end

