-- ==== Sys2Proof/Machine/Issue.lean ====
section
/-!
DEFINITION. How the meaning of an instruction of a stream ends: the effects of its issue.
-/
namespace Sys2Proof.Machine

/-- The outcome of a stream's instruction. -/
def issue (s : State) (d : Desc) (body : State → Act) : Host.Outcome State Fault Refusal := answer s (issueFx d body)

end Sys2Proof.Machine
end

