-- ==== Sys2Proof/Machine/Vector.lean ====
section
/-!
DEFINITION. Vector and predicate instructions (06 R132 to R147): element arithmetic, comparison, conversion, reductions, permutes
and predicate logic.
-/
namespace Sys2Proof.Machine

/-! ### Rounding and flags -/

/-- The mode of a rounding field (02 R47); none when DYN finds 5 to 7 in STM_FPCTL.RM (01 R25). -/
def roundMode (c : Ctl) (rm : Nat) : Option Nat :=
  if rm = 7 then (if field c.fpctl 0 3 ≤ 4 then some (field c.fpctl 0 3) else none) else some rm

/-- The flags of an instruction: all of them are set; one that STM_FPCTL enables raises ARITH, and then no destination is
written (01 R26). -/
def withFlags (t : State) (fl : Fl) (e : Fx) : Act :=
  let k := t.cur
  let set := onCtl k fun c => { c with fpflags := c.fpflags ||| fl.setWidth 64 }
  if fl &&& BitVec.ofNat 5 (field (t.ctl k).fpctl 8 5) ≠ 0 then .trapWith set cARITH (fl.setWidth 64) none
  else if fl = 0 then .seq e
  else .seq (set.andThen e)

def x3Desc (op9 len : Nat) (f : X3) (sregs vregs : List Nat) : Desc := elemDesc op9 len f.g f.fp f.fo sregs vregs

/-- An element operation: type, mode, saturation, and the elements a, b and c of va, vb and vd. -/
abbrev EOp := Nat → Nat → Bool → Nat → Nat → Nat → Val

/-- The body of an element instruction with a vector destination. -/
def vecBody (op9 : Nat) (rounds : Bool) (h : EOp) (f : X3) (t : State) : Act :=
  let k := t.cur
  let co := coreOf k
  let ty := f.ty.toNat
  let w := tyWidth ty
  let g := guardPred t k f.g
  match (if rounds && 8 ≤ ty then roundMode (t.ctl k) f.rm.toNat else some f.rm.toNat) with
  | none => .trap cILLEGAL false t.word32 (fltOf op9)
  | some rm =>
    let a := t.vreg co f.va.toNat
    let b := t.vreg co f.vb.toNat
    let c := t.vreg co f.vd.toNat
    let vals : List Val := (List.range (elemCount w)).map fun i =>
      if g.getLsbD i then h ty rm (f.sat == 1) (elemAt w a i) (elemAt w b i) (elemAt w c i)
      else (if f.md.getLsbD 0 then 0 else elemAt w c i, 0)
    withFlags t (joinFlags (vals.map (·.2))) fun _ =>
      putV co f.vd.toNat (elemMask w fun i => f.md.getLsbD 0 || g.getLsbD i) (packElems w (vals.map (·.1)))

/-- An element instruction over va, vb and vd. -/
def vecOp (op9 len : Nat) (rounds : Bool) (h : EOp) (f : X3) (s : State) : Host.Outcome State Fault Refusal :=
  issue s (x3Desc op9 len f [] [f.vd.toNat, f.va.toNat, f.vb.toNat]) (vecBody op9 rounds h f)

/-! ### Element operations (06 R136) -/

/-- Integer types by exact integers, float types by a rounded operation. -/
def byType (int : Int → Int → Int → Int) (flt : Fmt → Nat → Nat → Nat → Nat → Val) : EOp := fun ty rm sat a b c =>
  let w := tyWidth ty
  let sg := decide (ty ≤ 3)
  if ty ≤ 7 then (putInt w sg sat (int (intVal w sg a) (intVal w sg b) (intVal w sg c)), 0)
  else flt (fmtOf ty) rm a b c

def eAdd : EOp := byType (fun a b _ => a + b) fun f m a b _ => fadd f m a b
def eSub : EOp := byType (fun a b _ => a - b) fun f m a b _ => fsub f m a b
def eMul : EOp := byType (fun a b _ => a * b) fun f m a b _ => fmul f m a b
def eFma : EOp := byType (fun a b c => a * b + c) fun f m a b c => ffma f m a b c
def eMin : EOp := byType (fun a b _ => min a b) fun f _ a b _ => fminmax f false a b
def eMax : EOp := byType (fun a b _ => max a b) fun f _ a b _ => fminmax f true a b

/-- Sign operations: a NaN gives the canonical NaN, no flag (06 R136). -/
def eAbs : EOp := byType (fun a _ _ => (a.natAbs : Int)) fun f _ a _ _ =>
  (if (f.value a).isNan then f.nan else a % f.signBit, 0)
def eNeg : EOp := byType (fun a _ _ => -a) fun f _ a _ _ =>
  (if (f.value a).isNan then f.nan else (a + f.signBit) % (2 * f.signBit), 0)

def eClass : EOp := fun ty _ _ a _ _ => (fclass (fmtOf ty) a, 0)
def eBits (h : Nat → Nat → Nat → Nat) : EOp := fun ty _ _ a b _ => (h (tyWidth ty) a b, 0)
def eAnd : EOp := eBits fun _ a b => a &&& b
def eOr : EOp := eBits fun _ a b => a ||| b
def eXor : EOp := eBits fun _ a b => a ^^^ b
def eAndn : EOp := eBits fun w a b => a &&& (2 ^ w - 1 - b)
def eMov : EOp := eBits fun _ a _ => a
def eSll : EOp := eBits fun w a b => a * 2 ^ (b % 128) % 2 ^ w
def eSrl : EOp := eBits fun _ a b => a / 2 ^ (b % 128)
def eSra : EOp := eBits fun w a b => wrapInt w (intVal w true a / (2 ^ (b % 128) : Nat))
def ePopc : EOp := eBits fun w a _ => onesIn a w
  where
    onesIn (a : Nat) : Nat → Nat
      | 0 => 0
      | n + 1 => a / 2 ^ n % 2 + onesIn a n
def eClz : EOp := eBits fun w a _ => w - bitLen a
def eMulh : EOp := eBits fun w a b => wrapInt w (intVal w true a * intVal w true b / (2 ^ w : Nat))
def eMulhu : EOp := eBits fun w a b => a * b / 2 ^ w
def eFun (u : Fun1) (op9 : Nat) : EOp := fun ty rm _ a _ _ => u.apply op9 ty rm a
def eDiv : EOp := fun ty rm _ a b _ => fdiv 0x044 ty rm a b

/-! ### Comparison and conversion -/

/-- One comparison (06 R139): the truth and the flags. -/
def compareElem (ty cond a b : Nat) : Bool × Fl :=
  let w := tyWidth ty
  let sg := decide (ty ≤ 3)
  let f := fmtOf ty
  let o : Option Ordering := if ty ≤ 7 then some (compare (intVal w sg a) (intVal w sg b)) else fcompare f a b
  let nan := decide (8 ≤ ty) && o.isNone
  let sig := decide (8 ≤ ty) && ((f.value a).signalling || (f.value b).signalling)
  let r := match cond with
    | 0 => o == some .eq
    | 1 => o != some .eq
    | 2 => o == some .lt
    | 3 => o == some .lt || o == some .eq
    | 4 => o == some .gt
    | 5 => o == some .gt || o == some .eq
    | _ => nan
  (r, if sig || (nan && 2 ≤ cond && cond ≤ 5) then fNV else 0)

def execVcmp (f : X3) (s : State) : Host.Outcome State Fault Refusal :=
  issue s (x3Desc 0x05C 8 f [] [f.va.toNat, f.vb.toNat]) fun t =>
    let k := t.cur
    let ty := f.ty.toNat
    let w := tyWidth ty
    let g := guardPred t k f.g
    let a := t.vreg (coreOf k) f.va.toNat
    let b := t.vreg (coreOf k) f.vb.toNat
    let rs : List (Bool × Fl) := (List.range (elemCount w)).map fun i =>
      if g.getLsbD i then compareElem ty f.md.toNat (elemAt w a i) (elemAt w b i) else (false, 0)
    withFlags t (joinFlags (rs.map (·.2))) fun _ =>
      [.preg k f.vd.toNat (predOf (elemCount w) fun i => (rs.getD i (false, 0)).1)]

/-- `vsel` (06 R140). -/
def execVsel (f : X3) (s : State) : Host.Outcome State Fault Refusal :=
  issue s (x3Desc 0x05D 8 f [] [f.vd.toNat, f.va.toNat, f.vb.toNat]) fun t =>
    let k := t.cur
    let co := coreOf k
    let w := tyWidth f.ty.toNat
    let p := t.preg k f.md.toNat
    .seq fun _ => putV co f.vd.toNat (elemMask w (guardPred t k f.g).getLsbD)
      (mergeElems w (guardPred t k f.g) false (t.vreg co f.vd.toNat) fun i =>
        elemAt w (t.vreg co (if p.getLsbD i then f.va.toNat else f.vb.toNat)) i)

/-- `vcvt` (06 R142): widening reads one part of va, narrowing fills one part of vd. -/
def execVcvt (f : X3) (s : State) : Host.Outcome State Fault Refusal :=
  issue s (x3Desc 0x05E 8 f [] [f.vd.toNat, f.va.toNat]) fun t =>
    let k := t.cur
    let co := coreOf k
    let td := f.ty.toNat
    let ts := f.md.toNat
    let wd := tyWidth td
    let ws := tyWidth ts
    let ed := elemCount wd
    let es := elemCount ws
    let part := f.vb.toNat
    let g := guardPred t k f.g
    match (if td ≤ 7 ∧ ts ≤ 7 then some 0 else roundMode (t.ctl k) f.rm.toNat) with
    | none => .trap cILLEGAL false t.word32 (fltOf 0x05E)
    | some rm =>
      let a := t.vreg co f.va.toNat
      let c := t.vreg co f.vd.toNat
      let src (i : Nat) : Option Nat := if ed ≤ es then some (part * ed + i)
        else if part * es ≤ i ∧ i < part * es + es then some (i - part * es) else none
      let vals : List Val := (List.range ed).map fun i =>
        match src i with
        | some j => if g.getLsbD i then convertElem ts td rm (f.sat == 1) (elemAt ws a j) else (elemAt wd c i, 0)
        | none => (elemAt wd c i, 0)
      withFlags t (joinFlags (vals.map (·.2))) fun _ =>
        putV co f.vd.toNat (elemMask wd fun i => (src i).isSome && g.getLsbD i) (packElems wd (vals.map (·.1)))

/-- `vcmul` (06 R143): each part from the full operands, rounded once. -/
def execVcmul (f : X3) (s : State) : Host.Outcome State Fault Refusal :=
  issue s (x3Desc 0x05F 8 f [] [f.vd.toNat, f.va.toNat, f.vb.toNat]) fun t =>
    let k := t.cur
    let co := coreOf k
    let w := tyWidth f.ty.toNat
    let fm := fmtOf f.ty.toNat
    let g := guardPred t k f.g
    match roundMode (t.ctl k) f.rm.toNat with
    | none => .trap cILLEGAL false t.word32 (fltOf 0x05F)
    | some rm =>
      let a := elemAt w (t.vreg co f.va.toNat)
      let b := elemAt w (t.vreg co f.vb.toNat)
      let vals : List Val := (List.range (elemCount w)).map fun i =>
        let m := i / 2 * 2
        if g.getLsbD i then
          (if i % 2 = 0 then ftwo fm rm true (a m) (b m) (a (m + 1)) (b (m + 1))
           else ftwo fm rm false (a m) (b (m + 1)) (a (m + 1)) (b m))
        else (if f.md.getLsbD 0 then 0 else elemAt w (t.vreg co f.vd.toNat) i, 0)
      withFlags t (joinFlags (vals.map (·.2))) fun _ =>
        putV co f.vd.toNat (elemMask w fun i => f.md.getLsbD 0 || g.getLsbD i) (packElems w (vals.map (·.1)))

/-! ### Reductions and scans (06 R144, R145) -/

/-- The tree's operation on element bits. -/
def treeOp (h : EOp) (ty rm : Nat) (sat : Bool) (a b : Nat) : Val := h ty rm sat a b 0

/-- The reduction of the leaves (02 R61). -/
def reduce (h : EOp) (ty rm : Nat) (sat : Bool) (empty : Nat) (leaves : List (Option Val)) : Val :=
  let r := (treeSum (treeOp h ty rm sat) (levels leaves.length) leaves).getD (empty, 0)
  if 8 ≤ ty then settleNan (fmtOf ty) r else r

/-- The result with no present leaf. -/
def emptyMin (ty : Nat) : Nat :=
  if ty ≤ 7 then wrapInt (tyWidth ty) (intMax (tyWidth ty) (ty ≤ 3)) else (fmtOf ty).inf false
def emptyMax (ty : Nat) : Nat :=
  if ty ≤ 7 then wrapInt (tyWidth ty) (intMin (tyWidth ty) (ty ≤ 3)) else (fmtOf ty).inf true

/-- A reduction of va into element 0 of vd. -/
def reduceOp (op9 : Nat) (h : EOp) (empty : Nat → Nat) (rounds : Bool) (f : X3) (s : State) :
    Host.Outcome State Fault Refusal :=
  issue s (x3Desc op9 8 f [] [f.vd.toNat, f.va.toNat]) fun t =>
    let k := t.cur
    let co := coreOf k
    let ty := f.ty.toNat
    let w := tyWidth ty
    let g := guardPred t k f.g
    match (if rounds && 8 ≤ ty then roundMode (t.ctl k) f.rm.toNat else some 0) with
    | none => .trap cILLEGAL false t.word32 (fltOf op9)
    | some rm =>
      let leaves : List (Option Val) := (List.range (elemCount w)).map fun i =>
        if g.getLsbD i then some (elemAt w (t.vreg co f.va.toNat) i, 0) else none
      let r := reduce h ty rm (f.sat == 1) (empty ty) leaves
      withFlags t r.2 fun _ => putV co f.vd.toNat (BitVec.allOnes 1024) (BitVec.ofNat 1024 r.1)

/-- `vscan.add`: every element is the reduction of the leaves up to its own. -/
def execVscanAdd (f : X3) (s : State) : Host.Outcome State Fault Refusal :=
  issue s (x3Desc 0x063 8 f [] [f.vd.toNat, f.va.toNat]) fun t =>
    let k := t.cur
    let co := coreOf k
    let ty := f.ty.toNat
    let w := tyWidth ty
    let g := guardPred t k f.g
    match (if 8 ≤ ty then roundMode (t.ctl k) f.rm.toNat else some 0) with
    | none => .trap cILLEGAL false t.word32 (fltOf 0x063)
    | some rm =>
      let vals : List Val := (List.range (elemCount w)).map fun i =>
        reduce eAdd ty rm (f.sat == 1) 0 ((List.range (elemCount w)).map fun j =>
          if j ≤ i ∧ g.getLsbD j then some (elemAt w (t.vreg co f.va.toNat) j, 0) else none)
      withFlags t (joinFlags (vals.map (·.2))) fun _ =>
        putV co f.vd.toNat (BitVec.allOnes 1024) (packElems w (vals.map (·.1)))

/-! ### Permutes and moves (06 R146) -/

/-- A permute: each enabled element by its number. -/
def permuteOp (op9 : Nat) (sregs : List Nat) (zero : Bool) (h : State → Nat → Nat → Nat) (f : X3) (s : State) :
    Host.Outcome State Fault Refusal :=
  issue s (x3Desc op9 8 f sregs [f.vd.toNat, f.va.toNat, f.vb.toNat]) fun t =>
    let k := t.cur
    let co := coreOf k
    let w := tyWidth f.ty.toNat
    .seq fun _ => putV co f.vd.toNat (elemMask w fun i => zero || (guardPred t k f.g).getLsbD i)
      (mergeElems w (guardPred t k f.g) zero (t.vreg co f.vd.toNat) (h t w))

def execVperm (f : X3) (s : State) : Host.Outcome State Fault Refusal :=
  permuteOp 0x064 [] (f.md.getLsbD 0) (fun t w i =>
    let n := elemAt w (t.vreg (coreOf t.cur) f.vb.toNat) i
    if n < elemCount w then elemAt w (t.vreg (coreOf t.cur) f.va.toNat) n else 0) f s

def execVslide (f : X3) (s : State) : Host.Outcome State Fault Refusal :=
  permuteOp 0x065 [f.md.toNat] false (fun t w i =>
    let n := (t.sreg t.cur f.md.toNat).toNat + i
    let e := elemCount w
    if n < e then elemAt w (t.vreg (coreOf t.cur) f.va.toNat) n
    else if n < 2 * e then elemAt w (t.vreg (coreOf t.cur) f.vb.toNat) (n - e) else 0) f s

/-- `vrotm`: the pair of registers as one row of 256 bytes. -/
def execVrotm (f : X3) (s : State) : Host.Outcome State Fault Refusal :=
  permuteOp 0x066 [f.md.toNat] false (fun t w i =>
    let j := (t.sreg t.cur f.md.toNat).toNat % 128
    let pair := (t.vreg (coreOf t.cur) f.va.toNat).toNat + (t.vreg (coreOf t.cur) f.vb.toNat).toNat * 2 ^ 1024
    pair / 2 ^ (8 * j + w * i) % 2 ^ w) f s

def execVbcast (f : X3) (s : State) : Host.Outcome State Fault Refusal :=
  issue s (x3Desc 0x067 8 f [f.va.toNat] [f.vd.toNat]) fun t =>
    let co := coreOf t.cur
    let w := tyWidth f.ty.toNat
    .seq fun _ => putV co f.vd.toNat (elemMask w fun i => f.md.getLsbD 0 || (guardPred t t.cur f.g).getLsbD i)
      (mergeElems w (guardPred t t.cur f.g) (f.md.getLsbD 0) (t.vreg co f.vd.toNat) fun _ => (t.sreg t.cur f.va.toNat).toNat % 2 ^ w)

def execVins (f : X3) (s : State) : Host.Outcome State Fault Refusal :=
  issue s (x3Desc 0x069 8 f [f.va.toNat, f.vb.toNat] [f.vd.toNat]) fun t =>
    let co := coreOf t.cur
    let w := tyWidth f.ty.toNat
    let n := (t.sreg t.cur f.vb.toNat).toNat
    .seq fun _ => putV co f.vd.toNat (elemMask w fun i => i == n && (guardPred t t.cur f.g).getLsbD i)
      (mergeElems w (guardPred t t.cur f.g) false (t.vreg co f.vd.toNat) fun i =>
        if i = n then (t.sreg t.cur f.va.toNat).toNat % 2 ^ w else elemAt w (t.vreg co f.vd.toNat) i)

def execVext (f : X3) (s : State) : Host.Outcome State Fault Refusal :=
  issue s (x3Desc 0x06A 8 f [f.vd.toNat, f.vb.toNat] [f.va.toNat]) fun t =>
    let co := coreOf t.cur
    let w := tyWidth f.ty.toNat
    let n := (t.sreg t.cur f.vb.toNat).toNat
    .seq fun _ => [.sreg t.cur f.vd.toNat
      (if n < elemCount w ∧ (guardPred t t.cur f.g).getLsbD n then
        BitVec.ofInt 64 (intVal w (f.ty.toNat ≤ 3) (elemAt w (t.vreg co f.va.toNat) n))
       else 0)]

/-! ### Predicate instructions (06 R147) -/

/-- A predicate from predicates, bit by bit; disabled bits are written 0. -/
def predOp (op9 : Nat) (h : Bool → Bool → Bool) (f : X3) (s : State) : Host.Outcome State Fault Refusal :=
  issue s (x3Desc op9 8 f [] []) fun t =>
    let k := t.cur
    let g := guardPred t k f.g
    .seq fun _ => [.preg k f.vd.toNat (predOf 128 fun i =>
      g.getLsbD i && h ((t.preg k f.va.toNat).getLsbD i) ((t.preg k f.vb.toNat).getLsbD i))]

def execPand (f : X3) (s : State) : Host.Outcome State Fault Refusal := predOp 0x071 (fun a b => a && b) f s
def execPor (f : X3) (s : State) : Host.Outcome State Fault Refusal := predOp 0x072 (fun a b => a || b) f s
def execPxor (f : X3) (s : State) : Host.Outcome State Fault Refusal := predOp 0x073 (fun a b => a != b) f s
def execPnot (f : X3) (s : State) : Host.Outcome State Fault Refusal := predOp 0x074 (fun a _ => !a) f s

/-- `pcnt`: the tail mask. -/
def execPcnt (f : X3) (s : State) : Host.Outcome State Fault Refusal :=
  issue s (x3Desc 0x070 8 f [f.va.toNat] []) fun t =>
    let k := t.cur
    let g := guardPred t k f.g
    let n := (t.sreg k f.va.toNat).toNat
    .seq fun _ => [.preg k f.vd.toNat (predOf (elemCount (tyWidth f.ty.toNat)) fun i => g.getLsbD i && decide (i < n))]

/-- `pfirst`: the lowest enabled one bit. -/
def execPfirst (f : X3) (s : State) : Host.Outcome State Fault Refusal :=
  issue s (x3Desc 0x075 8 f [] []) fun t =>
    let k := t.cur
    let p := (guardPred t k f.g) &&& t.preg k f.va.toNat
    .seq fun _ => [.preg k f.vd.toNat (p &&& (~~~p + 1))]

/-- The number of one bits of a predicate. -/
def predCount (p : Pred) : Nat := (List.range 128).foldl (fun n i => if p.getLsbD i then n + 1 else n) 0

def execPpopc (f : X3) (s : State) : Host.Outcome State Fault Refusal :=
  issue s (x3Desc 0x076 8 f [f.vd.toNat] []) fun t =>
    .seq fun _ => [.sreg t.cur f.vd.toNat (BitVec.ofNat 64 (predCount ((guardPred t t.cur f.g) &&& t.preg t.cur f.va.toNat)))]

def execPany (f : X3) (s : State) : Host.Outcome State Fault Refusal :=
  issue s (x3Desc 0x077 8 f [f.vd.toNat] []) fun t =>
    .seq fun _ => [.sreg t.cur f.vd.toNat (if (guardPred t t.cur f.g) &&& t.preg t.cur f.va.toNat = 0 then 0 else 1)]

/-! ### The element instructions -/

def execVadd (f : X3) (s : State) : Host.Outcome State Fault Refusal := vecOp 0x040 8 true eAdd f s

def execVsub (f : X3) (s : State) : Host.Outcome State Fault Refusal := vecOp 0x041 8 true eSub f s

def execVmul (f : X3) (s : State) : Host.Outcome State Fault Refusal := vecOp 0x042 8 true eMul f s

def execVfma (f : X3) (s : State) : Host.Outcome State Fault Refusal := vecOp 0x043 8 true eFma f s

def execVdiv (f : X3) (s : State) : Host.Outcome State Fault Refusal := vecOp 0x044 8 true eDiv f s

def execVsqrt (f : X3) (s : State) : Host.Outcome State Fault Refusal := vecOp 0x045 8 true (eFun .sqrt 0x045) f s

def execVrcp (f : X3) (s : State) : Host.Outcome State Fault Refusal := vecOp 0x046 8 true (eFun .rcp 0x046) f s

def execVrsq (f : X3) (s : State) : Host.Outcome State Fault Refusal := vecOp 0x047 8 true (eFun .rsq 0x047) f s

def execVexp (f : X3) (s : State) : Host.Outcome State Fault Refusal := vecOp 0x048 8 true (eFun .exp 0x048) f s

def execVlog (f : X3) (s : State) : Host.Outcome State Fault Refusal := vecOp 0x049 8 true (eFun .log 0x049) f s

def execVexp2 (f : X3) (s : State) : Host.Outcome State Fault Refusal := vecOp 0x04A 8 true (eFun .exp2 0x04A) f s

def execVlog2 (f : X3) (s : State) : Host.Outcome State Fault Refusal := vecOp 0x04B 8 true (eFun .log2 0x04B) f s

def execVsin (f : X3) (s : State) : Host.Outcome State Fault Refusal := vecOp 0x04C 8 true (eFun .sin 0x04C) f s

def execVcos (f : X3) (s : State) : Host.Outcome State Fault Refusal := vecOp 0x04D 8 true (eFun .cos 0x04D) f s

def execVmin (f : X3) (s : State) : Host.Outcome State Fault Refusal := vecOp 0x04E 8 false eMin f s

def execVmax (f : X3) (s : State) : Host.Outcome State Fault Refusal := vecOp 0x04F 8 false eMax f s

def execVabs (f : X3) (s : State) : Host.Outcome State Fault Refusal := vecOp 0x050 8 false eAbs f s

def execVneg (f : X3) (s : State) : Host.Outcome State Fault Refusal := vecOp 0x051 8 false eNeg f s

def execVclass (f : X3) (s : State) : Host.Outcome State Fault Refusal := vecOp 0x052 8 false eClass f s

def execVand (f : X3) (s : State) : Host.Outcome State Fault Refusal := vecOp 0x053 8 false eAnd f s

def execVor (f : X3) (s : State) : Host.Outcome State Fault Refusal := vecOp 0x054 8 false eOr f s

def execVxor (f : X3) (s : State) : Host.Outcome State Fault Refusal := vecOp 0x055 8 false eXor f s

def execVandn (f : X3) (s : State) : Host.Outcome State Fault Refusal := vecOp 0x056 8 false eAndn f s

def execVsll (f : X3) (s : State) : Host.Outcome State Fault Refusal := vecOp 0x057 8 false eSll f s

def execVsrl (f : X3) (s : State) : Host.Outcome State Fault Refusal := vecOp 0x058 8 false eSrl f s

def execVsra (f : X3) (s : State) : Host.Outcome State Fault Refusal := vecOp 0x059 8 false eSra f s

def execVmulh (f : X3) (s : State) : Host.Outcome State Fault Refusal := vecOp 0x05A 8 false eMulh f s

def execVmulhu (f : X3) (s : State) : Host.Outcome State Fault Refusal := vecOp 0x05B 8 false eMulhu f s

def execVmov (f : X3) (s : State) : Host.Outcome State Fault Refusal := vecOp 0x068 8 false eMov f s

def execVpopc (f : X3) (s : State) : Host.Outcome State Fault Refusal := vecOp 0x06B 8 false ePopc f s

def execVclz (f : X3) (s : State) : Host.Outcome State Fault Refusal := vecOp 0x06C 8 false eClz f s

/-! ### The 32-bit words (06 R134) -/

def execVaddX32 (f : CV) (s : State) : Host.Outcome State Fault Refusal := vecOp 0x040 4 true eAdd (f.wide true) s

def execVsubX32 (f : CV) (s : State) : Host.Outcome State Fault Refusal := vecOp 0x041 4 true eSub (f.wide true) s

def execVmulX32 (f : CV) (s : State) : Host.Outcome State Fault Refusal := vecOp 0x042 4 true eMul (f.wide true) s

def execVfmaX32 (f : CV) (s : State) : Host.Outcome State Fault Refusal := vecOp 0x043 4 true eFma (f.wide true) s

def execVminX32 (f : CV) (s : State) : Host.Outcome State Fault Refusal := vecOp 0x04E 4 false eMin (f.wide false) s

def execVmaxX32 (f : CV) (s : State) : Host.Outcome State Fault Refusal := vecOp 0x04F 4 false eMax (f.wide false) s

def execVandX32 (f : CV) (s : State) : Host.Outcome State Fault Refusal := vecOp 0x053 4 false eAnd (f.wide false) s

def execVorX32 (f : CV) (s : State) : Host.Outcome State Fault Refusal := vecOp 0x054 4 false eOr (f.wide false) s

def execVredAdd (f : X3) (s : State) : Host.Outcome State Fault Refusal := reduceOp 0x060 eAdd (fun _ => 0) true f s
def execVredMin (f : X3) (s : State) : Host.Outcome State Fault Refusal := reduceOp 0x061 eMin emptyMin false f s
def execVredMax (f : X3) (s : State) : Host.Outcome State Fault Refusal := reduceOp 0x062 eMax emptyMax false f s

end Sys2Proof.Machine
end

