-- ==== Sys2Proof/Machine/Queue.lean ====
section
/-!
DEFINITION. Data queues and branch-outcome queues (05 R115, R117 to R119, R122, 06 R148 to R151).
-/
namespace Sys2Proof.Machine

/-! ### Formats (05 R118, R121) -/

def qTy (w : Word) : Nat := field w 0 4
def qRm (w : Word) : Nat := field w 4 3
def qSat (w : Word) : Bool := bitOf w 7
def Core.src (c : Core) (n : Nat) : Word := FMap.get 0 c.qsrc n
def Core.snk (c : Core) (n : Nat) : Word := FMap.get 0 c.qsnk n
def Core.queue (c : Core) (n : Nat) : DQ := FMap.get .reset c.dq n
def Core.outcomes (c : Core) (n : Nat) : List Bool := FMap.get [] c.bq n
def Core.tokens (c : Core) (n : Nat) : Nat := FMap.get 0 c.fifo n

/-- The formats that raise QUEUE (05 R118). -/
def badFormats (src snk : Word) : Bool :=
  decide (12 ≤ qTy src) || decide (12 ≤ qTy snk) || decide (5 ≤ qRm snk) ||
  (qSat snk && (decide (8 ≤ qTy src) || decide (8 ≤ qTy snk))) || qSat src || decide (0 < qRm src)

/-- A format write of the queue has issued and not retired (05 R119). -/
def formatPending (c : Core) (n : Nat) : Bool :=
  match c.qfmt with | some q => q.ix == 0x208 + n || q.ix == 0x210 + n | none => false

/-- Elements held, in the source format (05 R117). -/
def heldElems (q : DQ) (src : Word) : Nat := q.rows.length * elemCount (tyWidth (qTy src)) - q.used

/-- Element `i` of the stream of elements that a queue holds. -/
def queueElem (q : DQ) (src : Word) (i : Nat) : Nat :=
  let w := tyWidth (qTy src)
  elemAt w (q.rows.getD ((q.used + i) / elemCount w) 0) ((q.used + i) % elemCount w)

/-- A queue with `n` elements consumed; a row leaves with its last element. -/
def consume (q : DQ) (src : Word) (n : Nat) : DQ :=
  let e := elemCount (tyWidth (qTy src))
  ⟨q.rows.drop ((q.used + n) / e), (q.used + n) % e⟩

/-- One element converted from the source to the sink format (05 R118). -/
def queueConvert (src snk : Word) (x : Nat) : Val :=
  if qTy src = qTy snk then (x, 0) else convertElem (qTy src) (qTy snk) (qRm snk) (qSat snk) x

/-- `q.push` (06 R148). -/
def execQPush (f : X3) (s : State) : Host.Outcome State Fault Refusal :=
  let n := f.vd.toNat % 8
  issue s { x3Desc 0x078 8 f [] [f.va.toNat] with closes := true } fun t =>
    let co := coreOf t.cur
    let c := t.core co
    let g := guardPred t t.cur f.g
    if formatPending c n then .wait Fx.none
    else if badFormats (c.src n) (c.snk n) then .trap cQUEUE false (BitVec.ofNat 64 (16 + n)) (fltOf 0x078)
    else if 16 ≤ (c.queue n).rows.length then .wait (block t.cur (.rowRoom n))
    else
      let row := mergeElems (tyWidth (qTy (c.src n))) g true 0 (elemAt (tyWidth (qTy (c.src n))) (t.vreg co f.va.toNat))
      .seq (onCore co fun c => { c with
        dq := FMap.set .reset c.dq n { c.queue n with rows := (c.queue n).rows ++ [row] } })

/-- `q.pop` (06 R148). -/
def execQPop (f : X3) (s : State) : Host.Outcome State Fault Refusal :=
  let n := f.va.toNat % 8
  issue s { x3Desc 0x079 8 f [] [f.vd.toNat] with closes := true } fun t =>
    let co := coreOf t.cur
    let c := t.core co
    let g := guardPred t t.cur f.g
    let q := c.queue n
    let w := tyWidth (qTy (c.snk n))
    let es := elemCount w
    if formatPending c n then .wait Fx.none
    else if badFormats (c.src n) (c.snk n) then .trap cQUEUE false (BitVec.ofNat 64 (16 + n)) (fltOf 0x079)
    else if heldElems q (c.src n) < es then .wait (block t.cur (.elements n))
    else
      let vals : List Val := (List.range es).map fun i =>
        if g.getLsbD i then queueConvert (c.src n) (c.snk n) (queueElem q (c.src n) i)
        else (elemAt w (t.vreg co f.vd.toNat) i, 0)
      let fl := joinFlags (vals.map (·.2))
      .seq (Fx.andThen (onCore co fun c => { c with
          dq := FMap.set .reset c.dq n (consume q (c.src n) es)
          qflags := c.qflags ||| (fl.setWidth 64 <<< (8 * n)) })
        fun _ => putV co f.vd.toNat (BitVec.allOnes 1024) (packElems w (vals.map (·.1))))

/-- Outcomes pushed to queue `n` by instructions that have issued and not retired. -/
def lateOutcomes (c : Ctl) (n : Nat) : Nat := (c.late.filter fun l => l.outcome.any (·.1 == n)).length

/-- `bq.push` (06 R149): the outcome is appended whatever the guard holds. -/
def execBqPush (f : FB) (s : State) : Host.Outcome State Fault Refusal :=
  let n := f.sb.toNat
  issue s { elemDesc 0x07A 8 f.g f.fp f.fo [f.sa.toNat] [] with closes := true, bq := some (n, producer n) } fun t =>
    let co := coreOf t.cur
    if 64 ≤ ((t.core co).outcomes n).length + lateOutcomes (t.ctl t.cur) n then .wait (block t.cur (.outRoom n))
    else
      let out := guardTrue t t.cur f.g && t.sreg t.cur f.sa.toNat != 0
      .seq (retirePush t.cur 0 (some (n, out)))

/-- `bq.br` in either of its words (06 R150): the outcome is removed whatever the guard holds. -/
def branchOutcome (f : BranchForm) (s : State) : Host.Outcome State Fault Refusal :=
  let n := f.sb
  issue s { elemDesc 0x07B f.len f.g f.fp f.fo [] [] with closes := true, bq := some (n, consumer n) } fun t =>
    let co := coreOf t.cur
    match (t.core co).outcomes n with
      | [] => .wait (block t.cur (.outcome n))
      | o :: rest =>
        let take := onCore co fun c => { c with bq := FMap.set [] c.bq n rest }
        if guardTrue t t.cur f.g && o then
          .jump (take.andThen (onCtl t.cur fun c => { c with spin := none })) ((t.ctl t.cur).pc + f.off)
        else .seq take

def execBqBr (f : FB) (s : State) : Host.Outcome State Fault Refusal := branchOutcome f.form s
def execBqBrX96 (f : FB96) (s : State) : Host.Outcome State Fault Refusal := branchOutcome f.form s

/-- CORE_QFORMAT_WRITE: a write of a queue's format retires (05 R119): rows held are discarded and reported. -/
def execCoreQformatWrite (c : Nat) (s : State) : Host.Outcome State Fault Refusal :=
  answer s fun s =>
    let r := s.core c
    match r.qfmt with
    | none => []
    | some q =>
      let n := q.ix % 8
      let r1 := if q.ix < 0x210 then { r with qsrc := FMap.set 0 r.qsrc n q.value }
        else { r with qsnk := FMap.set 0 r.qsnk n q.value }
      let drop := decide (0 < heldElems (r.queue n) (r.src n))
      let r2 := { r1 with
        qfmt := none
        dq := FMap.del n r1.dq
        qflags := if drop then r1.qflags ||| (0x80 <<< (8 * n)) else r1.qflags }
      (Fx.andThen (fun _ => [.core c r2])
        (Fx.andThen (onCtl q.k fun c => { c with run := if c.run = .atFormat then .running else c.run })
          (retireSeq q.k 8 q.fp (!(s.ctl q.k).prv)))) s

end Sys2Proof.Machine
end

