-- ==== Sys2Proof/Machine/Access.lean ====
section
/-!
DEFINITION. Memory accesses of streams: the bytes reached (08 R186), the checks in order (09 R210), what issues (09 R211), what may
perform when (10 R235, R236), and the steps in which stores, atomics, arrivals and tag changes perform and loads return.
-/
namespace Sys2Proof.Machine

/-! ### The bytes an access reaches -/

/-- One element access: its number, the address as the instruction computed it, the pieces reached (offset, length) and,
for a store, its bytes. -/
structure Elem where
  idx : Nat
  ea : Word
  reach : Except Byte (List (Nat × Nat))
  data : List Byte

/-- The pieces of a scalar access of `n` bytes (08 R186), or ALIGN. An atomic of 8 bytes reaches the aligned doubleword. -/
def scalarReach (atomic : Bool) (ea : Word) (n : Nat) : Except Byte (List (Nat × Nat)) :=
  let off := offOf ea
  if 256 ≤ tidOf ea then (if off % n = 0 then .ok [(off, n)] else .error cALIGN)
  else
    let base := if atomic ∧ n = 8 then off / 8 * 8 else off / 4 * 4
    .ok (if n = 8 ∧ base % 8 = 4 then [(base, 4), (base + 4, 4)] else [(base, n)])

/-- The aligned row of an address. -/
def rowReach (ea : Word) : Except Byte (List (Nat × Nat)) := .ok [(offOf ea / 128 * 128, 128)]

/-! ### Checks -/

/-- What the checks of one element access find: its places, with the window-1 offset of the first suppressed byte; or why
it does not proceed. -/
inductive Found where
  | spots (l : List (Spot × Nat)) (touch : Option Nat)
  | trap (code : Byte) (w0 : Word)
  | miss (t : Tensor) (n : Nat)
  | remote (t : Tensor)

/-- The check of a piece fails before the tag checks, or cannot be made yet. -/
def PRes.early : PRes → Bool
  | .miss _ _ | .remote _ => true
  | .trap code _ => code != cTAG_MISMATCH
  | _ => false

def PRes.fails : PRes → Bool
  | .trap _ _ => true
  | _ => false

/-- The check that decides an access of several pieces: those of 01 R19 come before those of the tags (09 R210). -/
def decisive (l : List PRes) : Option PRes :=
  match l.find? PRes.early with
  | some r => some r
  | none => l.find? PRes.fails

/-- Where a piece lies that has passed its checks. -/
def PRes.spot (c : Ctx) (tid off : Nat) : PRes → Spot
  | .ok spot => spot
  | .zero => if c.froz.contains tid then .nowhere else .tile c.asid tid off
  | _ => .nowhere

/-- The pieces of an access, in order (08 R192 to R194, R203). -/
def checkPieces (s : State) (c : Ctx) (p : Place) (tid : Nat) (w : Want) (l : List (Nat × Nat)) : Found :=
  let rs := l.map fun x => (x, pieceCheck s true c p x.1 w)
  match decisive (rs.map (·.2)) with
  | some (.trap code w0) => .trap code w0
  | some (.miss t n) => .miss t n
  | some (.remote t) => .remote t
  | _ => .spots (rs.map fun r => (r.2.spot c tid r.1.1, r.1.2)) ((rs.find? fun r => r.2 == .guard).map fun r => r.1.1)

/-- All checks of one element access (09 R210). -/
def checkElem (s : State) (c : Ctx) (w : Want) (e : Elem) : Found :=
  match e.reach with
  | .error code => .trap code 0
  | .ok ps =>
    let lo := (ps.headD (0, 0)).1
    let n := (ps.map (·.2)).foldl (· + ·) 0
    match placeCheck s c (tidOf e.ea) lo n (!w.isLoad) with
    | .error code => .trap code 0
    | .ok p => checkPieces s c p (tidOf e.ea) w ps

/-- Cuts an element's bytes over its pieces. -/
def cutPieces (e : Elem) : Nat → List (Spot × Nat) → List Piece
  | _, [] => []
  | pos, (spot, n) :: t =>
    { spot := spot, len := n, data := (e.data.drop pos).take n, elem := e.idx, pos := pos } :: cutPieces e (pos + n) t

/-- The checks of all element accesses, the lowest index first: all the pieces and the first touch of a guard granule, or the
first access that does not proceed, with its address. -/
def checkAll (s : State) (c : Ctx) (w : Want) : List Elem → Except (Found × Word) (List Piece × Option Nat)
  | [] => .ok ([], none)
  | e :: t =>
    match checkElem s c w e with
    | .spots l g =>
      (match checkAll s c w t with
        | .ok (ps, g') => .ok (cutPieces e 0 l ++ ps, match g with | some o => some o | none => g')
        | .error x => .error x)
    | r => .error (r, e.ea)

/-- The two words of a doubleword element are one piece: each element is single-copy atomic (09 R220). -/
def joinPieces : List Piece → List Piece
  | p :: q :: t =>
    if p.elem = q.elem then { p with spot := .pair p.spot q.spot, len := p.len + q.len, data := p.data ++ q.data } :: joinPieces t
    else p :: joinPieces (q :: t)
  | l => l

/-- The pieces as the instruction makes its accesses: a scalar doubleword may be two (08 R186), an element is one. -/
def AKind.pieces (k : AKind) (ps : List Piece) : List Piece :=
  match k with
  | .scatter | .vamo _ _ | .loadV _ _ _ _ => joinPieces ps
  | _ => ps

/-- The guard latch after a touch at window-1 offset `o` (08 R203, R205). -/
def latchTouch (store : Bool) (o : Nat) (c : Ctl) : Ctl :=
  if bitOf c.glatch 63 then c
  else { c with glatch := BitVec.ofNat 64 (2 ^ 63 + (if store then 2 ^ 62 else 0) + o / 128 % 32 * 2 ^ 10 + o / 4096 % 2 ^ 10) }

/-- What `flt.rd` returns for a memory trap (14 R334). -/
def memFlt (op9 : Nat) (store : Bool) (cls scope bytes pkg : Nat) (w0 : Word) : Flt :=
  ⟨BitVec.ofNat 64 (op9 * 2 ^ 48),
    BitVec.ofNat 64 ((if store then 2 ^ 63 else 0) + cls * 2 ^ 59 + scope * 2 ^ 56 + bytes * 2 ^ 48),
    BitVec.ofNat 64 pkg, w0⟩

/-! ### Order -/

def AKind.isAtomic (k : AKind) : Bool := match k with | .amo _ _ _ _ _ | .vamo _ _ => true | _ => false
def AKind.isStore (k : AKind) : Bool := match k with | .store | .scatter | .row _ => true | _ => false
def AKind.isTag (k : AKind) : Bool := match k with | .tag _ => true | _ => false

/-- The outstanding accesses of stream `k`, oldest first. -/
def accessesOf (s : State) (k : Nat) : List (Nat × Access) :=
  s.accs.filterMap fun e => match e.2 with
    | some a => if a.k = k ∧ a.remote = false then some (e.1, a) else none
    | none => none

/-- The agents within a scope of a stream, of which these are the streams (10 R233): `.st`, `.co`, `.tm`, `.cl`, `.di`, and from `.pk` on
every one of the package. -/
def withinScope (s : State) (k sc j : Nat) : Bool :=
  match sc with
  | 0 => j == k
  | 1 => coreOf j == coreOf k
  | 2 => coreOf j == coreOf k || ((s.core (coreOf k)).team.isSome && (s.core (coreOf j)).team == (s.core (coreOf k)).team)
  | 3 => clusterOf (coreOf j) == clusterOf (coreOf k)
  | 4 => dieOf (coreOf j) == dieOf (coreOf k)
  | _ => true

/-- In one class a load comes after loads and atomics and a write after everything (01 R15, 10 R235). -/
def classOrder (b a : Access) : Bool := b.cls == a.cls && (!a.kind.isLoad || b.kind.isLoad || b.kind.isAtomic)

/-- The scope to which an access's place in its class reaches: an atomic's own, everything for the others (10 R244). -/
def Access.reach (a : Access) : Nat := if a.kind.isAtomic then a.scope else 6

/-- The fences of the stream that stand between access number `m` and access number `n` and name the classes of both (10 R237). -/
def fencesBetween (s : State) (k m n b a : Nat) : List Nat :=
  (s.ctl k).late.filterMap fun l => match l.fence with
    | some f => if decide (m < f.num ∧ f.num ≤ n) && f.mask.getLsbD b && f.mask.getLsbD a then some f.scope else none
    | none => none

/-- The scopes for whose agents an earlier access stands before access number `n`: class order, a release (10 R238) and fences. -/
def edges (s : State) (e : Nat × Access) (n : Nat) (a : Access) : List Nat :=
  (if classOrder e.2 a then [min e.2.reach a.reach] else []) ++ (if a.rel then [a.scope] else []) ++
    fencesBetween s a.k e.1 n e.2.cls a.cls

/-- The earlier accesses that stand before access number `n`, each with the widest scope for which it does. -/
def blockers (s : State) (n : Nat) (a : Access) : List ((Nat × Access) × Nat) :=
  (accessesOf s a.k).filterMap fun e => match edges s e n a with
    | [] => none
    | x :: t => if e.1 < n then some (e, t.foldl max x) else none

/-- Order lets access number `n` perform. -/
def inOrder (s : State) (n : Nat) (a : Access) : Bool := blockers s n a == []

/-- Whatever keeps access number `n` from performing is itself held at a home, in front of it (14 R329). -/
def holdOrder (s : State) (n : Nat) (a : Access) : Bool :=
  (blockers s n a).all fun e => e.1.2.pieces.all fun p => isHeld s (.access e.1.1 p)

/-- A tag change of the stream's own that has not performed, in the class and at the tile of an access (10 R235): `at0` says whether
an offset lies in the tile. -/
def tagAhead (s : State) (k cls tid : Nat) (at0 : Nat → Nat → Bool) : Bool :=
  (accessesOf s k).any fun e => e.2.cls == cls && e.2.kind.isTag && e.2.pieces.any fun p =>
    match p.spot with
    | .tile asid t off => t == tid && (match readTensor s asid t with | some x => at0 x.tbytes (off / x.tbytes) | none => false)
    | _ => false

/-- The key at which a place lies now. -/
def spotKey (s : State) : Spot → Option Nat
  | .nowhere => none
  | .key a => some a
  | .pair lo _ => spotKey s lo
  | .tile asid tid off =>
    (readTensor s asid tid).map fun t => frameKey tid (readTile s t (off / t.tbytes)).frame (off % t.tbytes)

/-- The parts of `n` bytes at a place: the single place, the first byte and the number of bytes. -/
def spotParts (spot : Spot) (n : Nat) : List (Spot × Nat × Nat) :=
  match spot with
  | .pair lo hi => [(lo, 0, min n 4), (hi, 4, n - 4)]
  | x => [(x, 0, n)]

/-- The keys that a piece reaches now: first key, first byte of the piece, number of bytes. -/
def Piece.cells (s : State) (p : Piece) : List (Nat × Nat × Nat) :=
  (spotParts p.spot p.len).filterMap fun x => (spotKey s x.1).map fun key => (key, x.2.1, x.2.2)

/-- Two pieces have a byte in common. -/
def Piece.meets (s : State) (p q : Piece) : Bool :=
  (p.cells s).any fun x => (q.cells s).any fun y => decide (x.1 < y.1 + y.2.2 ∧ y.1 < x.1 + x.2.2)

/-- Bytes `new` at key `a`, those whose lane `mask` names, laid over the bytes `old` at key `b`. -/
def overlay (mask : Option Pred) (b : Nat) (old : List Byte) (a : Nat) (new : List Byte) : List Byte :=
  old.zipIdx.map fun x =>
    let i := b + x.2 - a
    let on : Bool := match mask with | some m => m.getLsbD (i / 4) | none => true
    if a ≤ b + x.2 ∧ b + x.2 < a + new.length ∧ on then new.getD i 0 else x.1

/-- The lanes that a row store writes. -/
def AKind.mask (k : AKind) : Option Pred := match k with | .row m => some m | _ => none

/-- Bytes at a key with the stores of some accesses laid over them. -/
def overStores (s : State) (es : List (Nat × Access)) (key : Nat) (bs : List Byte) : List Byte :=
  es.foldl (fun bs e => e.2.pieces.foldl (fun bs q =>
    (q.cells s).foldl (fun bs x => overlay e.2.kind.mask key bs x.1 ((q.data.drop x.2.1).take x.2.2)) bs) bs) bs

/-- What a load of a place returns: memory, with the stream's own earlier stores of the class laid over it (01 R15). -/
def loadBytes (s : State) (n : Nat) (a : Access) (p : Piece) : List Byte :=
  let es := (accessesOf s a.k).filter fun e => e.1 < n && e.2.cls == a.cls && e.2.kind.isStore
  (spotParts p.spot p.len).flatMap fun x =>
    let m := spotRead s x.1 x.2.2
    match spotKey s x.1 with
    | none => m
    | some key => overStores s es key m

/-! ### Performing -/

/-- What an atomic makes of an old value (09 R221, R223). -/
def amoNew (op : Amo) (w : Nat) (old x cmp : Nat) : Option Nat :=
  match op with
  | .add => some ((old + x) % 2 ^ w)
  | .swap => some x
  | .and => some (old &&& x)
  | .or => some (old ||| x)
  | .xor => some (old ^^^ x)
  | .min => some (if intVal w true old ≤ intVal w true x then old else x)
  | .max => some (if intVal w true x ≤ intVal w true old then old else x)
  | .minu => some (min old x)
  | .maxu => some (max old x)
  | .cas => if old = x then some cmp else none
  | .arrive =>
    let n := (old / 2 ^ 16 % 2 ^ 16 + 1) % 2 ^ 16
    let gen := old / 2 ^ 48
    let expect := old / 2 ^ 32 % 2 ^ 16
    let rest := expect * 2 ^ 32 + old % 2 ^ 16
    some (if max expect 1 ≤ old / 2 ^ 16 % 2 ^ 16 + 1 then (gen + 1) % 2 ^ 16 * 2 ^ 48 + rest
      else gen * 2 ^ 48 + rest + n * 2 ^ 16)

/-- What performing a write of a piece comes to. -/
inductive Done where
  | did (e : List Eff) (old : Nat)
  | short
  | moving

/-- An atomic at a place: the old value, and the new one written unless a compare fails (09 R221). -/
def performAmo (s : State) (spot : Spot) (op : Amo) (w x cmp : Nat) : Done :=
  if (movingTile s spot).isSome then .moving
  else
    let old := bytesToNat (spotRead s spot (w / 8))
    match amoNew op w old x cmp with
    | none => .did [] old
    | some v =>
      match homeWrite s spot (natToBytes (w / 8) v) with
      | .write e => .did e old
      | .short => .short
      | .moving => .moving

/-- Whether and how a request of another package stores. -/
def reqWant (r : Req) : Want :=
  if 1 ≤ r.kind ∧ r.kind ≤ 12 then (if r.bytes = 128 then .row else .scalar r.bytes) else if r.kind = 16 then .tensor else .load

/-- A place lies in a tile. -/
def Spot.inTile (s : State) (asid tid n : Nat) (spot : Spot) : Bool :=
  spot.flat.any fun x => match x with
    | .tile a t off => a == asid && t == tid && (match readTensor s a t with
      | some y => off / y.tbytes == n
      | none => false)
    | _ => false

/-- Accesses that a home has accepted and not performed stand before a change of the tile's tag to one that would refuse them: they
cannot fail any more, and none performs under a tag that refuses it (08 R194, R195, 09 R211; notes/assumptions/22.md). -/
def tagWaits (s : State) (asid tid n tag : Nat) : Bool :=
  (s.accs.any fun e => match e.2 with
    | some a => !a.kind.isLoad && !a.kind.isTag && !a.want.accepts tag &&
        (if a.remote then a.near else a.pieces).any fun p => p.spot.inTile s asid tid n
    | none => false) ||
  s.inbox.any fun a => (a.left.getD []).any fun x => !(reqWant x.2).accepts tag &&
    (x.2.kind == 16 || Spot.inTile s asid tid n (.tile x.2.asid (tidOf x.2.handle) (offOf x.2.handle))) &&
    x.2.asid == asid && tidOf x.2.handle == tid

/-- A tag change at its home (08 R195, 09 R222): on a COW tile with a frame the whole frame is shadowed first. -/
def performTag (s : State) (spot : Spot) (tag : Nat) : Done :=
  match spot with
  | .tile asid tid off =>
    (match readTensor s asid tid with
      | none => .did [] 0
      | some t =>
        let n := off / t.tbytes
        let e := readTile s t n
        let set (s : State) : List Eff :=
          let e := readTile s t n
          putTile asid tid n { e with w0 := setField e.w0 0 16 tag } s
        if e.moving then .moving
        else if tagWaits s asid tid n tag then .short
        else if !e.cow then .did (set s) 0
        else if !e.valid then
          .did ((Fx.andThen (putTile asid tid n { e with
              w0 := setField e.w0 30 1 0
              w1 := setField (setField (setField e.w1 36 27 e.frame) 0 16 e.tag) 63 1 1 }) set) s) 0
        else match shadow s asid t n false with
          | none => .short
          | some es => .did (es ++ set (s.applyAll es)) 0)
  | _ => .did [] 0

/-- Runs of bytes at offsets, in the order in which they are written. -/
abbrev Runs := List (Nat × List Byte)

/-- Neighbouring runs joined. -/
def joinRuns (rs : Runs) : Runs :=
  rs.foldr (fun r acc => match acc with
    | [] => [r]
    | (o, b) :: t => if r.1 + r.2.length = o then (r.1, r.2 ++ b) :: t else r :: acc) []

/-- The bytes that a row store writes: a run for each run of enabled lanes (09 R212). -/
def laneRuns (mask : Pred) (bs : List Byte) : Runs :=
  joinRuns ((List.range 32).filterMap fun j => if mask.getLsbD j then some (4 * j, (bs.drop (4 * j)).take 4) else none)

/-- One piece of a write performs at its home. -/
def performWrite (s : State) (k : AKind) (p : Piece) : Done :=
  match k with
  | .amo op w x cmp _ => performAmo s p.spot op w x.toNat cmp.toNat
  | .vamo op w => performAmo s p.spot op w (bytesToNat p.data) 0
  | .tag t => performTag s p.spot t.toNat
  | _ =>
    (match homeWriteRuns s p.spot (match k.mask with | some m => laneRuns m p.data | none => [(0, p.data)]) with
      | .write e => .did e 0
      | .short => .short
      | .moving => .moving)

/-- The access after one of its pieces has performed; gone with its last piece. -/
def dropPiece (n : Nat) (a : Access) (p : Piece) : List Eff :=
  let rest := a.pieces.erase p
  [.access n (if rest = [] then none else some { a with pieces := rest })]

/-- An atomic's old value goes to its register when it performs (09 R211, R221). -/
def amoResult (a : Access) (old : Nat) : List Eff :=
  match a.kind with
  | .amo _ w _ _ (some sd) => [.sreg a.k sd (BitVec.ofInt 64 (intVal w true old))]
  | _ => []

/-- What a piece of a store, atomic, arrival or tag change comes to: it performs, or is held for a MOVING tile (14 R329); or the frame
pool is short, or the slice holds no more. -/
inductive Settled where
  | did (e : List Eff)
  | short
  | full

/-- A piece of a store, atomic, arrival or tag change performs, or is held for a MOVING tile. -/
def settlePiece (n : Nat) (a : Access) (p : Piece) (s : State) : Settled :=
  match performWrite s a.kind p with
  | .did e old => .did (e ++ amoResult a old ++ dropPiece n a p)
  | .short => .short
  | .moving =>
    (match (movingTile s p.spot).bind fun m => takeHeld s m.1 m.2.1 m.2.2.1 m.2.2.2 (.access n p) with
      | some e => .did e
      | none => .full)

/-- The same; none while it cannot. -/
def performStep (n : Nat) (a : Access) (p : Piece) (s : State) : Option (List Eff) :=
  match settlePiece n a p s with
  | .did e => some e
  | _ => none

/-- A piece that an earlier piece with a byte in common keeps back: where elements of a vsct name one location, the highest index stands
(09 R220). -/
def pieceBehind (s : State) (a : Access) (p : Piece) : Bool :=
  a.kind == .scatter && (a.pieces.takeWhile (· != p)).any fun q => q.meets s p

/-- The vector or scalar that a load's bytes give. -/
def loadedVec (old : Vec) (width : Nat) (mask : Pred) (got : List (Nat × Nat × List Byte)) : Vec :=
  let wb := width / 8
  vecOfBytes (got.foldl (fun bs g =>
    bs.zipIdx.map fun x =>
      let at0 := g.1 * wb + g.2.1
      if at0 ≤ x.2 ∧ x.2 < at0 + g.2.2.length ∧ mask.getLsbD (x.2 / wb) then g.2.2.getD (x.2 - at0) 0 else x.1)
    (vecBytes old))

def loadedNat (got : List (Nat × Nat × List Byte)) : Nat :=
  got.foldl (fun v g => v + bytesToNat g.2.2 * 2 ^ (8 * g.2.1)) 0

def loadedLen (got : List (Nat × Nat × List Byte)) : Nat := got.foldl (fun v g => v + g.2.2.length) 0

/-- The value of a scalar load in its register (09 R214). -/
def loadedWord (zext : Bool) (got : List (Nat × Nat × List Byte)) : Word :=
  let v := loadedNat got
  if zext then BitVec.ofNat 64 v else BitVec.ofInt 64 (intVal (8 * loadedLen got) true v)

/-- The most recent load as spin-park and park see it (05 R125, 09 R230). -/
def noteLoad (rows : List Nat) (v : Vec) (c : Ctl) : Ctl :=
  { c with lastLoad := if rows = [] then none else some ⟨rows, v, []⟩ }

/-- A load's destination is written. -/
def loadDone (a : Access) : Fx := fun s =>
  match a.kind with
  | .loadS sd zext =>
    .sreg a.k sd (loadedWord zext a.got) :: onCtl a.k (noteLoad a.rows (BitVec.ofNat 1024 (loadedNat a.got))) s
  | .loadV vd w mask note =>
    let v := loadedVec (s.vreg (coreOf a.k) vd) w mask a.got
    .vreg (coreOf a.k) vd v :: (if note then onCtl a.k (noteLoad a.rows v) s else [])
  | _ => []

/-- The load with this access retires (09 R211). -/
def retireLoad (k n : Nat) : Fx := fun s =>
  match (s.ctl k).late.findIdx? fun l => l.accs == [n] && l.fence.isNone with
  | some i => retireLate k i s
  | none => []

/-- A piece of a load reads its bytes; with the last piece the load's value is written and it retires. -/
def loadStep (n : Nat) (a : Access) (p : Piece) : Fx := fun s =>
  let a' := { a with got := a.got ++ [(p.elem, p.pos, loadBytes s n a p)], pieces := a.pieces.erase p }
  if a'.pieces = [] then ((Fx.andThen (fun _ => [.access n none]) (loadDone a')).andThen (retireLoad a.k n)) s
  else [.access n (some a')]

/-! ### Order within a scope (10 R237, R239, R240, R244; notes/assumptions/8.md)

For agents outside the scope of an edge it orders nothing. An access may so perform before an earlier one, if no agent within the scope
can tell: until the earlier one has performed, nothing happens there. -/

/-- An earlier access that a later one may pass, for agents outside its edge's scope: it can perform at any moment, and reaches other
bytes. -/
def passable (s : State) (a : Access) (e : (Nat × Access) × Nat) : Bool :=
  e.2 < 6 && inOrder s e.1.1 e.1.2 && !(a.pieces.any fun p => e.1.2.pieces.any (p.meets s)) &&
  (e.1.2.kind.isLoad || e.1.2.pieces.all fun p => match performWrite s e.1.2.kind p with | .did _ _ => true | _ => false)

/-- The debts that are still open: the access passed has not performed. -/
def openDebts (s : State) : List (Nat × Nat × Nat) := s.debts.filter fun d => (s.access d.1).isSome

/-- Access number `n` passes what stands before it, if it may. -/
def passing (s : State) (n : Nat) (a : Access) : Option (List Eff) :=
  let l := blockers s n a
  if l.all (passable s a) then
    some [.debts (openDebts s ++ l.map fun e => (e.1.1, a.k, e.2))]
  else none

/-- Nothing happens within the scope of a debt of another stream: stream `k` stands. -/
def stands (s : State) (k : Nat) : Bool := (openDebts s).any fun d => d.2.1 != k && withinScope s d.2.1 d.2.2 k

/-- An engine operation stands, which is never within `.st`. -/
def opStands (s : State) (k : Nat) : Bool := (openDebts s).any fun d => d.2.2 != 0 && withinScope s d.2.1 d.2.2 k

/-- Piece `p` of access `n` performs or returns, if order lets it, or joins the writes that a home holds; none if it cannot. -/
def accessStep (s : State) (n : Nat) (a : Access) (p : Piece) : Option (List Eff) :=
  let go (s : State) : Option (List Eff) := if a.kind.isLoad then some (loadStep n a p s) else performStep n a p s
  if a.remote || pieceBehind s a p then none
  else if inOrder s n a then go s
  else if !a.kind.isLoad && holdOrder s n a then
    (movingTile s p.spot).bind fun m => takeHeld s m.1 m.2.1 m.2.2.1 m.2.2.2 (.access n p)
  else match passing s n a with
    | some d => (go (s.applyAll d)).map (d ++ ·)
    | none => none

/-- ACCESS_PERFORM: piece `j` of an outstanding store, atomic, arrival or tag.set performs at its home (09 R211). -/
def execAccessPerform (a j : Nat) (s : State) : Host.Outcome State Fault Refusal :=
  answer s fun s =>
    match s.access a with
    | none => []
    | some r =>
      match r.pieces[j]? with
      | none => []
      | some p => if r.kind.isLoad then [] else (accessStep s a r p).getD []

/-- LOAD_RETURN: piece `j` of an outstanding load reads its bytes (09 R211). -/
def execLoadReturn (a j : Nat) (s : State) : Host.Outcome State Fault Refusal :=
  answer s fun s =>
    match s.access a with
    | none => []
    | some r =>
      match r.pieces[j]? with
      | none => []
      | some p => if r.kind.isLoad then (accessStep s a r p).getD [] else []

/-- WALK_RETURN (08 R200, 14 R327). -/
def execWalkReturn (w : Nat) (s : State) : Host.Outcome State Fault Refusal := answer s (walkReturn w)

/-- Every piece of one access, in order, as far as it can perform. -/
def drainOne (n : Nat) : List Piece → Fx
  | [] => Fx.none
  | p :: t => Fx.andThen (fun s => match s.access n with
      | some a => (accessStep s n a p).getD []
      | none => []) (drainOne n t)

/-- All outstanding accesses of the given streams perform, oldest first, as far as they can (14 R317). -/
def drain (ks : List Nat) : Fx := fun s =>
  Fx.each (fun e => drainOne e.1 e.2.pieces) (s.accs.filterMap fun e => match e.2 with
    | some a => if ks.contains a.k && !a.remote then some (e.1, a) else none
    | none => none) s

/-- The bytes that a store's piece writes, by key. -/
def storedBytes (s : State) (k : AKind) (p : Piece) : List (Nat × List Byte) :=
  match k, p.cells s with
  | .row m, x :: _ => (laneRuns m p.data).map fun r => (x.1 + r.1, r.2)
  | _, l => l.map fun x => (x.1, (p.data.drop x.2.1).take x.2.2)

/-- The bytes of the stores that a fence at core scope or wider, and then a `jal` or `jalr`, of the stream stand behind: fetch sees them
before they perform (01 R20). -/
def fencedCode (s : State) (k : Nat) : List (Nat × List Byte) :=
  let fences := (s.ctl k).late.filterMap fun l => l.fence.bind fun f => if f.jumped && decide (1 ≤ f.scope) then some f else none
  ((accessesOf s k).filter fun e => e.2.kind.isStore && fences.any fun f => decide (e.1 < f.num) && f.mask.getLsbD e.2.cls).flatMap
    fun e => e.2.pieces.flatMap (storedBytes s e.2.kind)

/-- The context in which stream `k` fetches. -/
def State.codeCtx (s : State) (k : Nat) : Ctx := { s.ctx k with code := fencedCode s k }

/-! ### Issuing -/

/-- The content of a memory instruction. -/
structure MemOp where
  op9 : Nat
  kind : AKind
  cls : Nat
  scope : Nat
  rel : Bool
  want : Want
  bytes : Nat          -- what flt.rd reports: 0 for a row or tile
  elems : List Elem
  direct : Option (Except (Found × Word) (List Piece))   -- pieces found without checkAll (id 3, vld.t, vst.t, tag.set)
  bump : List Eff      -- the post-increment and other registers written at issue
  rkind : Option Nat   -- the kind of request to another package, if not the kind's own
  extra : Word         -- the coordinates that a tensor access sends
  note : Bool          -- an ld.* or vld.row (05 R125)

/-- The access that the instruction leaves outstanding. -/
def MemOp.access (m : MemOp) (t : State) (ps : List Piece) : Access :=
  { k := t.cur, cls := m.cls, scope := m.scope, rel := m.rel, kind := m.kind, pieces := ps, got := [], want := m.want
    rows := (ps.flatMap fun p => rowsOfSpot p.spot).eraseDups, remote := false, near := [], probe := false, reply := none, handle := (m.elems.map (·.ea)).headD 0, pc := (t.ctl t.cur).pc, op9 := m.op9 }

/-! ### Accesses to other packages (08 R202) -/

/-- The handle that stands behind a REMOTE tensor's handle. -/
def remoteHandle (t : Tensor) (ea : Word) : Word := handleOf t.rtid (offOf ea)

/-- The request's kind (Word.lean) of an access. -/
def reqKind (k : AKind) : Nat :=
  match k with
  | .loadS _ _ | .loadV _ _ _ _ => 0
  | .store | .scatter | .row _ => 1
  | .tag _ => 14
  | .amo op _ _ _ _ | .vamo op _ =>
    match op with
    | .add => 2 | .swap => 3 | .and => 4 | .or => 5 | .xor => 6 | .min => 7 | .max => 8 | .minu => 9 | .maxu => 10
    | .cas => 11 | .arrive => 12

/-- The request of one element access to REMOTE tensor `tn`. -/
def reqOf (m : MemOp) (t : State) (e : Elem) (tn : Tensor) : Req :=
  { asid := tn.rasid, handle := remoteHandle tn e.ea, kind := m.rkind.getD (reqKind m.kind), user := !(t.ctl t.cur).prv
    bytes := match e.reach with | .ok ps => (ps.map (·.2)).foldl (· + ·) 0 | .error _ => 0
    value := match m.kind with
      | .amo _ _ x _ _ => x.setWidth 1024
      | .tag t => t.setWidth 1024
      | _ => vecOfBytes e.data
    compare := match m.kind with
      | .amo op _ _ c _ => if op = .cas then c else 0
      | .row mask => mask.setWidth 64
      | .vamo _ _ => 1
      | _ => m.extra }

/-- A transaction of this package (18 R363). -/
def newTxn (s : State) (dst tag kind : Nat) : Txn :=
  { src := ownPackage s, dst := dst, tag := tag, hops := 0, via := none, kind := kind, req := ⟨0, 0, 0, 0, 0, 0, true⟩, reqs := [], runs := []
    ctrs := [], map := 0, seq := 0, rank := 0, first := 0, log := 0, words := [], data := [] }

/-- The stream's remote access that waits at this instruction. -/
def ownRemote (s : State) : Option (Nat × Access) :=
  (s.accs.filterMap fun e => match e.2 with
    | some a => if a.k = s.cur ∧ a.remote = true then some (e.1, a) else none
    | none => none).head?

/-- Remote element accesses leave, one transaction for each package, and the stream waits for their answers; `kind` is that of the
transactions (Word.lean): accesses (0), their checks alone (6), or accesses whose checks have passed (11), to which the parts `near` of
this package belong. The access keeps its number when the checks have been made before. -/
def sendRemote (m : MemOp) (t : State) (kind : Nat) (near : List Piece) (es : List (Elem × Tensor)) : Fx :=
  let pkgs := (es.map fun e => e.2.pkg).eraseDups
  let n := ((ownRemote t).map (·.1)).getD t.nextId
  let base := if (ownRemote t).isSome then t.nextId else t.nextId + 1
  let tag (i : Nat) : Nat := (base + i) % 2 ^ 20
  Fx.andThen (fun _ =>
      (if (ownRemote t).isSome then [] else [.fresh]) ++
      [.access n (some { m.access t (pkgs.zipIdx.map fun p => ⟨.nowhere, (((es.filter fun e => e.2.pkg == p.1).head?).map (·.1.idx)).getD 0, [], tag p.2, p.1⟩) with
        remote := true, near := near, probe := kind == 6, handle := (es.head?.map fun e => e.1.ea).getD 0 })] ++
      pkgs.zipIdx.flatMap fun p =>
        [.send { newTxn t p.1 (tag p.2) kind with
          reqs := (es.filter fun e => e.2.pkg == p.1).map fun e => (e.1.idx, reqOf m t e.1 e.2) }, .fresh])
    (onCtl t.cur fun c => { c with run := .atRemote n })

/-- The registers that a remote access's answer writes; `v` holds the destination's elements from bit 0, and `rows` are the rows read. -/
def remoteResult (m : MemOp) (t : State) (rows : List Nat) (v : Vec) : Fx :=
  match m.kind with
  | .loadS sd z =>
    let got := [(0, 0, (vecBytes v).take m.bytes)]
    fun s => .sreg t.cur sd (loadedWord z got) ::
      (if m.note then onCtl t.cur (noteLoad rows (BitVec.ofNat 1024 (loadedNat got))) s else [])
  | .loadV vd w mask _ => fun s =>
    let r := mergeElems w mask false (s.vreg (coreOf t.cur) vd) (elemAt w v)
    .vreg (coreOf t.cur) vd r :: (if m.note then onCtl t.cur (noteLoad rows r) s else [])
  | .amo _ w _ _ (some sd) => fun _ => [.sreg t.cur sd (BitVec.ofInt 64 (intVal w true (v.toNat % 2 ^ w)))]
  | _ => Fx.none

/-- The 128 B row of a byte of a REMOTE tensor, which may lie in this package. -/
def remoteRow (s : State) (t : Tensor) (off : Nat) : Nat :=
  if t.pkg = ownPackage s then placeRow t.rasid t.rtid off else farRow t.pkg t.rasid t.rtid off

/-- The rows of an element access to a REMOTE tensor. -/
def remoteRows (s : State) (t : Tensor) (e : Elem) : List Nat :=
  match e.reach with
  | .ok ps => (ps.map fun p => remoteRow s t p.1).eraseDups
  | .error _ => []

/-- A write to rows wakes the streams that watch them. -/
def touchRows (rows : List Nat) : Fx := fun s =>
  s.ctls.filterMap fun e =>
    let c := e.2.touch fun r => rows.contains r
    if c = e.2 then none else some (.ctl e.1 c)

/-! ### Local accesses -/

/-- A piece of a write that retires only when its home has performed it, for its tile shows COW, or holds it, for its tile is MOVING
(09 R211). -/
def slowPiece (s : State) (p : Piece) : Bool :=
  p.spot.flat.any fun x => match x with
    | .tile asid tid off =>
      (match readTensor s asid tid with
        | some t => let e := readTile s t (off / t.tbytes); e.cow || e.moving
        | none => false)
    | _ => false

/-- What pieces of access `n` come to, one after another: the effects of all, or the first that neither performs nor is held, and whether
the frame pool is short for it. -/
def settlePieces (n : Nat) : List Piece → State → Except (Piece × Bool) (List Eff)
  | [], _ => .ok []
  | p :: t, s =>
    match s.access n with
    | none => .ok []
    | some a =>
      match settlePiece n a p s with
      | .short => .error (p, true)
      | .full => .error (p, false)
      | .did e => (settlePieces n t (s.applyAll e)).map (e ++ ·)

/-- The same as a part of a step. -/
def settlePiecesFx (n : Nat) (ps : List Piece) : Fx := fun s => match settlePieces n ps s with | .ok e => e | .error _ => []

/-- Word 0 of the entry of a piece's tile. -/
def pieceWord (s : State) (p : Piece) : Word :=
  match p.spot.flat with
  | .tile asid tid off :: _ => (match readTensor s asid tid with
    | some t => (s.ctx s.cur).walkWord tid (off / t.tbytes) (readTile s t (off / t.tbytes)).w0
    | none => 0)
  | _ => 0

/-- The address of an element of the instruction. -/
def MemOp.address (m : MemOp) (i : Nat) (else_ : Word) : Word := ((m.elems.find? (·.idx == i)).map (·.ea)).getD else_

/-- The address that the access of a piece computed: of a tensor access, the handle of the element (01 R28). -/
def MemOp.pieceAddress (m : MemOp) (p : Piece) (else_ : Word) : Word :=
  match m.want, p.spot with
  | .tensor, .tile _ tid off => handleOf tid off
  | _, _ => m.address p.elem else_

/-- A memory trap of the instruction; `pkg` is the package where it was found. -/
def MemOp.trap (m : MemOp) (onTrap : Byte → Option Fx) (gone : Option Nat) (code : Byte) (ea : Word) (pkg : Nat) (w0 : Word) : Act :=
  let flt := memFlt m.op9 (!m.kind.isLoad) m.cls m.scope m.bytes pkg w0
  match onTrap code, gone with
  | some fx, some n => .seq (Fx.andThen (fun _ => [.access n none]) fx)
  | some fx, none => .seq fx
  | none, some n => .trapWith (fun _ => [.access n none]) code ea (some flt)
  | none, none => .trap code false ea flt

/-- BREAK comes after the instruction at hand retires (01 R24). -/
def steps (s : State) : Bool := !(s.ctl s.cur).prv && (s.ctl s.cur).step

/-- The pieces of a write that have to be settled before it retires can be, as far as order goes: it lets the access perform, or all of
them are held in front of it. -/
def maySettle (t : State) (n : Nat) (a : Access) (qs : List Piece) : Bool :=
  inOrder t n a || (holdOrder t n a && qs.all fun p => (movingTile t p.spot).isSome)

/-- A memory instruction whose checks have passed, with its local pieces: an outstanding access (09 R211). -/
def localIssue (m : MemOp) (onTrap : Byte → Option Fx) (ps : List Piece) (touch : Option Nat) (t : State) : Act :=
  let n := t.nextId
  let acc := m.access t ps
  let latch : Fx := match touch with | some o => onCtl t.cur (latchTouch (!m.kind.isLoad) o) | none => Fx.none
  let start : Fx := latch.andThen fun s => m.bump ++ [.access s.nextId (some acc), .fresh]
  let qs := ps.filter (slowPiece t)
  if ps = [] then .seq (fun _ => m.bump)
  else if m.kind.isLoad then .slow start { stall := steps t, accs := [n] }
  else if qs = [] then .seq start
  else if !maySettle t n acc qs then .wait Fx.none
  else match settlePieces n qs (t.applyAll (start t)) with
    | .ok _ => .seq (start.andThen (settlePiecesFx n qs))
    | .error (_, false) => .wait Fx.none
    | .error (p, true) =>
      if m.kind.isTag then .wait Fx.none       -- tag.set never raises TILE_ABSENT (09 R222): it waits for the pool
      else m.trap onTrap none cTILE_ABSENT (m.pieceAddress p acc.handle) 0 (pieceWord t p)

/-- A tag change of the stream that the instruction's checks have to wait for (10 R235). A tensor access may reach any tile. -/
def MemOp.behindTag (m : MemOp) (t : State) : Bool :=
  m.elems.any fun e => tagAhead t t.cur m.cls (tidOf e.ea) fun tb n => m.extra != 0 || offOf e.ea / tb == n

/-- Order lets an access to another package perform; one to a REMOTE tensor that names this package waits for the stores of its class
too, which it would not see on their way. -/
def MemOp.farReady (m : MemOp) (t : State) : Bool :=
  inOrder t t.nextId (m.access t []) && (accessesOf t t.cur).all fun e => e.2.cls != m.cls ||
    m.elems.all fun x => match readTensor t (t.ctx t.cur).asid (tidOf x.ea) with
      | some tn => tn.pkg != ownPackage t
      | none => true

/-- What the element accesses find, in order. -/
def MemOp.found (m : MemOp) (t : State) : List (Elem × Found) :=
  m.elems.map fun e => (e, checkElem t (t.ctx t.cur) m.want e)

def remoteOnes (l : List (Elem × Found)) : List (Elem × Tensor) :=
  l.filterMap fun x => match x.2 with | .remote tn => some (x.1, tn) | _ => none

def localOnes (l : List (Elem × Found)) : List Elem :=
  (l.filter fun x => match x.2 with | .remote _ => false | _ => true).map (·.1)

/-- An instruction with elements in other packages, of which `l` is what all of them find: the checks of every element come before any
performs, those of lower elements first (09 R210), so where not all of them lie in one package the other packages are asked for the
checks first. `asked`: they have passed; the local parts are checked once more, and from then on nothing can fail any more. -/
def remoteIssue (m : MemOp) (onTrap : Byte → Option Fx) (l : List (Elem × Found)) (asked : Bool) (t : State) : Act :=
  let gone := (ownRemote t).map (·.1)
  let bad := l.findIdx? fun x => match x.2 with | .trap _ _ => true | _ => false
  let before := match bad with | some i => l.take i | none => l
  let rs := remoteOnes before
  let mixed := bad.isSome || rs.length < l.length || (rs.map fun e => e.2.pkg).eraseDups.length != 1
  match l.findSome? fun x => match x.2 with | .miss tn n => some (tn, n) | _ => none with
  | some (tn, n) => .wait (startWalk t.cur (t.ctx t.cur).core (t.ctx t.cur).asid tn n)
  | none =>
    if (asked || rs = []) && bad.isSome then
      match bad.bind fun i => l[i]? with
      | some (e, .trap code w0) => m.trap onTrap gone code e.ea 0 w0
      | _ => .wait Fx.none
    else if mixed && !asked then .wait (sendRemote m t 6 [] rs)
    else match checkAll t (t.ctx t.cur) m.want (localOnes l) with
      | .error _ => .wait Fx.none
      | .ok (ps, touch) =>
        let latch : Fx := match touch with | some o => onCtl t.cur (latchTouch (!m.kind.isLoad) o) | none => Fx.none
        .wait (latch.andThen (sendRemote m t (if asked then 11 else 0) (m.kind.pieces ps) rs))

/-- The value of a load with the parts laid into it that lie in this package. -/
def withNear (m : MemOp) (t : State) (ps : List Piece) (v : Vec) : Vec :=
  ps.foldl (fun v p =>
    v ||| BitVec.ofNat 1024 (bytesToNat (loadBytes t t.nextId (m.access t ps) p) * 2 ^ (8 * (p.elem * m.bytes + p.pos)))) v

/-- The local parts of an instruction whose remote ones have performed: writes become an outstanding access; none while one that has to
settle first cannot, for it fails no more (09 R211). -/
def nearWrites (m : MemOp) (t : State) (ps : List Piece) : Option Fx :=
  let n := t.nextId
  let start : Fx := fun s => [.access s.nextId (some (m.access t ps)), .fresh]
  let qs := ps.filter (slowPiece t)
  if ps = [] ∨ m.kind.isLoad then some Fx.none
  else if qs = [] then some start
  else match settlePieces n qs (t.applyAll (start t)) with
    | .ok _ => some (start.andThen (settlePiecesFx n qs))
    | .error _ => none

/-- The stream's remote access has its answer. -/
def remoteDone (m : MemOp) (onTrap : Byte → Option Fx) (n : Nat) (a : Access) (t : State) : Act :=
  match a.reply with
  | none => .wait Fx.none
  | some (code, e, v) =>
    let ea := if m.rkind = some 15 ∨ m.rkind = some 16 then a.handle + BitVec.ofNat 64 e else m.address e a.handle
    let tn := readTensor t (t.ctx t.cur).asid (tidOf ea)
    if code = cILLEGAL then .trapWith (fun _ => [.access n none]) cILLEGAL t.word32 none
    else if code ≠ 0 ∧ code.toNat < 32 then m.trap onTrap (some n) code ea ((tn.map (·.pkg)).getD 0) 0
    else if a.probe then remoteIssue m onTrap (m.found t) true t
    else match nearWrites m t a.near with
      | none => .wait Fx.none
      | some near =>
        let rows := match tn with | some x => m.elems.flatMap (remoteRows t x) | none => []
        let result := remoteResult m t rows (if m.kind.isLoad then withNear m t a.near v else v)
        let wrote : Fx := if m.kind.isLoad then Fx.none else touchRows rows
        let done : Fx := ((Fx.andThen (fun _ => .access n none :: m.bump) near).andThen wrote).andThen result
        if code = 0 then .seq done
        else match withFlags t (code.setWidth 5) done with
          | .trapWith e x v f => .trapWith (e.andThen fun _ => [.access n none]) x v f
          | r => r

/-- A memory instruction at issue: its checks, then an outstanding access (09 R210, R211). `onTrap` turns a trap into
another ending (vld.ff). An access to another package waits until its order lets it perform (10 R235, R238), is performed there, and
holds the stream until its answer comes. -/
def memIssue (m : MemOp) (onTrap : Byte → Option Fx) (t : State) : Act :=
  match ownRemote t with
  | some (n, a) => remoteDone m onTrap n a t
  | none =>
    if m.behindTag t then .wait Fx.none
    else
      let far := m.farReady t
      match m.direct with
      | some (.ok ps) => localIssue m onTrap ps none t
      | some (.error (.remote tn, _)) =>
        if far then .wait (sendRemote m t 0 [] (m.elems.map fun e => (e, tn))) else .wait Fx.none
      | some (.error (.trap code w0, ea)) => m.trap onTrap none code ea 0 w0
      | some (.error _) => .wait Fx.none
      | none =>
        let l := m.found t
        if remoteOnes l ≠ [] then (if far then remoteIssue m onTrap l false t else .wait Fx.none)
        else match checkAll t (t.ctx t.cur) m.want m.elems with
          | .error (.trap code w0, ea) => m.trap onTrap none code ea 0 w0
          | .error (.miss tn n, _) => .wait (startWalk t.cur (t.ctx t.cur).core (t.ctx t.cur).asid tn n)
          | .error _ => .wait Fx.none
          | .ok (ps, touch) => localIssue m onTrap (m.kind.pieces ps) touch t

/-- An access has its answer, and its stream goes on with it. -/
def replied (n : Nat) (a : Access) (r : Byte × Nat × Vec) : Fx := fun s =>
  .access n (some { a with pieces := [], reply := some r }) ::
    onCtl a.k (fun c => { c with run := if c.run = .atRemote n then .running else c.run }) s

/-- REMOTE_REPLY: the other package answers access `a` (08 R202) with a trap code, and then in `v` the number of the element that failed
(of a tensor access, its byte), or with 0 and the value, or with 32 and the flags of a block-scaled access; the stream goes on with the
answer. -/
def execRemoteReply (a : Nat) (code : Byte) (v : Vec) (s : State) : Host.Outcome State Fault Refusal :=
  answer s fun s =>
    match s.access a with
    | none => []
    | some r => if r.remote then replied a r (code, v.toNat % 2 ^ 44, v) s else []

end Sys2Proof.Machine
end

