-- ==== Sys2Proof/Machine/Memory.lean ====
section
/-!
DEFINITION. Scalar, row, gather, scatter and tag instructions (09 R208 to R222).
-/
namespace Sys2Proof.Machine

/-- A memory instruction with nothing found beforehand. -/
def plainOp (op9 : Nat) (kind : AKind) (cls bytes : Nat) (want : Want) (elems : List Elem)
    (bump : List Eff) : MemOp :=
  { op9 := op9, kind := kind, cls := cls, scope := 0, rel := false, want := want, bytes := bytes, elems := elems,
    direct := none, bump := bump, rkind := none, extra := 0, note := false }

def noCatch : Byte → Option Fx := fun _ => none

/-! ### Scalar loads and stores (09 R214) -/

def scalarLoad (op9 bytes : Nat) (f : MemForm) (s : State) : Host.Outcome State Fault Refusal :=
  issue s (scalarDesc op9 f.len f.g f.fp f.fo [f.v % 64, f.sa]) fun t =>
    let ea := memEa f t bytes
    memIssue { plainOp op9 (.loadS (f.v % 64) (f.z || bytes == 8)) f.cls bytes .load
      [⟨0, ea, scalarReach false ea bytes, []⟩] (memBump f t bytes) with note := true } noCatch t

def scalarStore (op9 bytes : Nat) (f : MemForm) (s : State) : Host.Outcome State Fault Refusal :=
  issue s (scalarDesc op9 f.len f.g f.fp f.fo [f.v % 64, f.sa]) fun t =>
    let ea := memEa f t bytes
    memIssue (plainOp op9 .store f.cls bytes (.scalar bytes)
      [⟨0, ea, scalarReach false ea bytes, natToBytes bytes (t.sreg t.cur (f.v % 64)).toNat⟩] (memBump f t bytes)) noCatch t

/-! ### Row loads and stores (09 R212, R215, R216) -/

/-- The lanes that a row form accesses. -/
def laneMask (t : State) (g : Guard) : Pred := (guardPred t t.cur g) &&& 0xFFFFFFFF

/-- The row access of an element instruction; none with every lane disabled. -/
def rowElems (mask : Pred) (ea : Word) (data : List Byte) : List Elem :=
  if mask = 0 then [] else [⟨0, ea, rowReach ea, data⟩]

def rowLoad (f : MemForm) (s : State) : Host.Outcome State Fault Refusal :=
  issue s (elemDesc 0x098 f.len f.g f.fp f.fo [f.sa] [f.v]) fun t =>
    let mask := laneMask t f.g
    memIssue { plainOp 0x098 (.loadV f.v 32 mask true) f.cls 0 .load (rowElems mask (memEa f t 128) [])
      (memBump f t 128) with note := true } noCatch t

def rowStore (f : MemForm) (s : State) : Host.Outcome State Fault Refusal :=
  issue s (elemDesc 0x099 f.len f.g f.fp f.fo [f.sa] [f.v]) fun t =>
    let mask := laneMask t f.g
    memIssue (plainOp 0x099 (.row mask) f.cls 0 .row
      (rowElems mask (memEa f t 128) (vecBytes (t.vreg (coreOf t.cur) f.v))) (memBump f t 128)) noCatch t

/-- `vld.ff`: the three memory traps of the access become a cause code in sn (09 R216). -/
def rowLoadFirst (f : MemForm) (s : State) : Host.Outcome State Fault Refusal :=
  issue s (elemDesc 0x09C f.len f.g f.fp f.fo [f.sa, f.sb] [f.v]) fun t =>
    let mask := laneMask t f.g
    memIssue { plainOp 0x09C (.loadV f.v 32 mask false) f.cls 0 .load (rowElems mask (memEa f t 128) [])
      (memBump f t 128 ++ [.sreg t.cur f.sb 0]) with rkind := some 21 }
      (fun code => if code = cTILE_PROT ∨ code = cTILE_ABSENT ∨ code = cTAG_MISMATCH then
        some fun _ => memBump f t 128 ++ [.sreg t.cur f.sb (code.setWidth 64)] else none) t

/-! ### Gather, scatter and vector atomics (09 R219, R220) -/

/-- The enabled elements of an F-X instruction with their indices. -/
def fxElems (f : FX) (t : State) : List (Nat × Nat) :=
  let w := tyWidth f.ty.toNat
  let g := guardPred t t.cur f.g
  (List.range (elemCount w)).filterMap fun i =>
    if g.getLsbD i then some (i, elemAt 32 (t.vreg (coreOf t.cur) f.vi.toNat) i) else none

/-- Element accesses to tensors and windows. -/
def fxAccesses (f : FX) (store : Bool) (t : State) : List Elem :=
  let w := tyWidth f.ty.toNat
  (fxElems f t).map fun x =>
    let ea := t.sreg t.cur f.sa.toNat + BitVec.ofNat 64 (x.2 * (w / 8))
    ⟨x.1, ea, scalarReach false ea (w / 8),
      if store then natToBytes (w / 8) (elemAt w (t.vreg (coreOf t.cur) f.vd.toNat) x.1) else []⟩

/-- Accesses to the lane slices, id 3: each 32-bit word in the slice of its own lane. -/
def laneAccesses (f : FX) (store : Bool) (t : State) : Except (Found × Word) (List Piece) :=
  let w := tyWidth f.ty.toNat
  let sa := t.sreg t.cur f.sa.toNat
  let xs := (fxElems f t).map fun x => (x.1, offOf sa + 4 * x.2, sa + BitVec.ofNat 64 (4 * x.2))
  match xs.find? fun x => 8192 ≤ x.2.1 + 3 with
  | some x => .error (.trap cTILE_PROT 0, x.2.2)
  | none => .ok (joinPieces (xs.flatMap fun x =>
      let bs := natToBytes (w / 8) (elemAt w (t.vreg (coreOf t.cur) f.vd.toNat) x.1)
      (List.range (w / 32)).map fun h =>
        { spot := .key (keyLane (coreOf t.cur) (x.1 * (w / 32) + h) x.2.1), len := 4
          data := if store then (bs.drop (4 * h)).take 4 else [], elem := x.1, pos := 4 * h }))

/-- `vgat`, `vsct` and `vamo`. -/
def fxOp (op9 : Nat) (kind : FX → State → AKind) (closes lanes : Bool) (f : FX) (s : State) :
    Host.Outcome State Fault Refusal :=
  issue s { elemDesc op9 8 f.g f.fp f.fo [f.sa.toNat] [f.vd.toNat, f.vi.toNat] with closes := closes } fun t =>
    let w := tyWidth f.ty.toNat
    let k := kind f t
    let m := plainOp op9 k f.cls.toNat (w / 8) (if k.isLoad then .load else .scalar (w / 8))
      (fxAccesses f (!k.isLoad) t) []
    let m := { m with scope := f.sc.toNat }
    memIssue (if lanes && tidOf (t.sreg t.cur f.sa.toNat) == 3 then { m with direct := some (laneAccesses f (!k.isLoad) t) }
      else m) noCatch t

def execVgat (f : FX) (s : State) : Host.Outcome State Fault Refusal :=
  fxOp 0x0A0 (fun f t => .loadV f.vd.toNat (tyWidth f.ty.toNat) (guardPred t t.cur f.g) false) false true f s
def execVsct (f : FX) (s : State) : Host.Outcome State Fault Refusal := fxOp 0x0A1 (fun _ _ => .scatter) false true f s
def execVamoOr (f : FX) (s : State) : Host.Outcome State Fault Refusal :=
  fxOp 0x0A2 (fun f _ => .vamo .or (tyWidth f.ty.toNat)) true false f s
def execVamoAdd (f : FX) (s : State) : Host.Outcome State Fault Refusal :=
  fxOp 0x0A3 (fun f _ => .vamo .add (tyWidth f.ty.toNat)) true false f s
def execVamoMax (f : FX) (s : State) : Host.Outcome State Fault Refusal :=
  fxOp 0x0A4 (fun f _ => .vamo (if f.ty.toNat ≤ 3 then .max else .maxu) (tyWidth f.ty.toNat)) true false f s

/-! ### Scalar atomics (09 R221) -/

def amoOp (op9 : Nat) (op : Amo) (f : FA) (s : State) : Host.Outcome State Fault Refusal :=
  issue s { scalarDesc op9 8 f.g f.fp f.fo [f.sd.toNat, f.sa.toNat, f.sb.toNat, f.sc.toNat] with closes := true } fun t =>
    let w := if f.wd = 1 then 64 else 32
    let ea := t.sreg t.cur f.sa.toNat
    let sd := if f.sd = 0 then none else some f.sd.toNat
    let low (n : Nat) : Word := BitVec.ofNat 64 ((t.sreg t.cur n).toNat % 2 ^ w)
    let m := plainOp op9 (.amo op w (low f.sb.toNat) (low f.sc.toNat) sd) f.cls.toNat (w / 8) (.scalar (w / 8))
      [⟨0, ea, scalarReach true ea (w / 8), []⟩] []
    memIssue { m with scope := f.scope.toNat } noCatch t

/-! ### Tags (09 R222) -/

/-- Steps 1 to 3 of 01 R19 for the tile of a handle. -/
def tagPlace (t : State) (ea : Word) (write : Bool) : Except Byte Place :=
  placeCheck t (t.ctx t.cur) (tidOf ea) (offOf ea) 1 write

/-- What tag.get returns of a tile. -/
def tagWord (e : Tile) (froz : Bool) : Word :=
  BitVec.ofNat 64 ((if e.viewValid froz || classOf (e.viewTag froz) == 1 then 2 ^ 16 else 0) + e.viewTag froz)

def execTagGet (f : FM) (s : State) : Host.Outcome State Fault Refusal :=
  issue s (scalarDesc 0x09D 8 f.g f.fp f.fo [f.vd.toNat % 64, f.sa.toNat]) fun t =>
    let ea := t.sreg t.cur f.sa.toNat
    let sd := f.vd.toNat % 64
    let m := plainOp 0x09D (.loadS sd true) f.cls.toNat 8 .load [⟨0, ea, .ok [(offOf ea, 1)], []⟩] []
    if tidOf ea = 3 then .seq fun _ => [.sreg t.cur sd 0x10000]
    else match tagPlace t ea false with
      | .error code => .trap code false ea (memFlt 0x09D false f.cls.toNat 0 8 0 0)
      | .ok (.tensor tn) =>
        if tn.remote then memIssue { m with direct := some (.error (.remote tn, ea)), rkind := some 13 } noCatch t
        else if !inOrder t t.nextId (m.access t []) || (accessesOf t t.cur).any fun e => e.2.cls == f.cls.toNat && e.2.kind.isTag then
          .wait Fx.none
        else .seq fun _ =>
          [.sreg t.cur sd (tagWord (readTile t tn (offOf ea / tn.tbytes)) ((t.ctx t.cur).froz.contains tn.tid))]
      | .ok _ => .seq fun _ => [.sreg t.cur sd 0x10000]

def execTagSet (f : FM) (s : State) : Host.Outcome State Fault Refusal :=
  issue s (scalarDesc 0x09E 8 f.g f.fp f.fo [f.sa.toNat, f.sb.toNat]) fun t =>
    let ea := t.sreg t.cur f.sa.toNat
    let tag : BitVec 16 := (t.sreg t.cur f.sb.toNat).setWidth 16
    let flt := memFlt 0x09E true f.cls.toNat 0 0 0 0
    let m := plainOp 0x09E (.tag tag) f.cls.toNat 0 .load [⟨0, ea, .ok [(offOf ea, 1)], []⟩] []
    match tagPlace t ea true with
    | .error code => .trap code false ea flt
    | .ok (.tensor tn) =>
      if tn.remote then memIssue { m with direct := some (.error (.remote tn, ea)), rkind := some 14 } noCatch t
      else if tagAhead t t.cur f.cls.toNat tn.tid (fun tb n => offOf ea / tb == n) then .wait Fx.none
      else if malformed tag.toNat then .trap cTAG_MISMATCH false ea flt
      else memIssue { m with direct := some (.ok [⟨.tile (t.ctx t.cur).asid tn.tid (offOf ea), 1, [], 0, 0⟩]) } noCatch t
    | .ok _ => .trap cTILE_PROT false ea flt

/-! ### The instructions in their words -/

def execLdB (f : FM) (s : State) : Host.Outcome State Fault Refusal := scalarLoad 0x090 1 f.form s
def execStB (f : FM) (s : State) : Host.Outcome State Fault Refusal := scalarStore 0x094 1 f.form s
def execLdBX32 (f : CL) (s : State) : Host.Outcome State Fault Refusal := scalarLoad 0x090 1 (f.form false) s
def execLdBZX32 (f : CL) (s : State) : Host.Outcome State Fault Refusal := scalarLoad 0x090 1 (f.form true) s
def execStBX32 (f : CT) (s : State) : Host.Outcome State Fault Refusal := scalarStore 0x094 1 f.form s
def execLdBX96 (f : FM96) (s : State) : Host.Outcome State Fault Refusal := scalarLoad 0x090 1 f.form s
def execStBX96 (f : FM96) (s : State) : Host.Outcome State Fault Refusal := scalarStore 0x094 1 f.form s

def execLdH (f : FM) (s : State) : Host.Outcome State Fault Refusal := scalarLoad 0x091 2 f.form s
def execStH (f : FM) (s : State) : Host.Outcome State Fault Refusal := scalarStore 0x095 2 f.form s
def execLdHX32 (f : CL) (s : State) : Host.Outcome State Fault Refusal := scalarLoad 0x091 2 (f.form false) s
def execLdHZX32 (f : CL) (s : State) : Host.Outcome State Fault Refusal := scalarLoad 0x091 2 (f.form true) s
def execStHX32 (f : CT) (s : State) : Host.Outcome State Fault Refusal := scalarStore 0x095 2 f.form s
def execLdHX96 (f : FM96) (s : State) : Host.Outcome State Fault Refusal := scalarLoad 0x091 2 f.form s
def execStHX96 (f : FM96) (s : State) : Host.Outcome State Fault Refusal := scalarStore 0x095 2 f.form s

def execLdW (f : FM) (s : State) : Host.Outcome State Fault Refusal := scalarLoad 0x092 4 f.form s
def execStW (f : FM) (s : State) : Host.Outcome State Fault Refusal := scalarStore 0x096 4 f.form s
def execLdWX32 (f : CL) (s : State) : Host.Outcome State Fault Refusal := scalarLoad 0x092 4 (f.form false) s
def execLdWZX32 (f : CL) (s : State) : Host.Outcome State Fault Refusal := scalarLoad 0x092 4 (f.form true) s
def execStWX32 (f : CT) (s : State) : Host.Outcome State Fault Refusal := scalarStore 0x096 4 f.form s
def execLdWX96 (f : FM96) (s : State) : Host.Outcome State Fault Refusal := scalarLoad 0x092 4 f.form s
def execStWX96 (f : FM96) (s : State) : Host.Outcome State Fault Refusal := scalarStore 0x096 4 f.form s

def execLdD (f : FM) (s : State) : Host.Outcome State Fault Refusal := scalarLoad 0x093 8 f.form s
def execStD (f : FM) (s : State) : Host.Outcome State Fault Refusal := scalarStore 0x097 8 f.form s
def execLdDX32 (f : CL) (s : State) : Host.Outcome State Fault Refusal := scalarLoad 0x093 8 (f.form false) s
def execStDX32 (f : CT) (s : State) : Host.Outcome State Fault Refusal := scalarStore 0x097 8 f.form s
def execLdDX96 (f : FM96) (s : State) : Host.Outcome State Fault Refusal := scalarLoad 0x093 8 f.form s
def execStDX96 (f : FM96) (s : State) : Host.Outcome State Fault Refusal := scalarStore 0x097 8 f.form s

def execVldRow (f : FM) (s : State) : Host.Outcome State Fault Refusal := rowLoad f.form s
def execVstRow (f : FM) (s : State) : Host.Outcome State Fault Refusal := rowStore f.form s

def execVldRowX32 (f : CR) (s : State) : Host.Outcome State Fault Refusal := rowLoad f.form s
def execVstRowX32 (f : CR) (s : State) : Host.Outcome State Fault Refusal := rowStore f.form s

def execVldRowX96 (f : FM96) (s : State) : Host.Outcome State Fault Refusal := rowLoad f.form s
def execVstRowX96 (f : FM96) (s : State) : Host.Outcome State Fault Refusal := rowStore f.form s

def execVldFf (f : FM) (s : State) : Host.Outcome State Fault Refusal := rowLoadFirst f.form s
def execVldFfX96 (f : FM96) (s : State) : Host.Outcome State Fault Refusal := rowLoadFirst f.form s

def execAmoAdd (f : FA) (s : State) : Host.Outcome State Fault Refusal := amoOp 0x0A8 .add f s

def execAmoSwap (f : FA) (s : State) : Host.Outcome State Fault Refusal := amoOp 0x0A9 .swap f s

def execAmoAnd (f : FA) (s : State) : Host.Outcome State Fault Refusal := amoOp 0x0AA .and f s

def execAmoOr (f : FA) (s : State) : Host.Outcome State Fault Refusal := amoOp 0x0AB .or f s

def execAmoXor (f : FA) (s : State) : Host.Outcome State Fault Refusal := amoOp 0x0AC .xor f s

def execAmoMin (f : FA) (s : State) : Host.Outcome State Fault Refusal := amoOp 0x0AD .min f s

def execAmoMax (f : FA) (s : State) : Host.Outcome State Fault Refusal := amoOp 0x0AE .max f s

def execAmoMinu (f : FA) (s : State) : Host.Outcome State Fault Refusal := amoOp 0x0AF .minu f s

def execAmoMaxu (f : FA) (s : State) : Host.Outcome State Fault Refusal := amoOp 0x0B0 .maxu f s

def execAmoCas (f : FA) (s : State) : Host.Outcome State Fault Refusal := amoOp 0x0B1 .cas f s

end Sys2Proof.Machine
end

