-- ==== Sys2Proof/Machine/TensorAccess.lean ====
section
/-!
DEFINITION. The layout unit (08 R198, R199) and the tensor loads and stores (09 R217, R218).
-/
namespace Sys2Proof.Machine

/-! ### The layout unit -/

/-- Inter(a, b): bit i of a at bit 2i, bit i of b at bit 2i + 1, for `n` bits. -/
def interleave (a b : Nat) : Nat → Nat
  | 0 => 0
  | n + 1 => a % 2 + 2 * (b % 2) + 4 * interleave (a / 2) (b / 2) n

/-- The place of an element within its tile (08 R199): `u` are its coordinates there, `z` the tile's shape. -/
def layoutIndex (lay : Nat) (z u : List Nat) : Nat :=
  let s0 := z.getD 0 1
  let s1 := z.getD 1 1
  let u0 := u.getD 0 0
  let u1 := u.getD 1 0
  let r := u.getD 2 0 + z.getD 2 1 * u.getD 3 0
  match lay with
  | 0 => u0 + s0 * (u1 + s1 * r)
  | 1 => u1 + s1 * (u0 + s0 * r)
  | 2 => 16 * interleave (u0 / 4) (u1 / 4) 16 + u0 % 4 + 4 * (u1 % 4) + s0 * s1 * r
  | _ => 16 * interleave (u1 / 4) (u0 / 4) 16 + u1 % 4 + 4 * (u0 % 4) + s0 * s1 * r

def isPow2 (n : Nat) : Bool := n == 2 ^ Nat.log2 n

/-- The shape of a tile: T + 1 on each axis. -/
def Tensor.shape (t : Tensor) : List Nat := t.t.map (· + 1)
def Tensor.tileElems (t : Tensor) : Nat := t.shape.foldl (· * ·) 1

/-- Bytes that `n` elements of a format occupy; for a block-scaled format, whole blocks. -/
def formatSize (fmt n : Nat) : Nat := if 13 ≤ fmt then n / 32 * mxBlock (fmt - 1) else n * formatBytes fmt

/-- The tags that a tensor access meets with TAG_MISMATCH (08 R198, R199). -/
def tensorTagBad (t : Tensor) (tag : Nat) : Bool :=
  let fmt := formatOf tag
  malformed tag || fmt == 0 || classOf tag == 2 || classOf tag == 3 || decide (t.tbytes < formatSize fmt t.tileElems) ||
  (decide (13 ≤ fmt) && t.tileElems % 32 != 0) ||
  (decide (2 ≤ layoutOf tag) && !(t.shape.getD 0 1 == t.shape.getD 1 1 && isPow2 (t.shape.getD 0 1) && decide (4 ≤ t.shape.getD 0 1)))

/-- Tile number and coordinates within the tile (08 R198), or TILE_PROT. -/
def locate (t : Tensor) (c : List Nat) : Except Byte (Nat × List Nat) :=
  if (List.range 4).any (fun k => if t.rank ≤ k then c.getD k 0 != 0 else decide (t.x.getD k 0 < c.getD k 0)) then
    .error cTILE_PROT
  else
    let z := t.shape
    let tk (k : Nat) := c.getD k 0 / z.getD k 1
    .ok (tk 0 + t.grid 0 * (tk 1 + t.grid 1 * (tk 2 + t.grid 2 * tk 3)), (List.range 4).map fun k => c.getD k 0 % z.getD k 1)

/-- Where an element is found: its tile's tag, whether frozen, its index in the tile, or why not. -/
inductive LFound where
  | at (n : Nat) (tag : Nat) (idx : Nat) (fr : Option Nat)    -- `fr`: the frame of the frozen version
  | fail (code : Byte) (w0 : Word) (off : Nat)
  | miss (n : Nat)

/-- The byte of an element within its tile, for a format 1 to 12. -/
def byteOf (fmt idx : Nat) : Nat := idx * formatBytes fmt

/-- The byte of its tile at which the element with coordinates `u` there begins, as STM_TVAL reports it (01 R28, 08 R198): under the tile's
own tag, in a block-scaled format the first that holds a bit of it (02 R58); the tile's first byte where the tag gives the element no
place (notes/assumptions/94.md). -/
def coordByte (t : Tensor) (tag : Nat) (u : List Nat) : Nat :=
  let fmt := formatOf tag
  let i := layoutIndex (layoutOf tag) t.shape u
  if tensorTagBad t tag then 0
  else if fmt ≤ 12 then byteOf fmt i
  else i / 32 * mxBlock (fmt - 1) + (i % 32) * ((mxBlock (fmt - 1) - 1) / 4) / 8

/-- All checks of one coordinate (08 R198, 09 R210): places, flags, the tile, the tag. -/
def findCoord (s : State) (cached : Bool) (c : Ctx) (t : Tensor) (w : Want) (crd : List Nat) : LFound :=
  match locate t crd with
  | .error code => .fail code 0 0
  | .ok (n, u) =>
    let fz := c.froz.contains t.tid
    let at0 (e : Tile) : Nat := n * t.tbytes + coordByte t (e.viewTag fz) u
    match placeCheck s c t.tid (n * t.tbytes) 1 (!w.isLoad) with
    | .error code => .fail code 0 (at0 (readTile s t n))
    | .ok _ =>
      match lookupTile s cached c t n with
      | none => .miss n
      | some e =>
        let tag := e.viewTag fz
        if e.absent fz then .fail cTILE_ABSENT (c.walkWord t.tid n e.w0) (at0 e)
        else if tensorTagBad t tag || !w.accepts tag then .fail cTAG_MISMATCH (c.walkWord t.tid n e.w0) (at0 e)
        else .at n tag (layoutIndex (layoutOf tag) t.shape u)
          (if fz then some (if classOf tag = 1 then 0 else e.viewFrame fz + 1) else none)

/-- The first tile (09 R217). Its own element is checked if it is enabled; otherwise the tile gives the format, and only the traps of
08 R198 apply (05 R112; notes/assumptions/94.md). -/
def firstTile (s : State) (cached : Bool) (c : Ctx) (t : Tensor) (w : Want) (on0 : Bool) (crd : List Nat) : LFound :=
  if on0 then findCoord s cached c t w crd
  else match locate t crd with
    | .error code => .fail code 0 0
    | .ok (n, u) =>
      match lookupTile s cached c t n with
      | none => .miss n
      | some e =>
        let tag := e.viewTag (c.froz.contains t.tid)
        if tensorTagBad t tag then .fail cTAG_MISMATCH (c.walkWord t.tid n e.w0) (n * t.tbytes)
        else .at n tag (layoutIndex (layoutOf tag) t.shape u) none

/-- The place of bytes `b` of tile `n`. -/
def tileSpot (c : Ctx) (t : Tensor) (n b : Nat) (fr : Option Nat) : Spot :=
  match fr with
  | none => .tile c.asid t.tid (n * t.tbytes + b)
  | some 0 => .nowhere
  | some (f + 1) => .key (frameKey t.tid f b)

/-! ### vld.t and vst.t -/

def coords (w : Word) : List Nat := axes w

/-- The coordinates of element `i`. -/
def coordAt (crd : List Nat) (i : Nat) : List Nat := (crd.headD 0 + i) :: crd.tail

/-- What the elements of a tensor access come to: for each enabled element within the extent its number and find. -/
def findElems (s : State) (cached : Bool) (c : Ctx) (t : Tensor) (w : Want) (g : Pred) (crd : List Nat) (fmt n : Nat) :
    Except LFound (List (Nat × LFound)) :=
  (List.range n).foldr (fun i acc =>
    if !g.getLsbD i || t.x.getD 0 0 < crd.headD 0 + i then acc
    else match findCoord s cached c t w (coordAt crd i) with
      | .at tn tag idx fr =>
        if formatOf tag = fmt then (match acc with | .ok l => .ok ((i, .at tn tag idx fr) :: l) | .error e => .error e)
        else .error (.fail cTAG_MISMATCH (c.walkWord t.tid tn (readTile s t tn).w0) (tn * t.tbytes +
          (if formatOf tag ≤ 12 then byteOf (formatOf tag) idx else idx / 32 * mxBlock (formatOf tag - 1))))
      | r => .error r) (.ok [])

/-- The number of elements of a tensor access and the width of its register type (09 R217). -/
def tensorCount (fmt : Nat) : Nat := if 13 ≤ fmt then 32 else elemCount (tyWidth (fmt - 1))
def tensorWidth (fmt : Nat) : Nat := if 13 ≤ fmt then 32 else tyWidth (fmt - 1)

/-- How a failing find ends the instruction. -/
def tensorFail (op9 : Nat) (store : Bool) (cls : Nat) (c : Ctx) (t : Tensor) (h : Word) (r : LFound) : Act :=
  match r with
  | .fail code w0 off => .trap code false (if off = 0 then h else handleOf t.tid off) (memFlt op9 store cls 0 0 0 w0)
  | .miss n => .wait (startWalk c.k c.core c.asid t n)
  | .at _ _ _ _ => .wait Fx.none

/-- The tensor of a tensor access: a handle of offset 0 to an id of 16 or above (09 R217). -/
def tensorOf (t : State) (c : Ctx) (h : Word) : Option Tensor := if offOf h = 0 then readTensor t c.asid (tidOf h) else none

/-- The flags of a block-scaled access end the instruction as those of a vector instruction do, once nothing before them
ends it (14 R310). -/
def blockFlags (t : State) (fl : Fl) (a : Act) : Act :=
  match a with
  | .seq e => withFlags t fl e
  | r => r

/-- The guard, rounding mode and enabled traps that a tensor access sends to another package (Word.lean). -/
def remoteMode (t : State) (k : Nat) (g : Pred) : Nat :=
  g.toNat + 2 ^ 128 * field (t.ctl k).fpctl 0 3 + 2 ^ 131 * field (t.ctl k).fpctl 8 5

/-- `vld.t` (09 R217, R218). -/
def execVldT (f : FM) (s : State) : Host.Outcome State Fault Refusal :=
  issue s (elemDesc 0x09A 8 f.g f.fp f.fo [f.sa.toNat, f.sb.toNat] [f.vd.toNat]) fun t =>
    let k := t.cur
    let c := t.ctx k
    let cls := f.cls.toNat
    let h := t.sreg k f.sa.toNat
    let crd := coords (t.sreg k f.sb.toNat)
    let g := guardPred t k f.g
    let vd := f.vd.toNat
    match tensorOf t c h with
    | none => .trap cTILE_PROT false h (memFlt 0x09A false cls 0 0 0 0)
    | some tn =>
      let m := plainOp 0x09A (.loadV vd 32 (BitVec.allOnes 128) false) cls 0 .load [⟨0, h, .ok [(0, 1)], []⟩] []
      if tn.remote then
        memIssue { m with
          direct := some (.error (.remote tn, h)), rkind := some 15, extra := t.sreg k f.sb.toNat
          elems := [⟨0, h, .ok [(0, remoteMode t k g)], vecBytes (t.vreg (coreOf k) vd)⟩] } noCatch t
      else if tagAhead t k cls tn.tid fun _ _ => true then .wait Fx.none
      else match firstTile t true c tn .load (g.getLsbD 0) crd with
        | .at _ tag _ _ =>
          let fmt := formatOf tag
          let w := tensorWidth fmt
          (match findElems t true c tn .load g crd fmt (tensorCount fmt) with
            | .error r => tensorFail 0x09A false cls c tn h r
            | .ok l =>
              if fmt ≤ 12 then
                let ps : List Piece := (List.range (tensorCount fmt)).filterMap fun i =>
                  if !g.getLsbD i then none
                  else match l.find? (·.1 == i) with
                    | some (_, .at n _ idx fr) => some ⟨tileSpot c tn n (byteOf fmt idx) fr, w / 8, [], i, 0⟩
                    | _ => some ⟨.nowhere, w / 8, [], i, 0⟩
                memIssue { m with kind := .loadV vd w g false, direct := some (.ok ps) } noCatch t
              else if (accessesOf t k).any (fun e => e.2.cls == cls) || !inOrder t t.nextId (m.access t []) then .wait Fx.none
              else
                let blocks : List (Nat × FV) := l.filterMap fun x => match x.2 with
                  | .at n _ idx fr =>
                    some (x.1, mxValue (fmt - 1)
                      (spotRead t (tileSpot c tn n (idx / 32 * mxBlock (fmt - 1)) fr) (mxBlock (fmt - 1))) (idx % 32))
                  | _ => none
                let rm := field (t.ctl k).fpctl 0 3
                let vals : List (Nat × Val) := blocks.map fun x => (x.1, convertFrom 10 rm x.2)
                let fl := joinFlags (vals.map (·.2.2))
                if 5 ≤ rm ∧ fl &&& fOF ≠ 0 then .trap cILLEGAL false t.word32 (fltOf 0x09A)
                else blockFlags t fl (.seq fun _ => [.vreg (coreOf k) vd (mergeElems 32 g false (t.vreg (coreOf k) vd)
                  fun i => match vals.find? (·.1 == i) with | some v => v.2.1 | none => 0)]))
        | r => tensorFail 0x09A false cls c tn h r

/-- The tile takes no block-scaled store at these coordinates (09 R218). -/
def blockRefused (t : Tensor) (tag : Nat) (crd : List Nat) : Bool :=
  layoutOf tag != 0 || t.shape.getD 0 1 % 32 != 0 || crd.headD 0 % t.shape.getD 0 1 % 32 != 0

/-- The pieces of a block's bytes: one for each 128 B row that they touch (09 R218). -/
def rowPieces (c : Ctx) (t : Tensor) (n b : Nat) (bs : List Byte) : List Piece :=
  let first := (128 - b % 128) % 128
  let head := if first = 0 then min 128 bs.length else min first bs.length
  (if head = 0 then [] else [⟨tileSpot c t n b none, head, bs.take head, 0, 0⟩]) ++
  (if head < bs.length then [⟨tileSpot c t n (b + head) none, bs.length - head, bs.drop head, 0, head⟩] else [])

/-- `vst.t` (09 R217, R218). -/
def execVstT (f : FM) (s : State) : Host.Outcome State Fault Refusal :=
  issue s (elemDesc 0x09B 8 f.g f.fp f.fo [f.sa.toNat, f.sb.toNat] [f.vd.toNat]) fun t =>
    let k := t.cur
    let c := t.ctx k
    let cls := f.cls.toNat
    let h := t.sreg k f.sa.toNat
    let crd := coords (t.sreg k f.sb.toNat)
    let g := guardPred t k f.g
    let v := t.vreg (coreOf k) f.vd.toNat
    match tensorOf t c h with
    | none => .trap cTILE_PROT false h (memFlt 0x09B true cls 0 0 0 0)
    | some tn =>
      let m := plainOp 0x09B .store cls 0 .tensor [⟨0, h, .ok [(0, 1)], vecBytes v⟩] []
      if tn.remote then
        memIssue { m with
          direct := some (.error (.remote tn, h)), rkind := some 16, extra := t.sreg k f.sb.toNat
          elems := [⟨0, h, .ok [(0, remoteMode t k g)], vecBytes v⟩] } noCatch t
      else if tagAhead t k cls tn.tid fun _ _ => true then .wait Fx.none
      else match firstTile t true c tn .tensor (g.getLsbD 0) crd with
        | .at n tag idx _ =>
          let fmt := formatOf tag
          if fmt ≤ 12 then
            (match findElems t true c tn .tensor g crd fmt (tensorCount fmt) with
              | .error r => tensorFail 0x09B true cls c tn h r
              | .ok l =>
                let w := tensorWidth fmt
                memIssue { m with direct := some (.ok (l.filterMap fun x => match x.2 with
                    | .at n _ idx _ => some ⟨tileSpot c tn n (byteOf fmt idx) none, w / 8,
                        natToBytes (w / 8) (elemAt w v x.1), x.1, 0⟩
                    | _ => none)) } noCatch t)
          else if blockRefused tn tag crd then
            tensorFail 0x09B true cls c tn h (.fail cTAG_MISMATCH (c.walkWord tn.tid n (readTile t tn n).w0)
              (n * tn.tbytes + idx / 32 * mxBlock (fmt - 1)))
          else if (g &&& 0xFFFFFFFF) = 0 then .seq Fx.none
          else match findCoord t true c tn .tensor crd with
          | .at n _ idx _ =>
            let rm := field (t.ctl k).fpctl 0 3
            let xs : List FV := (List.range 32).map fun i =>
              if g.getLsbD i && crd.headD 0 + i ≤ tn.x.getD 0 0 then f32.value (elemAt 32 v i) else .fin false 0 0
            let b := toMx (fmt - 1) rm xs
            if 5 ≤ rm then .trap cILLEGAL false t.word32 (fltOf 0x09B)
            else blockFlags t b.2 (memIssue { m with
              direct := some (.ok (rowPieces c tn n (idx / 32 * mxBlock (fmt - 1)) b.1)) } noCatch t)
          | r => tensorFail 0x09B true cls c tn h r
        | r => tensorFail 0x09B true cls c tn h r

end Sys2Proof.Machine
end

