-- ==== Sys2Proof/Machine/Engine.lean ====
section
/-!
DEFINITION. What every engine operation shares (10 R242, 12 R257, R258, 13 R281, R282): issue, reads and writes of memory by tile,
the tags that engine writes leave (08 R193, R195, R196), completion of tokens and the records of faults (12 R277).
-/
namespace Sys2Proof.Machine

/-! ### Tokens and operations -/

def Core.tok (c : Core) (n : Nat) : Tok := FMap.get .complete c.toks n

/-- Operations of core `c` not yet complete, in ENG order. -/
def opsOf (s : State) (c : Nat) : List (Nat × Op) :=
  s.ops.filterMap fun e => match e.2 with | some o => if o.core = c then some (e.1, o) else none | none => none

/-- The number of the operation that holds token `n` of core `c`. -/
def holder (s : State) (c n : Nat) : Option Nat :=
  ((opsOf s c).filter fun e => e.2.kp == n && e.2.parent.isNone).getLast?.map (·.1)

/-- The registers named by the three waited-token fields. -/
def feWaits (f : FE) : List Nat := [f.kw1.toNat, f.kw2.toNat, f.kw3.toNat].filter (· ≠ 0)

def engDesc (op9 : Nat) (f : FE) (closes : Bool) : Desc :=
  { scalarDesc op9 8 f.g 0 0 [f.a1.toNat, f.a2.toNat, f.a3.toNat] with closes := closes }

/-- Whether the stream has a store, atomic, arrival or tag change outstanding (09 R228). -/
def writesOut (s : State) (k : Nat) : Bool := (accessesOf s k).any fun e => !e.2.kind.isLoad

/-- The operation that an engine instruction of stream `k` issues now. -/
def newOp (t : State) (op9 : Nat) (f : FE) : Op :=
  let k := t.cur
  let co := coreOf k
  { core := co, k := k, team := ((t.core co).team).getD 0, asid := (t.ctx k).asid, op9 := op9, kp := f.kp.toNat,
    kws := (feWaits f).filterMap (holder t co), sc := f.sc.toNat, rel := f.rel == 1, fn := f.fn.toNat,
    a1 := t.sreg k f.a1.toNat, a2 := t.sreg k f.a2.toNat, a3 := t.sreg k f.a3.toNat, user := !(t.ctl k).prv, vd := 0,
    order := t.nextId, table := [], state := .issued, flags := 0, fault := none, far := 0, units := [], pieces := [], adds := [],
    region := (t.ctl k).open, seen := [], data := [], cache := [], deferred := false, retagged := [], parent := none, ended := [], wprev := none }

/-- The token becomes incomplete and the operation is the core's newest. -/
def startOp (o : Op) : Fx := fun s =>
  let o := { o with region := o.region && (s.ctl o.k).open }
  (if o.kp = 0 then [] else onCore o.core (fun c => { c with toks := FMap.set .complete c.toks o.kp .incomplete }) s) ++
  [.op s.nextId (some o), .fresh]

/-- A fence of the stream keeps engine instructions back until it has retired (09 R228). -/
def engineHeld (c : Ctl) : Bool := c.late.any fun l => match l.fence with | some f => f.engine | none => false

/-- Item 1 of a fault of an engine operation: store or write, and the operation's SC (14 R334). -/
def flawItem (sc : Nat) (f : Flaw) : Word := BitVec.ofNat 64 ((if f.2.2 then 2 ^ 63 else 0) + sc * 2 ^ 56)

/-- An engine instruction that an `xfence`, or its own `.rel`, keeps back (09 R228). At SC 0 the stream alone has to see the writes of
`.rel`, and it always does (10 R233). -/
def heldBack (t : State) (f : FE) : Bool :=
  engineHeld (t.ctl t.cur) || (f.rel == 1 && f.sc != 0 && writesOut t t.cur)

/-- An engine instruction at issue (12 R258, 13 R281): TOKEN for a cancelled token it waits on (14 R318), the wait for its own
token, the waits of 09 R228, the checks that need registers, then the operation. -/
def engineIssue (op9 : Nat) (closes : Bool) (f : FE) (check : State → Op → Option Flaw) (set : State → Op → Op)
    (s : State) : Host.Outcome State Fault Refusal :=
  issue s (engDesc op9 f closes) fun t =>
    let co := coreOf t.cur
    let c := t.core co
    match (feWaits f).find? fun n => c.tok n == .cancelled with
    | some n => .trap cTOKEN false (BitVec.ofNat 64 n) (fltOf op9)
    | none =>
      if c.tok f.kp.toNat = .incomplete ∨ heldBack t f then .wait Fx.none
      else
        let o := newOp t op9 f
        match check t o with
        | some f => .trap f.1 false f.2.1 { fltOf op9 with i1 := flawItem o.sc f }
        | none => .seq (startOp (set t o))

/-- Flags of a completed operation in their register (12 R279, 13 R306, 18 R388). -/
def addFlags (op9 : Nat) (fl : Word) (c : Core) : Core :=
  if op9 < 0x0D8 then { c with mtxFlags := c.mtxFlags ||| fl }
  else if op9 < 0x0DB then { c with przFlags := c.przFlags ||| fl }
  else if op9 = 0x0DC then { c with przCflags := c.przCflags ||| fl }
  else if op9 = 0x0E1 then { c with lnkCflags := c.lnkCflags ||| fl }
  else c

/-- The record of an operation's fault. -/
def Op.record (o : Op) : Option FaultRec :=
  o.fault.map fun f => ⟨o.order, some o.k, o.kp, o.op9, f.1, f.2.1, flawItem o.sc f, o.far⟩

/-- A completed operation's flags and fault reach its core. -/
def settleOp (c : Core) (x : Nat × Word × Option FaultRec) : Core :=
  let c := addFlags x.1 x.2.1 c
  match x.2.2 with | some r => { c with faults := c.faults ++ [r] } | none => c

/-- The operation completes: its token, its flags in their register, its fault among the core's records. An entry of a chain leaves its
flags and fault to the chain, whose token delivers them (18 R383). -/
def completeOp (n : Nat) (o : Op) : Fx := fun s =>
  match o.parent with
  | some p =>
    (match s.op p with
      | some q => [.op p (some { q with ended := q.ended ++ [(o.op9, o.flags, o.record)] })]
      | none => []) ++ [.op n none]
  | none =>
    let c := s.core o.core
    let toks := if o.kp = 0 then c.toks else FMap.set .complete c.toks o.kp .complete
    [.core o.core ((o.ended ++ [(o.op9, o.flags, o.record)]).foldl settleOp { c with toks := toks }), .op n none]

/-! ### Reading memory -/

/-- An operation of chapter 18, which alone reaches REMOTE tensors by handle, but for mir.go, which names participants (18 R369; 12 R278,
13 R308: no other operation has LINK_LOST among its traps). -/
def reachesFar (op9 : Nat) : Bool := 0x0E0 ≤ op9 && op9 ≤ 0x0E5

/-- The context of an operation: the windows of its team, the address space it issued in. -/
def opCtx (s : State) (o : Op) : Ctx :=
  let far := if reachesFar o.op9 then some o.cache else none
  match s.team o.team with
  | some tm => { teamCtx tm o.core o.k o.user with asid := o.asid, seen := o.seen, far := far }
  | none => { plainCtx o.asid with core := o.core, k := o.k, user := o.user, cluster := clusterOf o.core, seen := o.seen, far := far }

/-- A range cut at multiples of `u`: offset and length of each part. -/
def segments (u : Nat) : Nat → Nat → Nat → List (Nat × Nat)
  | 0, _, _ => []
  | fuel + 1, off, n =>
    if n = 0 then []
    else
      let len := min n (u - off % u)
      (off, len) :: segments u fuel (off + len) (n - len)

def rangeSegments (u off n : Nat) : List (Nat × Nat) := if u = 0 then [] else segments u (n / u + 2) off n

/-- Bytes of a REMOTE tensor that an operation has to ask for. -/
structure Ask where
  tensor : Tensor
  off : Nat
  len : Nat
  deriving DecidableEq, Repr

/-- What reading a range comes to: its bytes with the first suppressed window-1 offset; a fault; or bytes that are not there, so that the
operation waits: for a tile that is absent (08 R196, 13 R282), or for another package, which it has to ask. -/
inductive ERead where
  | bytes (bs : List Byte) (touch : Option Nat)
  | fault (code : Byte) (tval : Word)
  | absent (ask : Option Ask)

/-- The parts of a window, tile or tensor that a range touches, read one after another. -/
def readParts (part : Nat × Nat → ERead) : List (Nat × Nat) → ERead
  | [] => .bytes [] none
  | p :: t =>
    match part p with
    | .bytes bs g =>
      (match readParts part t with
        | .bytes bs' g' => .bytes (bs ++ bs') (match g with | some o => some o | none => g')
        | r => r)
    | r => r

/-- The part of a tensor that lies in one tile. -/
def engPart (s : State) (c : Ctx) (okTag : Nat → Bool) (t : Tensor) (p : Nat × Nat) : ERead :=
  let fz := c.froz.contains t.tid
  let e := readTile s t (p.1 / t.tbytes)
  let tag := e.viewTag fz
  if malformed tag || !okTag tag then .fault cTAG_MISMATCH (handleOf t.tid p.1)
  else if classOf tag = 1 then .bytes (List.replicate p.2 0) none
  else if !e.viewValid fz then .absent none
  else .bytes (c.bytes s (frameKey t.tid (e.viewFrame fz) (p.1 % t.tbytes)) p.2) none

/-- The part of a REMOTE tensor that lies in one tile, from what has been read of it. -/
def farPart (okTag : Nat → Bool) (x : FarBytes) (p : Nat × Nat) : ERead :=
  let tag := x.tags.getD (p.1 / x.tbytes - x.off / x.tbytes) 0
  if malformed tag || !okTag tag then .fault cTAG_MISMATCH (handleOf x.tid p.1)
  else .bytes ((x.data.drop (p.1 - x.off)).take p.2) none

/-- A read of a REMOTE tensor by its handle. -/
def farRead (okTag : Nat → Bool) (t : Tensor) (off n : Nat) : Option (List FarBytes) → ERead
  | none => .fault cTILE_PROT (handleOf t.tid off)
  | some l =>
    match l.find? fun x => x.tid == t.tid && decide (x.off ≤ off ∧ off + n ≤ x.off + x.data.length) with
    | some x => readParts (farPart okTag x) (rangeSegments x.tbytes off n)
    | none => .absent (some ⟨t, off, n⟩)

/-- An engine read of bytes `off` to `off + n - 1`: the range checks (01 R19), then tile by tile. `okTag` says which tags the
operation takes; class 1 reads as zero bits. -/
def engRead (s : State) (c : Ctx) (okTag : Nat → Bool) (tid off n : Nat) : ERead :=
  if n = 0 then .bytes [] none
  else match placeCheck s c tid off n false with
    | .error code => .fault code (handleOf tid off)
    | .ok .win1 =>
      readParts (fun p =>
        let g := p.1 / 4096
        if g < c.guard || c.w1len / 4096 - c.guard ≤ g then .bytes (List.replicate p.2 0) (some p.1)
        else .bytes (c.bytes s (keyPad c.core (c.w1 * 4096 + p.1)) p.2) none) (rangeSegments 4096 off n)
    | .ok .win2 => .bytes (c.bytes s (keyCluster c.cluster (c.w2 * 4096 + off)) n) none
    | .ok (.tensor t) =>
      if t.remote then farRead okTag t off n c.far
      else readParts (engPart s c okTag t) (rangeSegments t.tbytes off n)

/-- Raw or of the given format, and dense or zero. -/
def tagIn (fmt tag : Nat) : Bool := (formatOf tag == 0 || formatOf tag == fmt) && decide (classOf tag ≤ 1)

/-- The guard latch of the issuing stream, when the operation touched a guard granule (08 R203). -/
def touchFx (o : Op) (store : Bool) (g : Option Nat) : Fx :=
  match g with | some off => onCtl o.k (latchTouch store off) | none => Fx.none

/-! ### Writing memory -/

/-- Runs cut at tile (or granule) boundaries: the tile and the run's offset within it. -/
def cutRuns (u : Nat) (rs : Runs) : List (Nat × Nat × List Byte) :=
  rs.flatMap fun r => (rangeSegments u r.1 r.2.length).map fun p => (p.1 / u, p.1 % u, (r.2.drop (p.1 - r.1)).take p.2)

/-- How far bytes are covered from `pos` on: one more interval that reaches past it, for each unit of fuel. -/
def coverFrom (ivs : List (Nat × Nat)) : Nat → Nat → Nat
  | 0, pos => pos
  | n + 1, pos => coverFrom ivs n (ivs.foldl (fun p iv => if iv.1 ≤ p ∧ p < iv.1 + iv.2 then iv.1 + iv.2 else p) pos)

/-- Bytes of a tile that an output format has to reach for the tile to count as covered whole: all of it, or every block of
it (02 R56, 08 R195). A number of elements that is no whole number of blocks is no tile of the format. A tensor with a raw DTAG has no
element count: its tile holds as many blocks as fit (notes/assumptions/93.md). -/
def coverNeed (t : Tensor) (fmt : Nat) : Nat :=
  if fmt < 13 then t.tbytes
  else
    let b := mxBlock (fmt - 1)
    if formatOf t.dtag = 0 then t.tbytes / b * b
    else if t.tileElems % 32 = 0 then min t.tbytes (t.tileElems / 32 * b)
    else t.tbytes

def coversAll (need : Nat) (runs : Runs) : Bool :=
  decide (need ≤ coverFrom (runs.map fun r => (r.1, r.2.length)) (runs.length + 1) 0)

/-- Every format: an output that any tile with a well-formed tag takes. -/
def anyFormat : List Nat := List.range 16

/-- A tile with this tag takes a write in part of an output that tiles of these formats take (08 R195). -/
def takesPart (tag : Nat) (fmts : List Nat) : Bool := !malformed tag && (formatOf tag == 0 || fmts.contains (formatOf tag))

/-- The writes of one operation by tile (08 R195): the units to write, and the offset of the first byte of a tile that refuses
a write in part. `fmts` are the formats of a tile that take such a write; `newTag` gives a tile covered whole its tag. -/
def tileUnits (s : State) (c : Ctx) (t : Tensor) (fmt : Nat) (fmts : List Nat) (newTag : Nat → Nat → Nat) (rs : Runs) :
    List WUnit × Option Nat :=
  let cut := cutRuns t.tbytes rs
  let tiles := (cut.map (·.1)).eraseDups
  tiles.foldl (fun acc n =>
    let runs := (cut.filter (·.1 == n)).map (·.2)
    let tag := (readTile s t n).tag
    if coversAll (coverNeed t fmt) runs then
      (acc.1 ++ [⟨c.asid, t.tid, n, runs, some (BitVec.ofNat 16 (newTag n tag)), [fmt]⟩], acc.2)
    else if takesPart tag fmts then (acc.1 ++ [⟨c.asid, t.tid, n, runs, none, fmts⟩], acc.2)
    else (acc.1, match acc.2 with | some o => some o | none => some (n * t.tbytes + ((runs.head?.map (·.1)).getD 0))))
    ([], none)

/-- The tag of a tile covered whole by an output of one format: dense, with its existing layout (12 R276, 08 R195;
notes/assumptions/76.md). -/
def denseTag (fmt : Nat) (_ : Nat) (old : Nat) : Nat := mkTag fmt 0 (layoutOf old)

/-- The writes of an operation at one handle: units of this package, the first refused byte, the first guard-granule touch, and what goes
to another package through the handle of a REMOTE tensor. -/
structure EngWrites where
  units : List WUnit
  refused : Option Nat := none
  touch : Option Nat := none
  far : List MPiece := []

/-- A write of runs of bytes through the handle of a REMOTE tensor. -/
def farPiece (t : Tensor) (fmt : Nat) (rs : Runs) : MPiece :=
  { rank := 0, pkg := t.pkg, units := [⟨t.rasid, t.rtid, fmt, rs, none, []⟩], thru := some t.tid, ctrs := [], tag := none
    lost := handleOf t.tid ((rs.head?.map (·.1)).getD 0), kind := 1, log := 0, words := [] }

/-- The writes of an operation to a tensor or window. -/
def engUnits (s : State) (c : Ctx) (tid fmt : Nat) (fmts : List Nat) (newTag : Nat → Nat → Nat) (rs : Runs) : EngWrites :=
  let rs := rs.filter fun r => r.2 ≠ []
  if tid = 1 then
    let cut := rs.flatMap fun r => (rangeSegments 4096 r.1 r.2.length).map fun p => (p.1, (r.2.drop (p.1 - r.1)).take p.2)
    let inGuard (o : Nat) : Bool := decide (o / 4096 < c.guard) || decide (c.w1len / 4096 - c.guard ≤ o / 4096)
    { units := [⟨c.asid, 0, 0, (cut.filter fun r => !inGuard r.1).map fun r => (keyPad c.core (c.w1 * 4096 + r.1), r.2), none, []⟩]
      touch := (cut.find? fun r => inGuard r.1).map (·.1) }
  else if tid = 2 then
    { units := [⟨c.asid, 0, 0, rs.map fun r => (keyCluster c.cluster (c.w2 * 4096 + r.1), r.2), none, []⟩] }
  else match readTensor s c.asid tid with
    | none => { units := [] }
    | some t =>
      if t.remote then { units := [], far := if rs = [] then [] else [farPiece t fmt rs] }
      else
        let r := tileUnits s c t fmt fmts newTag rs
        { units := r.1, refused := r.2 }

/-- A write of an output of one format (08 R195). -/
def formatUnits (s : State) (c : Ctx) (tid fmt : Nat) (rs : Runs) : EngWrites := engUnits s c tid fmt [fmt] (denseTag fmt) rs

/-- The fault of a write whose tile refuses it (12 R276, 13 R282). -/
def EngWrites.flaw (w : EngWrites) (tid : Nat) : Option Flaw := w.refused.map fun off => (cTAG_MISMATCH, handleOf tid off, true)

/-- A write in part that meets an absent tile waits for its service; this finds one. -/
def unitAbsent (s : State) (u : WUnit) : Bool :=
  if u.tid = 0 ∨ u.whole.isSome then false
  else match readTensor s u.asid u.tid with
    | none => false
    | some t => (readTile s t u.n).absent false

/-- The bytes that an engine writes single-copy atomically (10 R242, 13 R305). -/
def lineBytes (tid : Nat) : Nat := if tid < 256 then 128 else 256

/-- A tile's writes cut at multiples of `l`. -/
def cutUnit (l : Nat) (u : WUnit) : List WUnit :=
  let cut := u.runs.flatMap fun r => (rangeSegments l r.1 r.2.length).map fun p => (p.1, (r.2.drop (p.1 - r.1)).take p.2)
  ((cut.map fun r => r.1 / l).eraseDups).map fun n => { u with runs := cut.filter fun r => r.1 / l == n }

/-- A tile's writes line by line. -/
def lineUnits (u : WUnit) : List WUnit := cutUnit (lineBytes u.tid) u

/-- The tile of a unit. -/
def WUnit.tile (u : WUnit) : Nat × Nat × Nat := (u.asid, u.tid, u.n)

/-- Of a unit in a tile, its offset in the tensor. -/
def WUnit.off (s : State) (u : WUnit) : Nat :=
  u.n * ((readTensor s u.asid u.tid).map (·.tbytes)).getD 0 + (u.runs.head?.map (·.1)).getD 0

/-- The slice that would hold a unit's first line, when its tile is MOVING (14 R329). -/
def movingUnit (s : State) (u : WUnit) : Option Nat :=
  if u.tid = 0 then none
  else match readTensor s u.asid u.tid with
    | none => none
    | some t =>
      let e := readTile s t u.n
      if e.moving then some (homeSlice (e.frame * 4096 + (u.runs.head?.map (·.1)).getD 0)) else none

/-- What the write of a unit comes to at its tile's home: it performs; it waits while the tile is MOVING or absent, the frame pool is short
or an accepted store stands before the new tag; or the tag that the tile has by then refuses it. -/
inductive UnitRes where
  | did (e : List Eff)
  | wait
  | refused

/-- The tag of a unit's tile takes it (08 R195): a new tag comes with the first write to a tile covered whole, `fresh`; a later write is
checked against the new tag, and a write in part against the tile's. -/
def WUnit.taken (u : WUnit) (fresh : Bool) (tag : Nat) : Bool :=
  match u.whole with
  | some new => fresh || tag == new.toNat || takesPart tag u.fmts
  | none => takesPart tag u.fmts

/-- One unit performs at its tile's home (08 R195, R196). -/
def writeUnit (s : State) (fresh : Bool) (u : WUnit) : UnitRes :=
  if u.tid = 0 then .did (u.runs.map fun r => .store r.1 r.2)
  else match readTensor s u.asid u.tid with
    | none => .did []
    | some t =>
      let e := readTile s t u.n
      let zero := classOf e.tag == 1 && !malformed e.tag
      let tag := if fresh then u.whole else none
      if e.moving then .wait
      else if !u.taken fresh e.tag then .refused
      else if unitAbsent s u || (match tag with | some new => tagWaits s u.asid u.tid u.n new.toNat | none => false) then .wait
      else
        let prep : Option (List Eff) :=
          if zero || !e.valid then giveFrame s u.asid t u.n
          else if e.cow then shadow s u.asid t u.n (u.whole.isSome && coversAll t.tbytes u.runs)
          else some []
        match prep with
        | none => .wait
        | some es =>
          let tagged : Fx := fun s => match tag with
            | some new => let e := readTile s t u.n; putTile u.asid u.tid u.n { e with w0 := setField e.w0 0 16 new.toNat } s
            | none => []
          .did ((Fx.andThen (fun _ => es) (tagged.andThen fun s =>
            let fr := (readTile s t u.n).frame
            u.runs.map fun r => .store (frameKey u.tid fr r.1) r.2)) s)

/-- The tiles whose new tag is in force, after a unit has performed. -/
def WUnit.mark (u : WUnit) (l : List (Nat × Nat × Nat)) : List (Nat × Nat × Nat) :=
  if u.whole.isSome && !l.contains u.tile then u.tile :: l else l

/-- Units that perform in one step, all or none of them: the effects and the tiles whose new tag is in force; or the first that does not,
with whether it is refused. -/
def writeTogether : List WUnit → List (Nat × Nat × Nat) → State → Except (WUnit × Bool) (List Eff × List (Nat × Nat × Nat))
  | [], tags, _ => .ok ([], tags)
  | u :: t, tags, s =>
    match writeUnit s (!tags.contains u.tile) u with
    | .wait => .error (u, false)
    | .refused => .error (u, true)
    | .did e => (writeTogether t (u.mark tags) (s.applyAll e)).map fun r => (e ++ r.1, r.2)

/-- A unit of a MOVING tile, with those that perform with it, is held at its slice if that takes it. -/
def holdUnit (what : HeldWrite) (u : WUnit) : Fx := fun s =>
  match movingUnit s u with
  | some sl => (takeHeld s u.asid u.tid u.n sl what).getD []
  | none => []

/-- What a list of units comes to: the effects, the units left, the tiles whose new tag is in force, and the first refusal. -/
structure Wrote where
  effs : List Eff
  left : List WUnit
  tags : List (Nat × Nat × Nat)
  flaw : Option Flaw

/-- The fault of a unit that its tile refuses. -/
def WUnit.flaw (s : State) (u : WUnit) : Flaw := (cTAG_MISMATCH, handleOf u.tid (u.off s), true)

/-- Units perform in order as far as they can. Those of MOVING tiles are held line by line. -/
def writeUnits (what : WUnit → HeldWrite) : List WUnit → List (Nat × Nat × Nat) → State → Wrote
  | [], tags, _ => ⟨[], [], tags, none⟩
  | u :: t, tags, s =>
    match writeUnit s (!tags.contains u.tile) u with
    | .did e =>
      let r := writeUnits what t (u.mark tags) (s.applyAll e)
      { r with effs := e ++ r.effs }
    | .refused =>
      let r := writeUnits what t tags s
      { r with flaw := some (u.flaw s) }
    | .wait =>
      let ls := if (movingUnit s u).isSome then lineUnits u else [u]
      let h := Fx.each (fun u => holdUnit (what u) u) ls s
      let r := writeUnits what t tags (s.applyAll h)
      { r with effs := h ++ r.effs, left := ls ++ r.left }

/-! ### Other packages -/

/-- A transaction of this package with a tag of its own (18 R363). -/
def blankTxn (s : State) (dst kind : Nat) : Txn := newTxn s dst (s.nextId % 2 ^ 20) kind

/-- The piece performs in this package; with nothing left to write it is only counted. -/
def MPiece.here (s : State) (p : MPiece) : Bool := p.thru.isNone && (p.pkg == ownPackage s || p.units == []) && p.kind == 1

/-- A piece for another package (its unit's number is the tag format) leaves with its tag. -/
def sendPiece (user : Bool) (p : MPiece) (s : State) : List Eff × MPiece :=
  let u := p.units.headD ⟨0, 0, 0, [], none, []⟩
  let x := { blankTxn s p.pkg p.kind with
    req := ⟨u.asid, handleOf u.tid 0, 1, 0, 0, 0, user⟩, runs := u.runs, ctrs := p.ctrs
    first := u.n, log := p.log, words := p.words }
  ([.send x, .fresh], { p with tag := some x.tag })

/-- The pieces for other packages leave; those of this package stay. -/
def sendPieces (user : Bool) : List MPiece → State → List Eff × List MPiece
  | [], _ => ([], [])
  | p :: t, s =>
    if p.here s then let r := sendPieces user t s; (r.1, p :: r.2)
    else
      let x := sendPiece user p s
      let r := sendPieces user t (s.applyAll x.1)
      (x.1 ++ r.1, x.2 :: r.2)

/-- A request for bytes of a REMOTE tensor. -/
def Ask.piece (a : Ask) : MPiece :=
  { farPiece a.tensor 0 [(a.off, List.replicate a.len 0)] with kind := 12 }

/-- An atomic add to a counter in a REMOTE tensor. -/
def addPiece (t : Tensor) (off : Nat) (amount : Word) : MPiece :=
  { farPiece t 0 [] with kind := 13, ctrs := [(handleOf t.rtid off, amount.toNat)], lost := handleOf t.tid off }

/-! ### Taking effect -/

/-- What an operation does when it takes effect: effects on engine state and latches, units of memory to write, flags, and the
fault it ends with; the pieces that follow, those for other packages not yet sent; or, `asking`, requests after whose answers it goes on. -/
structure EngOut where
  effs : List Eff
  units : List WUnit
  flags : Word
  fault : Option Flaw
  tags : List (Nat × Nat × Nat) := []   -- tiles whose new tag is in force already
  pieces : List MPiece := []
  adds : List (Option Nat × Word × Nat) := []
  table : List Word := []
  asking : Bool := false

/-- A fault that no store raised. -/
def EngOut.faulted (code : Byte) (tval : Word) : EngOut :=
  { effs := [], units := [], flags := 0, fault := some (code, tval, false) }

/-- A fault, after nothing else. -/
def EngOut.failed (f : Flaw) : EngOut := { effs := [], units := [], flags := 0, fault := some f }

/-- Nothing but effects. -/
def EngOut.plain (effs : List Eff) : EngOut := { effs := effs, units := [], flags := 0, fault := none }

/-- The same after effects, the latching of what has been read. -/
def EngOut.after (es : List Eff) (r : EngOut) : EngOut := { r with effs := es ++ r.effs }

/-- The operation waits for a tile, or asks another package for bytes. -/
def waitOrAsk (o : Op) (a : Option Ask) : Option EngOut :=
  a.map fun a => { EngOut.plain [] with pieces := [a.piece], table := o.table, asking := true }

/-- The operation with a fault, unless it has one already. -/
def Op.blame (o : Op) (f : Option Flaw) : Op := { o with fault := match o.fault with | some g => some g | none => f }

/-- drn.go writes its tiles one after another (18 R386): what is meant for another package waits for its turn too. -/
def Op.sequential (o : Op) : Bool := o.op9 == 0x0E5

/-- The operation has read and decided; its writes begin. -/
def takeEffect (n : Nat) (o : Op) (r : EngOut) : Fx := fun s =>
  let s1 := s.applyAll r.effs
  let sent := if o.sequential && !r.asking then ([], r.pieces) else sendPieces o.user r.pieces s1
  let w : Wrote := if o.deferred then ⟨[], r.units, r.tags ++ o.retagged, none⟩
    else writeUnits (HeldWrite.unit n) r.units (r.tags ++ o.retagged) (s1.applyAll sent.1)
  r.effs ++ sent.1 ++ w.effs ++ [.op n (some (({ o with
    state := if r.asking then .asking else if w.left = [] ∧ sent.2 = [] then .ready else .writing
    units := w.left, flags := r.flags, fault := r.fault, pieces := sent.2, adds := r.adds, table := r.table
    retagged := w.tags } : Op).blame w.flaw))]

/-- Every waited operation has completed. -/
def tokensMet (s : State) (o : Op) : Bool :=
  o.kws.all (fun n => (s.op n).isNone) && (match o.wprev with | some p => (s.op p).isNone | none => true)

/-- No load that the stream issued before the operation is still out (10 R243). -/
def loadsBefore (s : State) (n : Nat) (o : Op) : Bool :=
  (accessesOf s o.k).all fun e => n ≤ e.1 || !e.2.kind.isLoad

/-- The engine state that an operation reads or, `true`, writes: the weight buffer (0), the accumulators (1), the plan (2). -/
def Op.uses (o : Op) : List (Nat × Bool) :=
  match o.op9 with
  | 0x0D1 => [(0, true)]
  | 0x0D2 => [(0, false), (1, true)]
  | 0x0D3 => [(1, true)]
  | 0x0D4 => [(1, false)]
  | 0x0D5 => [(1, bitOf o.a3 41)]
  | 0x0D8 => [(2, true)]
  | 0x0D9 | 0x0DA => [(2, false)]
  | _ => []

/-- The effects of two operations on engine state have to keep their order. -/
def Op.clashes (a b : Op) : Bool := a.uses.any fun x => b.uses.any fun y => x.1 == y.1 && (x.2 || y.2)

/-- Operations take their effects on engine state in ENG order, overlapping only where that changes no result; their accesses to memory
are not covered by this order (12 R257, 13 R283). -/
def turnCome (s : State) (n : Nat) (o : Op) : Bool :=
  (opsOf s o.core).all fun e => n ≤ e.1 || !o.clashes e.2 || e.2.state != .issued

/-- The operation after some of its writes are over. -/
def Op.less (o : Op) (us : List WUnit) (ps : List MPiece) : Op :=
  { o with units := us, pieces := ps, state := if us = [] ∧ ps = [] ∧ o.state = .writing then .ready else o.state }

/-- The writes of operation `n` are to perform one line after another (10 R242, R243). -/
def deferWrites (n : Nat) (o : Op) : Fx := fun _ => [.op n (some { o with deferred := true })]

/-- One unit of operation `n` performs, is refused, or joins the writes that a home holds. -/
def unitStep (n : Nat) (o : Op) (u : WUnit) : Fx := fun s =>
  match writeUnit s (!o.retagged.contains u.tile) u with
  | .did e => e ++ [.op n (some { o.less (o.units.erase u) o.pieces with retagged := u.mark o.retagged })]
  | .refused => [.op n (some ((o.less (o.units.erase u) o.pieces).blame (some (u.flaw s))))]
  | .wait => holdUnit (.unit n u) u s

/-- Write `j` of operation `n` performs alone, once it is a single line (10 R242). -/
def writeAlone (n j : Nat) (o : Op) : Fx := fun s =>
  match o.units[j]? with
  | none => []
  | some u =>
    let ls := lineUnits u
    if 1 < ls.length then [.op n (some { o with units := o.units.take j ++ ls ++ o.units.drop (j + 1) })]
    else unitStep n o u s

/-- Operation `n` reads some of its source rows ahead of the others: any that it reads at all, at any time after its tokens are complete
(10 R242, R243). -/
def readAhead (n : Nat) (o : Op) : Fx := fun s =>
  [.op n (some { o with seen := o.seen ++ [(s.clock, s.mem.filter fun e => Config.readsNow s.clock (readUnit e.1))] })]

/-- ENGINE_WRITE_RESUME: the writes that waited for frames, for a tile or for the end of a move are tried again (08 R196). -/
def execEngineWriteResume (o : Nat) (s : State) : Host.Outcome State Fault Refusal :=
  answer s fun s =>
    match s.op o with
    | some r =>
      if r.units = [] then []
      else
        let w := writeUnits (HeldWrite.unit o) r.units r.retagged s
        w.effs ++ [.op o (some (({ r.less w.left r.pieces with retagged := w.tags }).blame w.flaw))]
    | none => []

/-- The byte range base + lo to base + hi of one tensor or window (12 R273): TILE_PROT with the handle of its first byte. The extent of a
REMOTE tensor is checked in its package (08 R189). -/
def rangeCheck (s : State) (c : Ctx) (base : Word) (lo hi : Int) (write : Bool) : Option Flaw :=
  let tid := tidOf base
  let first := (offOf base : Int) + lo
  let last := (offOf base : Int) + hi
  let h := base + BitVec.ofInt 64 lo
  if first < 0 ∨ ((2 ^ 44 : Nat) : Int) ≤ last then some (cTILE_PROT, h, write)
  else match placeCheck s c tid first.toNat (last - first + 1).toNat write with
    | .error code => some (code, h, write)
    | .ok (.tensor t) => if t.remote && c.far.isNone then some (cTILE_PROT, h, write) else none
    | .ok _ => none

end Sys2Proof.Machine
end

