-- ==== Sys2Proof/Machine/Matrix.lean ====
section
/-!
DEFINITION. The matrix engine (12): the shadow table, the weight buffer and its decompressor, the loop nest, and the six
instructions with what their operations do when they take effect.
-/
namespace Sys2Proof.Machine

/-! ### Modes and the shadow table (12 R255, R260) -/

/-- The type code of a mode's elements, its group size, Kmax and Nmax. -/
def modeTy (m : Nat) : Nat := match m with | 0 => 9 | 1 => 14 | 2 => 13 | 3 => 12 | 4 => 10 | _ => 0
def modeG (m : Nat) : Nat := if m = 4 then 4 else 32
def modeKmax (m : Nat) : Nat := match m with | 2 => 192 | 3 => 256 | 4 => 42 | _ => 128
def modeNmax (m : Nat) : Nat := match m with | 3 => 256 | 4 => 42 | _ => 128
def modeMx (m : Nat) : Bool := 1 ≤ m && m ≤ 3

/-- The tag format of a mode's operands. -/
def modeFormat (m : Nat) : Nat := match m with | 0 => 10 | 1 => 15 | 2 => 14 | 3 => 13 | 4 => 11 | _ => 1

def headMode (w : Word) : Nat := field w 0 4
def headK (w : Word) : Nat := field w 4 8 + 1
def headN (w : Word) : Nat := field w 12 8 + 1

/-- A header row that mtx.ldt accepts (12 R260). -/
def headOk (lo hi : Word) : Bool :=
  let m := headMode lo
  hi == 0 && field lo 20 44 == 0 && decide (m ≤ 5) && decide (headK lo ≤ modeKmax m) && decide (headN lo ≤ modeNmax m) &&
  (!modeMx m || headK lo % 32 == 0)

def levelOk (hi : Word) : Bool := field hi 32 12 == 0

/-- One level of the nest. -/
structure Level where
  count : Nat
  astride : Int
  bk : Int
  bn : Int
  cs : Int

def levelOf (lo hi : Word) : Level :=
  { count := field lo 0 32, astride := intVal 32 true (field lo 32 32), bk := intVal 16 true (field hi 0 16)
    bn := intVal 16 true (field hi 16 16), cs := intVal 20 true (field hi 44 20) }

/-- Levels 5 to 0 of a table. -/
def levelsOf (t : List Word) : List Level :=
  [6, 5, 4, 3, 2, 1].map fun r => levelOf (t.getD (2 * r) 0) (t.getD (2 * r + 1) 0)

/-! ### Operand elements -/

/-- Bytes of an A row (12 R273). -/
def rowBytes (m k : Nat) : Nat := if modeMx m then k / 32 * mxBlock (modeTy m) else k * (tyWidth (modeTy m) / 8)

/-- Element `i` of a run of elements of a type code, as an exact value (12 R264, R265). A signalling NaN stays signalling. -/
def elemValue (ty : Nat) (bs : List Byte) (i : Nat) : FV :=
  if 12 ≤ ty then mxValue ty ((bs.drop (i / 32 * mxBlock ty)).take (mxBlock ty)) (i % 32)
  else
    let w := tyWidth ty
    let x := bytesToNat ((bs.drop (i * (w / 8))).take (w / 8))
    if ty ≤ 7 then (let z := intVal w (ty ≤ 3) x; .fin (z < 0) z.natAbs 0) else (fmtOf ty).value x

def fBRNG : Nat := 64
def fSPERR : Nat := 32
def fSATI : Nat := 8

/-! ### The weight buffer (12 R265 to R269) -/

def wbufKey (core b : Nat) : Nat := core * 2 ^ 19 + b % 2 ^ 19
def wbufBytes (s : State) (core b n : Nat) : List Byte := readCells s.wbuf (wbufKey core b) n

/-- Element `e` of a 2:4 panel (12 R268): the number of its value, none when it is 0; or a malformed part. -/
def sparseIndex (meta1 : List Byte) (e : Nat) : Option (Option Nat) :=
  let b := ((meta1.headD 0)).toNat
  let p := b % 4
  let q := b / 4 % 4
  if 16 ≤ b ∨ q ≤ p then none
  else some (if e % 4 = p then some (2 * (e / 4)) else if e % 4 = q then some (2 * (e / 4) + 1) else none)

/-- Ones of a bitmap below bit `j`. -/
def onesUnder (bm j : Nat) : Nat := (List.range j).foldl (fun n i => n + bm / 2 ^ i % 2) 0

/-- Where the record of 8 x 8 block `n` begins (12 R269), none from the first record that would end beyond the panel. -/
def bitmapStart (read : Nat → Nat → List Byte) (w tb : Nat) : Nat → Option Nat
  | 0 => some 0
  | n + 1 =>
    match bitmapStart read w tb n with
    | none => none
    | some o =>
      let size := (8 + onesUnder (bytesToNat (read o 8)) 64 * (w / 8) + 7) / 8 * 8
      if tb < o + size then none else some (o + size)

/-- Element (k, n) of the panel in a slot, dense, with the flags it raises (12 R265 to R269). Of a dense panel whose elements do not fit in
TBYTES, which R266 does not refuse, those beyond are read from the bytes of the weight buffer that follow (notes/assumptions/4.md). -/
def bElem (s : State) (core slot mode : Nat) (k n : Int) : FV × Nat :=
  match FMap.get SlotRec.empty (s.core core).slots slot with
  | .panel tag s0 s1 tb _ =>
    let ty := modeTy mode
    let zero : FV := .fin false 0 0
    if k < 0 ∨ (s1 : Int) ≤ k ∨ n < 0 ∨ (s0 : Int) ≤ n then (zero, fBRNG)
    else
      let tg := tag.toNat
      let idx := layoutIndex (layoutOf tg) [s0, s1, 1, 1] [n.toNat, k.toNat, 0, 0]
      let read (o len : Nat) : List Byte := wbufBytes s core (slot * 4096 + o) len
      let w := tyWidth ty
      (match classOf tg with
        | 1 => (zero, 0)
        | 0 =>
          if 12 ≤ ty then (mxValue ty (read (idx / 32 * mxBlock ty) (mxBlock ty)) (idx % 32), 0)
          else (elemValue ty (read (idx * (w / 8)) (w / 8)) 0, 0)
        | 2 =>
          let d := s0 * s1
          if d % 4 ≠ 0 ∨ tb < d / 2 * (w / 8) + d / 4 then (zero, fSPERR)
          else match sparseIndex (read (d / 2 * (w / 8) + idx / 4) 1) idx with
            | none => (zero, fSPERR)
            | some none => (zero, 0)
            | some (some v) => (elemValue ty (read (v * (w / 8)) (w / 8)) 0, 0)
        | _ =>
          let bx := n.toNat / 8
          let by0 := k.toNat / 8
          let j := k.toNat % 8 * 8 + n.toNat % 8
          let blk := by0 * (s0 / 8) + bx
          match bitmapStart read w tb blk, bitmapStart read w tb (blk + 1) with
          | some o, some _ =>
            let bm := bytesToNat (read o 8)
            if bm / 2 ^ j % 2 = 1 then (elemValue ty (read (o + 8 + onesUnder bm j * (w / 8)) (w / 8)) 0, 0) else (zero, 0)
          | _, _ => (zero, fSPERR))
  | _ => (.fin false 0 0, 0)

/-- The panel of a slot can be read in a mode (12 R265). -/
def slotOk (s : State) (core slot mode : Nat) : Bool :=
  match FMap.get SlotRec.empty (s.core core).slots slot with
  | .panel tag _ _ _ _ => formatOf tag.toNat == modeFormat mode
  | _ => false

/-- Tags that mtx.wb refuses (12 R266). -/
def panelBad (t : Tensor) (tag : Nat) : Bool :=
  let fmt := formatOf tag
  let s0 := t.shape.getD 0 1
  let s1 := t.shape.getD 1 1
  malformed tag || fmt == 0 || (decide (13 ≤ fmt) && (layoutOf tag != 1 || s1 % 32 != 0)) ||
  (decide (2 ≤ classOf tag) && ((fmt != 1 && fmt != 10) || t.t.getD 2 0 != 0 || t.t.getD 3 0 != 0)) ||
  (classOf tag == 3 && (layoutOf tag != 0 || s0 % 8 != 0 || s1 % 8 != 0)) ||
  (decide (2 ≤ layoutOf tag) && (s0 != s1 || !isPow2 s0 || decide (s0 < 4)))

/-- A panel's records: an earlier panel that loses a slot becomes empty at its first slot (12 R266). -/
def putPanel (slots : FMap SlotRec) (slot n : Nat) (r : SlotRec) : FMap SlotRec :=
  let cleared := slots.filter fun e => match e.2 with
    | .panel _ _ _ tb _ => !(decide (e.1 < slot + n) && decide (slot < e.1 + (tb + 4095) / 4096))
    | _ => true
  (List.range n).foldl (fun m i => FMap.set SlotRec.empty m (slot + i) (if i = 0 then r else .cont)) cleared

/-- mtx.wb takes effect. None while the tile is absent. -/
def startWb (s : State) (o : Op) : Option EngOut :=
  let c := opCtx s o
  let tid := tidOf o.a1
  let slot := field o.a2 0 7
  match readTensor s c.asid tid with
  | none => some (EngOut.faulted cTILE_PROT o.a1)
  | some t =>
    let n := offOf o.a1 / t.tbytes
    let e := readTile s t n
    let fz := c.froz.contains tid
    let tag := e.viewTag fz
    if panelBad t tag then some (EngOut.faulted cTAG_MISMATCH (handleOf tid (n * t.tbytes)))
    else if classOf tag ≠ 1 ∧ ¬ e.viewValid fz then none
    else
      let rec0 : SlotRec := .panel (BitVec.ofNat 16 tag) (t.shape.getD 0 1) (t.shape.getD 1 1) t.tbytes o.a1
      let cr := s.core o.core
      some { effs := .core o.core { cr with slots := putPanel cr.slots slot ((t.tbytes + 4095) / 4096) rec0 } ::
          (if classOf tag = 1 then [] else
            [.wbuf (wbufKey o.core (slot * 4096)) (c.bytes s (frameKey tid (e.viewFrame fz) 0) t.tbytes)])
             units := [], flags := 0, fault := none }

/-! ### The nest (12 R261 to R264) -/

/-- The micro-ops of a nest, in order: A address step, K and N places in B, accumulator step. -/
def nestOf : List Level → Int → Int → Int → Int → List (Int × Int × Int × Int)
  | [], a, bk, bn, c => [(a, bk, bn, c)]
  | l :: t, a, bk, bn, c =>
    (List.range l.count).flatMap fun (i : Nat) =>
      nestOf t (a + (i : Int) * l.astride) (bk + (i : Int) * l.bk) (bn + (i : Int) * l.bn) (c + (i : Int) * l.cs)

/-- AccAdd (12 R263): the new word and its flags. -/
def accAdd (mode : Nat) (x : BitVec 32) (s : FV × Fl) : BitVec 32 × Nat :=
  if mode = 5 then
    match s.1 with
    | .fin sg m _ =>
      let z := x.toInt + (if sg then -(m : Int) else m)
      let y := clampInt 32 true z
      (BitVec.ofInt 32 y, if y = z then 0 else fSATI)
    | _ => (x, 0)
  else
    let r := FV.add 0 (f32.value x.toNat) s.1
    let v := finish f32 0 (r.1, r.2 ||| s.2)
    (BitVec.ofNat 32 v.1, v.2.toNat)

/-- One accumulator word of a micro-op: the K-groups in ascending order. -/
def accWord (mode : Nat) (prod : Nat → FV × Nat) (klen : Nat) (x : BitVec 32) : BitVec 32 × Nat :=
  let g := modeG mode
  (List.range ((klen + g - 1) / g)).foldl (fun acc i =>
    let ks := (List.range g).filterMap fun j => if i * g + j < klen then some (prod (i * g + j)) else none
    let sum := sumExact 0 (ks.map fun p => (p.1, BitVec.ofNat 5 (p.2 % 32)))
    let r := accAdd mode acc.1 sum
    (r.1, acc.2 ||| r.2 ||| ks.foldl (fun f p => f ||| (p.2 / 32 * 32)) 0)) (x, 0)

/-- One product with its flags: NV for 0 x infinity and signalling NaNs in the low bits, BRNG and SPERR above. -/
def product (a : FV) (b : FV × Nat) : FV × Nat :=
  let r := FV.mul a b.1
  (r.1, r.2.toNat ||| b.2)

/-- A micro-op: accumulator effects and flags, or the fault of its A row, or none while a tile is absent. -/
def microOp (s : State) (c : Ctx) (o : Op) (u : Int × Int × Int × Int) : Option (Except Flaw (List Eff × Nat × Option Nat)) :=
  let head := o.table.getD 0 0
  let mode := headMode head
  let k := headK head
  let tid := tidOf o.a1
  let off := ((offOf o.a1 : Int) + u.1).toNat
  match engRead s c (tagIn (modeFormat mode)) tid off (rowBytes mode k) with
  | .absent _ => none
  | .fault code tv => some (.error (code, tv, false))
  | .bytes bs touch =>
    let slot := field o.a2 18 7
    let words := (List.range (headN head)).map fun (n : Nat) =>
      let w := ((field o.a2 0 18 : Int) + u.2.2.2 + (n : Int)) % (2 ^ 18 : Int)
      let r := accWord mode (fun j => product (elemValue (modeTy mode) bs j)
        (bElem s o.core slot mode (u.2.1 + (j : Int)) (u.2.2.1 + (n : Int)))) k (s.acc o.core w.toNat)
      (w.toNat, r)
    some (.ok (words.map fun x => .acc o.core x.1 x.2.1, words.foldl (fun f x => f ||| x.2.2) 0, touch))

/-- The nest, micro-op by micro-op, stopping at the first that faults. -/
def runNest (c : Ctx) (o : Op) : List (Int × Int × Int × Int) → State → Option (List Eff × Nat × Option Flaw)
  | [], _ => some ([], 0, none)
  | u :: t, s =>
    match microOp s c o u with
    | none => none
    | some (.error f) => some ([], 0, some f)
    | some (.ok (es, fl, touch)) =>
      let s1 := s.applyAll es
      let es := es ++ touchFx o false touch s1
      match runNest c o t (s.applyAll es) with
      | none => none
      | some (es', fl', f) => some (es ++ es', fl ||| fl', f)

/-- mtx.go takes effect. -/
def startGo (s : State) (o : Op) : Option EngOut :=
  let us := nestOf (levelsOf o.table) 0 0 0 0
  if us = [] then some (.plain [])
  else if !slotOk s o.core (field o.a2 18 7) (headMode (o.table.getD 0 0)) then some (EngOut.faulted cTAG_MISMATCH 0)
  else match runNest (opCtx s o) o us s with
    | none => none
    | some (es, fl, f) => some { effs := es, units := [], flags := BitVec.ofNat 64 fl, fault := f }

/-! ### mtx.st (12 R276) -/

def stMstr (o : Op) : Int := intVal 28 true (field o.a2 36 28)
def stCstr (o : Op) : Nat := field o.a2 18 18
def stTy (o : Op) : Nat := field o.a3 32 4
def stRows (o : Op) : Nat := field o.a3 16 16
def stCols (o : Op) : Nat := field o.a3 0 16
def stBytes (o : Op) : Nat :=
  if 12 ≤ stTy o then stCols o / 32 * mxBlock (stTy o) else stCols o * (tyWidth (stTy o) / 8)

/-- The words of one row, read in order, cleared when CLR is set. -/
def readAccRow (core : Nat) (clr : Bool) : List Nat → State → List (BitVec 32) × List Eff
  | [], _ => ([], [])
  | w :: t, s =>
    let es : List Eff := if clr then [.acc core w 0] else []
    let r := readAccRow core clr t (s.applyAll es)
    (s.acc core w :: r.1, es ++ r.2)

/-- A row's bytes in the output type, with flags. -/
def convertRow (ty rm : Nat) (ik sat : Bool) (ws : List (BitVec 32)) : List Byte × Nat :=
  if 12 ≤ ty then
    (List.range (ws.length / 32)).foldl (fun acc b =>
      let xs := ((ws.drop (32 * b)).take 32).map fun x =>
        if ik then (let z := x.toInt; FV.fin (z < 0) z.natAbs 0) else f32.value x.toNat
      let sig := xs.any FV.signalling
      let r := toMx ty rm xs
      (acc.1 ++ r.1, acc.2 ||| r.2.toNat ||| (if sig then 16 else 0))) ([], 0)
  else
    let w := tyWidth ty
    ws.foldl (fun acc x =>
      let r := convertElem (if ik then 2 else 10) ty rm sat x.toNat
      let sati := if ik && sat && ty ≤ 2 && clampInt w true x.toInt != x.toInt then fSATI else 0
      (acc.1 ++ natToBytes (w / 8) r.1, acc.2 ||| r.2.toNat ||| sati)) ([], 0)

/-- Every row: runs of bytes, effects on the accumulator store, flags. -/
def storeRows (o : Op) : List Nat → State → Runs × List Eff × Nat
  | [], _ => ([], [], 0)
  | r :: t, s =>
    let ws := (List.range (stCols o)).map fun n => (field o.a2 0 18 + r * stCstr o + n) % 2 ^ 18
    let rd := readAccRow o.core (bitOf o.a3 41) ws s
    let out := convertRow (stTy o) (field o.a3 36 3) (bitOf o.a3 40) (bitOf o.a3 39) rd.1
    let rest := storeRows o t (s.applyAll rd.2)
    ((((offOf o.a1 : Int) + r * stMstr o).toNat, out.1) :: rest.1, rd.2 ++ rest.2.1, out.2 ||| rest.2.2)

/-- mtx.st takes effect. None while a tile that it writes in part is absent. -/
def startSt (s : State) (o : Op) : Option EngOut :=
  let c := opCtx s o
  let tid := tidOf o.a1
  let fmt := stTy o + 1
  let r := storeRows o (List.range (stRows o)) s
  let u := formatUnits s c tid fmt r.1
  if u.units.any (unitAbsent s) then none
  else some { effs := r.2.1 ++ touchFx o true u.touch (s.applyAll r.2.1), units := u.units, flags := BitVec.ofNat 64 r.2.2
              fault := u.flaw tid }

/-- What a matrix operation does when it takes effect; none while it waits for a tile. -/
def startMtx (s : State) (o : Op) : Option EngOut :=
  match o.op9 with
  | 0x0D1 => startWb s o
  | 0x0D2 => startGo s o
  | 0x0D3 => some (.plain ((List.range o.a2.toNat).map fun i => .acc o.core (field o.a1 0 18 + i) 0))
  | 0x0D4 => some (.plain [.vreg o.core o.vd (BitVec.ofNat 1024 ((List.range 32).foldr
      (fun j acc => acc * 2 ^ 32 + (s.acc o.core (field o.a1 0 18 + j)).toNat) 0))])
  | _ => startSt s o

/-! ### The instructions (12 R270 to R276) -/

/-- mtx.ldt writes a row when it issues, after its waited tokens (12 R257, R271). -/
def execMtxLdt (f : FE) (s : State) : Host.Outcome State Fault Refusal :=
  issue s (engDesc 0x0D0 f false) fun t =>
    let co := coreOf t.cur
    let c := t.core co
    let lo := t.sreg t.cur f.a1.toNat
    let hi := t.sreg t.cur f.a2.toNat
    let row := field (t.sreg t.cur f.a3.toNat) 0 3
    match (feWaits f).find? fun n => c.tok n == .cancelled with
    | some n => .trap cTOKEN false (BitVec.ofNat 64 n) (fltOf 0x0D0)
    | none =>
      if row = 7 ∨ ¬ (if row = 0 then headOk lo hi else levelOk hi) then .trap cILLEGAL false t.word32 (fltOf 0x0D0)
      else if c.tok f.kp.toNat = .incomplete ∨ (feWaits f).any (fun n => c.tok n == .incomplete) ∨ heldBack t f then .wait Fx.none
      else .seq (onCore co fun c => { c with
        shadow := (c.shadow.set (2 * row) lo).set (2 * row + 1) hi
        toks := FMap.set .complete c.toks f.kp.toNat .complete })

def execMtxWb (f : FE) (s : State) : Host.Outcome State Fault Refusal :=
  engineIssue 0x0D1 false f (fun t o =>
    let c := opCtx t o
    match readTensor t c.asid (tidOf o.a1) with
    | none => some (cTILE_PROT, o.a1, false)
    | some tn =>
      if tn.remote || tn.bytes ≤ offOf o.a1 || !tn.rd then some (cTILE_PROT, o.a1, false)
      else if 128 < field o.a2 0 7 + (tn.tbytes + 4095) / 4096 then some (cILLEGAL, t.word32, false)
      else none) (fun _ o => o) s

/-- The range that A reads (12 R273). -/
def goRange (table : List Word) : Int × Int :=
  (levelsOf table).foldl (fun r l =>
    let d := ((l.count : Int) - 1) * l.astride
    if d < 0 then (r.1 + d, r.2) else (r.1, r.2 + d)) (0, 0)

def execMtxGo (f : FE) (s : State) : Host.Outcome State Fault Refusal :=
  engineIssue 0x0D2 false f (fun t o =>
    let table := (t.core o.core).shadow
    let head := table.getD 0 0
    let ls := levelsOf table
    let rowsOk := headOk head (table.getD 1 0) && (List.range 6).all fun i => levelOk (table.getD (2 * i + 3) 0)
    if !rowsOk || (modeMx (headMode head) && ls.any fun l => l.bk % 32 != 0) then some (cILLEGAL, t.word32, false)
    else if ls.any fun l => l.count == 0 then none
    else if tidOf o.a1 = 3 then some (cTILE_PROT, o.a1, false)
    else
      let r := goRange table
      rangeCheck t (opCtx t o) o.a1 r.1 (r.2 + rowBytes (headMode head) (headK head) - 1) false)
    (fun t o => { o with table := (t.core o.core).shadow }) s

def execMtxClr (f : FE) (s : State) : Host.Outcome State Fault Refusal :=
  engineIssue 0x0D3 false f (fun t o => if 2 ^ 18 < o.a2.toNat then some (cILLEGAL, t.word32, false) else none) (fun _ o => o) s

/-- mtx.rd: the vd field lies over A1 and A2, the word index in A3 (12 R270). The instruction retires when vd is written. -/
def execMtxRd (f : FE) (s : State) : Host.Outcome State Fault Refusal :=
  let vd := f.a1.toNat + f.a2.toNat % 16 * 64
  issue s { engDesc 0x0D4 f false with sregs := [f.a3.toNat], vregs := [vd] } fun t =>
    let c := t.core (coreOf t.cur)
    match (feWaits f).find? fun n => c.tok n == .cancelled with
    | some n => .trap cTOKEN false (BitVec.ofNat 64 n) (fltOf 0x0D4)
    | none =>
      if c.tok f.kp.toNat = .incomplete ∨ heldBack t f then .wait Fx.none
      else .slow (startOp { newOp t 0x0D4 f with a1 := t.sreg t.cur f.a3.toNat, vd := vd })
        { stall := steps t, accs := [], op := some t.nextId }

def execMtxSt (f : FE) (s : State) : Host.Outcome State Fault Refusal :=
  engineIssue 0x0D5 false f (fun t o =>
    let ty := stTy o
    let tyOk := [0, 1, 2, 8, 9, 10, 12, 13, 14].contains ty
    if !tyOk || decide (5 ≤ field o.a3 36 3) || (bitOf o.a3 39 && !(bitOf o.a3 40 && decide (ty ≤ 2))) || field o.a3 42 22 != 0 ||
        (decide (12 ≤ ty) && stCols o % 32 != 0) then some (cILLEGAL, t.word32, false)
    else if stRows o = 0 ∨ stCols o = 0 then none
    else if tidOf o.a1 = 3 then some (cTILE_PROT, o.a1, true)
    else
      let d := ((stRows o : Int) - 1) * stMstr o
      rangeCheck t (opCtx t o) o.a1 (min d 0) (max d 0 + stBytes o - 1) true) (fun _ o => o) s

end Sys2Proof.Machine
end

