-- ==== Sys2Proof/Machine/Prism.lean ====
section
/-!
DEFINITION. The Prism unit (13 R283 to R296): the plan, Fourier and spherical-harmonic transforms with their rounding points,
and the three instructions with what their operations do when they take effect.
-/
namespace Sys2Proof.Machine

/-! ### The plan (13 R284, R285) -/

def Plan.w (p : Plan) (i : Nat) : Word := p.words.getD i 0
def Plan.kind (p : Plan) : Nat := field (p.w 0) 62 2
def Plan.inverse (p : Plan) : Bool := bitOf (p.w 0) 61
def Plan.double (p : Plan) : Bool := bitOf (p.w 0) 60
def Plan.nfac (p : Plan) : Nat := field (p.w 0) 55 5
def Plan.n (p : Plan) : Nat := field (p.w 0) 0 21 + 1
def Plan.codes (p : Plan) : List Nat := (List.range 20).map fun i => field (p.w 1) (3 * i) 3
def Plan.istride (p : Plan) : Int := intVal 32 true (field (p.w 2) 32 32)
def Plan.ostride (p : Plan) : Int := intVal 32 true (field (p.w 2) 0 32)
def Plan.idist (p : Plan) : Int := intVal 32 true (field (p.w 3) 32 32)
def Plan.odist (p : Plan) : Int := intVal 32 true (field (p.w 3) 0 32)
def Plan.nlat (p : Plan) : Nat := field (p.w 4) 32 12 + 1
def Plan.lmax (p : Plan) : Nat := field (p.w 4) 16 11
def Plan.mmax (p : Plan) : Nat := field (p.w 4) 0 11
def Plan.work (p : Plan) : Word := p.w 5
def Plan.lat (p : Plan) : Word := p.w 6
def Plan.fmt (p : Plan) : Fmt := if p.double then f64 else f32
def Plan.tagFormat (p : Plan) : Nat := if p.double then 12 else 11
def Plan.pointBytes (p : Plan) : Nat := if p.double then 16 else 8

/-- The expansion of a factor code (13 R286). -/
def codeFactors (c : Nat) : List Nat :=
  match c with | 0 => [2] | 1 => [3] | 2 => [2, 2] | 3 => [5] | 4 => [7] | 5 => [2, 2, 2] | _ => []

def Plan.factors (p : Plan) : List Nat := (p.codes.take p.nfac).flatMap codeFactors

/-- The block is valid (13 R285; NFAC and N in the ranges of R284). -/
def Plan.ok (p : Plan) : Bool :=
  let reserved := field (p.w 0) 21 34 == 0 && field (p.w 1) 60 4 == 0 && field (p.w 4) 44 20 == 0 && field (p.w 4) 27 5 == 0 &&
    field (p.w 4) 11 5 == 0 && p.w 7 == 0 && (p.codes.drop p.nfac).all (· == 0)
  let length := decide (1 ≤ p.nfac ∧ p.nfac ≤ 20 ∧ 2 ≤ p.n ∧ p.n ≤ 2 ^ 20) && p.factors.foldl (· * ·) 1 == p.n
  reserved && decide (p.kind ≤ 1) && (p.codes.take p.nfac).all (fun c => decide (c ≤ 5)) && length &&
  (if p.kind = 0 then p.w 4 == 0 && p.w 6 == 0 && (decide (p.n ≤ 4096) || p.work != 0)
   else decide (p.mmax ≤ p.lmax) && decide (p.n ≤ 4096) && decide (2 * p.mmax + 1 ≤ p.n) && p.istride == 1 && p.ostride == 1 &&
    p.lat != 0 && p.work != 0)

/-- The points of the workspace that an operation uses (13 R285). -/
def Plan.workPoints (p : Plan) : Nat := if p.kind = 1 then p.nlat * p.n else if 4096 < p.n then p.n else 0

/-! ### Transforms (13 R286 to R289) -/

/-- A point: real and imaginary bits. -/
abbrev Pt := Nat × Nat

/-- cos of the angle 2πe/N, exactly or as a fixed-point value that no rounding boundary can separate from it; a cosine of 0
is +0. -/
def cosTurn (e N : Nat) : FV :=
  let series : FV :=
    let a := 4 * (e % N)
    let th := piFix (fx + 40) * (a % N) / (2 * N) / 2 ^ 40
    let rr := th * th / 2 ^ fx
    let sn := trigSeries rr 50 1 th
    let cs := trigSeries rr 50 0 (2 ^ fx)
    fromFix (match a / N with | 0 => cs | 1 => -sn | 2 => -cs | _ => sn) 0
  if 12 * e % N = 0 then
    match 12 * e / N % 12 with
    | 0 => .fin false 1 0
    | 2 | 10 => .fin false 1 (-1)
    | 3 | 9 => .fin false 0 0
    | 4 | 8 => .fin true 1 (-1)
    | 6 => .fin true 1 0
    | _ => series
  else series

/-- CosR and SinR (13 R287): correctly rounded; sin of an angle is cos of three quarters of a turn more. -/
def cosR (f : Fmt) (e N : Nat) : Nat := ((cosTurn e N).round f 0).1
def sinR (f : Fmt) (e N : Nat) : Nat := ((cosTurn (4 * e + 3 * N) (4 * N)).round f 0).1

def negBits (f : Fmt) (x : Nat) : Nat := (x + f.signBit) % 2 ^ f.w

/-- `Twid` (13 R287). -/
def twid (f : Fmt) (inv : Bool) (y : Pt) (e N : Nat) : Pt × Fl :=
  if e = 0 then (y, 0)
  else
    let c := cosR f e N
    let s := if inv then sinR f e N else negBits f (sinR f e N)
    let re := ftwo f 0 true y.1 c y.2 s
    let im := ftwo f 0 false y.1 s y.2 c
    ((re.1, im.1), re.2 ||| im.2)

/-- One component of `Bfly` for an odd radix (13 R288): the exact sum of a first term and coefficients times terms. -/
def flySum (f : Fmt) (first : List Nat) (cs : List Nat) (ts : List Nat) : Val :=
  finish f 0 (sumExact 0 (first.map (fun x => (f.value x, 0)) ++ (cs.zip ts).map fun p => FV.mul (f.value p.1) (f.value p.2)))

/-- `Bfly` (13 R288). -/
def bfly (f : Fmt) (inv : Bool) (a : List Pt) (r : Nat) : List Pt × Fl :=
  let at0 (j : Nat) : Pt := a.getD j (0, 0)
  let addP (x y : Pt) : Pt × Fl := let re := fadd f 0 x.1 y.1; let im := fadd f 0 x.2 y.2; ((re.1, im.1), re.2 ||| im.2)
  let subP (x y : Pt) : Pt × Fl := let re := fsub f 0 x.1 y.1; let im := fsub f 0 x.2 y.2; ((re.1, im.1), re.2 ||| im.2)
  if r = 2 then
    let p := addP (at0 0) (at0 1)
    let m := subP (at0 0) (at0 1)
    ([p.1, m.1], p.2 ||| m.2)
  else
    let h := (r - 1) / 2
    let js := (List.range h).map (· + 1)
    let t := js.map fun j => addP (at0 j) (at0 (r - j))
    let u := js.map fun j => subP (at0 j) (at0 (r - j))
    let one := js.map fun _ => cosR f 0 1
    let zre := flySum f [(at0 0).1] one (t.map (·.1.1))
    let zim := flySum f [(at0 0).2] one (t.map (·.1.2))
    let bins := js.map fun k =>
      let cs := js.map fun j => cosR f (j * k % r) r
      let ss := js.map fun j => sinR f (j * k % r) r
      let cre := flySum f [(at0 0).1] cs (t.map (·.1.1))
      let cim := flySum f [(at0 0).2] cs (t.map (·.1.2))
      let sre := flySum f [] ss (u.map (·.1.1))
      let sim := flySum f [] ss (u.map (·.1.2))
      let up := (fsub f 0 cre.1 sim.1, fadd f 0 cim.1 sre.1)
      let dn := (fadd f 0 cre.1 sim.1, fsub f 0 cim.1 sre.1)
      let fl := joinFlags [cre.2, cim.2, sre.2, sim.2, up.1.2, up.2.2, dn.1.2, dn.2.2]
      let pu : Pt := (up.1.1, up.2.1)
      let pd : Pt := (dn.1.1, dn.2.1)
      if inv then (pu, pd, fl) else (pd, pu, fl)
    ((zre.1, zim.1) :: bins.map (·.1) ++ (bins.map (·.2.1)).reverse,
      joinFlags (t.map (·.2) ++ u.map (·.2) ++ [zre.2, zim.2] ++ bins.map (·.2.2)))

/-- `Fft` (13 R286). -/
def fft (f : Fmt) (inv : Bool) : List Nat → List Pt → List Pt × Fl
  | [], x => (x, 0)
  | r :: fs, x =>
    let n := x.length
    let m := n / r
    let ys := (List.range r).map fun q => fft f inv fs ((List.range m).map fun i => x.getD (q + i * r) (0, 0))
    let cols := (List.range m).map fun k =>
      let a := (List.range r).map fun q => twid f inv ((ys.getD q ([], 0)).1.getD k (0, 0)) (q * k) n
      let b := bfly f inv (a.map (·.1)) r
      (b.1, joinFlags (a.map (·.2)) ||| b.2)
    ((List.range r).flatMap fun p => cols.map fun c => c.1.getD p (0, 0),
      joinFlags (ys.map (·.2) ++ cols.map (·.2)))

/-! ### Spherical harmonics (13 R291 to R293) -/

/-- The square root of n/d, correctly rounded to binary64. -/
def rootRatio (n d : Nat) : Nat :=
  let a := n * 2 ^ 320 / d
  let r := isqrt a
  ((FV.fin false (withSticky r (r * r * d != n * 2 ^ 320)) (-161)).round f64 0).1

/-- 1/sqrt(4π) in binary64. -/
def c00 : Nat := 0x3FD20DD750429B6D

def mul64 (a b : Nat) : Val := fmul f64 0 a b

/-- p(μ,μ) (13 R292). -/
def legendreDiag (s : Nat) : Nat → Val
  | 0 => (c00, 0)
  | m + 1 =>
    let p := legendreDiag s m
    let a := mul64 (rootRatio (2 * (m + 1) + 1) (2 * (m + 1))) s
    let b := mul64 a.1 p.1
    (negBits f64 b.1, p.2 ||| a.2 ||| b.2)

/-- p(μ + i, μ) and the value before it. -/
def legendreUp (x s mu : Nat) : Nat → Val × Nat
  | 0 => (legendreDiag s mu, 0)
  | 1 =>
    let p := legendreDiag s mu
    let a := mul64 x p.1
    let b := mul64 (rootRatio (2 * mu + 3) 1) a.1
    ((b.1, p.2 ||| a.2 ||| b.2), p.1)
  | i + 2 =>
    let p := legendreUp x s mu (i + 1)
    let l := mu + i + 2
    let d := l * l - mu * mu
    let ca := rootRatio (4 * l * l - 1) d
    let cb := rootRatio (((l - 1) * (l - 1) - mu * mu) * (2 * l + 1)) ((2 * l - 3) * d)
    let a := mul64 x p.1.1
    let b := ftwo f64 0 true ca a.1 cb p.2
    ((b.1, p.1.2 ||| a.2 ||| b.2), p.1.1)

def legendre (x s l mu : Nat) : Val := (legendreUp x s mu (l - mu)).1

/-- Base(m) and NCOEF (13 R291). -/
def shtS (L mu : Nat) : Nat := mu * L - mu * (mu - 1) / 2
def shtBase (L : Nat) (m : Int) : Nat :=
  let mu := m.natAbs
  if m = 0 then 0 else if 0 < m then 2 * shtS L mu - L else 2 * shtS L mu - L + L - mu
def shtCount (p : Plan) : Nat := 2 * shtS (p.lmax + 1) (p.mmax + 1) - (p.lmax + 1)

/-- The orders of a plan, and its coefficients in their order. -/
def shtOrders (p : Plan) : List Int := 0 :: (List.range p.mmax).flatMap fun (i : Nat) => [(i : Int) + 1, -((i : Int) + 1)]

/-- The bin of an order: m mod N. -/
def binOf (m : Int) (n : Nat) : Nat := (m % (n : Int)).toNat

/-- The tree over a list of leaves, every one present. -/
def fullTree (f : Fmt) (l : List Val) : Val :=
  (treeSum (fun a b => fadd f 0 a b) (levels l.length) (l.map some)).getD (0, 0)

/-- A latitude: x, s, w in binary64. -/
abbrev Latitude := Nat × Nat × Nat

/-- One member of an analysis (13 R293): grid to coefficients. -/
def shtAnalyse (p : Plan) (lats : List Latitude) (grid : List Pt) : List Pt × Fl :=
  let f := p.fmt
  let n := p.n
  let gs := (List.range p.nlat).map fun j => fft f false p.factors ((grid.drop (j * n)).take n)
  let coef (l : Nat) (m : Int) : Pt × Fl :=
    let leaves := (lats.zip gs).map fun e =>
      let pl := legendre e.1.1 e.1.2.1 l m.natAbs
      let q := mul64 e.1.2.2 pl.1
      let g := e.2.1.getD (binOf m n) (0, 0)
      let leaf (c : Nat) : Val := let r := finish f 0 (FV.mul (f64.value q.1) (f.value c)); (r.1, r.2 ||| q.2 ||| pl.2)
      (leaf g.1, leaf g.2)
    let re := fullTree f (leaves.map (·.1))
    let im := fullTree f (leaves.map (·.2))
    ((re.1, im.1), re.2 ||| im.2)
  let out := (shtOrders p).flatMap fun m => (List.range (p.lmax + 1 - m.natAbs)).map fun i => coef (m.natAbs + i) m
  (out.map (·.1), joinFlags (gs.map (·.2) ++ out.map (·.2)))

/-- One member of a synthesis (13 R293): coefficients to grid. -/
def shtSynthesise (p : Plan) (lats : List Latitude) (coefs : List Pt) : List Pt × Fl :=
  let f := p.fmt
  let n := p.n
  let rows := lats.map fun e =>
    let bins := (shtOrders p).map fun m =>
      let leaves := (List.range (p.lmax + 1 - m.natAbs)).map fun i =>
        let pl := legendre e.1 e.2.1 (m.natAbs + i) m.natAbs
        let a := coefs.getD (shtBase (p.lmax + 1) m + i) (0, 0)
        let leaf (c : Nat) : Val := let r := finish f 0 (FV.mul (f64.value pl.1) (f.value c)); (r.1, r.2 ||| pl.2)
        (leaf a.1, leaf a.2)
      let re := fullTree f (leaves.map (·.1))
      let im := fullTree f (leaves.map (·.2))
      (binOf m n, (re.1, im.1), re.2 ||| im.2)
    let x := (List.range n).map fun k => match bins.find? (·.1 == k) with | some b => b.2.1 | none => (0, 0)
    let r := fft f true p.factors x
    (r.1, joinFlags (bins.map (·.2.2)) ||| r.2)
  (rows.flatMap (·.1), joinFlags (rows.map (·.2)))

/-! ### Where the data lies (13 R290) -/

/-- The first byte of a range that fails steps 1 to 3 of 01 R19 (13 R282). -/
def firstBad (s : State) (c : Ctx) (base : Word) (lo hi : Int) (write : Bool) : Option Flaw :=
  match rangeCheck s c base lo hi write with
  | none => none
  | some (code, h, _) =>
    let first := (offOf base : Int) + lo
    if first < 0 then some (code, h, write)
    else match placeCheck s c (tidOf base) first.toNat 1 write with
      | .error _ => some (code, h, write)
      | .ok (.tensor t) => if t.remote then some (code, h, write) else some (code, handleOf (tidOf base) t.bytes, write)
      | .ok .win1 => some (code, handleOf 1 c.w1len, write)
      | .ok .win2 => some (code, handleOf 2 c.w2len, write)

/-- The first byte at an offset of a list of ranges whose tile has a tag that is not accepted. The tags of a REMOTE tensor come with its
bytes. -/
def tagScan (s : State) (c : Ctx) (okTag : Nat → Bool) (tid : Nat) (ranges : List (Nat × Nat)) : Option Flaw :=
  if tid < 16 then none
  else match readTensor s c.asid tid with
    | none => some (cTILE_PROT, handleOf tid 0, false)
    | some t =>
      let parts := if t.remote then [] else ranges.flatMap fun r => rangeSegments t.tbytes r.1 r.2
      (parts.find? fun p =>
        let tag := (readTile s t (p.1 / t.tbytes)).viewTag (c.froz.contains tid)
        malformed tag || !okTag tag).map fun p => (cTAG_MISMATCH, handleOf tid p.1, false)

/-- Byte offsets of the points of a batch, in the order b, then n. -/
def pointOffs (base : Word) (size : Nat) (count points : Nat) (dist stride : Int) : List Nat :=
  (List.range count).flatMap fun (b : Nat) => (List.range points).map fun (n : Nat) =>
    ((offOf base : Int) + size * ((b : Int) * dist + (n : Int) * stride)).toNat

/-- The byte range that they span, relative to the base. -/
def pointSpan (size : Nat) (count points : Nat) (dist stride : Int) : Int × Int :=
  let d := ((count : Int) - 1) * dist
  let e := ((points : Int) - 1) * stride
  (size * (min d 0 + min e 0), size * (max d 0 + max e 0) + size - 1)

/-- Points from bytes. -/
def pointsOf (size : Nat) (n : Nat) (bs : List Byte) : List Pt :=
  (List.range n).map fun i =>
    (bytesToNat ((bs.drop (i * size)).take (size / 2)), bytesToNat ((bs.drop (i * size + size / 2)).take (size / 2)))

def pointBytes (size : Nat) (p : Pt) : List Byte := natToBytes (size / 2) p.1 ++ natToBytes (size / 2) p.2

/-- The first answer of a list of checks. -/
def firstFail (l : List (Option Flaw)) : Option Flaw := l.findSome? id

/-- The tiles of an operation's reads, one part after another. -/
def readRanges (s : State) (c : Ctx) (okTag : Nat → Bool) (tid : Nat) (rs : List (Nat × Nat)) : ERead :=
  readParts (fun p => engRead s c okTag tid p.1 p.2) rs

/-- prz.fft and prz.sht take effect (13 R290, R293, R295, R296). None while a tile is absent. -/
def startTransform (s : State) (o : Op) : Option EngOut :=
  let count := field o.a3 0 32
  let plan := (s.core o.core).plan
  let handle := (plan.map (·.handle)).getD 0
  if count = 0 then some (.plain [])
  else match plan with
    | none => some (EngOut.faulted cILLEGAL handle)
    | some p =>
      if !p.valid || p.kind != (if o.op9 = 0x0D9 then 0 else 1) then some (EngOut.faulted cILLEGAL handle)
      else
        let c := opCtx s o
        let sz := p.pointBytes
        let inPts := if p.kind = 0 then p.n else if p.inverse then shtCount p else p.nlat * p.n
        let outPts := if p.kind = 0 then p.n else if p.inverse then p.nlat * p.n else shtCount p
        let isp := pointSpan sz count inPts p.idist p.istride
        let osp := pointSpan sz count outPts p.odist p.ostride
        let work : Option (Int × Int) := if p.workPoints = 0 then none else some (0, (sz * p.workPoints : Nat) - 1)
        let latLen := if p.kind = 1 then 32 * p.nlat else 0
        let okTag := tagIn p.tagFormat
        let ranges := firstFail [firstBad s c o.a2 isp.1 isp.2 false, firstBad s c o.a1 osp.1 osp.2 true,
          work.bind fun w => firstBad s c p.work w.1 w.2 true, work.bind fun w => firstBad s c p.work w.1 w.2 false,
          if latLen = 0 then none else firstBad s c p.lat 0 ((latLen : Int) - 1) false]
        match ranges with
        | some f => some (EngOut.failed f)
        | none =>
          let inRs := (pointOffs o.a2 sz count inPts p.idist p.istride).map fun x => (x, sz)
          let outOffs := pointOffs o.a1 sz count outPts p.odist p.ostride
          let units (tid : Nat) (rs : Runs) := formatUnits s c tid p.tagFormat rs
          let wrs : Runs := if work.isNone then [] else
            [(offOf p.work, (List.range (sz * p.workPoints)).map fun i => Config.workspaceByte o.order i)]
          let blank : Runs := outOffs.map fun x => (x, List.replicate sz 0)
          let wu := units (tidOf p.work) wrs
          let tags := firstFail [tagScan s c okTag (tidOf o.a2) inRs,
            (units (tidOf o.a1) blank).flaw (tidOf o.a1),
            if work.isNone then none else tagScan s c okTag (tidOf p.work) [(offOf p.work, sz * p.workPoints)],
            wu.flaw (tidOf p.work),
            if latLen = 0 then none else tagScan s c okTag (tidOf p.lat) [(offOf p.lat, latLen)]]
          match tags with
          | some f => some (EngOut.failed f)
          | none =>
            let i0 := (offOf o.a2 : Int)
            let o0 := (offOf o.a1 : Int)
            if tidOf o.a2 = tidOf o.a1 ∧ i0 + isp.1 ≤ o0 + osp.2 ∧ o0 + osp.1 ≤ i0 + isp.2 then
              some (EngOut.faulted cILLEGAL o.a1)
            else match readRanges s c okTag (tidOf o.a2) inRs, readRanges s c okTag (tidOf p.lat) [(offOf p.lat, latLen)] with
              | .bytes bs g, .bytes ls g2 =>
                let pts := pointsOf sz (count * inPts) bs
                let w64 (i : Nat) : Nat := bytesToNat ((ls.drop (8 * i)).take 8)
                let lats : List Latitude := (List.range p.nlat).map fun j => (w64 (4 * j), w64 (4 * j + 1), w64 (4 * j + 2))
                let outs := (List.range count).map fun b =>
                  let x := (pts.drop (b * inPts)).take inPts
                  if p.kind = 0 then fft p.fmt p.inverse p.factors x
                  else if p.inverse then shtSynthesise p lats x else shtAnalyse p lats x
                let runs : Runs := outOffs.zip ((outs.flatMap (·.1)).map (pointBytes sz))
                let ou := units (tidOf o.a1) runs
                if (wu.units ++ ou.units).any (unitAbsent s) then none
                else some
                  { effs := (Fx.andThen (touchFx o false g) ((touchFx o false g2).andThen ((touchFx o true wu.touch).andThen
                      (touchFx o true ou.touch)))) s
                    units := wu.units ++ ou.units
                    flags := (joinFlags (outs.map (·.2))).setWidth 64
                    fault := none }
              | .fault code h, _ => some (EngOut.faulted code h)
              | _, .fault code h => some (EngOut.faulted code h)
              | _, _ => none

/-- prz.cfg takes effect (13 R283 to R285, R294). None while its tile is absent. -/
def startCfg (s : State) (o : Op) : Option EngOut :=
  let c := opCtx s o
  match engRead s c (fun _ => true) (tidOf o.a1) (offOf o.a1) 64 with
  | .absent _ => none
  | .fault code h => some (EngOut.faulted code h)
  | .bytes bs g =>
    let ws := (List.range 8).map fun i => BitVec.ofNat 64 (bytesToNat ((bs.drop (8 * i)).take 8))
    let p : Plan := ⟨ws, false, o.a1⟩
    let r := s.core o.core
    some { effs := (Fx.andThen (fun _ => [.core o.core { r with plan := some { p with valid := p.ok } }]) (touchFx o false g)) s
           units := [], flags := if p.ok then 0 else 32, fault := none }

/-- What a Prism operation does when it takes effect; none while it waits for a tile. -/
def startPrism (s : State) (o : Op) : Option EngOut := if o.op9 = 0x0D8 then startCfg s o else startTransform s o

/-! ### The instructions (13 R294 to R296) -/

def execPrzCfg (f : FE) (s : State) : Host.Outcome State Fault Refusal :=
  engineIssue 0x0D8 false f (fun t o => rangeCheck t (opCtx t o) o.a1 0 63 false) (fun _ o => o) s

def execPrzFft (f : FE) (s : State) : Host.Outcome State Fault Refusal :=
  engineIssue 0x0D9 false f (fun t o => if field o.a3 32 32 ≠ 0 then some (cILLEGAL, t.word32, false) else none) (fun _ o => o) s

def execPrzSht (f : FE) (s : State) : Host.Outcome State Fault Refusal :=
  engineIssue 0x0DA false f (fun t o => if field o.a3 32 32 ≠ 0 then some (cILLEGAL, t.word32, false) else none) (fun _ o => o) s

end Sys2Proof.Machine
end

