-- ==== Sys2Proof/Machine/Copy.lean ====
section
/-!
DEFINITION. The copy engine (13 R297 to R299) and the Mirror fabric (13 R300 to R305): what their operations do when they take
effect, counters (13 R304, 18 R377, R384), and the four instructions.
-/
namespace Sys2Proof.Machine

/-! ### Copies and their tags (13 R297) -/

/-- Every well-formed tag. -/
def anyTag (_ : Nat) : Bool := true

/-- The tag of the tile at an offset as an engine reads it; windows count as raw. -/
def tagAt (s : State) (c : Ctx) (tid off : Nat) : Nat :=
  if tid < 16 then 0
  else match readTensor s c.asid tid with
    | some t => (readTile s t (off / t.tbytes)).viewTag (c.froz.contains tid)
    | none => 0

/-- The tags of the tiles that a range of a source touches. -/
def tagsIn (s : State) (c : Ctx) (tid off n : Nat) : List Nat :=
  if tid < 16 then [0]
  else match readTensor s c.asid tid with
    | some t => (rangeSegments t.tbytes off n).map fun p => tagAt s c tid p.1
    | none => [0]

/-- The format of tiles that take bytes with these tags in part, if they have one format (13 R297). -/
def oneFormat (tags : List Nat) : List Nat :=
  match (tags.map formatOf).eraseDups with
  | [f] => [f]
  | _ => []

/-- The writes of one run of a copy whose whole destination is `lo` to `hi` (exclusive): a tile that the operation covers whole
takes the tag `whole` of the source of its first byte; the others need a raw tile or one of the format of all their sources,
`tags`. The first refused offset is the second part. -/
def copyUnits (s : State) (asid : Nat) (t : Tensor) (lo hi : Nat) (whole : Nat → Nat) (tags : Nat → Nat → List Nat)
    (run : Nat × List Byte) : List WUnit × Option Nat :=
  (rangeSegments t.tbytes run.1 run.2.length).foldl (fun acc p =>
    let n := p.1 / t.tbytes
    let bs := (run.2.drop (p.1 - run.1)).take p.2
    let first := n * t.tbytes
    let covered := decide (lo ≤ first) && decide (first + coverNeed t (formatOf (whole first)) ≤ hi)
    let unit (tag : Option (BitVec 16)) (fmts : List Nat) : WUnit := ⟨asid, t.tid, n, [(p.1 % t.tbytes, bs)], tag, fmts⟩
    let fmts := oneFormat (tags p.1 p.2)
    if covered then (acc.1 ++ [unit (some (BitVec.ofNat 16 (whole first))) [formatOf (whole first)]], acc.2)
    else if takesPart (readTile s t n).tag fmts then (acc.1 ++ [unit none fmts], acc.2)
    else (acc.1, match acc.2 with | some o => some o | none => some p.1)) ([], none)

/-- cpy takes effect: every read, then the writes. None while a source tile is absent. -/
def startCpy (s : State) (o : Op) : Option EngOut :=
  let c := opCtx s o
  let n := o.a3.toNat
  let src := tidOf o.a2
  let dst := tidOf o.a1
  if n = 0 then some (.plain [])
  else match engRead s c anyTag src (offOf o.a2) n with
    | .absent _ => none
    | .fault code h => some (EngOut.faulted code h)
    | .bytes bs g =>
      if dst < 16 then
        let u := engUnits s c dst 0 anyFormat (fun _ t => t) [(offOf o.a1, bs)]
        some { effs := (Fx.andThen (touchFx o false g) (touchFx o true u.touch)) s, units := u.units, flags := 0, fault := none }
      else match readTensor s c.asid dst with
        | none => some (EngOut.faulted cTILE_PROT o.a1)
        | some t =>
          let lo := offOf o.a1
          let at0 (d : Nat) : Nat := offOf o.a2 + d - lo
          let u := copyUnits s c.asid t lo (lo + n) (fun d => tagAt s c src (at0 d)) (fun d len => tagsIn s c src (at0 d) len) (lo, bs)
          some { effs := touchFx o false g s, units := u.1, flags := 0
                 fault := u.2.map fun x => (cTAG_MISMATCH, handleOf dst x, true) }

/-! ### cpy.cvt (13 R298) -/

def cvtS (o : Op) : Nat := field o.a3 32 4
def cvtD (o : Op) : Nat := field o.a3 28 4
def cvtRm (o : Op) : Nat := field o.a3 36 3
def cvtCount (o : Op) : Nat := field o.a3 0 28

/-- Bytes of `n` elements of a type code. -/
def typeBytes (ty n : Nat) : Nat := if 12 ≤ ty then n / 32 * mxBlock ty else n * (tyWidth ty / 8)

/-- PRZ_CFLAGS from exception flags: NV stands in bit 3 (13 R306). -/
def cvtFlags (fl : Fl) : Word := BitVec.ofNat 64 (fl.toNat % 8 + (if fl &&& fNV = 0 then 0 else 8))

/-- The converted bytes and their flags. -/
def convertRun (ts td rm : Nat) (sat : Bool) (n : Nat) (bs : List Byte) : List Byte × Fl :=
  if 12 ≤ td then
    (List.range (n / 32)).foldl (fun acc b =>
      let xs := (List.range 32).map fun i => elemValue ts bs (32 * b + i)
      let r := toMx td rm xs
      (acc.1 ++ r.1, acc.2 ||| r.2)) ([], 0)
  else
    (List.range n).foldl (fun acc i =>
      let r : Val := if 12 ≤ ts then convertFrom td rm (elemValue ts bs i)
        else convertElem ts td rm sat (bytesToNat ((bs.drop (i * (tyWidth ts / 8))).take (tyWidth ts / 8)))
      (acc.1 ++ natToBytes (tyWidth td / 8) r.1, acc.2 ||| r.2)) ([], 0)

def startCvt (s : State) (o : Op) : Option EngOut :=
  let c := opCtx s o
  let n := cvtCount o
  let td := cvtD o
  if n = 0 then some (.plain [])
  else match tagScan s c (tagIn (cvtS o + 1)) (tidOf o.a2) [(offOf o.a2, typeBytes (cvtS o) n)] with
    | some f => some (EngOut.failed f)
    | none =>
      match engRead s c (tagIn (cvtS o + 1)) (tidOf o.a2) (offOf o.a2) (typeBytes (cvtS o) n) with
      | .absent _ => none
      | .fault code h => some (EngOut.faulted code h)
      | .bytes bs g =>
        let r := convertRun (cvtS o) td (cvtRm o) (bitOf o.a3 39) n bs
        let u := formatUnits s c (tidOf o.a1) (td + 1) [(offOf o.a1, r.1)]
        some { effs := (Fx.andThen (touchFx o false g) (touchFx o true u.touch)) s, units := u.units, flags := cvtFlags r.2
               fault := u.flaw (tidOf o.a1) }

/-! ### cpy.g (13 R299) -/

def gatherRow (o : Op) : Nat := match o.fn with | 0 => 128 | 1 => 256 | 2 => 1024 | _ => 4096

/-- The offset of the source row of an index. -/
def gatherSrc (o : Op) (idx : Nat) : Nat := offOf o.a2 + gatherRow o * idx

/-- What one row comes to: its writes, its fault, or an absent tile. -/
inductive RowOut where
  | absent
  | row (units : List WUnit) (touch : List (Bool × Nat)) (fault : Option Flaw)

/-- Row `j` (13 R299): the source is checked first; then the destination, tile by tile. Of a row that passes the end of its tensor the
bytes in tiles that lie whole within it are written. -/
def gatherOne (s : State) (o : Op) (whole : Nat → Nat) (count j idx : Nat) : RowOut :=
  let c := opCtx s o
  let r := gatherRow o
  let src := tidOf o.a2
  let dst := tidOf o.a1
  let at1 := offOf o.a1 + r * j
  match firstBad s c o.a2 (r * idx) (r * idx + r - 1) false with
  | some f => .row [] [] (some f)
  | none =>
    match engRead s c anyTag src (gatherSrc o idx) r with
    | .absent _ => .absent
    | .fault code h => .row [] [] (some (code, h, false))
    | .bytes bs g =>
      let gt := match g with | some x => [(false, x)] | none => []
      match firstBad s c o.a1 (r * j) (r * j + r - 1) true with
      | some f =>
        (match placeCheck s c dst at1 1 true with
          | .ok (.tensor t) =>
            let u := copyUnits s c.asid t (offOf o.a1) (offOf o.a1 + r * count) whole
              (fun d n => tagsIn s c src (gatherSrc o idx + d - at1) n) (at1, bs.take (t.bytes / t.tbytes * t.tbytes - at1))
            .row u.1 gt (some (match u.2 with | some x => (cTAG_MISMATCH, handleOf dst x, true) | none => f))
          | _ => .row [] gt (some f))
      | none =>
        if dst < 16 then
          let u := engUnits s c dst 0 anyFormat (fun _ t => t) [(at1, bs)]
          .row u.units (gt ++ match u.touch with | some x => [(true, x)] | none => []) none
        else match readTensor s c.asid dst with
          | none => .row [] gt (some (cTILE_PROT, handleOf dst at1, true))
          | some t =>
            let u := copyUnits s c.asid t (offOf o.a1) (offOf o.a1 + r * count) whole
              (fun d n => tagsIn s c src (gatherSrc o idx + d - at1) n) (at1, bs)
            .row u.1 gt (u.2.map fun x => (cTAG_MISMATCH, handleOf dst x, true))

/-- Rows in ascending order, until one faults: what they write and what is left; none while a source tile is absent. -/
def gatherRows (o : Op) (whole : Nat → Nat) (count : Nat) :
    Nat → List Nat → List (Nat × Nat × Nat) → State → Option (Wrote × Option Flaw)
  | _, [], tags, _ => some (⟨[], [], tags, none⟩, none)
  | j, idx :: t, tags, s =>
    match gatherOne s o whole count j idx with
    | .absent => none
    | .row us touch f =>
      let te := Fx.each (fun (x : Bool × Nat) => touchFx o x.1 (some x.2)) touch s
      let w := writeUnits (HeldWrite.unit o.order) us tags (s.applyAll te)
      let es := te ++ w.effs
      (match (match f with | some f => some f | none => w.flaw) with
        | some f => some ({ w with effs := es }, some f)
        | none =>
          match gatherRows o whole count (j + 1) t w.tags (s.applyAll es) with
          | none => none
          | some (r, f') => some ({ r with effs := es ++ r.effs, left := w.left ++ r.left }, f'))

def startGather (s : State) (o : Op) : Option EngOut :=
  let c := opCtx s o
  let list := tidOf o.a3
  match firstBad s c o.a3 0 7 false with
  | some f => some (EngOut.failed f)
  | none =>
    match engRead s c anyTag list (offOf o.a3) 8 with
    | .absent _ => none
    | .fault code h => some (EngOut.faulted code h)
    | .bytes hd g0 =>
      let h := bytesToNat hd
      let count : Nat := h % 2 ^ 32
      let te0 := touchFx o false g0 s
      if 2 ^ 32 ≤ h then some ((EngOut.faulted cILLEGAL o.a3).after te0)
      else if count = 0 then some (.plain te0)
      else match firstBad s c o.a3 0 ((8 + 4 * count - 1 : Nat) : Int) false with
        | some f => some ((EngOut.failed f).after te0)
        | none =>
          match engRead s c anyTag list (offOf o.a3 + 8) (4 * count) with
          | .absent _ => none
          | .fault code h => some ((EngOut.faulted code h).after te0)
          | .bytes bs g1 =>
            let idx := (List.range count).map fun i => bytesToNat ((bs.drop (4 * i)).take 4)
            let whole (d : Nat) : Nat :=
              let j := (d - offOf o.a1) / gatherRow o
              tagAt s c (tidOf o.a2) (gatherSrc o (idx.getD j 0) + (d - offOf o.a1) % gatherRow o)
            let te := te0 ++ touchFx o false g1 (s.applyAll te0)
            match gatherRows o whole count 0 idx o.retagged (s.applyAll te) with
            | none => none
            | some (w, f) => some { effs := te ++ w.effs, units := w.left, flags := 0, fault := f, tags := w.tags }

/-! ### Counters (13 R304, 18 R377, R384) -/

/-- What an atomic add to a counter comes to; of one in a REMOTE tensor, the tensor and the counter's offset. -/
inductive CAdd where
  | done (e : List Eff) (old : Word) (touch : Option Nat)
  | fault (code : Byte) (tval : Word)
  | wait
  | far (t : Tensor) (off : Nat)

/-- One atomic add to the aligned 64-bit word at a handle. -/
def counterAdd (s : State) (c : Ctx) (h : Word) (amount : Word) : CAdd :=
  let tid := tidOf h
  let off := offOf h / 8 * 8
  match placeCheck s c tid off 8 true with
  | .error code => .fault code h
  | .ok .win1 =>
    let g := off / 4096
    if g < c.guard || c.w1len / 4096 - c.guard ≤ g then .done [] 0 (some off)
    else
      let a := keyPad c.core (c.w1 * 4096 + off)
      .done [.store a (natToBytes 8 (s.word a + amount).toNat)] (s.word a) none
  | .ok .win2 =>
    let a := keyCluster c.cluster (c.w2 * 4096 + off)
    .done [.store a (natToBytes 8 (s.word a + amount).toNat)] (s.word a) none
  | .ok (.tensor t) =>
    let e := readTile s t (off / t.tbytes)
    if t.remote then (if c.far.isSome then .far t off else .fault cTILE_PROT h)
    else if malformed e.tag then .fault cTAG_MISMATCH h
    else if e.moving || e.absent false then .wait
    else
      let spot : Spot := .tile c.asid tid off
      let old := BitVec.ofNat 64 (bytesToNat (spotRead s spot 8))
      match homeWrite s spot (natToBytes 8 (old + amount).toNat) with
      | .write es => .done es old none
      | _ => .wait

/-- What adds to counters come to: the effects, the first fault, and those that go to another package. -/
structure Added where
  effs : List Eff
  flaw : Option Flaw
  far : List MPiece

/-- Several adds in one address space; none while one waits. `touch` latches the touch of a guard granule (08 R203). -/
def addAll (c : Ctx) (touch : Option Nat → Fx) : List (Word × Nat) → State → Option Added
  | [], _ => some ⟨[], none, []⟩
  | (h, n) :: t, s =>
    match counterAdd s c h (BitVec.ofNat 64 n) with
    | .wait => none
    | .fault code v => (addAll c touch t s).map fun r => { r with flaw := some (code, v, true) }
    | .far tn off => (addAll c touch t s).map fun r => { r with far := addPiece tn off (BitVec.ofNat 64 n) :: r.far }
    | .done e _ g =>
      let es := e ++ touch g (s.applyAll e)
      (addAll c touch t (s.applyAll es)).map fun r => { r with effs := es ++ r.effs }

/-- Nothing to latch: only window 1 has guard granules. -/
def noTouch (_ : Option Nat) : Fx := Fx.none

/-! ### Participants (13 R301) -/

/-- Word 0 of entry `p` of map `m`. -/
def mapEntry (s : State) (m p : Nat) : Word := s.word (keyHbm (field s.pkg.mapbase 0 39 + 65536 * m + 16 * p))
def partValid (e : Word) : Bool := bitOf e 63
def partPkg (e : Word) : Nat := field e 53 10
def partAsid (e : Word) : Nat := field e 41 12

/-- The lowest rank below `n` whose entry is not VALID. -/
def unbound (s : State) (m n : Nat) : Option Nat := (List.range n).find? fun p => !partValid (mapEntry s m p)

/-- A map that does not join the issuer's address space to others gives it no way into them (00 R5, R12): TILE_PROT, with the rank that the
operation names (notes/assumptions/95.md). -/
def joinCheck (s : State) (o : Op) (m : Nat) : Option Flaw :=
  let own (e : Word) : Bool := partValid e && partPkg e == ownPackage s && partAsid e == o.asid
  if (List.range 4096).any fun r => own (mapEntry s m r) then none else some (cTILE_PROT, o.a2, false)

/-- The context in which a participant's handles are resolved. -/
def partCtx (o : Op) (e : Word) : Ctx := { plainCtx (partAsid e) with user := o.user }

/-! ### The Mirror parameter block (13 R300, R302) -/

structure Mpb where
  w : List Word

def Mpb.word (m : Mpb) (i : Nat) : Word := m.w.getD i 0
def Mpb.map (m : Mpb) : Nat := field (m.word 0) 40 8
def Mpb.ty (m : Mpb) : Nat := field (m.word 0) 36 4
def Mpb.rank (m : Mpb) : Nat := field (m.word 0) 34 2 + 1
def Mpb.sax (m : Mpb) : Nat := field (m.word 0) 32 2
def Mpb.tax (m : Mpb) : Nat := field (m.word 0) 30 2
def Mpb.p (m : Mpb) : Nat := field (m.word 0) 0 13
def Mpb.extent (m : Mpb) (k : Nat) : Nat := field (m.word (1 + k / 2)) (k % 2 * 32) 32 + 1
def Mpb.chunk (m : Mpb) : Nat := field (m.word 3) 32 32
def Mpb.slabs (m : Mpb) : Word := m.word 4
def Mpb.ctr (m : Mpb) : Word := m.word 5

def Mpb.ok (m : Mpb) : Bool :=
  field (m.word 0) 48 16 == 0 && field (m.word 0) 13 17 == 0 && field (m.word 3) 0 32 == 0 && m.word 6 == 0 && m.word 7 == 0 &&
  decide (m.ty ≤ 11) && m.sax != m.tax && decide (m.sax < m.rank) && decide (m.tax < m.rank) &&
  decide (1 ≤ m.p ∧ m.p ≤ 4096) && (List.range 4).all (fun k => decide (k < m.rank) || m.extent k == 1) &&
  m.chunk != 0 && m.chunk % 128 == 0 &&
  (if 12 < m.p then m.slabs != 0 && (List.range 24).all (fun i => m.word (8 + i) == 0) else m.slabs == 0) &&
  m.extent m.sax % m.p == 0 && m.extent m.tax % m.p == 0

/-- Extents of a source slab and of a target slab. -/
def Mpb.srcExt (m : Mpb) : List Nat := (List.range 4).map fun k => if k = m.tax then m.extent k / m.p else m.extent k
def Mpb.dstExt (m : Mpb) : List Nat := (List.range 4).map fun k => if k = m.sax then m.extent k / m.p else m.extent k
def Mpb.width (m : Mpb) : Nat := tyWidth m.ty / 8

def product4 (l : List Nat) : Nat := l.foldl (· * ·) 1

/-- Coordinates of an index in row-major order, axis 0 fastest, and back. -/
def coordsOf : List Nat → Nat → List Nat
  | [], _ => []
  | e :: t, i => i % e :: coordsOf t (i / e)
def indexOf : List Nat → List Nat → Nat
  | e :: t, x :: u => x + e * indexOf t u
  | _, _ => 0

/-- Where element `i` of source slab `p` goes: the target participant and its index there. -/
def Mpb.target (m : Mpb) (p i : Nat) : Nat × Nat :=
  let g := (coordsOf m.srcExt i).zipIdx.map fun x => if x.2 = m.tax then x.1 + p * (m.extent m.tax / m.p) else x.1
  let q := m.extent m.sax / m.p
  (g.getD m.sax 0 / q, indexOf m.dstExt (g.zipIdx.map fun x => if x.2 = m.sax then x.1 % q else x.1))

/-- The words of the counter array at `ctr` that bytes of a slab from offset `base` on are counted in, with their numbers (13 R304). -/
def chunkCounts (chunk base : Nat) (ctr : Word) (rs : Runs) : List (Word × Nat) :=
  if ctr = 0 then []
  else
    let cuts := rs.flatMap fun r => (rangeSegments chunk (r.1 - base) r.2.length).map fun p => (p.1 / chunk, p.2)
    ((cuts.map (·.1)).eraseDups).map fun c =>
      (ctr + BitVec.ofNat 64 (8 * c), ((cuts.filter (·.1 == c)).map (·.2)).foldl (· + ·) 0)

/-- What reading a block of words that an operation names comes to, with the guard-granule offset touched. -/
inductive BRead where
  | words (l : List Word) (touch : Option Nat)
  | fault (code : Byte) (tval : Word)
  | absent (ask : Option Ask)

/-- The little-endian words of a run of bytes. -/
def wordsOf (bs : List Byte) : List Word :=
  (List.range ((bs.length + 7) / 8)).map fun i => BitVec.ofNat 64 (bytesToNat ((bs.drop (8 * i)).take 8))

def readBlock (s : State) (c : Ctx) (h : Word) (n : Nat) : BRead :=
  match firstBad s c h 0 ((8 * n : Nat) - 1) false with
  | some (code, x, _) => .fault code x
  | none =>
    match engRead s c anyTag (tidOf h) (offOf h) (8 * n) with
    | .absent a => .absent a
    | .fault code x => .fault code x
    | .bytes bs g => .words (wordsOf bs) g

/-! ### mir.go takes effect (13 R303) -/

/-- The slab handle of participant `q`: 0 its source, 1 its target, from the block or from the slab table behind it. -/
def Mpb.slab (m : Mpb) (q t : Nat) : Word := if m.p ≤ 12 then m.word (8 + 2 * q + t) else m.word (32 + 2 * q + t)

/-- The block and the slab table, as the operation has read them or reads them now: with what it touched, the fault that ends it, or
an absent tile. -/
def mirrorBlock (s : State) (o : Op) : Option (List Eff × Except Flaw Mpb) :=
  if o.table ≠ [] then some ([], .ok ⟨o.table⟩)
  else
    let c := opCtx s o
    match readBlock s c o.a1 32 with
    | .absent _ => none
    | .fault code h => some ([], .error (code, h, false))
    | .words ws g =>
      let m : Mpb := ⟨ws⟩
      let te := touchFx o false g s
      if !m.ok || decide (m.p ≤ o.a2.toNat) then some (te, .error (cILLEGAL, o.a1, false))
      else match unbound s m.map m.p with
        | some r => some (te, .error (cTILE_PROT, BitVec.ofNat 64 r, false))
        | none =>
          match joinCheck s o m.map with
          | some f => some (te, .error f)
          | none =>
          if m.p ≤ 12 then some (te, .ok m)
          else match readBlock s c m.slabs (2 * m.p) with
            | .absent _ => none
            | .fault code h => some (te, .error (code, h, false))
            | .words tb g2 => some (te ++ touchFx o false g2 (s.applyAll te), .ok ⟨ws ++ tb⟩)

def Mpb.srcLen (m : Mpb) : Nat := product4 m.srcExt * m.width
def Mpb.dstLen (m : Mpb) : Nat := product4 m.dstExt * m.width
def Mpb.ctrBytes (m : Mpb) : Nat := 8 * ((m.dstLen + m.chunk - 1) / m.chunk)

/-- What the source bytes of rank `p` write to the target of participant `q`. -/
def Mpb.runsFor (m : Mpb) (p q : Nat) (bytes : List Byte) : Runs :=
  joinRuns ((List.range (product4 m.srcExt)).filterMap fun i =>
    let t := m.target p i
    if t.1 = q then some (offOf (m.slab q 1) + t.2 * m.width, (bytes.drop (i * m.width)).take m.width) else none)

/-- The writes to the target of a participant of this package. -/
def mirrorUnits (s : State) (o : Op) (m : Mpb) (q : Nat) (rs : Runs) : EngWrites :=
  formatUnits s (partCtx o (mapEntry s m.map q)) (tidOf (m.slab q 1)) (m.ty + 1) rs

/-- The pieces for one target: lines of its tiles in this package, each counted as it performs, or one transaction for another
package, which writes and counts them there (13 R304, R305). -/
def mirrorPieces (s : State) (o : Op) (m : Mpb) (q : Nat) (rs : Runs) : List MPiece :=
  let e := mapEntry s m.map q
  let h := m.slab q 1
  let rank := BitVec.ofNat 64 q
  if partPkg e = ownPackage s then
    (mirrorUnits s o m q rs).units.flatMap fun u =>
      let tb := ((readTensor s u.asid u.tid).map (·.tbytes)).getD 0
      (lineUnits u).map fun l =>
        { rank := q, pkg := partPkg e, units := [l], thru := none, tag := none, lost := rank, kind := 1, log := 0, words := []
          ctrs := chunkCounts m.chunk (offOf h) m.ctr (l.runs.map fun r => (u.n * tb + r.1, r.2)) }
  else if rs = [] then []
  else
    [{ rank := q, pkg := partPkg e, units := [⟨partAsid e, tidOf h, m.ty + 1, rs, none, []⟩], thru := none, tag := none, lost := rank
       kind := 1, ctrs := [], log := 1, words := [BitVec.ofNat 64 m.chunk, BitVec.ofNat 64 (offOf h), m.ctr] }]

/-- What mir.go asks of other packages before it sends a byte: the checks of their targets and counters, and the source slab, when it
lies there (13 R301, R303). -/
def mirrorAsks (s : State) (o : Op) (m : Mpb) : List MPiece :=
  let ask (q t len kind : Nat) : List MPiece :=
    let e := mapEntry s m.map q
    let h := m.slab q t
    if partPkg e = ownPackage s then []
    else
      [{ rank := q, pkg := partPkg e, thru := none, tag := none, lost := BitVec.ofNat 64 q, kind := kind, ctrs := [], log := 0
         units := [⟨partAsid e, tidOf h, m.ty + 1, if kind = 7 then m.runsFor o.a2.toNat q (List.replicate m.srcLen 0) else [(offOf h, List.replicate len 0)], none, []⟩]
         words := if kind = 7 then [m.ctr, BitVec.ofNat 64 m.ctrBytes, h, BitVec.ofNat 64 len] else [] }]
  ask o.a2.toNat 0 m.srcLen 8 ++ (List.range m.p).flatMap fun q => ask q 1 m.dstLen 7

/-- The checks of counters: their range, and tags that an add takes (08 R192). -/
def ctrCheck (s : State) (c : Ctx) (ctr : Word) (len : Nat) : Option Flaw :=
  if ctr = 0 ∨ len = 0 then none
  else firstFail [firstBad s c ctr 0 ((len : Int) - 1) true,
    (tagScan s c anyTag (tidOf ctr) [(offOf ctr, len)]).map fun f => (f.1, f.2.1, true)]

/-- The checks that are made here, in order: ids, ranges, counters, the source's tags, the targets' tags. -/
def mirrorChecks (s : State) (o : Op) (m : Mpb) : Option Flaw :=
  let p := o.a2.toNat
  let ent (q : Nat) : Word := mapEntry s m.map q
  let own (q : Nat) : Bool := partPkg (ent q) == ownPackage s
  let low (h : Word) (write : Bool) : Option Flaw := if tidOf h < 16 then some (cTILE_PROT, h, write) else none
  let src := m.slab p 0
  let sc := partCtx o (ent p)
  let ranges := firstFail ([low src false, if own p then firstBad s sc src 0 ((m.srcLen : Int) - 1) false else none] ++
    (List.range m.p).flatMap fun q =>
      let h := m.slab q 1
      [low h true, if own q then firstBad s (partCtx o (ent q)) h 0 ((m.dstLen : Int) - 1) true else none,
        if own q then ctrCheck s (partCtx o (ent q)) m.ctr m.ctrBytes else none])
  match ranges with
  | some f => some f
  | none =>
    match (if own p then tagScan s sc (tagIn (m.ty + 1)) (tidOf src) [(offOf src, m.srcLen)] else none) with
    | some f => some f
    | none => (List.range m.p).findSome? fun q =>
        if own q then (mirrorUnits s o m q (m.runsFor p q (List.replicate m.srcLen 0))).flaw (tidOf (m.slab q 1)) else none

/-- mir.go takes effect. It asks other packages first, once; with their answers it sends. None while a tile is absent. -/
def startMirror (s : State) (o : Op) : Option EngOut :=
  match mirrorBlock s o with
  | none => none
  | some (te, .error f) => some ((EngOut.failed f).after te)
  | some (te, .ok m) =>
    match mirrorChecks s o m with
    | some f => some ((EngOut.failed f).after te)
    | none =>
      let asks := if o.table = [] then mirrorAsks s o m else []
      if asks ≠ [] then some { EngOut.plain te with pieces := asks, table := m.w, asking := true }
      else
        let p := o.a2.toNat
        let src := m.slab p 0
        let e := mapEntry s m.map p
        let data : ERead := if partPkg e = ownPackage s then
            engRead s { partCtx o e with seen := o.seen } (tagIn (m.ty + 1)) (tidOf src) (offOf src) m.srcLen
          else .bytes o.data none
        match data with
        | .absent _ => none
        | .fault code h => some ((EngOut.faulted code h).after te)
        | .bytes bs _ =>
          some { EngOut.plain te with pieces := (List.range m.p).flatMap fun q => mirrorPieces s o m q (m.runsFor p q bs) }

/-! ### Pieces -/

/-- What a piece of this package comes to: it performs and is counted; it waits, for a unit of it or for a counter; or it is refused. -/
inductive PieceRes where
  | did (e : List Eff) (tags : List (Nat × Nat × Nat)) (flaw : Option Flaw) (far : List MPiece)
  | wait (u : Option WUnit)
  | refused (f : Flaw)

/-- The context of a piece's counters: of drn.go the issuer's own, of the others the participant's. -/
def pieceCtx (s : State) (o : Op) (p : MPiece) : Ctx :=
  if o.sequential then opCtx s o else { plainCtx ((p.units.head?.map (·.asid)).getD 0) with user := o.user }

/-- The counters that a piece is counted in now: of drn.go, once all of its tile has performed (18 R386). -/
def MPiece.due (p : MPiece) (o : Op) : List (Word × Nat) :=
  if o.sequential && (o.pieces.erase p).any (fun q => q.rank == p.rank) then [] else p.ctrs

/-- A piece of this package performs at its home, whole, and is counted (13 R304, 18 R377, R386). -/
def performPiece (s : State) (o : Op) (p : MPiece) : PieceRes :=
  match writeTogether p.units o.retagged s with
  | .error (u, true) => .refused (u.flaw s)
  | .error (u, false) => .wait (some u)
  | .ok (e, tags) =>
    match addAll (pieceCtx s o p) (touchFx o true) (p.due o) (s.applyAll e) with
    | none => .wait none
    | some r => .did (e ++ r.effs) tags r.flaw r.far

/-- What is left of the pieces once one is refused: a tile of drn.go of which not all is written is not counted (18 R386). -/
def Op.afterRefusal (o : Op) (p : MPiece) : List MPiece :=
  (o.pieces.erase p).map fun q => if o.sequential && q.rank == p.rank then { q with ctrs := [] } else q

/-- It is the turn of a piece: those of drn.go go tile by tile, in ascending order (18 R386). -/
def Op.turnOf (o : Op) (p : MPiece) : Bool :=
  !o.sequential || ((o.pieces.head?.map (·.rank)) == some p.rank && o.pieces.all (fun q => q == p || q.tag.isNone || q.rank != p.rank))

/-- A piece of operation `n` goes on: it performs, or leaves for another package, or joins the writes that a home holds. -/
def pieceStep (n : Nat) (o : Op) (p : MPiece) : Fx := fun s =>
  if !o.turnOf p || p.tag.isSome then []
  else if !p.here s then
    let x := sendPiece o.user p s
    x.1 ++ [.op n (some { o with pieces := o.pieces.map fun q => if q == p then x.2 else q })]
  else match performPiece s o p with
    | .did e tags flaw far =>
      let sent := sendPieces o.user (far.map fun q => { q with rank := p.rank }) (s.applyAll e)
      e ++ sent.1 ++ [.op n (some (({ o.less o.units (sent.2 ++ o.pieces.erase p) with retagged := tags } : Op).blame flaw))]
    | .refused f => [.op n (some ((o.less o.units (o.afterRefusal p)).blame (some f)))]
    | .wait (some u) => holdUnit (.piece n p) u s
    | .wait none => []

/-- The failure of a piece in another package as its operation reports it (13 R282, 18 R369): through the handle of a REMOTE tensor, with
that handle's tensor. -/
def MPiece.fails (p : MPiece) (code : Byte) (h : Word) : Flaw :=
  (code, if code = cLINK_LOST then p.lost else match p.thru with | some tid => handleOf tid (offOf h) | none => h,
    p.kind != 8 && p.kind != 12)

/-- A piece in another package is over, with a fault if it failed, and with what it has returned. An operation that asked goes on with its
last answer. drn.go counts a tile that has performed, and goes on to the next but after a failure that is not its tag's. -/
def Op.pieceOver (o : Op) (p : MPiece) (fault : Option (Byte × Word)) (words : List Word) (data : List Byte) : Op :=
  let rest := o.pieces.erase p
  let rest :=
    if !o.sequential || p.kind != 1 then rest
    else match fault with
      | none => if p.ctrs = [] then rest else { p with units := [], thru := none, tag := none } :: rest
      | some (code, _) => if code = cTAG_MISMATCH then rest else []
  let read : List FarBytes :=
    if p.kind = 12 && fault.isNone then
      [{ tid := p.thru.getD 0, off := ((p.units.headD ⟨0, 0, 0, [], none, []⟩).runs.headD (0, [])).1, tbytes := (words.headD 0).toNat
         tags := (words.drop 1).map (·.toNat), data := data }]
    else []
  let o1 : Op := { (o.less o.units rest).blame (fault.map fun x => p.fails x.1 x.2) with
    far := if o.fault.isNone ∧ fault.isSome then p.pkg else o.far
    data := if p.kind = 12 then o.data else o.data ++ data, cache := o.cache ++ read }
  if (o.state = .asking ∨ o.state = .armed) ∧ o1.fault.isSome ∧ rest = [] then { o1 with state := .ready }
  else if o.state = .asking ∧ rest = [] then { o1 with state := .issued }
  else o1

/-- MIRROR_CHUNK_ARRIVE: piece `j` of operation `o` performs at its home (13 R304, R305), or is held there while its tile is MOVING (14
R329); or the other package says that it has. -/
def execMirrorChunkArrive (o j : Nat) (s : State) : Host.Outcome State Fault Refusal :=
  answer s fun s =>
    match s.op o with
    | none => []
    | some r =>
      match r.pieces[j]? with
      | none => []
      | some p => if p.tag.isSome then [.op o (some (r.pieceOver p none [] []))] else pieceStep o r p s

/-! ### The instructions -/

def cpyCheck (t : State) (o : Op) : Option Flaw :=
  if 2 ^ 40 < o.a3.toNat then some (cILLEGAL, t.word32, false)
  else if o.a3 = 0 then none
  else firstFail [rangeCheck t (opCtx t o) o.a2 0 ((o.a3.toNat : Int) - 1) false,
    rangeCheck t (opCtx t o) o.a1 0 ((o.a3.toNat : Int) - 1) true]

def cvtCheck (t : State) (o : Op) : Option Flaw :=
  let ts := cvtS o
  let td := cvtD o
  let n := cvtCount o
  let ints := decide (ts ≤ 7) && decide (td ≤ 7)
  let sn := typeBytes ts n
  let dn := typeBytes td n
  if field o.a3 40 24 ≠ 0 ∨ 5 ≤ cvtRm o ∨ (ints ∧ cvtRm o ≠ 0) ∨ (bitOf o.a3 39 ∧ ¬ ints) ∨ ts = 15 ∨ td = 15 ∨
      ((12 ≤ ts ∨ 12 ≤ td) ∧ n % 32 ≠ 0) ∨
      (n ≠ 0 ∧ tidOf o.a1 = tidOf o.a2 ∧ offOf o.a1 < offOf o.a2 + sn ∧ offOf o.a2 < offOf o.a1 + dn) then
    some (cILLEGAL, t.word32, false)
  else if n = 0 then none
  else firstFail [rangeCheck t (opCtx t o) o.a2 0 ((sn : Int) - 1) false, rangeCheck t (opCtx t o) o.a1 0 ((dn : Int) - 1) true]

def mirrorCheck (t : State) (o : Op) : Option Flaw :=
  if field o.a2 13 51 ≠ 0 then some (cILLEGAL, t.word32, false) else none

def execCpy (f : FE) (s : State) : Host.Outcome State Fault Refusal := engineIssue 0x0DB false f cpyCheck (fun _ o => o) s

def execCpyCvt (f : FE) (s : State) : Host.Outcome State Fault Refusal := engineIssue 0x0DC false f cvtCheck (fun _ o => o) s

def execCpyG (f : FE) (s : State) : Host.Outcome State Fault Refusal := engineIssue 0x0DD false f (fun _ _ => none) (fun _ o => o) s

def execMirGo (f : FE) (s : State) : Host.Outcome State Fault Refusal := engineIssue 0x0DE true f mirrorCheck (fun _ o => o) s

end Sys2Proof.Machine
end

