-- ==== Sys2Proof/Machine/Collective.lean ====
section
/-!
DEFINITION. Collectives, armed chains, counters and checkpoints (18 R370 to R387, 08 R197), and the steps in which any engine
operation takes effect and completes (12 R257, 10 R242).
-/
namespace Sys2Proof.Machine

/-! ### The collective block (18 R370) -/

structure Cb where
  w : List Word

def Cb.word (c : Cb) (i : Nat) : Word := c.w.getD i 0
def Cb.red (c : Cb) : Nat := field (c.word 0) 62 2
def Cb.arrival (c : Cb) : Bool := bitOf (c.word 0) 61
def Cb.comp (c : Cb) : Nat := field (c.word 0) 59 2
def Cb.one (c : Cb) : Bool := bitOf (c.word 0) 58
def Cb.map (c : Cb) : Nat := field (c.word 0) 48 8
def Cb.ty (c : Cb) : Nat := field (c.word 0) 44 4
def Cb.innet (c : Cb) : Bool := bitOf (c.word 0) 43
def Cb.group (c : Cb) : Nat := field (c.word 0) 32 10
def Cb.p (c : Cb) : Nat := field (c.word 0) 0 13
def Cb.count (c : Cb) : Nat := field (c.word 1) 0 40
def Cb.src (c : Cb) : Word := c.word 2
def Cb.dst (c : Cb) : Word := c.word 3
def Cb.ctr (c : Cb) : Word := c.word 4
def Cb.resid (c : Cb) : Word := c.word 5
def Cb.root (c : Cb) : Nat := field (c.word 6) 32 12
def Cb.seq (c : Cb) : Nat := field (c.word 6) 0 32
def Cb.lroot (c : Cb) : Nat := field (c.word 7) 0 6
def Cb.width (c : Cb) : Nat := tyWidth c.ty / 8
def Cb.bytes (c : Cb) : Nat := c.count * c.width

def Cb.ok (c : Cb) : Bool :=
  field (c.word 0) 56 2 == 0 && field (c.word 0) 42 1 == 0 && field (c.word 0) 13 19 == 0 && field (c.word 1) 40 24 == 0 &&
  field (c.word 6) 44 20 == 0 && field (c.word 7) 6 58 == 0 && decide (c.red ≤ 2) && decide (c.comp ≤ 2) && decide (c.ty ≤ 11) &&
  decide (1 ≤ c.p ∧ c.p ≤ 4096) && decide (c.lroot ≤ 40) && offOf c.dst % 256 == 0 &&
  (c.comp == 0 || (c.ty == 10 && c.red == 0 && c.count % 32 == 0 && c.resid != 0)) && (!c.one || decide (c.root < c.p))

/-- The fields in which contributions must agree (18 R371). -/
def Cb.agreed (c : Cb) : List Nat :=
  [c.red, if c.arrival then 1 else 0, c.comp, if c.one then 1 else 0, c.ty, c.p, c.count, c.root, c.lroot]

/-- The rank receives the result. -/
def Cb.destination (c : Cb) (rank : Nat) : Bool := !c.one || c.root == rank

/-- The checks that col.wr and col.red share: the block, the rank, the map (18 R370, R381, R382; 00 R5). -/
def cbCheck (s : State) (o : Op) (cb : Cb) (wr : Bool) : Option Flaw :=
  let rank := field o.a2 0 12
  if !cb.ok || decide (cb.p ≤ rank) || (wr && (cb.red != 0 || cb.arrival || cb.comp != 0)) then some (cILLEGAL, o.a1, false)
  else match unbound s cb.map cb.p with
    | some r => some (cTILE_PROT, BitVec.ofNat 64 r, false)
    | none => joinCheck s o cb.map

/-! ### col.wr (18 R381) -/

/-- The destination's checks: its range, and its counter's. -/
def dstChecks (s : State) (c : Ctx) (dst : Word) (n : Nat) (ctr : Word) : Option Flaw :=
  firstFail [if n = 0 then none else firstBad s c dst 0 ((n : Int) - 1) true, ctrCheck s c ctr 8]

/-- A collective's write of `bs` at `dst` of participant `rank` in another package, after which its counter gains 1 (18 R377). -/
def farWrite (e : Word) (rank ty : Nat) (dst : Word) (bs : List Byte) (ctr : Word) : MPiece :=
  { rank := rank, pkg := partPkg e, units := [⟨partAsid e, tidOf dst, ty + 1, if bs = [] then [] else [(offOf dst, bs)], none, []⟩]
    thru := none, tag := none, kind := 1, log := 3, words := [], ctrs := if ctr = 0 then [] else [(ctr, 1)], lost := BitVec.ofNat 64 rank }

/-- Writes by tile cut into the chunks of a collective's destination, of 256 B each, which may span two tiles; of these all that have
every byte of the `n` from offset `lo` on, for no agent sees a chunk in part (18 R377; notes/assumptions/96.md). -/
def chunkUnits (s : State) (lo n : Nat) (us : List WUnit) : List (List WUnit) :=
  let parts : List (Nat × WUnit) := us.flatMap fun u =>
    let base := u.n * ((readTensor s u.asid u.tid).map (·.tbytes)).getD 0
    u.runs.flatMap fun r => (rangeSegments 256 (base + r.1) r.2.length).map fun p =>
      (p.1 / 256, { u with runs := [(p.1 - base, (r.2.drop (p.1 - base - r.1)).take p.2)] })
  let size (us : List WUnit) : Nat := (us.flatMap (·.runs)).foldl (fun k r => k + r.2.length) 0
  (((parts.map (·.1)).eraseDups).filterMap fun c =>
    let g := (parts.filter (·.1 == c)).map (·.2)
    if size g = min (256 * c + 256) (lo + n) - max (256 * c) lo then some g else none)

/-- The writes of a collective's elements at `dst` of participant `rank` in this package, chunk by chunk, with the fault of a tile that
refuses them. -/
def dstPieces (s : State) (c : Ctx) (rank ty : Nat) (dst : Word) (bs : List Byte) : List MPiece × Option Flaw :=
  let u := formatUnits s c (tidOf dst) (ty + 1) [(offOf dst, bs)]
  ((chunkUnits s (offOf dst) bs.length u.units).map fun g =>
      { rank := rank, pkg := ownPackage s, units := g, thru := none, ctrs := [], tag := none, lost := BitVec.ofNat 64 rank, kind := 1, log := 0
        words := [] },
    u.flaw (tidOf dst))

/-- The counter of a collective's destination, to which 1 is added at the end, unless the writes fault. -/
def dstAdds (e ctr : Word) (bad : Option Flaw) : List (Option Nat × Word × Nat) :=
  if ctr = 0 ∨ bad.isSome then [] else [(some (partAsid e), ctr, 1)]

def startColWr (s : State) (o : Op) : Option EngOut :=
  let c := opCtx s o
  match readBlock s c o.a1 8 with
  | .absent a => waitOrAsk o a
  | .fault code h => some (EngOut.faulted code h)
  | .words ws g =>
    let cb : Cb := ⟨ws⟩
    let rank := field o.a2 0 12
    let te := touchFx o false g s
    match cbCheck s o cb true with
    | some f => some ((EngOut.failed f).after te)
    | none =>
      let e := mapEntry s cb.map rank
      let own := partPkg e == ownPackage s
      let dst := cb.dst + o.a3
      let dc := partCtx o e
      let n := cb.bytes
      let checks := firstFail [if n = 0 then none else firstBad s c cb.src 0 ((n : Int) - 1) false,
        if n = 0 then none else tagScan s c (tagIn (cb.ty + 1)) (tidOf cb.src) [(offOf cb.src, n)],
        if own then dstChecks s dc dst n cb.ctr else none]
      match checks with
      | some f => some ((EngOut.failed f).after te)
      | none =>
        match engRead s c (tagIn (cb.ty + 1)) (tidOf cb.src) (offOf cb.src) n with
        | .absent a => waitOrAsk o a
        | .fault code h => some ((EngOut.faulted code h).after te)
        | .bytes bs g2 =>
          let te := te ++ touchFx o false g2 (s.applyAll te)
          if own then
            let u := dstPieces s dc rank cb.ty dst bs
            some { EngOut.plain te with pieces := u.1, fault := u.2, adds := dstAdds e cb.ctr u.2 }
          else some { EngOut.plain te with pieces := [farWrite e rank cb.ty dst bs cb.ctr] }

/-! ### Combining (18 R372 to R374) -/

/-- One element operation. -/
def redOp (red ty : Nat) (a b : Nat) : Val :=
  let w := tyWidth ty
  if ty ≤ 7 then
    let x := intVal w (ty ≤ 3) a
    let y := intVal w (ty ≤ 3) b
    match red with
    | 0 => (wrapInt w (x + y), 0)
    | 1 => (if y < x then b else a, 0)
    | _ => (if x < y then b else a, 0)
  else match red with
    | 0 => fadd (fmtOf ty) 0 a b
    | 1 => fminmax (fmtOf ty) false a b
    | _ => fminmax (fmtOf ty) true a b

/-- The elements of a contribution. -/
def Contrib.elems (x : Contrib) (w : Nat) : List Nat :=
  (List.range (x.data.length / w)).map fun i => bytesToNat ((x.data.drop (i * w)).take w)

/-- Elementwise combination. -/
def combine (op : Nat → Nat → Val) (a b : List Nat × Fl) : List Nat × Fl :=
  let l := List.zipWith op a.1 b.1
  (l.map (·.1), joinFlags (l.map (·.2)) ||| a.2 ||| b.2)

/-- Node(ℓ, j) of the index-keyed tree, given the contributions inside its block (18 R373). -/
def collNode (op : Nat → Nat → Val) (w : Nat) : Nat → List Contrib → Option (List Nat × Fl)
  | 0, l => l.head?.map fun x => (x.elems w, 0)
  | n + 1, l =>
    if l = [] then none
    else match l.find? (·.llog2 == n + 1) with
      | some x => some (x.elems w, 0)
      | none =>
        match collNode op w n (l.filter fun x => x.lfirst / 2 ^ n % 2 == 0),
            collNode op w n (l.filter fun x => x.lfirst / 2 ^ n % 2 == 1) with
        | some a, some b => some (combine op a b)
        | some a, none => some a
        | none, b => b

/-- One element in arrival mode: a binary tree that nothing fixes (18 R374). -/
def arrivalTree (op : Nat → Nat → Val) (number i : Nat) : Nat → List Nat → Fl → Val
  | 0, l, fl => (l.headD 0, fl)
  | k + 1, l, fl =>
    if l.length < 2 then (l.headD 0, fl)
    else
      let p := Config.arrivalPick number i (2 * k) % l.length
      let rest := l.eraseIdx p
      let q := Config.arrivalPick number i (2 * k + 1) % rest.length
      let r := op (l.getD p 0) (rest.getD q 0)
      arrivalTree op number i k (r.1 :: rest.eraseIdx q) (fl ||| r.2)

/-- An element as it is delivered: a NaN that no operation met is made canonical here (02 R44; notes/assumptions/72.md). -/
def settleElem (ty : Nat) (r : Val) : Val := if 8 ≤ ty then settleNan (fmtOf ty) r else r

/-- One tree over contributions, element by element (18 R374). -/
def arrivalAll (op : Nat → Nat → Val) (number w count : Nat) (l : List Contrib) : List Nat × Fl :=
  let cols := l.map fun x => x.elems w
  let es := (List.range count).map fun i => arrivalTree op number i l.length (cols.map fun l => l.getD i 0) 0
  (es.map (·.1), joinFlags (es.map (·.2)))

/-- The result of a collective whose contributions are all in. -/
def collResult (c : Coll) : List Byte × Fl :=
  match c.contribs with
  | [] => ([], 0)
  | x :: _ =>
    let cb : Cb := ⟨x.words⟩
    let w := cb.width
    let op := redOp cb.red cb.ty
    let r : List Nat × Fl :=
      if cb.arrival then arrivalAll op c.number w cb.count c.contribs else (collNode op w cb.lroot c.contribs).getD ([], 0)
    let out := r.1.map fun x => settleElem cb.ty (x, 0)
    (out.flatMap fun x => natToBytes w x.1, r.2 ||| joinFlags (out.map (·.2)) ||| joinFlags (c.contribs.map (·.flags)))

/-- Contributions combined into one. -/
def joinContribs (x y : Contrib) (lfirst llog2 : Nat) (r : List Nat × Fl) : Contrib :=
  { x with
    rank := min x.rank y.rank, ranks := x.ranks ++ y.ranks, flags := x.flags ||| y.flags ||| r.2, op := none, lfirst := lfirst
    llog2 := llog2, data := r.1.flatMap (natToBytes (Cb.width ⟨x.words⟩)) }

/-- Two blocks are siblings of the tree of 18 R373, the first on the left. -/
def siblings (a b : Contrib) : Bool :=
  a.llog2 == b.llog2 && a.lfirst % 2 ^ (a.llog2 + 1) == 0 && b.lfirst == a.lfirst + 2 ^ a.llog2

/-- Sibling inputs of a slot are combined, as long as there are some (18 R376). -/
def joinSiblings : Nat → List Contrib → List Contrib
  | 0, l => l
  | n + 1, l =>
    match l.findSome? fun a => (l.find? (siblings a)).map fun b => (a, b) with
    | none => l
    | some (a, b) =>
      let cb : Cb := ⟨a.words⟩
      let r := combine (redOp cb.red cb.ty) (a.elems cb.width, 0) (b.elems cb.width, 0)
      joinSiblings n (joinContribs a b a.lfirst (a.llog2 + 1) r :: (l.filter fun x => x != a && x != b))

/-- What a slot sends upward of its inputs: in ordered mode siblings combined and the others unchanged, in arrival mode one combination of
all (18 R374, R376). -/
def slotInputs (c : Coll) : List Contrib :=
  match c.contribs with
  | [] => []
  | x :: t =>
    let cb : Cb := ⟨x.words⟩
    if !cb.arrival then joinSiblings c.contribs.length c.contribs
    else
      let r := arrivalAll (redOp cb.red cb.ty) c.number cb.width cb.count c.contribs
      [{ t.foldl (fun a y => joinContribs a y 0 0 ([], 0)) x with
        op := none, flags := joinFlags (c.contribs.map (·.flags)) ||| r.2, data := r.1.flatMap (natToBytes cb.width) }]

/-! ### Contributions (18 R371, R373, R375 to R378) -/

def State.coll (s : State) (n : Nat) : Option Coll := FMap.get none s.colls n

/-- The number of a collective among the collectives: its map and SEQ. -/
def collKey (m seq : Nat) : Nat := m * 2 ^ 32 + seq

/-- A collective to which nothing has been contributed here. -/
def blankColl (key parts : Nat) (s : State) : Coll :=
  { map := key / 2 ^ 32, seq := key % 2 ^ 32, parts := parts, contribs := [], slot := none, emitted := false, result := none
    aborted := none, told := [], sent := [], number := s.nextId }

/-- The record of a collective that is over here. It stays, so that an abort that comes late is known for what it is. -/
def Coll.over (c : Coll) : Bool := c.contribs == [] && c.aborted.isNone

/-- The collective in progress with this number. -/
def State.collNow (s : State) (key : Nat) : Option Coll := (s.coll key).filter fun c => !c.over

def treeValid (w : Word) : Bool := bitOf w 63 && decide (field w 58 5 ≤ 16)

/-- The reduction slot that a collective uses (18 R376). -/
def wantedSlot (s : State) (cb : Cb) : Option Nat :=
  if cb.innet && treeValid (FMap.get 0 s.trees cb.group) then some (4 * cb.group + cb.seq % 4) else none

/-- Ranks of this package. -/
def localRanks (s : State) (m p : Nat) : List Nat := (List.range p).filter fun r => partPkg (mapEntry s m r) == ownPackage s

/-- The other packages that take part. -/
def otherPackages (s : State) (m p : Nat) : List Nat :=
  (((List.range p).map fun r => partPkg (mapEntry s m r)).filter (· != ownPackage s)).eraseDups

/-- A slot is freed; a collective that waits for it takes it. -/
def freeSlot (n key : Nat) : Fx := fun s =>
  if FMap.get none s.slots n = some key then
    [.slot n ((s.colls.find? fun e => match e.2 with
      | some c => e.1 != key && c.slot == some n && c.aborted.isNone
      | none => false).map (·.1))]
  else []

/-- Every rank's contribution is here. -/
def Coll.full (c : Coll) : Bool := decide (c.parts ≤ (c.contribs.map (·.ranks.length)).foldl (· + ·) 0)

/-- Nothing here waits for the collective any more: every operation that contributed has completed, every rank of this package has either
completed or contributed from elsewhere, and no contribution is still to come, as all of them do where the endpoints combine. -/
def collOver (s : State) (c : Coll) : Bool :=
  (c.contribs.all fun x => x.op.isNone || c.told.contains x.rank) &&
  ((localRanks s c.map c.parts).all fun r => c.told.contains r || c.contribs.any fun x => x.ranks.contains r && x.op.isNone) &&
  (c.slot.isSome || c.aborted.isSome || c.full)

/-- The collective is over here once nothing waits for it. -/
def forgetColl (key : Nat) : Fx := fun s =>
  match s.coll key with
  | none => []
  | some c =>
    if !c.over && collOver s c then
      .coll key (some (blankColl key c.parts s)) :: (match c.slot with | some n => freeSlot n key s | none => [])
    else []

/-- The operation of a rank of this package has completed. -/
def collTold (key rank : Nat) : Fx :=
  Fx.andThen (fun s => match s.coll key with
    | some c => if c.over then [] else [.coll key (some { c with told := c.told ++ [rank] })]
    | none => []) (forgetColl key)

/-- Transactions of a collective to a list of packages; the collective keeps their tags, with the lowest rank there. -/
def sendTo (key : Nat) (pkgs : List Nat) (mk : Txn → Txn) (kind : Nat) : Fx :=
  Fx.each (fun p => fun s =>
    let t := mk (blankTxn s p kind)
    [.send t, .fresh] ++ (match s.coll key with
      | some c =>
        let rank := ((List.range c.parts).find? fun r => partPkg (mapEntry s c.map r) == p).getD 0
        [.coll key (some { c with sent := c.sent ++ [(t.tag, rank)] })]
      | none => [])) pkgs

/-- An operation of an aborted collective: it faults and writes no more of its destination, but RESID is written (18 R375, R378). -/
def Op.aborted (o : Op) (v : Word) : Op :=
  let us := if o.state = .contributed then o.units else []
  let ps := if o.state = .contributed then o.pieces else []
  { o with
    units := us, pieces := ps, adds := [], fault := some (cCOLL_ABORT, v, false), state := if us = [] ∧ ps = [] then .ready else .writing }

/-- The operation faults again with a lower rank. -/
def Op.lowered (o : Op) (v : Word) : Op := { o with fault := some (cCOLL_ABORT, v, false) }

/-- The operations of this package in a collective that have not completed. -/
def Coll.mine (s : State) (c : Coll) : List (Nat × Op) :=
  c.contribs.filterMap fun x => x.op.bind fun n => (s.op n).map fun o => (n, o)

/-- The rank that failed, rather than a value that names none. -/
def isRank (v : Word) : Bool := decide (v.toNat < 4096)

/-- COLL_ABORT (18 R378): every operation of this package that has not completed faults with the value; the other packages are told if
`tell`. Of several ranks that fail, the lowest is the value. -/
def abortColl (key : Nat) (v : Word) (tell : Bool) : Fx := fun s =>
  match s.coll key with
  | none => []
  | some c =>
    let told : Fx := if tell then sendTo key (otherPackages s c.map c.parts) (fun t => { t with
        map := c.map, seq := c.seq, first := v.toNat, log := c.parts }) 4 else Fx.none
    match c.aborted with
    | some w =>
      if isRank v && isRank w && v.ult w then
        ((Fx.andThen (fun _ => (c.mine s).map fun x => .op x.1 (some (x.2.lowered v))) fun _ =>
          [.coll key (some { c with aborted := some v })]).andThen told) s
      else []
    | none =>
      if c.over then []
      else
        (((Fx.andThen (fun _ => (c.mine s).map fun x => .op x.1 (some (x.2.aborted v)))
          (fun s => .coll key (some { c with aborted := some v }) ::
            (match c.slot with | some n => freeSlot n key s | none => []))).andThen told).andThen (forgetColl key)) s

/-- Blocks that overlap (18 R373). -/
def overlaps (a b : Contrib) : Bool :=
  decide (a.lfirst < b.lfirst + 2 ^ b.llog2) && decide (b.lfirst < a.lfirst + 2 ^ a.llog2)

/-- A result as a transaction. -/
def resultTxn (c : Coll) (r : List Byte × BitVec 5) (t : Txn) : Txn :=
  { t with map := c.map, seq := c.seq, first := r.2.toNat, data := r.1 }

/-- The package that combines in arrival mode without a tree, so that every destination receives the same bits (19 R391). -/
def combiner (s : State) (c : Coll) : Nat := partPkg (mapEntry s c.map 0)

/-- With every contribution in, the combiner makes the one result and sends it to the other packages. -/
def combineOnce (key : Nat) : Fx := fun s =>
  match s.coll key with
  | none => []
  | some c =>
    let others := otherPackages s c.map c.parts
    if (c.contribs.any fun x => Cb.arrival ⟨x.words⟩) && combiner s c == ownPackage s && others != [] then
      let r := collResult c
      Fx.andThen (fun _ => [.coll key (some { c with emitted := true, result := some r })]) (sendTo key others (resultTxn c r) 3) s
    else []

/-- A contribution of a rank comes a second time before the first has completed everywhere (18 R371): it has contributed, or its
operation was issued before the collective was over here. -/
def secondTime (s : State) (c : Coll) (x : Contrib) (key : Nat) : Bool :=
  (c.contribs.any fun y => y.ranks.any x.ranks.contains) ||
  (match s.coll key, x.op.bind s.op with
    | some d, some o => d.over && decide (o.order < d.number)
    | _, _ => false)

/-- A contribution joins its collective; a disagreement or an overlap aborts it (18 R371, R373, R378). -/
def contribute (x : Contrib) : Fx := fun s =>
  let cb : Cb := ⟨x.words⟩
  let key := collKey cb.map cb.seq
  let c : Coll := (s.collNow key).getD { blankColl key cb.p s with slot := wantedSlot s cb }
  match c.aborted with
  | some v =>
    .coll key (some { c with contribs := c.contribs ++ [x] }) ::
      (match x.op.bind fun n => (s.op n).map fun o => (n, o) with
        | some (n, o) => [.op n (some (o.aborted v))]
        | none => [])
  | none =>
    let bad : Option Word :=
      if secondTime s c x key || c.contribs.any fun y => Cb.agreed ⟨y.words⟩ != cb.agreed then some 0xFFFFFFFD
      else if !cb.arrival && c.contribs.any (overlaps x) then some 0xFFFFFFFE
      else none
    let joined : Fx := fun s => [.coll key (some { c with contribs := c.contribs ++ [x] }), .fresh] ++
      (match c.slot with | some n => if FMap.get none s.slots n = none then [.slot n (some key)] else [] | none => [])
    (joined.andThen (match bad with
      | some v => abortColl key v true
      | none => if c.slot.isNone && ({ c with contribs := c.contribs ++ [x] } : Coll).full then (combineOnce key).andThen (forgetColl key)
                else Fx.none)) s

/-- A contribution as a transaction. -/
def contribTxn (x : Contrib) (t : Txn) : Txn :=
  let cb : Cb := ⟨x.words⟩
  { t with map := cb.map, seq := cb.seq, rank := x.rank, first := x.lfirst, log := x.llog2, data := x.data
           words := x.words ++ (BitVec.ofNat 64 x.flags.toNat :: x.ranks.map (BitVec.ofNat 64)) }

/-- The contribution that a transaction carries. -/
def txnContrib (t : Txn) (p : Nat) : Contrib :=
  let ranks := (t.words.drop 9).map (·.toNat)
  { rank := t.rank, ranks := if ranks = [] then [t.rank] else ranks, flags := BitVec.ofNat 5 ((t.words.getD 8 0).toNat), op := none
    port := some p, lfirst := t.first, llog2 := t.log, words := t.words.take 8, data := t.data }

/-- A contribution that comes after its slot has emitted goes up unchanged (18 R376). -/
def passUp (key : Nat) (x : Contrib) : Fx := fun s =>
  let up := field (FMap.get 0 s.trees (Cb.group ⟨x.words⟩)) 58 5
  match s.coll key with
  | some c => if c.slot.isSome && c.emitted && up < 16 && c.aborted.isNone then sendTo key [(s.port up).peerPkg.toNat] (contribTxn x) 2 s else []
  | none => []

/-- The contribution of a rank of this package goes to the endpoints of the others, or to its slot. -/
def sendContrib (x : Contrib) : Fx := fun s =>
  let cb : Cb := ⟨x.words⟩
  let key := collKey cb.map cb.seq
  match s.coll key with
  | some c =>
    if c.aborted.isSome then []
    else if c.slot.isSome then passUp key x s
    else sendTo key (otherPackages s cb.map cb.p) (contribTxn x) 2 s
  | none => []

/-- The elements sent, what RESID becomes, and the flags of forming the packets (18 R375). -/
def formPackets (comp : Nat) (xs rs : List Nat) : List Nat × List Nat × Fl :=
  let ty := if comp = 1 then 14 else 12
  let ys := List.zipWith (fun x r => fadd f32 0 x r) xs rs
  let out := (List.range (ys.length / 32)).map fun b =>
    let blk := (ys.drop (32 * b)).take 32
    let pkt := toMx ty 0 (blk.map fun y => f32.value y.1)
    let vals := (List.range 32).map fun i => convertFrom 10 0 (mxValue ty pkt.1 i)
    let res := List.zipWith (fun y v => fsub f32 0 y.1 v.1) blk vals
    (vals.map (·.1), res.map (·.1), pkt.2 ||| joinFlags (vals.map (·.2)) ||| joinFlags (res.map (·.2)))
  (out.flatMap (·.1), out.flatMap (·.2.1), joinFlags (ys.map (·.2) ++ out.map (·.2.2)))

/-- The leaf word's block, or none when it breaks 18 R373 or R374. -/
def leafBlock (cb : Cb) (w : Word) : Option (Nat × Nat) :=
  if cb.arrival then (if w = 0 then some (0, 0) else none)
  else
    let first := field w 24 40
    let log := field w 0 6
    if field w 6 18 ≠ 0 ∨ first % 2 ^ log ≠ 0 ∨ 2 ^ cb.lroot < first + 2 ^ log then none else some (first, log)

/-- The elements of a run of 4-byte words. -/
def words32 (bs : List Byte) : List Nat := (List.range (bs.length / 4)).map fun i => bytesToNat ((bs.drop (4 * i)).take 4)

/-- col.red takes effect: it contributes (18 R371 to R375, R382). None while a tile is absent. -/
def startColRed (n : Nat) (o : Op) (s : State) : Option (List Eff) :=
  let c := opCtx s o
  let fail (es : List Eff) (f : Flaw) : Option (List Eff) := some (takeEffect n o ((EngOut.failed f).after es) s)
  let ask (a : Option Ask) : Option (List Eff) := (waitOrAsk o a).map fun r => takeEffect n o r s
  match readBlock s c o.a1 8 with
  | .absent a => ask a
  | .fault code h => fail [] (code, h, false)
  | .words ws g =>
    let cb : Cb := ⟨ws⟩
    let rank := field o.a2 0 12
    let te := touchFx o false g s
    match cbCheck s o cb false, leafBlock cb o.a3 with
    | some f, _ => fail te f
    | none, none => fail te (cILLEGAL, o.a1, false)
    | none, some (lfirst, llog2) =>
      let e := mapEntry s cb.map rank
      let dc := partCtx o e
      let len := cb.bytes
      let okTag := tagIn (cb.ty + 1)
      let resid := cb.comp ≠ 0 ∧ len ≠ 0
      let checks := firstFail [if len = 0 then none else firstBad s c cb.src 0 ((len : Int) - 1) false,
        if resid then firstBad s c cb.resid 0 ((len : Int) - 1) false else none,
        if resid then firstBad s c cb.resid 0 ((len : Int) - 1) true else none,
        if cb.destination rank ∧ partPkg e = ownPackage s then dstChecks s dc cb.dst len cb.ctr else none,
        if len = 0 then none else tagScan s c okTag (tidOf cb.src) [(offOf cb.src, len)],
        if resid then tagScan s c okTag (tidOf cb.resid) [(offOf cb.resid, len)] else none]
      match checks with
      | some f => fail te f
      | none =>
        match engRead s c okTag (tidOf cb.src) (offOf cb.src) len,
            engRead s c okTag (tidOf cb.resid) (offOf cb.resid) (if resid then len else 0) with
        | .fault code h, _ => fail te (code, h, false)
        | .absent a, _ => ask a
        | _, .fault code h => fail te (code, h, false)
        | _, .absent a => ask a
        | .bytes bs g2, .bytes rb g3 =>
          let te := te ++ ((touchFx o false g2).andThen (touchFx o false g3)) (s.applyAll te)
          let formed : List Byte × List Byte × Fl :=
            if resid then
              let r := formPackets cb.comp (words32 bs) (words32 rb)
              (r.1.flatMap (natToBytes 4), r.2.1.flatMap (natToBytes 4), r.2.2)
            else (bs, [], 0)
          let ru : EngWrites := if resid then formatUnits s c (tidOf cb.resid) 11 [(offOf cb.resid, formed.2.1)] else { units := [] }
          (match ru.flaw (tidOf cb.resid) with
            | some f => fail te f
            | none =>
              let te := te ++ touchFx o true ru.touch (s.applyAll te)
              let sent := sendPieces o.user ru.far (s.applyAll te)
              let w := writeUnits (HeldWrite.unit n) ru.units o.retagged (s.applyAll (te ++ sent.1))
              let x : Contrib := { rank := rank, ranks := [rank], flags := 0, op := some n, port := none, lfirst := lfirst, llog2 := llog2
                                   words := ws, data := formed.1 }
              some ((Fx.andThen (fun _ => te ++ sent.1 ++ w.effs ++ [.op n (some (({ o with
                  state := .contributed, flags := formed.2.2.setWidth 64, table := ws, units := w.left, pieces := sent.2
                  retagged := w.tags } : Op).blame w.flaw))])
                ((contribute x).andThen (sendContrib x))) s))

/-- What the collective of a contributed operation has come to: the result, once it is known here. -/
def collAnswer (s : State) (c : Coll) : Option (List Byte × Fl) :=
  match c.result with
  | some r => some r
  | none =>
    match c.contribs with
    | [] => none
    | x :: _ =>
      if c.slot.isNone && c.full && (!Cb.arrival ⟨x.words⟩ || combiner s c == ownPackage s) then some (collResult c) else none

/-- The result is written to DST, in its participant's package, and will be counted (18 R377), after which the operation is ready to
complete. None while the result is not known or RESID is not written. -/
def finishColRed (n : Nat) (o : Op) (s : State) : Option (List Eff) :=
  let cb : Cb := ⟨o.table⟩
  let rank := field o.a2 0 12
  match s.coll (collKey cb.map cb.seq) with
  | none => none
  | some c =>
    if o.units ≠ [] ∨ o.pieces ≠ [] then none
    else match collAnswer s c with
    | none => none
    | some (data, fl) =>
      if !cb.destination rank then some [.op n (some { o with state := .ready })]
      else
        let e := mapEntry s cb.map rank
        let o := { o with flags := o.flags ||| fl.setWidth 64 }
        if partPkg e ≠ ownPackage s then
          let sent := sendPieces o.user [farWrite e rank cb.ty cb.dst data cb.ctr] s
          some (sent.1 ++ [.op n (some { o with state := .writing, pieces := sent.2 })])
        else
          let u := dstPieces s (partCtx o e) rank cb.ty cb.dst data
          some [.op n (some (({ o with
            state := if u.1 = [] then .ready else .writing, pieces := u.1, adds := dstAdds e cb.ctr u.2 } : Op).blame u.2))]

/-- SLOT_EMIT: slot `n` has every input it expects and emits, or is free again (18 R376). The root of the tree emits the result once
every rank is in. -/
def execSlotEmit (n : Nat) (s : State) : Host.Outcome State Fault Refusal :=
  answer s fun s =>
    match FMap.get none s.slots n with
    | none => []
    | some key =>
      match s.coll key with
      | none => []
      | some c =>
        match c.contribs with
        | [] => []
        | x :: _ =>
          let cb : Cb := ⟨x.words⟩
          let t := FMap.get 0 s.trees cb.group
          let children := (List.range 16).filter fun i => bitOf t i
          let fed := children.all fun i => c.contribs.any fun y => y.port == some i
          let here := !bitOf t 16 || (localRanks s cb.map cb.p).all fun r => c.contribs.any fun y => y.ranks.contains r && y.port.isNone
          let parent := field t 58 5
          if c.emitted && c.result.isSome && collOver s c then forgetColl key s
          else if c.emitted || c.aborted.isSome || !treeValid t || !fed || !here then []
          else if parent = 16 then
            if !c.full then []
            else
              let r := collResult c
              .coll key (some { c with emitted := true, result := some r }) ::
                sendTo key (children.map fun i => (s.port i).peerPkg.toNat) (resultTxn c r) 3
                  (s.apply (.coll key (some { c with emitted := true, result := some r })))
          else
            .coll key (some { c with emitted := true }) ::
              Fx.each (fun (y : Contrib) => sendTo key [(s.port parent).peerPkg.toNat] (contribTxn y) 2) (slotInputs c)
                (s.apply (.coll key (some { c with emitted := true })))

/-- COLL_TIMEOUT: CTIMEO has passed since the first contribution to the collective (18 R378). -/
def execCollTimeout (n : Nat) (s : State) : Host.Outcome State Fault Refusal :=
  answer s fun s =>
    match s.coll n with
    | some c => if c.contribs = [] then [] else abortColl n 0xFFFFFFFF true s
    | none => []

/-! ### Armed chains (18 R383) -/

/-- Armed chains that the die's collective unit holds. -/
def chainsOf (s : State) (die : Nat) : Nat :=
  (s.ops.filter fun e => match e.2 with
    | some o => o.op9 == 0x0E2 && o.vd == die && o.state == .armed
    | none => false).length

/-- The register checks of an entry, as of the instruction that it names. -/
def entryCheck (s : State) (o : Op) : Option Flaw :=
  match o.op9 with
  | 0x0DB => cpyCheck s o
  | 0x0DC => cvtCheck s o
  | 0x0DE => mirrorCheck s o
  | 0x0E0 => if field o.a2 12 52 ≠ 0 ∨ o.a3.toNat % 256 ≠ 0 then some (cILLEGAL, 0, false) else none
  | 0x0E1 => if field o.a2 12 52 ≠ 0 then some (cILLEGAL, 0, false) else none
  | _ => none

def entryOk (ws : List Word) : Bool :=
  let w := ws.getD 0 0
  [0x0DB, 0x0DC, 0x0DD, 0x0DE, 0x0E0, 0x0E1, 0x0E3].contains (field w 50 9) && field w 0 50 == 0 && decide (field w 59 3 ≤ 6) &&
  (ws.drop 5).all (· == 0)

/-- What reading a chain comes to: the effects of its entries, with the fault that ends it; or bytes that are not there. -/
inductive ChainRes where
  | issued (e : List Eff) (f : Option Flaw)
  | absent (ask : Option Ask)

/-- The operations of a chain's entries from handle `h` on. An entry has no FN (18 R383: 0); `fn` here says which optional handles of
col.ctr are given. An entry that fails its check at issue with anything but ILLEGAL runs as an operation that has faulted. -/
def chainEntries (n : Nat) (o : Op) : Nat → Word → Option Nat → State → ChainRes
  | fuel, h, prev, s =>
    if h = 0 then .issued [] none
    else match fuel with
      | 0 => .issued [] (some (cILLEGAL, h, false))
      | fuel + 1 =>
        match readBlock s (opCtx s o) h 8 with
        | .absent a => .absent a
        | .fault code x => .issued [] (some (code, x, false))
        | .words ws g =>
          let w := ws.getD 0 0
          let a3 := ws.getD 3 0
          let op9 := field w 50 9
          let c : Op := { o with
            op9 := op9, sc := field w 59 3, rel := bitOf w 62, fn := if op9 = 0x0E3 ∧ a3 ≠ 0 then 2 else 0, a1 := ws.getD 1 0
            a2 := ws.getD 2 0, a3 := a3, kws := [], order := s.nextId, table := [], cache := [], data := [], pieces := [], ended := [], state := .issued
            region := false, parent := some n, wprev := if bitOf w 63 then prev else none }
          let bad := entryCheck s c
          if !entryOk ws || (bad.map (·.1)) == some cILLEGAL then .issued (touchFx o false g s) (some (cILLEGAL, h, false))
          else
            let c := match bad with | some f => { c with state := .ready, fault := some f } | none => c
            let es : List Eff := touchFx o false g s ++ [.op s.nextId (some c), .fresh]
            match chainEntries n o fuel (ws.getD 4 0) (some s.nextId) (s.applyAll es) with
            | .absent a => .absent a
            | .issued e f => .issued (es ++ e) f

/-- An armed chain asks another package for what it reads there. -/
def chainAsk (n : Nat) (o : Op) (a : Option Ask) : Fx := fun s =>
  match a with
  | none => []
  | some a =>
    let sent := sendPieces o.user [a.piece] s
    sent.1 ++ [.op n (some { o with pieces := sent.2 })]

/-- CHAIN_FIRE: the unit reads the counter, which touches its row (08 R203); once it has reached the threshold, the entries are issued. -/
def execChainFire (o : Nat) (s : State) : Host.Outcome State Fault Refusal :=
  answer s fun s =>
    match s.op o with
    | none => []
    | some r =>
      if r.state ≠ .armed ∨ r.pieces ≠ [] then []
      else
        let fire : Fx := fun s =>
          match chainEntries o r 256 r.a3 none s with
          | .absent a => chainAsk o r a s
          | .issued es f => es ++ [.op o (some { r with state := .fired, fault := f, cache := [] })]
        if r.a2 = 0 then fire s
        else match readBlock s (opCtx s r) r.a1 1 with
          | .absent a => chainAsk o r a s
          | .fault code h => [.op o (some { r with state := .ready, fault := some (code, h, false) })]
          | .words ws g =>
            (touchFx r false g).andThen (if r.a2.ule (ws.getD 0 0) then fire else fun _ => [.op o (some { r with cache := [] })]) s

/-! ### col.ctr, cow.mark, drn.go (18 R384 to R386) -/

/-- A 64-bit word that an operation reports in: its check and its writes. -/
def reportUnits (s : State) (c : Ctx) (h v : Word) : Except Flaw EngWrites :=
  match firstBad s c h 0 7 true with
  | some f => .error f
  | none =>
    let u := engUnits s c (tidOf h) 0 anyFormat (fun _ t => t) [(offOf h, natToBytes 8 v.toNat)]
    match u.flaw (tidOf h) with
    | some f => .error f
    | none => .ok u

/-- col.ctr has added; the old value is reported. -/
def ctrDone (s : State) (o : Op) (e : List Eff) (touch : Option Nat) (u : EngWrites) : EngOut :=
  { EngOut.plain (e ++ (Fx.andThen (touchFx o true touch) (touchFx o true u.touch)) (s.applyAll e)) with units := u.units, pieces := u.far }

/-- col.ctr takes effect. A counter in a REMOTE tensor is added to in its package, whose answer is the old value (`data`). -/
def startColCtr (s : State) (o : Op) : Option EngOut :=
  let c := opCtx s o
  if 256 ≤ tidOf o.a1 ∧ offOf o.a1 % 8 ≠ 0 then some (EngOut.failed (cALIGN, o.a1, true))
  else
    let rep (v : Word) : Except Flaw EngWrites := if o.fn / 2 % 2 = 1 then reportUnits s c o.a3 v else .ok { units := [] }
    let done (e : List Eff) (old : Word) (touch : Option Nat) : EngOut :=
      match rep old with
      | .error f => EngOut.failed f
      | .ok u => ctrDone s o e touch u
    match rep 0 with
    | .error f => some (EngOut.failed f)
    | .ok _ =>
      if o.data ≠ [] then some (done [] (BitVec.ofNat 64 (bytesToNat o.data)) none)
      else match counterAdd s c o.a1 o.a2 with
      | .wait => none
      | .fault code h => some (EngOut.failed (code, h, true))
      | .far t off => some { EngOut.plain [] with pieces := [addPiece t off o.a2], asking := true }
      | .done e old touch => some (done e old touch)

/-- The tensor that a checkpoint operation names, with the flag it needs. -/
def markTensor (s : State) (o : Op) (flag : Tensor → Bool) : Option Tensor :=
  match readTensor s o.asid (tidOf o.a1) with
  | some t => if t.remote || !flag t || decide (t.bytes ≤ offOf o.a1) then none else some t
  | none => none

/-- The freeze (08 R197). -/
def freeze (asid : Nat) (t : Tensor) : Fx :=
  (Fx.each (fun n => fun s =>
      let e := readTile s t n
      [.store e.addr (natToBytes 8 (setField e.w0 30 1 1).toNat ++ natToBytes 8 (setField e.w1 63 1 0).toNat)])
    (List.range t.ntiles)).andThen
  (Fx.andThen (fun s =>
      [.store t.addr (natToBytes 8 (setField (s.word t.addr) 59 1 1).toNat),
        .store (t.addr + 40) (natToBytes 8 ((t.version + 1) % 2 ^ 32 * 2 ^ 32 + t.version))])
    (dropTlb fun e => e.asid == asid && e.tid == t.tid))

def startCowMark (s : State) (o : Op) : Option EngOut :=
  match markTensor s o (·.wr) with
  | none => some (EngOut.faulted cTILE_PROT o.a1)
  | some t =>
    match (if o.fn % 2 = 1 then reportUnits s (opCtx s o) o.a2 (if t.frozen then 1 else 0) else .ok { units := [] }) with
    | .error f => some (EngOut.failed f)
    | .ok u => some { EngOut.plain ((Fx.andThen (if t.frozen then Fx.none else freeze o.asid t) (touchFx o true u.touch)) s) with
                      units := u.units, pieces := u.far }

/-- The bytes of the frozen version of a tile (08 R197): none while they are absent. -/
def frozenBytes (s : State) (t : Tensor) (n : Nat) : Option (List Byte) :=
  let e := readTile s t n
  let tag := if e.fvalid then e.ftag else e.tag
  if classOf tag = 1 ∧ ¬ malformed tag then some (List.replicate t.tbytes 0)
  else if e.fvalid then some (s.bytes (frameKey t.tid e.fframe 0) t.tbytes)
  else if e.valid then some (s.bytes (frameKey t.tid e.frame 0) t.tbytes)
  else none

def frozenTag (s : State) (t : Tensor) (n : Nat) : Nat :=
  let e := readTile s t n
  if e.fvalid then e.ftag else e.tag

/-- All or none. -/
def allSome {α : Type} : List (Option α) → Option (List α)
  | [] => some []
  | none :: _ => none
  | some a :: t => (allSome t).map (a :: ·)

/-- The target of drn.go when it lies in another package. -/
def drainTarget (s : State) (c : Ctx) (o : Op) : Option Tensor :=
  match placeCheck s c (tidOf o.a2) (offOf o.a2) 1 true with
  | .ok (.tensor d) => if d.remote then some d else none
  | _ => none

/-- The writes of tile `n`'s bytes in this package (18 R386, 13 R297). -/
def drainUnits (s : State) (c : Ctx) (o : Op) (t : Tensor) (n : Nat) (bs : List Byte) : EngWrites :=
  let dst := tidOf o.a2
  let at0 := offOf o.a2 + n * t.tbytes
  if dst < 16 then engUnits s c dst 0 anyFormat (fun _ t => t) [(at0, bs)]
  else match readTensor s c.asid dst with
    | none => { units := [], refused := some at0 }
    | some d =>
      let src (x : Nat) : Nat := frozenTag s t ((x - offOf o.a2) / t.tbytes)
      let u := copyUnits s c.asid d (offOf o.a2) (offOf o.a2 + t.ntiles * t.tbytes) src (fun x _ => [src x]) (at0, bs)
      { units := u.1, refused := u.2 }

/-- drn.go takes effect: the pieces of the tiles in ascending order, each tile counted once all of it has performed. None while a tile is
absent. -/
def startDrain (s : State) (o : Op) : Option EngOut :=
  match markTensor s o (·.rd) with
  | none => some (EngOut.faulted cTILE_PROT o.a1)
  | some t =>
    if !t.frozen then some (.plain [])
    else
      let c := opCtx s o
      let hasCtr := o.fn / 2 % 2 == 1
      let target := drainTarget s c o
      let checks := firstFail [firstBad s c o.a2 0 (((t.ntiles * t.tbytes : Nat) : Int) - 1) true,
        if hasCtr then firstBad s c o.a3 0 7 true else none,
        ((List.range t.ntiles).find? fun n => malformed (frozenTag s t n)).map fun n => (cTAG_MISMATCH, handleOf t.tid (n * t.tbytes), false)]
      match checks, allSome ((List.range t.ntiles).map (frozenBytes s t)) with
      | some f, _ => some (EngOut.failed f)
      | none, none => none
      | none, some data =>
        let ctrs : List (Word × Nat) := if hasCtr then [(o.a3, t.tbytes)] else []
        let blank (n : Nat) : MPiece :=
          { rank := n, pkg := ownPackage s, units := [], thru := none, ctrs := ctrs, tag := none, lost := 0, kind := 1, log := 0, words := [] }
        match target with
        | some d =>
          some { EngOut.plain [] with
            pieces := data.zipIdx.map fun x =>
              { farPiece d 0 [(offOf o.a2 + x.2 * t.tbytes, x.1)] with
                rank := x.2, ctrs := ctrs, log := 2
                words := [BitVec.ofNat 64 (offOf o.a2), BitVec.ofNat 64 t.tbytes] ++
                  (List.range t.ntiles).map fun n => BitVec.ofNat 64 (frozenTag s t n) }
            table := [1] }
        | none =>
          let us := data.zipIdx.map fun x => (x.2, drainUnits s c o t x.2 x.1)
          some { EngOut.plain (Fx.each (fun (u : Nat × EngWrites) => touchFx o true u.2.touch) us s) with
            pieces := us.flatMap fun u =>
              let p := if u.2.refused.isSome then { blank u.1 with ctrs := [] } else blank u.1
              match u.2.units.flatMap lineUnits with
              | [] => [p]
              | ls => ls.map fun l => { p with units := [l] }
            fault := us.findSome? fun u => u.2.flaw (tidOf o.a2)
            table := [1] }

/-- A run of granules returns to an address space's pool in front of the entry at HEAD, the only word of the pool that the hardware writes
(08 R197, 14 R324, R325; notes/assumptions/75.md); none while the ring is full. -/
def poolReturn (asid first count : Nat) (s : State) : Option (List Eff) :=
  let w3 := asWord s asid 3
  let w4 := asWord s asid 4
  let size := 2 ^ field w3 39 5
  let head := (field w4 0 32 + 2 ^ 32 - 1) % 2 ^ 32
  if size ≤ (field w4 32 32 + 2 ^ 32 - field w4 0 32) % 2 ^ 32 then none
  else some [.store (field w3 0 39 + 8 * (head % size)) (natToBytes 8 (count * 2 ^ 32 + first)),
    .store (asAddr s asid + 32) (natToBytes 4 head)]

/-- The release of a frozen version, tile by tile; none while the pool's ring is full. -/
def releaseTiles (asid : Nat) (t : Tensor) : List Nat → State → Option (List Eff)
  | [], _ => some []
  | n :: rest, s =>
    let e := readTile s t n
    let back : Option (List Eff) := if e.fvalid && classOf e.ftag != 1 then poolReturn asid e.fframe t.g s else some []
    match back with
    | none => none
    | some b =>
      let es := b ++ [.store e.addr (natToBytes 8 (setField e.w0 30 1 0).toNat ++ natToBytes 8 (setField e.w1 63 1 0).toNat)]
      (releaseTiles asid t rest (s.applyAll es)).map (es ++ ·)

/-- Some share that has not ended reaches the tensor in its frozen version. -/
def frozenUsers (s : State) (asid tid : Nat) : Bool :=
  s.teams.any fun e => match e.2 with
    | some tm => tm.asid == asid && tm.froz.contains tid
    | none => false

/-- drn.go ends: the frozen frames are released (18 R386, 08 R197); none while a share still reads them. -/
def releaseFrozen (s : State) (o : Op) : Option (List Eff) :=
  match readTensor s o.asid (tidOf o.a1) with
  | none => some []
  | some t =>
    if frozenUsers s o.asid t.tid then none
    else match releaseTiles o.asid t (List.range t.ntiles) s with
      | none => none
      | some es =>
        some (es ++ (Fx.andThen (fun s => [.store t.addr (natToBytes 8 (setField (s.word t.addr) 59 1 0).toNat)])
          (dropTlb fun e => e.asid == o.asid && e.tid == t.tid)) (s.applyAll es))

/-! ### The steps of engine operations -/

def isMtx (op9 : Nat) : Bool := 0x0D0 ≤ op9 && op9 ≤ 0x0D5
def isPrz (op9 : Nat) : Bool := 0x0D8 ≤ op9 && op9 ≤ 0x0DA

/-- What an operation other than col.red and col.arm does when it takes effect. -/
def startOut (s : State) (o : Op) : Option EngOut :=
  if isMtx o.op9 then startMtx s o
  else if isPrz o.op9 then startPrism s o
  else match o.op9 with
    | 0x0DB => startCpy s o
    | 0x0DC => startCvt s o
    | 0x0DD => startGather s o
    | 0x0DE => startMirror s o
    | 0x0E0 => startColWr s o
    | 0x0E3 => startColCtr s o
    | 0x0E4 => startCowMark s o
    | 0x0E5 => startDrain s o
    | _ => some (.plain [])

/-- The operation may take its effects: its tokens, the loads before it, its turn, and, for an entry of a chain, its `.rel`. -/
def mayStart (s : State) (n : Nat) (o : Op) : Bool :=
  o.state == .issued && tokensMet s o && loadsBefore s n o && turnCome s n o &&
  !(o.parent.isSome && o.rel && o.sc != 0 && writesOut s o.k)

/-- ENGINE_OP_START (12 R257, 13 R283): the operation takes its effects. -/
def startFx (n : Nat) (o : Op) : Fx := fun s =>
  if !mayStart s n o then []
  else if o.op9 = 0x0E1 then (startColRed n o s).getD []
  else if o.op9 = 0x0E2 then (if chainsOf s o.vd < 256 then [.op n (some { o with state := .armed })] else [])
  else match startOut s o with
    | none => []
    | some r =>
      if o.op9 = 0x0D4 then r.effs ++ completeOp n o (s.applyAll r.effs) else takeEffect n o r s

def execEngineOpStart (o : Nat) (s : State) : Host.Outcome State Fault Refusal :=
  answer s fun s => match s.op o with | some r => startFx o r s | none => []

/-- The counters of an operation's end, in their participants' contexts, with the first fault; none while one waits. -/
def finalAdds (o : Op) : List (Option Nat × Word × Nat) → State → Option (List Eff × Option Flaw)
  | [], _ => some ([], none)
  | (a, h, n) :: t, s =>
    let c := match a with | some asid => { plainCtx asid with user := o.user } | none => opCtx s o
    match addAll c (touchFx o true) [(h, n)] s with
    | none => none
    | some e => (finalAdds o t (s.applyAll e.effs)).map fun r => (e.effs ++ r.1, match e.flaw with | some f => some f | none => r.2)

/-- The operation's collective learns that it has completed. -/
def collDone (o : Op) : Fx :=
  if o.op9 = 0x0E1 ∧ o.table ≠ [] then collTold (collKey (Cb.map ⟨o.table⟩) (Cb.seq ⟨o.table⟩)) (field o.a2 0 12) else Fx.none

/-- The end of an operation whose accesses have all performed. -/
def endOp (n : Nat) (o : Op) (s : State) : Option (List Eff) :=
  match finalAdds o o.adds s with
  | none => none
  | some (e, f) =>
    let s1 := s.applyAll e
    let o := { (o.blame f) with adds := [] }
    if o.op9 = 0x0E5 ∧ o.table = [1] ∧ o.fault = none then
      (match releaseFrozen s1 o with
        | none => some (e ++ [.op n (some o)])
        | some r => some (e ++ r ++ completeOp n o (s1.applyAll r)))
    else some (e ++ ((completeOp n o).andThen (collDone o)) s1)

/-- The operation's team stands on its core. The token of a chain that has ended while its team is swapped waits for it (18 R383). -/
def teamThere (s : State) (o : Op) : Bool := (s.core o.core).team == some o.team

/-- ENGINE_OP_COMPLETE (10 R242, 12 R258, 13 R303, 18 R377): the operation's token completes. -/
def completeFx (n : Nat) (o : Op) : Fx := fun s =>
  match o.state with
  | .ready => if o.op9 = 0x0E2 ∧ ¬ teamThere s o then [] else (endOp n o s).getD []
  | .contributed => (finishColRed n o s).getD []
  | .fired =>
    if !teamThere s o || s.ops.any fun e => match e.2 with | some c => c.parent == some n | none => false then [] else completeOp n o s
  | _ => []

def execEngineOpComplete (o : Nat) (s : State) : Host.Outcome State Fault Refusal :=
  answer s fun s => match s.op o with | some r => completeFx o r s | none => []

/-! ### The instructions (18 R380 to R386) -/

/-- Which optional handle registers are not s0: bit 0 for A2, bit 1 for A3. -/
def givenRegs (f : FE) : Nat := (if f.a2 = 0 then 0 else 1) + (if f.a3 = 0 then 0 else 2)

def execColWr (f : FE) (s : State) : Host.Outcome State Fault Refusal :=
  engineIssue 0x0E0 true f (fun t o => (entryCheck t o).map fun x => (x.1, t.word32, false)) (fun _ o => o) s

def execColRed (f : FE) (s : State) : Host.Outcome State Fault Refusal :=
  engineIssue 0x0E1 true f (fun t o => (entryCheck t o).map fun x => (x.1, t.word32, false)) (fun _ o => o) s

def execColArm (f : FE) (s : State) : Host.Outcome State Fault Refusal :=
  engineIssue 0x0E2 true f (fun t o =>
    if o.a3 = 0 then some (cILLEGAL, t.word32, false)
    else if tidOf o.a1 = 3 then some (cTILE_PROT, o.a1, false)
    else if tidOf o.a3 = 3 then some (cTILE_PROT, o.a3, false)
    else none) (fun _ o => { o with vd := dieOf o.core }) s

def execColCtr (f : FE) (s : State) : Host.Outcome State Fault Refusal :=
  engineIssue 0x0E3 true f (fun _ _ => none) (fun _ o => { o with fn := givenRegs f }) s

def execCowMark (f : FE) (s : State) : Host.Outcome State Fault Refusal :=
  engineIssue 0x0E4 true f (fun _ _ => none) (fun _ o => { o with fn := givenRegs f }) s

/-- drn.go: of the checks of `cpy` at its destination (18 R386, 13 R297) the one that needs only the register, id 3, is made at issue; the
range, which is that of the tensor at A1, when the operation takes effect (13 R282; notes/assumptions/97.md). -/
def execDrnGo (f : FE) (s : State) : Host.Outcome State Fault Refusal :=
  engineIssue 0x0E5 true f (fun _ o => if tidOf o.a2 = 3 then some (cTILE_PROT, o.a2, true) else none)
    (fun _ o => { o with fn := givenRegs f }) s

end Sys2Proof.Machine
end

