-- ==== Sys2Proof/Machine/Fetch.lean ====
section
/-!
DEFINITION. Fetching the next instruction of a stream (01 R20, 03 R63, R75): the fetch traps, the ILLEGAL of a word that does not
decode, or the instruction with its bits 31 to 0.
-/
namespace Sys2Proof.Machine

/-- The OP9 that a refused word would have, for flt.rd (14 R334); a 32-bit word has none. -/
def op9Of (w : Nat) : Nat := if w % 4 < 2 then 0 else w / 4 % 512

/-- What flt.rd returns for a fetch trap: the entry that the walk read alone (14 R334). -/
def fetchFlt (w0 : Word) : Flt := { Flt.reset with i3 := w0 }

/-- The fetch of the word at the pc from another package (01 R20, 08 R202): `op9` is no instruction's. -/
def fetchOp (pc : Word) : MemOp :=
  { plainOp 0x200 (.loadS 0 true) 0 0 .load [⟨0, pc, .ok [(offOf pc, 4)], []⟩] [] with rkind := some 24 }

/-- The stream asks the other package for the word, waits for the answer, and keeps it beside its pc, or takes the trap. -/
def fetchRemote (k : Nat) (tn : Tensor) : Fx :=
  Fx.andThen (fun _ => [.cur k]) fun s =>
    let pc := (s.ctl k).pc
    match ownRemote s with
    | none => sendRemote (fetchOp pc) s 0 [] ((fetchOp pc).elems.map fun e => (e, tn)) s
    | some (n, a) =>
      if a.op9 ≠ 0x200 then []
      else match a.reply with
        | none => []
        | some (code, e, v) =>
          .access n none ::
            (if code = 0 then
              onCtl k (fun c => { c with code := some (pc, (vecBytes v).take (wordLength (v.toNat % 2 ^ 32))) }) s
            else takeTrap k code false (pc + BitVec.ofNat 64 e) { Flt.reset with i2 := BitVec.ofNat 64 tn.pkg } s)

/-- The word that a stream fetches at its pc: what another package has returned for it, or what stands there. -/
def State.wordAt (s : State) (k : Nat) : FWord :=
  let pc := (s.ctl k).pc
  match (s.ctl k).code with
  | some (h, bs) => if h = pc then .bytes bs else fetchWord s (s.codeCtx k) pc
  | none => fetchWord s (s.codeCtx k) pc

/-- What the stream finds at its pc: an instruction, or what takes its place. -/
noncomputable def fetchInstr (s : State) (k : Nat) : Except (State → List Eff) (Instr × BitVec 32) :=
  match s.wordAt k with
  | .trap code h w0 => .error (takeTrap k code false h (fetchFlt w0))
  | .remote tn _ => .error (fetchRemote k tn)
  | .bytes bs =>
    let w := bytesToNat bs
    match decode bs with
    | .error _ => .error (takeTrap k cILLEGAL false (BitVec.ofNat 64 (w % 2 ^ 32)) (fltOf (op9Of w)))
    | .ok (i, _) => .ok (i, BitVec.ofNat 32 w)

/-- The state in which the fetched instruction executes. -/
def State.begin (s : State) (k : Nat) (w : BitVec 32) : State := s.applyAll [.cur k, .fetched w, .wrote none]

end Sys2Proof.Machine
end

