-- ==== Sys2Proof/Machine/Home.lean ====
section
/-!
DEFINITION. What a home does for agents without windows (08 R202, 10 R246): accesses of other packages and of the host, engine writes that
arrive (13 R303 to R305, 18 R381, R386), the traffic of collectives (18 R371 to R378), their replies, and the release of held writes
(14 R329).
-/
namespace Sys2Proof.Machine

/-! ### Places and writes -/

/-- Places of the parts of an access; the error is the trap (09 R210). -/
def homeSpots (s : State) (c : Ctx) (p : Place) (tid : Nat) (w : Want) (l : List (Nat × Nat)) : Except Byte (List (Spot × Nat)) :=
  let rs := l.map fun x => (x, pieceCheck s false c p x.1 w)
  match decisive (rs.map (·.2)) with
  | some (.trap code _) => .error code
  | some _ => .error cTILE_PROT
  | none => .ok (rs.map fun r => (r.2.spot c tid r.1.1, r.1.2))

/-- What an access comes to at its home: it waits for a tile or a frame; it is held for a MOVING tile; it traps, with the offset that the
trap belongs to; or it performs, with flags (or 0), the bytes returned and the effects. -/
inductive HomeRes where
  | wait
  | moving (asid tid n slice : Nat)
  | trap (code : Byte) (at0 : Nat)
  | did (flags : Byte) (v : List Byte) (e : List Eff)

/-- The write has to be held for the MOVING tile of its place. -/
def HomeRes.held (s : State) (spot : Spot) : HomeRes :=
  match movingTile s spot with
  | some m => .moving m.1 m.2.1 m.2.2.1 m.2.2.2
  | none => .wait

/-- Writes at places, in order: the effects, or the one that does not perform. -/
def homeWrites : List (Spot × Runs) → State → Except HomeRes (List Eff)
  | [], _ => .ok []
  | (spot, runs) :: t, s =>
    match homeWriteRuns s spot runs with
    | .write e => (homeWrites t (s.applyAll e)).map (e ++ ·)
    | .short => .error .wait
    | .moving => .error (HomeRes.held s spot)

def HomeRes.wrote (flags : Byte) (v : List Byte) : Except HomeRes (List Eff) → HomeRes
  | .ok e => .did flags v e
  | .error r => r

/-- A trap, but for an absent tile, which the access waits for. -/
def waitOr (code : Byte) (at0 : Nat) : HomeRes := if code = cTILE_ABSENT then .wait else .trap code at0

/-- The bytes `bs` cut over places. -/
def overSpots : List (Spot × Nat) → List Byte → List (Spot × Runs)
  | [], _ => []
  | (spot, n) :: t, bs => (spot, [(0, bs.take n)]) :: overSpots t (bs.drop n)

/-! ### Tensor accesses (09 R217, R218) -/

/-- vld.t at its home. -/
def homeVldT (s : State) (c : Ctx) (t : Tensor) (g : Pred) (rm : Nat) (crd : List Nat) (old : Vec) : HomeRes :=
  match firstTile s false c t .load (g.getLsbD 0) crd with
  | .fail code _ off => waitOr code off
  | .miss _ => .wait
  | .at _ tag _ _ =>
    let fmt := formatOf tag
    match findElems s false c t .load g crd fmt (tensorCount fmt) with
    | .error (.fail code _ off) => waitOr code off
    | .error _ => .wait
    | .ok l =>
      if fmt ≤ 12 then
        let w := tensorWidth fmt
        let v := mergeElems w g false old fun i => match l.find? (·.1 == i) with
          | some (_, .at n _ idx fr) => bytesToNat (spotRead s (tileSpot c t n (byteOf fmt idx) fr) (w / 8))
          | _ => 0
        .did 0 (vecBytes v) []
      else
        let vals : List (Nat × Val) := l.filterMap fun x => match x.2 with
          | .at n _ idx fr => some (x.1, convertFrom 10 rm (mxValue (fmt - 1)
              (spotRead s (tileSpot c t n (idx / 32 * mxBlock (fmt - 1)) fr) (mxBlock (fmt - 1))) (idx % 32)))
          | _ => none
        let fl := joinFlags (vals.map (·.2.2))
        if 5 ≤ rm ∧ fl &&& fOF ≠ 0 then .trap cILLEGAL 0
        else .did (if fl = 0 then 0 else 32 + fl.setWidth 8)
          (vecBytes (mergeElems 32 g false old fun i => match vals.find? (·.1 == i) with | some v => v.2.1 | none => 0)) []

/-- vst.t at its home; one that raises an enabled flag writes nothing (14 R310). -/
def homeVstT (s : State) (c : Ctx) (t : Tensor) (g : Pred) (rm : Nat) (enabled : Fl) (crd : List Nat) (v : Vec) : HomeRes :=
  match firstTile s false c t .tensor (g.getLsbD 0) crd with
  | .fail code _ off => waitOr code off
  | .miss _ => .wait
  | .at n tag idx _ =>
    let fmt := formatOf tag
    if fmt ≤ 12 then
      match findElems s false c t .tensor g crd fmt (tensorCount fmt) with
      | .error (.fail code _ off) => waitOr code off
      | .error _ => .wait
      | .ok l =>
        let w := tensorWidth fmt
        .wrote 0 [] (homeWrites (l.filterMap fun x => match x.2 with
          | .at n _ idx _ => some (tileSpot c t n (byteOf fmt idx) none, [(0, natToBytes (w / 8) (elemAt w v x.1))])
          | _ => none) s)
    else if blockRefused t tag crd then .trap cTAG_MISMATCH (n * t.tbytes + idx / 32 * mxBlock (fmt - 1))
    else if (g &&& 0xFFFFFFFF) = 0 then .did 0 [] []
    else match findCoord s false c t .tensor crd with
    | .fail code _ off => waitOr code off
    | .miss _ => .wait
    | .at n _ idx _ =>
      if 5 ≤ rm then .trap cILLEGAL 0
      else
      let xs : List FV := (List.range 32).map fun i =>
        if g.getLsbD i && crd.headD 0 + i ≤ t.x.getD 0 0 then f32.value (elemAt 32 v i) else .fin false 0 0
      let b := toMx (fmt - 1) rm xs
      let flags : Byte := if b.2 = 0 then 0 else 32 + b.2.setWidth 8
      if b.2 &&& enabled ≠ 0 then .did flags [] []
      else .wrote flags [] (homeWrites [(tileSpot c t n (idx / 32 * mxBlock (fmt - 1)) none, [(0, b.1)])] s)

/-! ### One access -/

/-- The atomic of a request kind. -/
def amoOfKind (n : Nat) : Amo :=
  match n with
  | 2 => .add | 3 => .swap | 4 => .and | 5 => .or | 6 => .xor | 7 => .min | 8 => .max | 9 => .minu | 10 => .maxu | 11 => .cas
  | _ => .arrive

/-- The parts of an access: of a row, a scalar or an element of a vamo, or, with `free`, of any run of bytes cut at tiles. -/
def homeReach (s : State) (r : Req) (free : Bool) : Except Byte (List (Nat × Nat)) :=
  if free then .ok (match readTensor s r.asid (tidOf r.handle) with
    | some t => rangeSegments t.tbytes (offOf r.handle) r.bytes
    | none => [(offOf r.handle, r.bytes)])
  else if r.kind = 22 then .ok [(offOf r.handle, 1)]
  else if r.bytes = 128 then rowReach r.handle
  else scalarReach (2 ≤ r.kind && !(r.kind ≠ 11 && r.compare == 1)) r.handle r.bytes

/-- The place of an atomic, of which a doubleword may have two parts (09 R220). -/
def joinedSpot : List (Spot × Nat) → Spot
  | [(a, _), (b, _)] => .pair a b
  | l => (l.headD (.nowhere, 0)).1

/-- A load (kinds 0, 19 to 22), store or atomic. A camp core's fetch has the checks of a load (17 R354). -/
def homeData (s : State) (r : Req) (free : Bool) : HomeRes :=
  let c := agentCtx r.asid r.user
  let n := r.bytes
  let loads := r.kind == 0 || r.kind == 19 || r.kind == 21 || r.kind == 22
  let want : Want := if loads then .load else if free || n == 128 then .row else .scalar n
  match homeReach s r free with
  | .error code => .trap code 0
  | .ok ps =>
    match placeCheck s c (tidOf r.handle) ((ps.headD (0, 0)).1) n (!loads) with
    | .error code => .trap code 0
    | .ok p =>
      match homeSpots s c p (tidOf r.handle) want ps with
      | .error code => if r.kind = 21 then .trap code 0 else waitOr code 0
      | .ok spots =>
        let bs := natToBytes n r.value.toNat
        if loads || r.kind == 20 then .did 0 (spots.flatMap fun x => spotRead s x.1 x.2) []
        else if r.kind = 1 then
          if n = 128 && !free then
            .wrote 0 [] (homeWrites (spots.map fun x => (x.1, laneRuns (r.compare.setWidth 128) bs)) s)
          else .wrote 0 [] (homeWrites (overSpots spots bs) s)
        else
          let spot := joinedSpot spots
          match performAmo s spot (amoOfKind r.kind) (8 * n) (r.value.toNat % 2 ^ (8 * n)) (r.compare.toNat % 2 ^ (8 * n)) with
          | .did e old => .did 0 (natToBytes n old) e
          | .short => .wait
          | .moving => HomeRes.held s spot

/-- tag.get (kind 13) and tag.set (kind 14). -/
def homeTag (s : State) (r : Req) : HomeRes :=
  match placeCheck s (agentCtx r.asid r.user) (tidOf r.handle) (offOf r.handle) 1 (r.kind == 14) with
  | .ok (.tensor t) =>
    let spot : Spot := .tile r.asid t.tid (offOf r.handle)
    if t.remote then .trap cTILE_PROT 0
    else if r.kind = 13 then .did 0 (natToBytes 8 (tagWord (readTile s t (offOf r.handle / t.tbytes)) false).toNat) []
    else if malformed (r.value.toNat % 2 ^ 16) then .trap cTAG_MISMATCH 0
    else match performTag s spot (r.value.toNat % 2 ^ 16) with
      | .did e _ => .did 0 [] e
      | .short => .wait
      | .moving => HomeRes.held s spot
  | .ok _ => .trap cTILE_PROT 0
  | .error code => .trap code 0

/-- An instruction fetch of a stream (01 R20): the word (24), or, for `loop`, its first 4 bytes (25). -/
def homeFetch (s : State) (r : Req) : HomeRes :=
  let c := agentCtx r.asid r.user
  match (if r.kind = 24 then fetchWord s c r.handle else fetchBytes s c true 4 r.handle) with
  | .bytes bs => .did 0 bs []
  | .trap code h _ => waitOr code (offOf h - offOf r.handle)
  | .remote _ _ => .trap cTILE_PROT 0

/-- An access of a stream of another package (08 R202). -/
def homeOne (s : State) (r : Req) : HomeRes :=
  if r.kind = 13 ∨ r.kind = 14 then homeTag s r
  else if r.kind = 24 ∨ r.kind = 25 then homeFetch s r
  else if r.kind = 15 ∨ r.kind = 16 then
    let c := agentCtx r.asid r.user
    match tensorOf s c r.handle with
    | none => .trap cTILE_PROT 0
    | some t =>
      let g : Pred := BitVec.ofNat 128 r.bytes
      let rm := r.bytes / 2 ^ 128 % 8
      if t.remote then .trap cTILE_PROT 0
      else if r.kind = 15 then homeVldT s c t g rm (coords r.compare) r.value
      else homeVstT s c t g rm (BitVec.ofNat 5 (r.bytes / 2 ^ 131)) (coords r.compare) r.value
  else homeData s r false

/-! ### The accesses of a transaction: all checked before any performs (09 R210) -/

/-- What a reply says of the element that traps: its number, or, of a tensor access or a fetch, its byte. -/
def trapPlace (i : Nat) (r : Req) (at0 : Nat) : Nat :=
  if r.kind = 15 ∨ r.kind = 16 ∨ r.kind = 24 ∨ r.kind = 25 then at0 else i

/-- The first access that does not pass: it traps, with what the reply gives, or it waits. -/
def homeCheck (s : State) : List (Nat × Req) → Option (Option (Byte × Nat))
  | [] => none
  | (i, r) :: t =>
    match homeOne s r with
    | .trap code at0 => some (some (code, trapPlace i r at0))
    | .wait => some none
    | _ => homeCheck s t

/-! ### Arrivals -/

/-- The place of an arrival in the inbox is filled anew, or closed. -/
def setArrival (j : Nat) (a : Option Arrival) : Fx := fun s =>
  [.inbox (match a with | some a => s.inbox.set j a | none => s.inbox.eraseIdx j)]

/-- A reply to a transaction. -/
def replyTo (t : Txn) (code : Byte) (rank : Nat) (h : Word) (runs : List (Nat × List Byte)) (words : List Word) : Fx := fun s =>
  [.send { newTxn s t.src t.tag 5 with
    first := code.toNat, rank := rank, runs := runs, words := words, req := { t.req with handle := h } }]

/-- Arrival `j` is over. -/
def overWith (j : Nat) (t : Txn) (code : Byte) (rank : Nat) (h : Word) (runs : List (Nat × List Byte)) (s : State)
    (words : List Word := []) : List Eff :=
  (setArrival j none).andThen (replyTo t code rank h runs words) s

/-- Two stores reach a common byte. -/
def sameBytes (a b : Req) : Bool :=
  a.kind == 1 && b.kind == 1 && a.asid == b.asid && tidOf a.handle == tidOf b.handle &&
  decide (offOf a.handle < offOf b.handle + b.bytes ∧ offOf b.handle < offOf a.handle + a.bytes)

/-- Access `i` of those of arrival `a` that have still to perform does, at its home, or is held there for a MOVING tile; of stores to one
location the highest element stands (09 R220). With the last one the reply goes out. -/
def serveElem (j i : Nat) (a : Arrival) (l : List (Nat × Req)) : Fx := fun s =>
  match l[i]? with
  | none => []
  | some (n, r) =>
    if (l.take i).any fun x => sameBytes x.2 r then []
    else match homeOne s r with
      | .did fl v e =>
        let a' := { a with left := some (l.eraseIdx i), flags := a.flags ||| fl, got := a.got ++ [(n, v)] }
        e ++ (if l.length = 1 then overWith j a.txn a'.flags 0 0 a'.got (s.applyAll e) else setArrival j (some a') (s.applyAll e))
      | .trap code at0 => overWith j a.txn code (trapPlace n r at0) 0 [] s
      | .wait => []
      | .moving asid tid m slice =>
        (match takeHeld s asid tid m slice (.elem a.txn n) with
          | some e => setArrival j (some { a with left := some l }) s ++ e
          | none => [])

/-- Accesses of another package: their checks, or, of kind 11, none; then each performs, in any order (10 R246). -/
def serveAccess (j i : Nat) (a : Arrival) : Fx := fun s =>
  let t := a.txn
  match a.left with
  | some l => serveElem j i a l s
  | none =>
    match (if t.kind = 11 then none else homeCheck s t.reqs) with
    | some (some (code, n)) => overWith j t code n 0 [] s
    | some none => []
    | none =>
      if t.kind = 6 ∨ t.reqs = [] then overWith j t 0 0 0 [] s
      else if t.reqs.length = 1 then serveElem j 0 a t.reqs s
      else setArrival j (some { a with left := some t.reqs }) s

/-- An access of the host performs, once the host's earlier ones have (10 R246); one that fails its checks has no effect. -/
def serveHost (j : Nat) (t : Txn) : Fx := fun s =>
  if (s.inbox.take j).any fun a => a.txn.kind == 9 then []
  else match homeData s t.req true with
    | .did _ v e => e ++ setArrival j none (s.applyAll e) ++ (if t.req.kind = 0 then [.out (.host (BitVec.ofNat 1024 (bytesToNat v)))] else [])
    | .trap _ _ => setArrival j none s
    | .moving asid tid n slice => (takeHeld s asid tid n slice (.elem t 0)).getD []
    | .wait => []

/-- An access of a camp core has its answer (17 R354). -/
def campAnswered (tag : Nat) (code : Byte) (v : List Byte) : Fx := fun s =>
  match s.camps.find? fun e => e.2.ops.any fun o => o.tag == some tag with
  | some (c, x) =>
    [.camp c { x with ops := x.ops.map fun o => if o.tag == some tag then { o with answer := some (code, v) } else o }]
  | none => []

/-- An access of camp core `t.rank` performs, or waits, held if its tile is MOVING. LR reserves its row, and SC stores only while the
row is still reserved (17 R351). -/
def serveCamp (j : Nat) (t : Txn) : Fx := fun s =>
  let r := t.req
  let x := s.camp t.rank
  let row := some (placeRow r.asid (tidOf r.handle) (offOf r.handle))
  let close (code : Byte) (v : List Byte) : Fx := (setArrival j none).andThen (campAnswered t.tag code v)
  match homeData s { r with kind := if r.kind = 17 then 0 else if r.kind = 18 then 1 else r.kind } false with
  | .wait => []
  | .moving asid tid n slice => (takeHeld s asid tid n slice (.elem t 0)).getD []
  | .trap code _ => close code [] s
  | .did _ v e =>
    if r.kind = 17 then (Fx.andThen (fun _ => [.camp t.rank { x with resv := row }]) (close 0 v)) s
    else if r.kind = 18 then
      (if x.resv = row then (Fx.andThen (fun _ => e ++ [.camp t.rank { x with resv := none }]) (close 0 [0])) s
      else (Fx.andThen (fun _ => [.camp t.rank { x with resv := none }]) (close 0 [1])) s)
    else e ++ close 0 v (s.applyAll e)

/-- The context and the tensor of an engine operation of another package. -/
def farCtx (t : Txn) : Ctx := agentCtx t.req.asid t.req.user

/-- An engine's target or source lies in a tensor. -/
def lowId (h : Word) (write : Bool) : Option Flaw := if tidOf h < 16 then some (cTILE_PROT, h, write) else none

/-- The units of an engine write, with the first byte of a tile that refuses a write in part; a drain's tiles take their own tags. -/
def farUnits (s : State) (t : Txn) : List WUnit × Option Nat :=
  let c := farCtx t
  let tid := tidOf t.req.handle
  if t.log = 2 then
    match readTensor s c.asid tid with
    | none => ([], none)
    | some d =>
      let lo := (t.words.getD 0 0).toNat
      let tb := (t.words.getD 1 0).toNat
      let src (x : Nat) : Nat := (t.words.getD (2 + (x - lo) / tb) 0).toNat
      t.runs.foldl (fun acc r =>
        let u := copyUnits s c.asid d lo (lo + (t.words.length - 2) * tb) src (fun x _ => [src x]) r
        (acc.1 ++ u.1, match acc.2 with | some x => some x | none => u.2)) ([], none)
  else
    let u := formatUnits s c tid t.first t.runs
    (u.units, u.refused)

/-- The units that perform together: the lines of an engine write, or the chunks of a collective's (13 R305, 18 R377). -/
def farGroups (s : State) (t : Txn) (us : List WUnit) : List (List WUnit) :=
  if t.log = 3 then
    let r := t.runs.headD (0, [])
    chunkUnits s r.1 r.2.length us
  else (us.flatMap lineUnits).map fun u => [u]

/-- The checks of an engine write: its id and its ranges, if it writes (18 R379), and its counters. -/
def farRanges (s : State) (t : Txn) : Option Flaw :=
  let c := farCtx t
  let h0 := t.req.handle
  let runs := t.runs.filter fun r => r.2 ≠ []
  firstFail ((if runs = [] then none else lowId h0 true) ::
    (runs.map fun r => firstBad s c (handleOf (tidOf h0) r.1) 0 ((r.2.length : Int) - 1) true) ++
    t.ctrs.map fun x => ctrCheck s c x.1 8)

/-- The counters that bytes of one line are counted in: those of a slab's chunks (13 R304). -/
def lineCounts (s : State) (t : Txn) (us : List WUnit) : List (Word × Nat) :=
  if t.log ≠ 1 then []
  else us.flatMap fun u =>
    let tb := ((readTensor s u.asid u.tid).map (·.tbytes)).getD 0
    chunkCounts (t.words.getD 0 0).toNat (t.words.getD 1 0).toNat (t.words.getD 2 0) (u.runs.map fun r => (u.n * tb + r.1, r.2))

/-- The refusal that an arrival answers in the end. -/
def Arrival.blame (a : Arrival) (f : Option Flaw) : Arrival :=
  { a with refused := match a.refused with | some r => some r | none => f.map fun f => (f.1, f.2.1) }

/-- Line or chunk `i` of an engine write performs and is counted; on a MOVING tile it is held; one that its tile refuses is not written. -/
def serveGroup (j i : Nat) (a : Arrival) (gs : List (List WUnit)) : Fx := fun s =>
  match gs[i]? with
  | none => []
  | some us =>
    match writeTogether us a.retagged s with
    | .ok (e, tags) =>
      (match addAll (farCtx a.txn) noTouch (lineCounts s a.txn us) (s.applyAll e) with
        | some r =>
          let es := e ++ r.effs
          es ++ setArrival j (some ({ a with units := some (gs.eraseIdx i), retagged := tags }.blame r.flaw)) (s.applyAll es)
        | none => [])
    | .error (u, true) => setArrival j (some ({ a with units := some (gs.eraseIdx i) }.blame (some (u.flaw s)))) s
    | .error (u, false) => holdUnit (.line a.txn us) u s

/-- An engine write of another package: its checks, once; then its lines, in any order; then its counters, and the reply. -/
def serveWrite (j i : Nat) (a : Arrival) : Fx := fun s =>
  let t := a.txn
  match a.units with
  | none =>
    (match farRanges s t with
      | some (code, h, _) => overWith j t code 0 h [] s
      | none =>
        let u := farUnits s t
        setArrival j (some { a with
          units := some (farGroups s t u.1), refused := u.2.map fun x => (cTAG_MISMATCH, handleOf (tidOf t.req.handle) x) }) s)
  | some [] =>
    (match a.refused with
      | some (code, h) => overWith j t code 0 h [] s
      | none => match addAll (farCtx t) noTouch t.ctrs s with
        | none => []
        | some r => r.effs ++ (match r.flaw with
          | some (code, h, _) => overWith j t code 0 h [] (s.applyAll r.effs)
          | none => overWith j t 0 0 0 [] (s.applyAll r.effs)))
  | some gs => serveGroup j i a gs s

/-- The checks of a slab's target and its counters, before its operation sends a byte (13 R303). -/
def serveChecks (j : Nat) (t : Txn) : Fx := fun s =>
  let c := farCtx t
  let h := t.words.getD 2 0
  let ctr := t.words.getD 0 0
  let far := firstFail [lowId h true, firstBad s c h 0 (((t.words.getD 3 0).toNat : Int) - 1) true,
    ctrCheck s c ctr (t.words.getD 1 0).toNat]
  match (match far with | some f => some f | none => (farUnits s t).2.map fun x => (cTAG_MISMATCH, handleOf (tidOf h) x, true)) with
  | some (code, h, _) => overWith j t code 0 h [] s
  | none => overWith j t 0 0 0 [] s

/-- An engine's read of a slab of this package. -/
def serveRead (j : Nat) (t : Txn) : Fx := fun s =>
  let c := farCtx t
  let tid := tidOf t.req.handle
  let r := t.runs.headD (0, [])
  let h := handleOf tid r.1
  let ok := tagIn t.first
  match firstFail [lowId h false, firstBad s c h 0 ((r.2.length : Int) - 1) false, tagScan s c ok tid [(r.1, r.2.length)]] with
  | some (code, h, _) => overWith j t code 0 h [] s
  | none =>
    match engRead s c ok tid r.1 r.2.length with
    | .absent _ => []
    | .fault code h => overWith j t code 0 h [] s
    | .bytes bs _ => overWith j t 0 0 0 [(0, bs)] s

/-- The part of a read that lies in one tile, whatever its tag, which goes with the bytes; none while the tile is absent. -/
def taggedPart (s : State) (c : Ctx) (t : Tensor) (p : Nat × Nat) : Option (Word × List Byte) :=
  let e := readTile s t (p.1 / t.tbytes)
  if malformed e.tag || classOf e.tag == 1 then some (BitVec.ofNat 64 e.tag, List.replicate p.2 0)
  else if !e.valid then none
  else some (BitVec.ofNat 64 e.tag, c.bytes s (frameKey t.tid e.frame (p.1 % t.tbytes)) p.2)

/-- An operation's read by the handle of a REMOTE tensor (18 R369). -/
def serveFarRead (j : Nat) (t : Txn) : Fx := fun s =>
  let c := farCtx t
  let tid := tidOf t.req.handle
  let r := t.runs.headD (0, [])
  match firstFail [lowId t.req.handle false, firstBad s c (handleOf tid r.1) 0 ((r.2.length : Int) - 1) false] with
  | some (code, h, _) => overWith j t code 0 h [] s
  | none =>
    match readTensor s c.asid tid with
    | none => []
    | some tn =>
      match allSome ((rangeSegments tn.tbytes r.1 r.2.length).map (taggedPart s c tn)) with
      | none => []
      | some l => overWith j t 0 0 0 [(0, l.flatMap (·.2))] s (BitVec.ofNat 64 tn.tbytes :: l.map (·.1))

/-- An operation's add to a counter in a REMOTE tensor (18 R369, R384). -/
def serveAdd (j : Nat) (t : Txn) : Fx := fun s =>
  let x := t.ctrs.headD (0, 0)
  match counterAdd s (farCtx t) x.1 (BitVec.ofNat 64 x.2) with
  | .done e old _ => e ++ overWith j t 0 0 0 [(0, natToBytes 8 old.toNat)] (s.applyAll e)
  | .fault code h => overWith j t code 0 h [] s
  | _ => []

/-! ### Collectives (18 R371 to R378) -/

/-- A contribution from port `p`; a slot that has emitted passes it on. -/
def serveContrib (p : Nat) (t : Txn) : Fx := fun s =>
  let x := txnContrib t p
  let cb : Cb := ⟨x.words⟩
  (Fx.andThen (contribute x) (passUp (collKey cb.map cb.seq) x)) s

/-- A combined result comes down the tree, or from the package that combines. -/
def serveResult (t : Txn) : Fx := fun s =>
  let key := collKey t.map t.seq
  match s.collNow key with
  | some c =>
    if c.aborted.isSome || c.result.isSome then []
    else
      let r := (t.data, BitVec.ofNat 5 t.first)
      let group := (c.contribs.head?.map fun x => Cb.group ⟨x.words⟩).getD 0
      let down := (List.range 16).filter fun i => c.slot.isSome && bitOf (FMap.get 0 s.trees group) i
      (Fx.andThen (fun _ => [.coll key (some { c with result := some r })])
        (Fx.andThen (sendTo key (down.map fun i => (s.port i).peerPkg.toNat) (resultTxn c r) 3) (forgetColl key))) s
  | none => []

/-- A collective aborted elsewhere: one that nobody here knows of yet is kept as aborted, and one that is over stays so (18 R378). -/
def serveAbort (t : Txn) : Fx := fun s =>
  let key := collKey t.map t.seq
  let v := BitVec.ofNat 64 t.first
  match s.coll key with
  | some _ => abortColl key v false s
  | none => (Fx.andThen (fun s => [.coll key (some { blankColl key t.log s with aborted := some v }), .fresh]) (forgetColl key)) s

/-! ### Replies -/

/-- The access one of whose requests has a tag. -/
def accessWith (s : State) (tag : Nat) : Option (Nat × Access) :=
  (s.accs.filterMap fun e => match e.2 with
    | some a => if a.remote && a.reply.isNone && a.pieces.any (·.elem == tag) then some (e.1, a) else none
    | none => none).head?

/-- The operation one of whose pieces has a tag. -/
def pieceWith (s : State) (tag : Nat) : Option (Nat × Op × MPiece) :=
  (s.ops.filterMap fun e => match e.2 with
    | some o => (o.pieces.find? fun p => p.tag == some tag).map fun p => (e.1, o, p)
    | none => none).head?

/-- The value of an access: element `i` of `w` bytes at byte i·w. -/
def gathered (got : List (Nat × Nat × List Byte)) : Vec :=
  got.foldl (fun v g => v ||| BitVec.ofNat 1024 (bytesToNat g.2.2 * 2 ^ (8 * (g.1 * g.2.2.length)))) 0

/-- A trap rather than flags. -/
def isTrap (code : Nat) : Bool := decide (0 < code ∧ code < 32)

/-- The trap of the lowest element, if there is one: the element and the code. -/
def lowestTrap (got : List (Nat × Nat × List Byte)) : Option (Nat × Nat) :=
  (got.filter fun g => isTrap g.2.1).foldl (fun b g => match b with
    | none => some (g.1, g.2.1)
    | some x => some (if g.1 < x.1 then (g.1, g.2.1) else x)) none

/-- The answer of an access from the answers to its requests. -/
def replyOf (got : List (Nat × Nat × List Byte)) : Byte × Nat × Vec :=
  match lowestTrap got with
  | some (e, code) => (BitVec.ofNat 8 code, e, 0)
  | none => (BitVec.ofNat 8 ((got.map (·.2.1)).foldl max 0), 0, gathered got)

/-- A request of an access is answered; the access has its answer with the last one. -/
def accessAnswered (n : Nat) (a : Access) (tag : Nat) (new : List (Nat × Nat × List Byte)) : Fx := fun s =>
  let got := a.got ++ new
  let rest := a.pieces.filter (·.elem != tag)
  if rest = [] then replied n { a with got := got } (replyOf got) s else [.access n (some { a with pieces := rest, got := got })]

/-- A reply reaches what waits for it. -/
def answered (t : Txn) : Fx := fun s =>
  match accessWith s t.tag, pieceWith s t.tag with
  | some (n, a), _ =>
    accessAnswered n a t.tag (if isTrap t.first then [(t.rank, t.first, [])]
      else match t.runs with
        | [] => [(0, t.first, [])]
        | rs => rs.map fun r => (r.1, t.first, r.2)) s
  | none, some (n, o, p) =>
    [.op n (some (o.pieceOver p (if t.first = 0 then none else some (BitVec.ofNat 8 t.first, t.req.handle)) t.words (t.runs.flatMap (·.2))))]
  | none, none => campAnswered t.tag (BitVec.ofNat 8 t.first) (t.runs.flatMap (·.2)) s

/-- The collective of a col.red, whose block it has read, or reads now. -/
def redKey (s : State) (o : Op) : Option Nat :=
  let ws := if o.table ≠ [] then o.table else match readBlock s (opCtx s o) o.a1 8 with | .words ws _ => ws | _ => []
  if ws = [] then none else some (collKey (Cb.map ⟨ws⟩) (Cb.seq ⟨ws⟩))

/-- A col.red that cannot reach another package never faults with LINK_LOST: its collective aborts (18 R369, R378), and so does an operation
that has not contributed to it yet. -/
def collLost (n : Nat) (o : Op) (p : MPiece) : Fx :=
  let v := if p.thru.isSome then BitVec.ofNat 64 (field o.a2 0 12) else p.lost
  Fx.andThen (fun s => match redKey s o with
      | some key => abortColl key v true s
      | none => [])
    (fun s => match s.op n with
      | some o => if o.fault.isSome then [] else [.op n (some { o with state := .ready, pieces := [], fault := some (cCOLL_ABORT, v, false) })]
      | none => [])

/-- What waits for the answer to a transaction learns that it is lost (18 R369). -/
def lostTo (tag : Nat) : Fx := fun s =>
  match accessWith s tag, pieceWith s tag with
  | some (n, a), _ =>
    accessAnswered n a tag ((a.pieces.filter (·.elem == tag)).map fun p => (p.len, cLINK_LOST.toNat, [])) s
  | none, some (n, o, p) => if o.op9 = 0x0E1 then collLost n o p s else [.op n (some (o.pieceOver p (some (cLINK_LOST, p.lost)) [] []))]
  | none, none => campAnswered tag cLINK_LOST [] s

/-! ### The agents of the inbox -/

/-- Arrival `j` of the inbox goes on: an access or the checks of one, line `i` of an engine write, a reply. -/
def serveArrival (j i : Nat) : Fx := fun s =>
  match s.inbox[j]? with
  | none => []
  | some a =>
    match a.txn.kind with
    | 0 | 6 | 11 => serveAccess j i a s
    | 1 => serveWrite j i a s
    | 7 => serveChecks j a.txn s
    | 8 => serveRead j a.txn s
    | 9 => serveHost j a.txn s
    | 10 => serveCamp j a.txn s
    | 12 => serveFarRead j a.txn s
    | 13 => serveAdd j a.txn s
    | _ => (Fx.andThen (setArrival j none) (answered a.txn)) s

/-- A transaction from port `p` is performed at this package, once (18 R363); or goes on to its destination, a global hop further. -/
def serve (p : Nat) (t : Txn) : Fx := fun s =>
  if t.dst ≠ ownPackage s then [.send { t with hops := t.hops + (if 11 ≤ p then 1 else 0) }]
  else if t.kind = 5 then answered t s
  else if s.done.contains (t.src, t.tag) then []
  else
    .done (((t.src, t.tag) :: s.done).take (2 ^ 19)) ::
      (match t.kind with
        | 2 => serveContrib p t s
        | 3 => serveResult t s
        | 4 => serveAbort t s
        | _ => [.inbox (s.inbox ++ [newArrival t])])

/-- A host read or write of up to 128 bytes of a tensor (10 R246). One that has to wait stays in the inbox, the host's later ones behind
it. -/
def hostTensor (r : Req) : Fx :=
  Fx.andThen (fun s => [.inbox (s.inbox ++ [newArrival { newTxn s 0 0 9 with req := { r with user := true } }])])
    (fun s => serveArrival (s.inbox.length - 1) 0 s)

/-! ### The release of held writes (14 R329) -/

/-- A held write performs, now that its tile has a place. -/
def releaseOne (h : Held) : Fx := fun s =>
  match h.what with
  | .access n p => (match s.access n with
    | some a => if a.pieces.contains p && inOrder s n a then (performStep n a p s).getD [] else []
    | none => [])
  | .unit n u => (match s.op n with
    | some o => if o.units.contains u then unitStep n o u s else []
    | none => [])
  | .piece n p => (match s.op n with
    | some o => if o.pieces.contains p then pieceStep n o p s else []
    | none => [])
  | .elem t i =>
    let j := s.inbox.findIdx fun a => a.txn == t
    (match s.inbox[j]? with
      | some a =>
        if t.kind = 9 then serveHost j t s
        else if t.kind = 10 then serveCamp j t s
        else
          let l := a.left.getD t.reqs
          serveElem j (l.findIdx fun x => x.1 == i) a l s
      | none => [])
  | .line t us =>
    let j := s.inbox.findIdx fun a => a.txn == t
    (match s.inbox[j]? with
      | some a => (match a.units with
        | some gs => serveGroup j (gs.findIdx (· == us)) a gs s
        | none => [])
      | none => [])

end Sys2Proof.Machine
end

