-- ==== Sys2Proof/Machine/Scalar.lean ====
section
/-!
DEFINITION. Scalar arithmetic, logic, immediates and constants (04 R82 to R91). Each meaning is one line over a shared operation
on two or three words.
-/
namespace Sys2Proof.Machine

/-! ### Operations on words -/

def bit64 (b : Bool) : Word := if b then 1 else 0

/-- Shifts by the low 7 bits of the amount, never reduced modulo the width (02 R41). -/
def shl7 (a b : Word) : Word := a <<< (b.toNat % 128)
def shr7 (a b : Word) : Word := a >>> (b.toNat % 128)
def sar7 (a b : Word) : Word := a.sshiftRight (b.toNat % 128)

/-- Bits 127 to 64 of the product (04 R87). -/
def mulHigh (a b : Word) : Word := BitVec.ofInt 64 (a.toInt * b.toInt / (2 ^ 64 : Int))
def mulHighU (a b : Word) : Word := BitVec.ofNat 64 (a.toNat * b.toNat / 2 ^ 64)

/-- Division (02 R40, 04 R88). -/
def divS (a b : Word) : Word := if b = 0 then BitVec.allOnes 64 else BitVec.ofInt 64 (a.toInt.tdiv b.toInt)
def remS (a b : Word) : Word := if b = 0 then a else BitVec.ofInt 64 (a.toInt - a.toInt.tdiv b.toInt * b.toInt)
def divU (a b : Word) : Word := if b = 0 then BitVec.allOnes 64 else BitVec.ofNat 64 (a.toNat / b.toNat)
def remU (a b : Word) : Word := if b = 0 then a else BitVec.ofNat 64 (a.toNat % b.toNat)

/-- Zero bits above the highest 1 bit (04 R87). -/
def leadZeros (a : Word) : Word := BitVec.ofNat 64 (64 - bitLen a.toNat)

/-- Bits below the lowest one bit, among the first `n` bits from bit `i`. -/
def lowZeros (a : Word) : Nat → Nat → Nat
  | 0, i => i
  | n + 1, i => if a.getLsbD i then i else lowZeros a n (i + 1)

def trailZeros (a : Word) : Word := BitVec.ofNat 64 (lowZeros a 64 0)

/-- One bits among the first `n` bits. -/
def onesBelow (p : Nat → Bool) : Nat → Nat
  | 0 => 0
  | n + 1 => (if p n then 1 else 0) + onesBelow p n

def countOnes (a : Word) : Word := BitVec.ofNat 64 (onesBelow a.getLsbD 64)

/-- Signed saturation to 64 bits (02 R39). -/
def satS64 (z : Int) : Word := BitVec.ofInt 64 (clampInt 64 true z)

/-- Bits `pos` to `pos + len - 1`, extended (04 R90). -/
def extField (a : Word) (pos len : Nat) (zero : Bool) : Word :=
  let f := a.toNat / 2 ^ pos % 2 ^ len
  if zero then BitVec.ofNat 64 f else BitVec.ofInt 64 (intVal len true f)

/-- An operation of a register instruction: the FN field, then the values of sa, sb and sc. -/
abbrev Op3 := BitVec 4 → Word → Word → Word → Word

def plain (h : Word → Word → Word) : Op3 := fun _ a b _ => h a b
def addOp : Op3 := fun fn a b _ => if fn = 1 then satS64 (a.toInt + b.toInt) else a + b
def subOp : Op3 := fun fn a b _ => if fn = 1 then satS64 (a.toInt - b.toInt) else a - b
def selOp : Op3 := fun _ a b c => if c ≠ 0 then a else b

/-- A register-register instruction (04 R86, R87): every source is read before sd is written. -/
def aluFS (op9 len : Nat) (h : Op3) (f : FS) (s : State) : Host.Outcome State Fault Refusal :=
  issue s (scalarDesc op9 len f.g f.fp f.fo [f.sd.toNat, f.sa.toNat, f.sb.toNat, f.sc.toNat]) fun t =>
    .seq fun _ => [.sreg t.cur f.sd.toNat
      (h f.fn (t.sreg t.cur f.sa.toNat) (t.sreg t.cur f.sb.toNat) (t.sreg t.cur f.sc.toNat))]

/-- An immediate instruction (04 R89). -/
def aluImm (op9 : Nat) (h : Word → Word → Word) (f : ImmForm) (s : State) : Host.Outcome State Fault Refusal :=
  issue s (scalarDesc op9 f.len f.g f.fp f.fo [f.sd, f.sa]) fun t =>
    .seq fun _ => [.sreg t.cur f.sd (h (t.sreg t.cur f.sa) f.imm)]

/-! ### The register-register instructions -/

def execAdd (f : FS) (s : State) : Host.Outcome State Fault Refusal := aluFS 0x001 8 addOp f s

def execSub (f : FS) (s : State) : Host.Outcome State Fault Refusal := aluFS 0x002 8 subOp f s

def execAnd (f : FS) (s : State) : Host.Outcome State Fault Refusal := aluFS 0x003 8 (plain (· &&& ·)) f s

def execOr (f : FS) (s : State) : Host.Outcome State Fault Refusal := aluFS 0x004 8 (plain (· ||| ·)) f s

def execXor (f : FS) (s : State) : Host.Outcome State Fault Refusal := aluFS 0x005 8 (plain (· ^^^ ·)) f s

def execSll (f : FS) (s : State) : Host.Outcome State Fault Refusal := aluFS 0x006 8 (plain shl7) f s

def execSrl (f : FS) (s : State) : Host.Outcome State Fault Refusal := aluFS 0x007 8 (plain shr7) f s

def execSra (f : FS) (s : State) : Host.Outcome State Fault Refusal := aluFS 0x008 8 (plain sar7) f s

def execSlt (f : FS) (s : State) : Host.Outcome State Fault Refusal := aluFS 0x009 8 (plain fun a b => bit64 (a.slt b)) f s

def execSltu (f : FS) (s : State) : Host.Outcome State Fault Refusal := aluFS 0x00A 8 (plain fun a b => bit64 (a.ult b)) f s

def execMul (f : FS) (s : State) : Host.Outcome State Fault Refusal := aluFS 0x00B 8 (plain (· * ·)) f s

def execMulh (f : FS) (s : State) : Host.Outcome State Fault Refusal := aluFS 0x00C 8 (plain mulHigh) f s

def execMulhu (f : FS) (s : State) : Host.Outcome State Fault Refusal := aluFS 0x00D 8 (plain mulHighU) f s

def execDiv (f : FS) (s : State) : Host.Outcome State Fault Refusal := aluFS 0x00E 8 (plain divS) f s

def execDivu (f : FS) (s : State) : Host.Outcome State Fault Refusal := aluFS 0x00F 8 (plain divU) f s

def execRem (f : FS) (s : State) : Host.Outcome State Fault Refusal := aluFS 0x010 8 (plain remS) f s

def execRemu (f : FS) (s : State) : Host.Outcome State Fault Refusal := aluFS 0x011 8 (plain remU) f s

def execMin (f : FS) (s : State) : Host.Outcome State Fault Refusal := aluFS 0x012 8 (plain fun a b => if a.sle b then a else b) f s

def execMax (f : FS) (s : State) : Host.Outcome State Fault Refusal := aluFS 0x013 8 (plain fun a b => if b.sle a then a else b) f s

def execMinu (f : FS) (s : State) : Host.Outcome State Fault Refusal := aluFS 0x014 8 (plain fun a b => if a.ule b then a else b) f s

def execMaxu (f : FS) (s : State) : Host.Outcome State Fault Refusal := aluFS 0x015 8 (plain fun a b => if b.ule a then a else b) f s

def execClz (f : FS) (s : State) : Host.Outcome State Fault Refusal := aluFS 0x016 8 (plain fun a _ => leadZeros a) f s

def execCtz (f : FS) (s : State) : Host.Outcome State Fault Refusal := aluFS 0x017 8 (plain fun a _ => trailZeros a) f s

def execPopc (f : FS) (s : State) : Host.Outcome State Fault Refusal := aluFS 0x018 8 (plain fun a _ => countOnes a) f s

def execSel (f : FS) (s : State) : Host.Outcome State Fault Refusal := aluFS 0x019 8 selOp f s

/-- No register changes; the FIFO fields act in the issue wrapper (04 R88). -/
def execNop (f : FS) (s : State) : Host.Outcome State Fault Refusal :=
  issue s (scalarDesc 0x01A 8 f.g f.fp f.fo []) fun _ => .seq Fx.none

/-! ### The 32-bit register words (03 R73) -/

def execAddX32 (f : CS) (s : State) : Host.Outcome State Fault Refusal := aluFS 0x001 4 addOp f.wide s

def execSubX32 (f : CS) (s : State) : Host.Outcome State Fault Refusal := aluFS 0x002 4 subOp f.wide s

def execAndX32 (f : CS) (s : State) : Host.Outcome State Fault Refusal := aluFS 0x003 4 (plain (· &&& ·)) f.wide s

def execOrX32 (f : CS) (s : State) : Host.Outcome State Fault Refusal := aluFS 0x004 4 (plain (· ||| ·)) f.wide s

def execXorX32 (f : CS) (s : State) : Host.Outcome State Fault Refusal := aluFS 0x005 4 (plain (· ^^^ ·)) f.wide s

def execSllX32 (f : CS) (s : State) : Host.Outcome State Fault Refusal := aluFS 0x006 4 (plain shl7) f.wide s

def execSrlX32 (f : CS) (s : State) : Host.Outcome State Fault Refusal := aluFS 0x007 4 (plain shr7) f.wide s

def execSraX32 (f : CS) (s : State) : Host.Outcome State Fault Refusal := aluFS 0x008 4 (plain sar7) f.wide s

def execSltX32 (f : CS) (s : State) : Host.Outcome State Fault Refusal := aluFS 0x009 4 (plain fun a b => bit64 (a.slt b)) f.wide s

def execSltuX32 (f : CS) (s : State) : Host.Outcome State Fault Refusal := aluFS 0x00A 4 (plain fun a b => bit64 (a.ult b)) f.wide s

def execMulX32 (f : CS) (s : State) : Host.Outcome State Fault Refusal := aluFS 0x00B 4 (plain (· * ·)) f.wide s

def execMulhX32 (f : CS) (s : State) : Host.Outcome State Fault Refusal := aluFS 0x00C 4 (plain mulHigh) f.wide s

def execMulhuX32 (f : CS) (s : State) : Host.Outcome State Fault Refusal := aluFS 0x00D 4 (plain mulHighU) f.wide s

def execDivX32 (f : CS) (s : State) : Host.Outcome State Fault Refusal := aluFS 0x00E 4 (plain divS) f.wide s

def execDivuX32 (f : CS) (s : State) : Host.Outcome State Fault Refusal := aluFS 0x00F 4 (plain divU) f.wide s

def execRemX32 (f : CS) (s : State) : Host.Outcome State Fault Refusal := aluFS 0x010 4 (plain remS) f.wide s

def execRemuX32 (f : CS) (s : State) : Host.Outcome State Fault Refusal := aluFS 0x011 4 (plain remU) f.wide s

def execMinX32 (f : CS) (s : State) : Host.Outcome State Fault Refusal := aluFS 0x012 4 (plain fun a b => if a.sle b then a else b) f.wide s

def execMaxX32 (f : CS) (s : State) : Host.Outcome State Fault Refusal := aluFS 0x013 4 (plain fun a b => if b.sle a then a else b) f.wide s

def execMinuX32 (f : CS) (s : State) : Host.Outcome State Fault Refusal := aluFS 0x014 4 (plain fun a b => if a.ule b then a else b) f.wide s

def execMaxuX32 (f : CS) (s : State) : Host.Outcome State Fault Refusal := aluFS 0x015 4 (plain fun a b => if b.ule a then a else b) f.wide s

def execClzX32 (f : CS) (s : State) : Host.Outcome State Fault Refusal := aluFS 0x016 4 (plain fun a _ => leadZeros a) f.wide s

def execCtzX32 (f : CS) (s : State) : Host.Outcome State Fault Refusal := aluFS 0x017 4 (plain fun a _ => trailZeros a) f.wide s

def execPopcX32 (f : CS) (s : State) : Host.Outcome State Fault Refusal := aluFS 0x018 4 (plain fun a _ => countOnes a) f.wide s

def execSelX32 (f : CS) (s : State) : Host.Outcome State Fault Refusal := aluFS 0x019 4 selOp f.wide s

def execNopX32 (s : State) : Host.Outcome State Fault Refusal :=
  issue s (scalarDesc 0x01A 4 unguarded 0 0 []) fun _ => .seq Fx.none

/-! ### Immediate forms (04 R89) -/

def execAddi (f : FI) (s : State) : Host.Outcome State Fault Refusal := aluImm 0x020 (· + ·) f.form s

def execAndi (f : FI) (s : State) : Host.Outcome State Fault Refusal := aluImm 0x021 (· &&& ·) f.form s

def execOri (f : FI) (s : State) : Host.Outcome State Fault Refusal := aluImm 0x022 (· ||| ·) f.form s

def execXori (f : FI) (s : State) : Host.Outcome State Fault Refusal := aluImm 0x023 (· ^^^ ·) f.form s

def execSlli (f : FI) (s : State) : Host.Outcome State Fault Refusal := aluImm 0x024 shl7 f.form s

def execSrli (f : FI) (s : State) : Host.Outcome State Fault Refusal := aluImm 0x025 shr7 f.form s

def execSrai (f : FI) (s : State) : Host.Outcome State Fault Refusal := aluImm 0x026 sar7 f.form s

def execSlti (f : FI) (s : State) : Host.Outcome State Fault Refusal := aluImm 0x027 (fun a b => bit64 (a.slt b)) f.form s

def execSltiu (f : FI) (s : State) : Host.Outcome State Fault Refusal := aluImm 0x028 (fun a b => bit64 (a.ult b)) f.form s

def execAddiX32 (f : CI) (s : State) : Host.Outcome State Fault Refusal := aluImm 0x020 (· + ·) f.form s

def execAndiX32 (f : CI) (s : State) : Host.Outcome State Fault Refusal := aluImm 0x021 (· &&& ·) f.form s

def execOriX32 (f : CI) (s : State) : Host.Outcome State Fault Refusal := aluImm 0x022 (· ||| ·) f.form s

def execXoriX32 (f : CI) (s : State) : Host.Outcome State Fault Refusal := aluImm 0x023 (· ^^^ ·) f.form s

def execSlliX32 (f : CI) (s : State) : Host.Outcome State Fault Refusal := aluImm 0x024 shl7 f.form s

def execSrliX32 (f : CI) (s : State) : Host.Outcome State Fault Refusal := aluImm 0x025 shr7 f.form s

def execSraiX32 (f : CI) (s : State) : Host.Outcome State Fault Refusal := aluImm 0x026 sar7 f.form s

def execSltiX32 (f : CI) (s : State) : Host.Outcome State Fault Refusal := aluImm 0x027 (fun a b => bit64 (a.slt b)) f.form s

def execSltiuX32 (f : CI) (s : State) : Host.Outcome State Fault Refusal := aluImm 0x028 (fun a b => bit64 (a.ult b)) f.form s

def execAddiX96 (f : FI96) (s : State) : Host.Outcome State Fault Refusal := aluImm 0x020 (· + ·) f.form s

def execAndiX96 (f : FI96) (s : State) : Host.Outcome State Fault Refusal := aluImm 0x021 (· &&& ·) f.form s

def execOriX96 (f : FI96) (s : State) : Host.Outcome State Fault Refusal := aluImm 0x022 (· ||| ·) f.form s

def execXoriX96 (f : FI96) (s : State) : Host.Outcome State Fault Refusal := aluImm 0x023 (· ^^^ ·) f.form s

def execSltiX96 (f : FI96) (s : State) : Host.Outcome State Fault Refusal := aluImm 0x027 (fun a b => bit64 (a.slt b)) f.form s

def execSltiuX96 (f : FI96) (s : State) : Host.Outcome State Fault Refusal := aluImm 0x028 (fun a b => bit64 (a.ult b)) f.form s

/-- `ext` and `ext.z` (04 R90). -/
def execExtI (f : FI) (s : State) : Host.Outcome State Fault Refusal :=
  aluImm 0x029 (fun a imm => extField a (imm.toNat % 64) (imm.toNat / 64 % 64 + 1) (imm.getLsbD 12)) f.form s

/-- `li` (04 R91): the constant sign-extended, or the whole 64 bits of the 96-bit word. -/
def execLi (f : FK) (s : State) : Host.Outcome State Fault Refusal :=
  issue s (scalarDesc 0x02A 8 f.g 0 0 [f.sd.toNat]) fun t => .seq fun _ => [.sreg t.cur f.sd.toNat (sext 32 f.k32)]

def execLiX96 (f : FK96) (s : State) : Host.Outcome State Fault Refusal :=
  issue s (scalarDesc 0x02A 12 f.g 0 0 [f.sd.toNat]) fun t => .seq fun _ => [.sreg t.cur f.sd.toNat (f.k32 ++ f.lit)]

end Sys2Proof.Machine
end

