-- ==== Sys2Proof/Machine/Riscv.lean ====
section
/-!
DEFINITION. The instructions of a camp core (17 R351): RV64GC in user mode, decoded and computed as the RISC-V unprivileged specification
that the rule names gives them, since the manual does not repeat it (notes/assumptions/46.md). What an instruction does to memory, to
the episode and to the registers that it loads is Camp.lean's.
-/
namespace Sys2Proof.Machine

/-! ### Fields -/

/-- `n` bits of an instruction from bit `lo` up. -/
def rvBits (w lo n : Nat) : Nat := w / 2 ^ lo % 2 ^ n

def rvRd (w : Nat) : Nat := rvBits w 7 5
def rvRs1 (w : Nat) : Nat := rvBits w 15 5
def rvRs2 (w : Nat) : Nat := rvBits w 20 5
def rvRs3 (w : Nat) : Nat := rvBits w 27 5
def rvF3 (w : Nat) : Nat := rvBits w 12 3

/-- The low `n` bits of a number, sign-extended. -/
def rvSext (n v : Nat) : Word := BitVec.ofInt 64 (intVal n true v)

def rvImmI (w : Nat) : Word := rvSext 12 (rvBits w 20 12)
def rvImmS (w : Nat) : Word := rvSext 12 (rvBits w 25 7 * 32 + rvBits w 7 5)
def rvImmU (w : Nat) : Word := rvSext 32 (rvBits w 12 20 * 4096)
def rvImmB (w : Nat) : Word :=
  rvSext 13 (rvBits w 31 1 * 4096 + rvBits w 7 1 * 2048 + rvBits w 25 6 * 32 + rvBits w 8 4 * 2)
def rvImmJ (w : Nat) : Word :=
  rvSext 21 (rvBits w 31 1 * 2 ^ 20 + rvBits w 12 8 * 4096 + rvBits w 20 1 * 2048 + rvBits w 21 10 * 2)

/-! ### Compressed instructions

Each stands for a 32-bit one, built here from its fields. -/

def rvEncR (f7 rs2 rs1 f3 rd op : Nat) : Nat := f7 * 2 ^ 25 + rs2 * 2 ^ 20 + rs1 * 2 ^ 15 + f3 * 2 ^ 12 + rd * 2 ^ 7 + op
def rvEncI (imm rs1 f3 rd op : Nat) : Nat := imm % 4096 * 2 ^ 20 + rs1 * 2 ^ 15 + f3 * 2 ^ 12 + rd * 2 ^ 7 + op
def rvEncS (imm rs2 rs1 f3 op : Nat) : Nat := rvEncR (rvBits imm 5 7) rs2 rs1 f3 (imm % 32) op
def rvEncB (imm rs2 rs1 f3 : Nat) : Nat :=
  rvEncR (rvBits imm 12 1 * 64 + rvBits imm 5 6) rs2 rs1 f3 (rvBits imm 1 4 * 2 + rvBits imm 11 1) 0x63
def rvEncJ (imm rd : Nat) : Nat :=
  rvBits imm 20 1 * 2 ^ 31 + rvBits imm 1 10 * 2 ^ 21 + rvBits imm 11 1 * 2 ^ 20 + rvBits imm 12 8 * 2 ^ 12 + rd * 2 ^ 7 + 0x6F

/-- A field of `n` bits sign-extended to 21 bits. -/
def rvWide (n v : Nat) : Nat := wrapInt 21 (intVal n true v)

/-- Quadrant 0: c.addi4spn, loads and stores of registers 8 to 15. -/
def rvQuad0 (c : Nat) : Option Nat :=
  let rd := 8 + rvBits c 2 3
  let rs := 8 + rvBits c 7 3
  let d := rvBits c 10 3 * 8 + rvBits c 5 2 * 64
  let w := rvBits c 10 3 * 8 + rvBits c 6 1 * 4 + rvBits c 5 1 * 64
  match rvBits c 13 3 with
  | 0 =>
    let imm := rvBits c 11 2 * 16 + rvBits c 7 4 * 64 + rvBits c 6 1 * 4 + rvBits c 5 1 * 8
    if imm = 0 then none else some (rvEncI imm 2 0 rd 0x13)
  | 1 => some (rvEncI d rs 3 rd 0x07)
  | 2 => some (rvEncI w rs 2 rd 0x03)
  | 3 => some (rvEncI d rs 3 rd 0x03)
  | 5 => some (rvEncS d rd rs 3 0x27)
  | 6 => some (rvEncS w rd rs 2 0x23)
  | 7 => some (rvEncS d rd rs 3 0x23)
  | _ => none

/-- Quadrant 1: immediates, arithmetic of registers 8 to 15, jumps and branches. -/
def rvQuad1 (c : Nat) : Option Nat :=
  let rd := rvBits c 7 5
  let rs := 8 + rvBits c 7 3
  let r2 := 8 + rvBits c 2 3
  let raw := rvBits c 12 1 * 32 + rvBits c 2 5
  let imm := rvWide 6 raw
  let off := rvWide 9 (rvBits c 12 1 * 256 + rvBits c 10 2 * 8 + rvBits c 5 2 * 64 + rvBits c 3 2 * 2 + rvBits c 2 1 * 32)
  match rvBits c 13 3 with
  | 0 => some (rvEncI imm rd 0 rd 0x13)
  | 1 => if rd = 0 then none else some (rvEncI imm rd 0 rd 0x1B)
  | 2 => some (rvEncI imm 0 0 rd 0x13)
  | 3 =>
    if raw = 0 then none
    else if rd = 2 then
      some (rvEncI (rvWide 10 (rvBits c 12 1 * 512 + rvBits c 6 1 * 16 + rvBits c 5 1 * 64 + rvBits c 3 2 * 128 + rvBits c 2 1 * 32)) 2 0 2 0x13)
    else some (imm % 2 ^ 20 * 4096 + rd * 2 ^ 7 + 0x37)
  | 4 =>
    (match rvBits c 10 2 with
      | 0 => some (rvEncI raw rs 5 rs 0x13)
      | 1 => some (rvEncI (0x400 + raw) rs 5 rs 0x13)
      | 2 => some (rvEncI imm rs 7 rs 0x13)
      | _ =>
        match rvBits c 12 1, rvBits c 5 2 with
        | 0, 0 => some (rvEncR 0x20 r2 rs 0 rs 0x33)
        | 0, 1 => some (rvEncR 0 r2 rs 4 rs 0x33)
        | 0, 2 => some (rvEncR 0 r2 rs 6 rs 0x33)
        | 0, _ => some (rvEncR 0 r2 rs 7 rs 0x33)
        | _, 0 => some (rvEncR 0x20 r2 rs 0 rs 0x3B)
        | _, 1 => some (rvEncR 0 r2 rs 0 rs 0x3B)
        | _, _ => none)
  | 5 =>
    some (rvEncJ (rvWide 12 (rvBits c 12 1 * 2048 + rvBits c 11 1 * 16 + rvBits c 9 2 * 256 + rvBits c 8 1 * 1024 + rvBits c 7 1 * 64 +
      rvBits c 6 1 * 128 + rvBits c 3 3 * 2 + rvBits c 2 1 * 32)) 0)
  | 6 => some (rvEncB off 0 rs 0)
  | _ => some (rvEncB off 0 rs 1)

/-- Quadrant 2: shifts, accesses relative to the stack pointer, moves and register jumps. -/
def rvQuad2 (c : Nat) : Option Nat :=
  let rd := rvBits c 7 5
  let r2 := rvBits c 2 5
  let ld := rvBits c 12 1 * 32 + rvBits c 5 2 * 8 + rvBits c 2 3 * 64
  let lw := rvBits c 12 1 * 32 + rvBits c 4 3 * 4 + rvBits c 2 2 * 64
  let sd := rvBits c 10 3 * 8 + rvBits c 7 3 * 64
  let sw := rvBits c 9 4 * 4 + rvBits c 7 2 * 64
  match rvBits c 13 3 with
  | 0 => some (rvEncI (rvBits c 12 1 * 32 + r2) rd 1 rd 0x13)
  | 1 => some (rvEncI ld 2 3 rd 0x07)
  | 2 => if rd = 0 then none else some (rvEncI lw 2 2 rd 0x03)
  | 3 => if rd = 0 then none else some (rvEncI ld 2 3 rd 0x03)
  | 4 =>
    if rvBits c 12 1 = 0 then
      (if r2 ≠ 0 then some (rvEncR 0 r2 0 0 rd 0x33) else if rd = 0 then none else some (rvEncI 0 rd 0 0 0x67))
    else if r2 ≠ 0 then some (rvEncR 0 r2 rd 0 rd 0x33)
    else if rd = 0 then some 0x00100073
    else some (rvEncI 0 rd 0 1 0x67)
  | 5 => some (rvEncS sd r2 2 3 0x27)
  | 6 => some (rvEncS sw r2 2 2 0x23)
  | _ => some (rvEncS sd r2 2 3 0x23)

/-- The 32-bit instruction that a compressed one stands for. -/
def rvExpand (c : Nat) : Option Nat :=
  match c % 4 with
  | 0 => rvQuad0 c
  | 1 => rvQuad1 c
  | _ => rvQuad2 c

/-! ### Integer arithmetic -/

/-- A word of 32 bits, sign-extended. -/
def rvW (v : Word) : Word := (v.setWidth 32).signExtend 64

/-- OP and OP-IMM; `alt` is bit 30. -/
def rvAlu (f3 : Nat) (alt : Bool) (a b : Word) : Word :=
  match f3 with
  | 0 => if alt then a - b else a + b
  | 1 => a <<< (b.toNat % 64)
  | 2 => bit64 (a.slt b)
  | 3 => bit64 (a.ult b)
  | 4 => a ^^^ b
  | 5 => if alt then a.sshiftRight (b.toNat % 64) else a >>> (b.toNat % 64)
  | 6 => a ||| b
  | _ => a &&& b

/-- OP-32 and OP-IMM-32. -/
def rvAlu32 (f3 : Nat) (alt : Bool) (a b : Word) : Option Word :=
  let x := a.setWidth 32
  match f3 with
  | 0 => some (rvW (if alt then a - b else a + b))
  | 1 => some ((x <<< (b.toNat % 32)).signExtend 64)
  | 5 => some ((if alt then x.sshiftRight (b.toNat % 32) else x >>> (b.toNat % 32)).signExtend 64)
  | _ => none

/-- Multiplication and division. -/
def rvMul (f3 : Nat) (a b : Word) : Word :=
  match f3 with
  | 0 => a * b
  | 1 => mulHigh a b
  | 2 => BitVec.ofInt 64 (a.toInt * (b.toNat : Int) / (2 ^ 64 : Int))
  | 3 => mulHighU a b
  | 4 => divS a b
  | 5 => divU a b
  | 6 => remS a b
  | _ => remU a b

def rvMul32 (f3 : Nat) (a b : Word) : Option Word :=
  let u (x : Word) : Word := (x.setWidth 32).setWidth 64
  match f3 with
  | 0 => some (rvW (a * b))
  | 4 => some (rvW (divS (rvW a) (rvW b)))
  | 5 => some (rvW (divU (u a) (u b)))
  | 6 => some (rvW (remS (rvW a) (rvW b)))
  | 7 => some (rvW (remU (u a) (u b)))
  | _ => none

def rvBranch (f3 : Nat) (a b : Word) : Option Bool :=
  match f3 with
  | 0 => some (a == b)
  | 1 => some (a != b)
  | 4 => some (a.slt b)
  | 5 => some (!a.slt b)
  | 6 => some (a.ult b)
  | 7 => some (!a.ult b)
  | _ => none

/-! ### Floating point -/

def rvFmt (d : Bool) : Fmt := if d then f64 else f32

/-- What an f register holds of a format: a single number that is not boxed is the canonical NaN. -/
def rvUnbox (d : Bool) (v : Word) : Nat :=
  if d then v.toNat else if v >>> 32 = 0xFFFFFFFF then v.toNat % 2 ^ 32 else f32.nan

def rvBox (d : Bool) (v : Nat) : Word := BitVec.ofNat 64 (if d then v else 0xFFFFFFFF * 2 ^ 32 + v % 2 ^ 32)

/-- The rounding mode of a field, by fcsr if it is dynamic. -/
def rvMode (fcsr : BitVec 32) (rm : Nat) : Option Nat :=
  let m := if rm = 7 then fcsr.toNat / 32 % 8 else rm
  if m < 5 then some m else none

/-- Float to integer: what lies outside the range, and a NaN, gives the nearest or the largest integer, with NV. -/
def rvToInt (w : Nat) (sg : Bool) (mode : Nat) (v : FV) : Word × Fl :=
  let put (z : Int) : Word := BitVec.ofInt 64 (intVal w true (wrapInt w z))
  match v with
  | .nan _ => (put (intMax w sg), fNV)
  | .inf s => (put (if s then intMin w sg else intMax w sg), fNV)
  | .fin s m e =>
    let r := roundToInt mode s m e
    if r.1 < intMin w sg ∨ intMax w sg < r.1 then (put (clampInt w sg r.1), fNV) else (put r.1, if r.2 then fNX else 0)

/-- FEQ, FLT, FLE. -/
def rvCompare (f : Fmt) (f3 a b : Nat) : Option (Bool × Fl) :=
  let any := (f.value a).isNan || (f.value b).isNan
  let sig := (f.value a).signalling || (f.value b).signalling
  let o := fcompare f a b
  match f3 with
  | 2 => some (o == some .eq, if sig then fNV else 0)
  | 1 => some (o == some .lt, if any then fNV else 0)
  | 0 => some (o == some .lt || o == some .eq, if any then fNV else 0)
  | _ => none

/-- The signs of FSGNJ, FSGNJN, FSGNJX. -/
def rvSign (f : Fmt) (f3 a b : Nat) : Option Nat :=
  let s := b / f.signBit % 2
  let t := a / f.signBit % 2
  let put (n : Nat) : Nat := n * f.signBit + a % f.signBit
  match f3 with
  | 0 => some (put s)
  | 1 => some (put (1 - s))
  | 2 => some (put ((s + t) % 2))
  | _ => none

/-- The fused products: ±(a × b) ± c with one rounding. -/
def rvFma (f : Fmt) (mode : Nat) (np nc : Bool) (a b c : Nat) : Val :=
  let p := FV.mul (f.value a) (f.value b)
  let c := f.value c
  let r := FV.add mode (if np then p.1.neg else p.1) (if nc then c.neg else c)
  finish f mode (r.1, r.2 ||| p.2)

/-! ### What an instruction does -/

/-- The effect of an instruction. -/
inductive RvDo where
  | put (rd : Nat) (v : Word)
  | putFl (rd : Nat) (v : Word) (fl : Fl)       -- x register and flags
  | putF (rd : Nat) (v : Word) (fl : Fl)        -- f register and flags
  | jump (rd : Nat) (pc : Word)                 -- with the return address in rd
  | branch (pc : Word)
  | mem (kind bytes : Nat) (addr value : Word) (aq rl : Bool) (dest : Option Nat) (signed : Bool)
  | fence (sets : List Nat)                     -- predecessors and successors, as of CampOp
  | fencei
  | csr (rd ix : Nat) (v : Word) (f3 : Nat) (writes : Bool)
  | ecall
  | trap (cause : Nat)

/-- Illegal instruction. -/
def RvDo.bad : RvDo := .trap 2

def RvDo.ofPut (rd : Nat) : Option Word → RvDo
  | some v => .put rd v
  | none => .bad

/-- OP-FP. -/
def rvOpFp (w : Nat) (fcsr : BitVec 32) (x : Nat → Word) (f : Nat → Word) : RvDo :=
  let d := rvBits w 25 2 == 1
  let fm := rvFmt d
  let rd := rvRd w
  let a := rvUnbox d (f (rvRs1 w))
  let b := rvUnbox d (f (rvRs2 w))
  let f3 := rvF3 w
  let sel := rvRs2 w
  let rounded (g : Nat → Val) : RvDo := match rvMode fcsr f3 with
    | some m => let r := g m; .putF rd (rvBox d r.1) r.2
    | none => .bad
  if 2 ≤ rvBits w 25 2 then .bad
  else match rvRs3 w with
  | 0 => rounded fun m => fadd fm m a b
  | 1 => rounded fun m => fsub fm m a b
  | 2 => rounded fun m => fmul fm m a b
  | 3 => rounded fun m => finish fm m (divExact (fm.value a) (fm.value b))
  | 0x0B => if sel ≠ 0 then .bad else rounded fun m => finish fm m (Fun1.sqrt.exact (fm.value a))
  | 4 => (match rvSign fm f3 a b with | some v => .putF rd (rvBox d v) 0 | none => .bad)
  | 5 => if 2 ≤ f3 then .bad else let r := fminmax fm (f3 == 1) a b; .putF rd (rvBox d r.1) r.2
  | 8 =>
    if (d && sel != 0) || (!d && sel != 1) then .bad
    else rounded fun m => finish fm m ((rvFmt (!d)).value (rvUnbox (!d) (f (rvRs1 w))), 0)
  | 0x14 => (match rvCompare fm f3 a b with | some r => .putFl rd (bit64 r.1) r.2 | none => .bad)
  | 0x18 => (match rvMode fcsr f3 with
      | some m => if 4 ≤ sel then .bad else let r := rvToInt (if 2 ≤ sel then 64 else 32) (sel % 2 == 0) m (fm.value a); .putFl rd r.1 r.2
      | none => .bad)
  | 0x1A =>
    if 4 ≤ sel then .bad
    else rounded fun m => ofIntVal fm m (intVal (if 2 ≤ sel then 64 else 32) (sel % 2 == 0) (x (rvRs1 w)).toNat)
  | 0x1C =>
    if sel ≠ 0 then .bad
    else if f3 = 0 then .put rd (if d then f (rvRs1 w) else rvW (f (rvRs1 w)))
    else if f3 = 1 then .put rd (BitVec.ofNat 64 (fclass fm a))
    else .bad
  | 0x1E => if sel ≠ 0 ∨ f3 ≠ 0 then .bad else .putF rd (rvBox d (x (rvRs1 w)).toNat) 0
  | _ => .bad

/-- Atomics, LR and SC, by their request kinds. -/
def rvAmo (w : Nat) (x : Nat → Word) : RvDo :=
  let n := match rvF3 w with | 2 => 4 | 3 => 8 | _ => 0
  let go (kind : Nat) : RvDo :=
    .mem kind n (x (rvRs1 w)) (x (rvRs2 w)) (rvBits w 26 1 == 1) (rvBits w 25 1 == 1) (some (rvRd w)) true
  if n = 0 then .bad
  else match rvRs3 w with
  | 2 => if rvRs2 w = 0 then go 17 else .bad
  | 3 => go 18
  | 0 => go 2
  | 1 => go 3
  | 0x0C => go 4
  | 8 => go 5
  | 4 => go 6
  | 0x10 => go 7
  | 0x14 => go 8
  | 0x18 => go 9
  | 0x1C => go 10
  | _ => .bad

/-- What a 32-bit instruction at `pc` does; `next` is the address after it. -/
def rvDo (w : Nat) (pc next : Word) (fcsr : BitVec 32) (x f : Nat → Word) : RvDo :=
  let rd := rvRd w
  let a := x (rvRs1 w)
  let b := x (rvRs2 w)
  let f3 := rvF3 w
  let f7 := rvBits w 25 7
  let alt := rvBits w 30 1 == 1
  match w % 128 with
  | 0x03 => if f3 = 7 then .bad else .mem 0 (2 ^ (f3 % 4)) (a + rvImmI w) 0 false false (some rd) (f3 < 4)
  | 0x07 => if f3 = 2 ∨ f3 = 3 then .mem 0 (2 ^ f3) (a + rvImmI w) 0 false false (some (32 + rd)) false else .bad
  | 0x0F =>
    if f3 = 0 then .fence (if rvBits w 20 12 = 0x833 then [2 * 16 + 3, 1 * 16 + 1] else [rvBits w 20 8])
    else if f3 = 1 then .fencei else .bad
  | 0x13 =>
    if f3 = 1 ∧ rvBits w 26 6 ≠ 0 then .bad
    else if f3 = 5 ∧ rvBits w 26 6 ≠ 0 ∧ rvBits w 26 6 ≠ 0x10 then .bad
    else .put rd (rvAlu f3 (f3 == 5 && alt) a (rvImmI w))
  | 0x17 => .put rd (pc + rvImmU w)
  | 0x1B =>
    if (f3 = 1 ∧ f7 ≠ 0) ∨ (f3 = 5 ∧ f7 ≠ 0 ∧ f7 ≠ 0x20) then .bad
    else .ofPut rd (rvAlu32 f3 (f3 == 5 && alt) a (rvImmI w))
  | 0x23 => if 4 ≤ f3 then .bad else .mem 1 (2 ^ f3) (a + rvImmS w) b false false none false
  | 0x27 => if f3 = 2 ∨ f3 = 3 then .mem 1 (2 ^ f3) (a + rvImmS w) (f (rvRs2 w)) false false none false else .bad
  | 0x2F => rvAmo w x
  | 0x33 =>
    if f7 = 1 then .put rd (rvMul f3 a b)
    else if f7 = 0 ∨ (f7 = 0x20 ∧ (f3 = 0 ∨ f3 = 5)) then .put rd (rvAlu f3 alt a b) else .bad
  | 0x37 => .put rd (rvImmU w)
  | 0x3B =>
    if f7 = 1 then .ofPut rd (rvMul32 f3 a b)
    else if f7 = 0 ∨ (f7 = 0x20 ∧ (f3 = 0 ∨ f3 = 5)) then .ofPut rd (rvAlu32 f3 alt a b) else .bad
  | 0x53 => rvOpFp w fcsr x f
  | 0x63 => (match rvBranch f3 a b with
      | some t => .branch (if t then pc + rvImmB w else next)
      | none => .bad)
  | 0x67 => if f3 = 0 then .jump rd ((a + rvImmI w) &&& ~~~1#64) else .bad
  | 0x6F => .jump rd (pc + rvImmJ w)
  | 0x73 =>
    if f3 = 0 then
      (if w = 0x73 then .ecall else if w = 0x00100073 then .trap 3 else if w = 0x10500073 then .put 0 0 else .bad)
    else if f3 = 4 then .bad
    else .csr rd (rvBits w 20 12) (if f3 < 4 then a else BitVec.ofNat 64 (rvRs1 w)) (f3 % 4) (f3 % 4 == 1 || rvRs1 w != 0)
  | n =>
    if n = 0x43 ∨ n = 0x47 ∨ n = 0x4B ∨ n = 0x4F then
      let d := rvBits w 25 2 == 1
      match rvMode fcsr f3 with
      | some m =>
        if 2 ≤ rvBits w 25 2 then .bad
        else
          let v (r : Nat) : Nat := rvUnbox d (f r)
          let r := rvFma (rvFmt d) m (n == 0x4B || n == 0x4F) (n == 0x47 || n == 0x4F) (v (rvRs1 w)) (v (rvRs2 w)) (v (rvRs3 w))
          .putF rd (rvBox d r.1) r.2
      | none => .bad
    else .bad

/-- The registers that an instruction reads or writes (f registers from 32 on); of a floating-point one, those of both files that its
fields name. -/
def rvRegs (w : Nat) : List Nat :=
  let d := rvRd w
  let a := rvRs1 w
  let b := rvRs2 w
  match w % 128 with
  | 0x03 | 0x13 | 0x1B | 0x67 => [d, a]
  | 0x07 => [32 + d, a]
  | 0x0F => []
  | 0x17 | 0x37 | 0x6F => [d]
  | 0x23 | 0x63 => [a, b]
  | 0x27 => [a, 32 + b]
  | 0x2F | 0x33 | 0x3B => [d, a, b]
  | 0x53 => [d, a, 32 + d, 32 + a, 32 + b]
  | 0x73 => [d, a, 17]
  | _ => [32 + d, 32 + a, 32 + b, 32 + rvRs3 w]

end Sys2Proof.Machine
end

