-- ==== Sys2Proof/Machine/Camp.lean ====
section
/-!
DEFINITION. The Campground (17): hampers (R352, R353), episodes and their windows (R354, R355), the step protocol (R356), curfew and
the end of an episode (R358, R359), the camp cores' accesses (10 R246) and the execution of their instructions (R351). The hamper unit's
part for the graph side is in Ops (State.graphHeader).
-/
namespace Sys2Proof.Machine

/-! ### Headers -/

def stateOf (s : State) (h : Nat) : Nat := field (s.hamper h 4) 56 8

/-- An action waits for its post. -/
def pending (s : State) (h : Nat) : Bool := stateOf s h == 1 && s.hamper h 0 == s.hamper h 1 + 1

/-- The hamper unit writes a word of a header. -/
def headerWord (h i : Nat) (v : Word) : Fx := fun s => [.unit (s.hamperKey h (8 * i)) (natToBytes 8 v.toNat)]

/-- A hamper exists. -/
def hamperOk (s : State) (h : Nat) : Bool := s.pkg.hbaseSet && decide (h < 4096)

/-- The camp core that runs an episode on a hamper, and the episode. -/
def episodeOn (s : State) (h : Nat) : Option (Nat × Episode) :=
  (s.camps.filterMap fun e => match e.2.ep with
    | some ep => if ep.hamper = h then some (e.1, ep) else none
    | none => none).head?

/-- Stores that have retired still perform when an episode ends, in the order of the fences between them (R357), but for those to a header,
which its end has passed. -/
def CampOp.survives (o : CampOp) : Bool :=
  o.kind == 23 || (o.kind == 1 && o.fault.isNone && o.places.all fun p => match p with | .header _ _ => false | _ => true)

/-- A camp core when its episode has ended: the monitor clears user mode. -/
def Camp.ended (x : Camp) : Camp :=
  { Camp.reset with instret := x.instret, ops := (x.ops.filter CampOp.survives).map fun o => { o with past := true } }

/-- Close (R359). -/
def closeEpisode (h st cause which : Nat) : Fx := fun s =>
  if hamperOk s h && stateOf s h == 1 then
    let w4 := setField (setField (setField (s.hamper h 4) 56 8 st) 48 8 cause) 46 2 which
    (Fx.andThen (headerWord h 4 w4)
      (Fx.andThen (if s.hamper h 0 = s.hamper h 1 + 1 then headerWord h 1 (s.hamper h 0) else Fx.none)
        fun s => match episodeOn s h with
          | some (c, _) => [.camp c (s.camp c).ended]
          | none => [])) s
  else []

/-- The episode of camp core `c` closes. -/
def closeOn (c st cause which : Nat) : Fx := fun s =>
  match (s.camp c).ep with
  | some ep => closeEpisode ep.hamper st cause which s
  | none => []

/-- A refused write of ASEQ or OSEQ. -/
def refuseSeq (h : Nat) : Fx := fun s => headerWord h 4 (setField (s.hamper h 4) 44 1 1) s

/-- Post (R356). -/
def postFx (h : Nat) (v : Word) : Fx := fun s =>
  if !hamperOk s h then []
  else match episodeOn s h with
    | none => refuseSeq h s
    | some (_, ep) =>
      if !pending s h ∨ v ≠ s.hamper h 0 then refuseSeq h s
      else
        let cur := field (s.hamper h 2) 0 32
        let bound := field (s.hamper h 3) 0 32
        let lag := (field (s.hamper h 3) 32 16 + 1) % 2 ^ 16
        let leash := field (ep.desc.getD 3 0) 16 16
        let most := field (ep.desc.getD 2 0) 0 32
        let steps := (field (s.hamper h 4) 0 32 + 1) % 2 ^ 32
        let moved := cur != bound
        let rebind := moved && leash != 0xFFFF && decide (leash ≤ lag)
        let w3 := setField (setField (s.hamper h 3) 32 16 (if moved && !rebind then lag else 0)) 0 32
          (if rebind then cur else bound)
        let w4 := setField (setField (s.hamper h 4) 45 1 (if rebind then 1 else 0)) 0 32 steps
        (Fx.andThen (headerWord h 3 w3) (Fx.andThen (headerWord h 4 w4) (Fx.andThen (headerWord h 1 v)
          (if most ≠ 0 ∧ steps = most then closeEpisode h 3 17 2 else Fx.none)))) s

/-- A write of a camp core to a header: OSEQ, OLEN; anything else is a store access fault, which ends the episode of core `c`. -/
def campHeader (c h o : Nat) (bs : List Byte) : Fx := fun s =>
  if touches 1 0 8 o bs.length then postFx h (overWord (s.hamper h 1) 1 o bs) s
  else if touches 5 4 2 o bs.length then
    headerWord h 5 (setField (s.hamper h 5) 32 13 (field (overWord (s.hamper h 5) 5 o bs) 32 13)) s
  else closeOn c 4 7 0 s

/-! ### Events at a hamper -/

/-- ASEQ_WRITE: a graph-side write of ASEQ reaches hamper `h` (R356). -/
def execAseqWrite (h : Nat) (v : Word) (s : State) : Host.Outcome State Fault Refusal :=
  answer s fun s => if hamperOk s h then [.store (s.hamperKey h 0) (natToBytes 8 v.toNat)] else []

/-- POST: a camp-side write of OSEQ reaches hamper `h`. -/
def execPost (h : Nat) (v : Word) (s : State) : Host.Outcome State Fault Refusal := answer s (postFx h v)

/-- HAMPER_HEADER_WRITE: any other write to a header reaches hamper `h` at byte `o` (R353). -/
def execHamperHeaderWrite (camp : Bool) (h o : Nat) (bs : List Byte) (s : State) : Host.Outcome State Fault Refusal :=
  answer s fun s =>
    if !hamperOk s h || bs.isEmpty || decide (64 < o + bs.length) then []
    else if camp then
      match episodeOn s h with
      | some (c, _) => campHeader c h o bs s
      | none => []
    else [.store (s.hamperKey h o) bs]

/-- STEP_EXPIRY: the camp cycles of a step are used up (R358). -/
def execStepExpiry (h : Nat) (s : State) : Host.Outcome State Fault Refusal :=
  answer s fun s => match episodeOn s h with
    | some (_, ep) => if pending s h && field (ep.desc.getD 2 0) 32 32 != 0 then closeEpisode h 3 17 1 s else []
    | none => []

/-- WALL_EXPIRY: the wall time of an episode is used up. -/
def execWallExpiry (h : Nat) (s : State) : Host.Outcome State Fault Refusal :=
  answer s fun s => match episodeOn s h with
    | some (_, ep) => if field (ep.desc.getD 3 0) 32 32 ≠ 0 then closeEpisode h 3 17 3 s else []
    | none => []

/-- EPISODE_ECALL: `ecall` from user mode with a7 (R359); its mcause is 8. -/
def execEpisodeEcall (c : Nat) (a7 : Word) (s : State) : Host.Outcome State Fault Refusal :=
  answer s (if a7 = 0 then closeOn c 2 0 0 else closeOn c 4 8 0)

/-- EPISODE_EXCEPTION: another exception from user mode. -/
def execEpisodeException (c : Nat) (cause : Byte) (s : State) : Host.Outcome State Fault Refusal :=
  answer s (closeOn c 4 cause.toNat 0)

/-! ### Registers with actions (R355, R360) -/

/-- Bit n: camp core n runs an episode. -/
def cmpBusy (s : State) : Word :=
  BitVec.ofNat 64 (((List.range 64).map fun c => if (s.camp c).ep.isSome then 2 ^ c else 0).foldl (· + ·) 0)

/-- CMP_HBASE: a new base, with every header at its reset values and the rest of its page, which reads 0, cleared. -/
def hbaseFx (v : Word) : Fx := fun s =>
  if cmpBusy s ≠ 0 then []
  else
    let b := field v 12 27 * 4096
    [.pkg { s.pkg with hbase := BitVec.ofNat 64 b, hbaseSet := true }, .headers b]

def execCmpHbase (v : Word) (s : State) : Host.Outcome State Fault Refusal := answer s (hbaseFx v)

/-- A window of a descriptor (R354, R355); window 0 is the hamper's. -/
structure Window where
  valid : Bool
  r : Bool
  w : Bool
  x : Bool
  hub : Bool
  size : Nat
  base : Word
  deriving DecidableEq, Repr

def windowOf (d : List Word) (w : Nat) : Window :=
  if w = 0 then ⟨true, true, true, false, false, 12288, 0⟩
  else
    let a := d.getD (8 + 2 * (w - 1)) 0
    ⟨bitOf a 63, bitOf a 62, bitOf a 61, bitOf a 60, bitOf a 59, field a 0 21 * 4096, d.getD (9 + 2 * (w - 1)) 0⟩

/-- The descriptor has no reserved bit set, no valid window of SIZE 0 and no hub window that ends beyond 8 MiB. -/
def descOk (d : List Word) : Bool :=
  field (d.getD 0 0) 32 8 == 0 && field (d.getD 1 0) 35 29 == 0 && field (d.getD 3 0) 0 16 == 0 &&
  ((List.range 4).all fun i => d.getD (4 + i) 0 == 0) && ((List.range 10).all fun i => d.getD (22 + i) 0 == 0) &&
  (List.range 7).all fun i =>
    let w := windowOf d (i + 1)
    field (d.getD (8 + 2 * i) 0) 21 38 == 0 && (!w.valid || (decide (0 < w.size) &&
      (!w.hub || decide (w.base.toNat + w.size ≤ 2 ^ 23))))

/-- The address lies in a valid window, with the given right, for `n` bytes: window and offset. -/
def reach (d : List Word) (a : Word) (n : Nat) (right : Window → Bool) : Option (Window × Nat × Nat) :=
  let w := windowOf d (field a 32 3)
  if field a 35 29 = 0 ∧ w.valid ∧ field a 0 32 + n ≤ w.size ∧ right w then some (w, field a 32 3, field a 0 32) else none

/-- CMP_START (R355): refused with CMP_ERR, or the episode starts. -/
def episodeFx (v : Word) : Fx := fun s =>
  let c := field v 40 6
  let at0 := field v 8 31 * 256
  let d := (List.range 32).map fun i => s.word (keyHbm (at0 + 8 * i))
  let h := field (d.getD 0 0) 52 12
  let busy := (s.camp c).ep.isSome || (s.pkg.hbaseSet && stateOf s h == 1)
  let bad := !s.pkg.hbaseSet || !descOk d
  if busy || bad then
    [.pkg { s.pkg with cmpErr := s.pkg.cmpErr ||| (if busy then 1 else 0) ||| (if bad then 2 else 0) }]
  else
    let w3 := BitVec.ofNat 64 (field (s.hamper h 2) 0 32)
    let w6 := setField (s.hamper h 6) 0 32 (field (d.getD 0 0) 0 32)
    let entry := BitVec.ofNat 64 (field (d.getD 1 0) 0 35)
    (Fx.andThen (headerWord h 3 w3) (Fx.andThen (headerWord h 4 (1#64 <<< 56)) (Fx.andThen (headerWord h 6 w6)
      (Fx.andThen (fun s => [.camp c { Camp.reset with
          ep := some ⟨h, field (d.getD 0 0) 40 12, d⟩, pc := entry, instret := (s.camp c).instret, ops := (s.camp c).ops }])
        (if (reach d entry 1 (·.x)).isSome then Fx.none else closeEpisode h 4 1 0))))) s

def execCmpStart (v : Word) (s : State) : Host.Outcome State Fault Refusal := answer s (episodeFx v)

/-- CMP_STOP: the episode of a camp core is closed. -/
def stopFx (v : Word) : Fx := closeOn (field v 0 6) 5 0 0

def execCmpStop (v : Word) (s : State) : Host.Outcome State Fault Refusal := answer s (stopFx v)

/-! ### Accesses of an episode (R354) -/

def isAmoKind (n : Nat) : Bool := decide (2 ≤ n ∧ n ≤ 10)

/-- The access fault of a kind: instruction, load, store. -/
def campFault (kind : Nat) : Nat := if kind = 19 then 1 else if kind = 0 ∨ kind = 17 then 5 else 7

def campRight (kind : Nat) (w : Window) : Bool :=
  if kind = 19 then w.x
  else if kind = 0 ∨ kind = 17 then w.r
  else if isAmoKind kind then w.r && w.w else w.w

def campStores (kind : Nat) : Bool := kind == 1 || kind == 18 || isAmoKind kind

/-- What an access of an episode finds: its place, or its fault; or it waits for the runtime to bring a tile in. -/
inductive CampFind where
  | at (p : CampAt)
  | fault (cause : Nat)
  | absent

/-- A byte of a header page: it is read, but for an LR of the header's 64 bytes, and a store may reach OSEQ and OLEN (R352, R353). -/
def headerPlace (h o n kind : Nat) : CampFind :=
  if kind = 0 ∨ kind = 19 ∨ (kind = 17 ∧ 64 ≤ o) then .at (.header h o)
  else if kind = 1 ∧ (touches 1 0 8 o n || touches 5 4 2 o n) then .at (.header h o)
  else .fault 7

/-- The place behind a handle window, with the checks of a scalar access of `n` bytes (01 R19, 08 R194). -/
def handlePlace (s : State) (asid : Nat) (h : Word) (n kind : Nat) : CampFind :=
  match readTensor s asid (tidOf h) with
  | none => .fault (campFault kind)
  | some t =>
    if t.remote then
      (match placeCheck s (agentCtx asid true) (tidOf h) (offOf h) n (campStores kind) with
        | .ok _ => .at (.handle asid h)
        | .error _ => .fault (campFault kind))
    else match homeData s ⟨asid, h, if kind = 17 ∨ kind = 19 then 0 else if kind = 18 then 1 else kind, n, 0, 0, true⟩ false with
      | .trap _ _ => .fault (campFault kind)
      | .wait => .absent
      | _ => match (spotKey s (.tile asid t.tid (offOf h))).bind s.headerAt with
        | some (m, o) => headerPlace m o n kind
        | none => .at (.handle asid h)

def campPlace (s : State) (ep : Episode) (a : Word) (n kind : Nat) : CampFind :=
  match reach ep.desc a n (campRight kind) with
  | none => .fault (campFault kind)
  | some (w, i, o) =>
    if i = 0 then
      (if o < 4096 then headerPlace ep.hamper o n kind
      else if o < 8192 ∧ campStores kind then .fault 7
      else .at (.key (s.hamperKey ep.hamper o)))
    else if w.hub then .at (.key (keyHub (w.base.toNat + o)))
    else handlePlace s ep.asid (w.base + BitVec.ofNat 64 o) n kind

/-- The places of the bytes of a misaligned access, up to the first one that faults (R354). -/
def campParts (s : State) (ep : Episode) (kind : Nat) : List Word → Option (List CampAt × Option Nat)
  | [] => some ([], none)
  | a :: t =>
    match campPlace s ep a 1 kind with
    | .absent => none
    | .fault f => some ([], some f)
    | .at p => (campParts s ep kind t).map fun r => (p :: r.1, r.2)

/-- An access of `n` bytes; what it does with its value is set by the caller. -/
def CampOp.of (kind : Nat) (addr : Word) (n : Nat) (value : Word) : CampOp :=
  { kind := kind, addr := addr, bytes := n, value := value, aq := false, rl := false, places := [], dest := none, signed := false
    out := false, got := [], fault := none, tag := none, answer := none, count := 0, past := false }

/-- The access with its places and its fault, once all of its checks can be made. A misaligned LR to a header takes the header's fault
(R353), any other misaligned one the fault of its kind. -/
def campFindAll (s : State) (ep : Episode) (o : CampOp) : Option CampOp :=
  if o.addr.toNat % o.bytes = 0 then
    match campPlace s ep o.addr o.bytes o.kind with
    | .absent => none
    | .fault f => some { o with fault := some f }
    | .at p => some { o with places := [p] }
  else if 1 < o.kind then
    let header := (List.range o.bytes).any fun i => match campPlace s ep (o.addr + BitVec.ofNat 64 i) 1 o.kind with
      | .fault f => f == 7
      | _ => false
    some { o with fault := some (if header then 7 else campFault o.kind) }
  else if (reach ep.desc o.addr o.bytes (campRight o.kind)).isNone then some { o with fault := some (campFault o.kind) }
  else (campParts s ep o.kind ((List.range o.bytes).map fun i => o.addr + BitVec.ofNat 64 i)).map fun r =>
    { o with places := r.1, fault := r.2 }

/-! ### The order of a camp core's accesses (10 R246, 17 R351, R357)

RVWMO: accesses that have issued perform in any order that these conditions allow; registers order the rest. -/

/-- The bytes of one place. -/
def CampOp.unit (o : CampOp) : Nat := if o.addr.toNat % o.bytes = 0 then o.bytes else 1

/-- The keys of a place's bytes. -/
def placeKeys (s : State) (n : Nat) (p : CampAt) : List Nat :=
  (List.range n).map fun i => i + (match p with
    | .key a => a
    | .header h o => s.hamperKey h o
    | .handle asid h => (spotKey s (.tile asid (tidOf h) (offOf h))).getD (2 ^ 64 + asid * 2 ^ 64 + h.toNat))

def meets (s : State) (a b : CampOp) : Bool :=
  let k := b.places.flatMap (placeKeys s b.unit)
  a.places.any fun p => (placeKeys s a.unit p).any k.contains

def readsMem (kind : Nat) : Bool := kind == 0 || kind == 17 || kind == 19 || isAmoKind kind
def writesMem (kind : Nat) : Bool := kind == 1 || kind == 18 || isAmoKind kind

/-- An access belongs to a set of a fence: bit 1 reads, bit 0 writes. -/
def inSet (kind set : Nat) : Bool := (readsMem kind && bitOf (BitVec.ofNat 64 set) 1) || (writesMem kind && bitOf (BitVec.ofNat 64 set) 0)

/-- An access of a tensor can still fault at its home. -/
def CampOp.mayFault (o : CampOp) : Bool := !o.past && o.places.any fun p => match p with | .handle _ _ => true | _ => false

/-- The earlier access `i` performs before `j`, whatever their bytes: a store is behind every access that can still fault, since a fault
ends the episode before it (notes/assumptions/79.md). -/
def campBefore (i j : CampOp) : Bool :=
  if i.kind = 23 then inSet j.kind (field i.value 0 4)
  else if j.kind = 23 then inSet i.kind (field j.value 4 4)
  else i.fault.isSome || j.fault.isSome || (i.mayFault && writesMem j.kind) || i.aq || j.rl || (i.rl && j.aq) || (i.kind == 17 && j.kind == 18)

/-- Access `j` of a camp core can perform. A fetch that it waits for is in no order with its data accesses. -/
def campMay (s : State) (ops : List CampOp) (j : Nat) : Bool :=
  match ops[j]? with
  | some o => (o.kind == 19 && !o.out && o.fault.isNone) || (ops.take j).all fun i => !(campBefore i o || meets s i o)
  | none => false

/-- A load takes the value of the core's own latest store to the same bytes, which has not performed. -/
def campForward (s : State) (ops : List CampOp) (j : Nat) : Option (List Byte) :=
  match ops[j]? with
  | none => none
  | some o =>
    if o.kind = 0 ∧ o.tag = none ∧ o.fault = none ∧ o.places.length = 1 ∧ (ops.take j).all (fun i => !campBefore i o) then
      match ((ops.take j).filter fun i => meets s i o).getLast? with
      | some i => if i.kind = 1 ∧ i.places = o.places ∧ i.bytes = o.bytes then some (natToBytes o.bytes i.value.toNat) else none
      | none => none
    else none

/-! ### Performing -/

/-- The value that an access leaves in its register: f registers are NaN-boxed. -/
def CampOp.result (o : CampOp) (got : List Byte) : Word :=
  let v := BitVec.ofNat 64 (bytesToNat got)
  if o.kind = 18 then v
  else match o.dest with
    | some d => if 32 ≤ d then rvBox (o.bytes == 8) v.toNat else if o.signed then rvSext (8 * o.bytes) v.toNat else v
    | none => v

def Camp.setReg (x : Camp) (n : Nat) (v : Word) : Camp :=
  if n = 0 then x else if n < 32 then { x with x := FMap.set 0 x.x n v } else { x with f := FMap.set 0 x.f (n - 32) v }

/-- Access `j` of camp core `c` goes on with what its first place gave, or ends. -/
def campNext (c j : Nat) (o : CampOp) (new : List Byte) : Fx := fun s =>
  let x := s.camp c
  let got := o.got ++ new
  if o.kind = 19 ∧ o.out = false then [.camp c { x with ops := x.ops.eraseIdx j, code := (o.addr, got) :: x.code }]
  else if o.places.drop 1 = [] ∧ o.fault = none then
    let v := o.result got
    .camp c ({ x with ops := x.ops.eraseIdx j }.setReg (o.dest.getD 0) v) :: (if o.out then [.out (.camp c v)] else [])
  else [.camp c { x with ops := x.ops.set j { o with places := o.places.drop 1, got := got, tag := none, answer := none } }]

/-- The bytes that a store writes to its first place. -/
def CampOp.bytesNow (o : CampOp) : List Byte := (natToBytes o.bytes o.value.toNat).drop (o.bytes - o.places.length * o.unit) |>.take o.unit

/-- An access of bytes at a known place: loads, stores, LR and SC, atomics. -/
def campAtKey (c j a : Nat) (o : CampOp) : Fx := fun s =>
  let old := s.bytes a o.unit
  let resv (r : Option Nat) : Fx := fun s => [.camp c { s.camp c with resv := r }]
  if o.kind = 17 then ((campNext c j o old).andThen (resv (some (keyRow a)))) s
  else if o.kind = 1 then ((campNext c j o []).andThen fun _ => [.store a o.bytesNow]) s
  else if o.kind = 18 then
    (if (s.camp c).resv = some (keyRow a) then
      (Fx.andThen (resv none) ((campNext c j o [0]).andThen fun _ => [.store a o.bytesNow])) s
    else (Fx.andThen (resv none) (campNext c j o [1])) s)
  else if isAmoKind o.kind then
    (match amoNew (amoOfKind o.kind) (8 * o.bytes) (bytesToNat old) (o.value.toNat % 2 ^ (8 * o.bytes)) 0 with
      | some v => (campNext c j o old).andThen (fun _ => [.store a (natToBytes o.bytes v)]) s
      | none => campNext c j o old s)
  else campNext c j o old s

/-- Access `j` of camp core `c` has failed at its home: it faults, or, when its episode has ended, it is gone (R359). -/
def campFails (c j : Nat) (o : CampOp) : Fx := fun s =>
  let ops := (s.camp c).ops
  [.camp c { s.camp c with ops := if o.past then ops.eraseIdx j else ops.set j { o with places := [], fault := some (campFault o.kind) } }]

/-- An access of a tensor leaves for its home; its answer ends it. -/
def campAtHandle (c j asid : Nat) (h : Word) (o : CampOp) : Fx := fun s =>
  match o.answer with
  | some (code, v) =>
    if isTrap code.toNat then campFails c j o s
    else campNext c j o (v.take (if o.kind = 18 then 1 else o.unit)) s
  | none =>
    if o.tag.isSome then []
    else
      let r : Req := ⟨asid, h, o.kind, o.unit, BitVec.ofNat 1024 (bytesToNat (if isAmoKind o.kind then natToBytes o.bytes o.value.toNat else o.bytesNow)), 0, true⟩
      let sent (tag : Nat) : Eff := .camp c { s.camp c with ops := (s.camp c).ops.set j { o with tag := some tag } }
      let tag := s.nextId % 2 ^ 20
      match readTensor s asid (tidOf h) with
      | some t =>
        if t.remote then
          (if o.kind = 18 then campNext c j o [1] s
          else [sent tag, .fresh, .send { newTxn s t.pkg tag 0 with
            req := r, reqs := [(0, { r with asid := t.rasid, handle := handleOf t.rtid (offOf h), kind := if o.kind = 17 then 0 else o.kind })] }])
        else
          (Fx.andThen (fun s => [sent tag, .fresh, .inbox (s.inbox ++ [newArrival { newTxn s 0 tag 10 with rank := c, req := r }])])
            (fun s => serveArrival (s.inbox.length - 1) 0 s)) s
      | none => campFails c j o s

/-- Access `j` of camp core `c` performs, or a part of it, if it can. -/
def campPerform (c j : Nat) : Fx := fun s =>
  let ops := (s.camp c).ops
  match ops[j]? with
  | none => []
  | some o =>
    if campMay s ops j then
      (if o.kind = 23 then [.camp c { s.camp c with ops := ops.eraseIdx j }]
      else match o.places with
        | [] => (match o.fault with
            | some f => Fx.andThen (fun s => [.camp c { s.camp c with instret := o.count }]) (closeOn c 4 f 0) s
            | none => campNext c j o [] s)
        | .key a :: _ => campAtKey c j a o s
        | .header h b :: _ =>
          if o.kind = 1 then ((campNext c j o []).andThen (campHeader c h b o.bytesNow)) s
          else campAtKey c j (s.hamperKey h b) o s
        | .handle asid h :: _ => campAtHandle c j asid h o s)
    else match campForward s ops j with
      | some bs => campNext c j o bs s
      | none => []

/-- An access joins the accesses of its core, before its instruction has been counted. -/
def campAdd (c : Nat) (o : CampOp) : Fx := fun s =>
  [.camp c { s.camp c with ops := (s.camp c).ops ++ [{ o with count := (s.camp c).instret }] }]

/-- CAMP_ACCESS: an access of camp core `c` (of `compare`, bit 1 is aq and bit 0 rl), which performs at once if it can. -/
def campFx (c : Nat) (r : Req) : Fx := fun s =>
  match (s.camp c).ep with
  | none => []
  | some ep =>
    let n := r.bytes
    let known := r.kind == 0 || r.kind == 1 || isAmoKind r.kind || r.kind == 17 || r.kind == 18 || r.kind == 19
    let sized := if r.kind ≤ 1 then n == 1 || n == 2 || n == 4 || n == 8 else if r.kind = 19 then n == 2 else n == 4 || n == 8
    if !known || !sized then []
    else match campFindAll s ep { CampOp.of r.kind r.handle n (r.value.setWidth 64) with
        out := true, signed := isAmoKind r.kind, aq := bitOf r.compare 1, rl := bitOf r.compare 0 } with
      | none => []
      | some o => ((campAdd c o).andThen fun s => campPerform c ((s.camp c).ops.length - 1) s) s

def execCampAccess (c : Nat) (r : Req) (s : State) : Host.Outcome State Fault Refusal := answer s (campFx c r)

/-! ### The instructions of an episode (R351) -/

def Camp.xreg (c : Camp) (n : Nat) : Word := if n = 0 then 0 else FMap.get 0 c.x n
def Camp.freg (c : Camp) (n : Nat) : Word := FMap.get 0 c.f n

/-- Two bytes of code at an address: known, faulting, still absent, or to be fetched from another package. -/
inductive CampCode where
  | bytes (v : Nat)
  | fault
  | absent
  | ask (a : Word) (p : CampAt)

def campCode (s : State) (c : Nat) (ep : Episode) (a : Word) : CampCode :=
  match (s.camp c).code.find? (·.1 == a) with
  | some e => .bytes (bytesToNat e.2)
  | none =>
    match campPlace s ep a 2 19 with
    | .absent => .absent
    | .fault _ => .fault
    | .at (.key k) => .bytes (bytesToNat (s.bytes k 2))
    | .at (.header h o) => .bytes (bytesToNat (s.bytes (s.hamperKey h o) 2))
    | .at (.handle asid h) =>
      (match homeData s ⟨asid, h, 19, 2, 0, 0, true⟩ false with
        | .did _ v _ => .bytes (bytesToNat v)
        | .wait => .absent
        | _ => .ask a (.handle asid h))

/-- What a camp core finds at its pc: the instruction as a 32-bit one (`none` for a compressed one that is reserved) and its length; or why
it has none yet. -/
inductive CampFetch where
  | instr (w : Option Nat) (len : Nat)
  | wait (c : CampCode)

def campFetch (s : State) (c : Nat) (ep : Episode) (a : Word) : CampFetch :=
  match campCode s c ep a with
  | .bytes lo =>
    if lo % 4 ≠ 3 then .instr (rvExpand lo) 2
    else (match campCode s c ep (a + 2) with
      | .bytes hi => .instr (some (lo + hi * 2 ^ 16)) 4
      | r => .wait r)
  | r => .wait r

/-- A control and status register that user mode may read. -/
def campCsr (s : State) (x : Camp) (ix : Nat) : Option Word :=
  match ix with
  | 1 => some (BitVec.ofNat 64 (x.fcsr.toNat % 32))
  | 2 => some (BitVec.ofNat 64 (x.fcsr.toNat / 32 % 8))
  | 3 => some (BitVec.ofNat 64 (x.fcsr.toNat % 256))
  | 0xC00 => some s.pkg.campClk
  | 0xC01 => some (s.pkg.campClk / 16)
  | 0xC02 => some x.instret
  | _ => none

def setFcsr (x : Camp) (ix : Nat) (v : Word) : Camp :=
  let f := x.fcsr.toNat
  { x with fcsr := BitVec.ofNat 32 (match ix with
    | 1 => f / 32 * 32 + field v 0 5
    | 2 => f % 32 + field v 0 3 * 32
    | _ => field v 0 8) }

def Camp.flags (x : Camp) (fl : Fl) : Camp := { x with fcsr := x.fcsr ||| fl.setWidth 32 }

/-- An exception from user mode, once every access has performed. -/
def campTrap (c cause : Nat) : Fx := campAdd c { CampOp.of 0 0 1 0 with fault := some cause }

/-- What an instruction does; `next` is the address after it. -/
def campDo (c : Nat) (next : Word) (i : RvDo) : Fx := fun s =>
  let x := s.camp c
  let go (y : Camp) (pc : Word) : List Eff := [.camp c { y with pc := pc, instret := y.instret + 1, code := [] }]
  match i with
  | .put rd v => go (x.setReg rd v) next
  | .putFl rd v fl => go ((x.setReg rd v).flags fl) next
  | .putF rd v fl => go ((x.setReg (32 + rd) v).flags fl) next
  | .jump rd pc => go (x.setReg rd next) pc
  | .branch pc => go x pc
  | .fence sets => go { x with ops := x.ops ++ sets.map fun v => CampOp.of 23 0 1 (BitVec.ofNat 64 v) } next
  | .fencei => if x.ops = [] then go x next else []
  | .mem kind n a v aq rl dest signed =>
    (match x.ep.bind fun ep => campFindAll s ep { CampOp.of kind a n v with aq := aq, rl := rl, dest := dest, signed := signed } with
      | some o => ((campAdd c o).andThen fun s => go (s.camp c) next) s
      | none => [])
  | .csr rd ix v f3 writes =>
    (match campCsr s x ix with
      | some old =>
        if writes && decide (0xC00 ≤ ix) then campTrap c 2 s
        else
          let new := match f3 with | 1 => v | 2 => old ||| v | _ => old &&& ~~~v
          go ((if writes then setFcsr x ix new else x).setReg rd old) next
      | none => campTrap c 2 s)
  | .ecall => if x.ops ≠ [] then [] else if x.xreg 17 = 0 then closeOn c 2 0 0 s else closeOn c 4 8 0 s
  | .trap cause => campTrap c cause s

/-- Camp core `c` executes an instruction of its episode. It waits for the registers of the instruction, for an access of another
package and for an exception. -/
def campStep (c : Nat) : Fx := fun s =>
  let x := s.camp c
  match x.ep with
  | none => []
  | some ep =>
    if x.ops.any fun o => !o.past && (o.fault.isSome || o.tag.isSome || (o.kind == 19 && !o.out)) then []
    else match campFetch s c ep x.pc with
      | .wait (.ask a p) => campAdd c { CampOp.of 19 a 2 0 with places := [p] } s
      | .wait .fault => campTrap c 1 s
      | .wait _ => []
      | .instr none _ => campTrap c 2 s
      | .instr (some w) len =>
        let next := x.pc + BitVec.ofNat 64 len
        if x.ops.any fun o => o.dest.any fun d => d ≠ 0 && (rvRegs w).contains d then []
        else campDo c next (rvDo w x.pc next x.fcsr x.xreg x.freg) s

end Sys2Proof.Machine
end

