-- ==== Sys2Proof/Machine/Control.lean ====
section
/-!
DEFINITION. Branches, jumps and hardware loops (04 R92 to R99) and spin-park (05 R125).
-/
namespace Sys2Proof.Machine

/-- The scalar registers s1 to s63 of a stream. -/
def scalars (s : State) (k : Nat) : List Word := (List.range 63).map fun i => s.sreg k (i + 1)

/-- One more taking of a backward branch (05 R125): the count goes on when branch, registers and last load are those of the
takings before. -/
def spinNext (c : Ctl) (regs : List Word) : Spin :=
  let load := c.lastLoad.map fun l => (l.rows, l.value)
  match c.spin with
  | some sp =>
    if sp.pc = c.pc ∧ sp.regs = regs ∧ sp.load = load then { sp with count := sp.count + 1 } else ⟨c.pc, 1, regs, load⟩
  | none => ⟨c.pc, 1, regs, load⟩

/-- What a taken conditional branch leaves of the run of takings, and the parking after the 16th. -/
def spinPark (limit : Word) (regs : List Word) (target : Word) (c : Ctl) : Ctl :=
  if c.pc ≤ target ∨ limit = 0 then { c with spin := none }
  else
    let sp := spinNext c regs
    match sp.load with
    | none => { c with spin := none }
    | some (rows, _) =>
      if sp.count < 16 then { c with spin := some sp }
      else { c with spin := none, run := .parked rows, parks := c.parks + 1 }

/-- A conditional branch in any of its words (04 R92). -/
def branchIf (op9 : Nat) (cond : Word → Word → Bool) (f : BranchForm) (s : State) : Host.Outcome State Fault Refusal :=
  issue s (scalarDesc op9 f.len f.g f.fp f.fo [f.sa, f.sb]) fun t =>
    if cond (t.sreg t.cur f.sa) (t.sreg t.cur f.sb) then
      let target := (t.ctl t.cur).pc + f.off
      .jump (onCtl t.cur (spinPark (t.core (coreOf t.cur)).parklim (scalars t t.cur) target)) target
    else .seq Fx.none

/-- `jal` or `jalr`: the run of takings ends, and what is fetched from here on sees the stores before a `fence.cls` that has not retired
(01 R20, 04 R95). -/
def jumpedOn (c : Ctl) : Ctl :=
  { c with
    spin := none
    late := c.late.map fun l => { l with fence := l.fence.map fun f => { f with jumped := true } } }

/-- `jal` in any of its words (04 R93): sd is the first register of the form. -/
def jumpLink (f : BranchForm) (s : State) : Host.Outcome State Fault Refusal :=
  issue s (scalarDesc 0x036 f.len f.g f.fp f.fo [f.sa]) fun t =>
    let pc := (t.ctl t.cur).pc
    .jump (Fx.andThen (fun _ => [.sreg t.cur f.sa (pc + BitVec.ofNat 64 f.len)]) (onCtl t.cur jumpedOn)) (pc + f.off)

/-- `jalr` in either of its words (04 R94): the target is formed before sd is written. -/
def jumpReg (f : ImmForm) (s : State) : Host.Outcome State Fault Refusal :=
  issue s (scalarDesc 0x037 f.len f.g f.fp f.fo [f.sd, f.sa]) fun t =>
    let target := t.sreg t.cur f.sa + f.imm
    if target &&& 3 ≠ 0 then .trap cALIGN false target (fltOf 0x037)
    else .jump (Fx.andThen (fun _ => [.sreg t.cur f.sd ((t.ctl t.cur).pc + BitVec.ofNat 64 f.len)]) (onCtl t.cur jumpedOn)) target

/-- The level that `loop` writes (04 R97). -/
def loopSet (n : Nat) (count : BitVec 32) (pc last : Word) (c : Ctl) : Ctl := c.setLoop n ⟨count, pc + 8, last⟩

/-- The length probe of `loop` in another package (01 R20, 08 R202), as an access of its own. -/
def probeOp (h : Word) : MemOp :=
  { plainOp 0x038 (.loadS 0 true) 0 0 .load [⟨0, h, .ok [(offOf h, 4)], []⟩] [] with rkind := some 25 }

/-- `loop` (04 R96, R97). With a trip count of 0 it learns the length of the last word by a fetch, whose trap it raises. -/
def execLoopI (f : FL) (s : State) : Host.Outcome State Fault Refusal :=
  issue s (scalarDesc 0x038 8 f.g 0 0 [f.sa.toNat]) fun t =>
    let k := t.cur
    let pc := (t.ctl k).pc
    let count : BitVec 32 := if f.immc = 1 then f.cnt.setWidth 32 else (t.sreg k f.sa.toNat).setWidth 32
    let last := pc + 4 * f.fin.setWidth 64
    let set := onCtl k (loopSet f.ln.toNat count pc last)
    if count = 0 then
      match fetchBytes t (t.codeCtx k) true 4 last with
      | .trap code h w0 => .trap code false h { fltOf 0x038 with i3 := w0 }
      | .bytes bs => .jump set (last + BitVec.ofNat 64 (wordLength (bytesToNat bs)))
      | .remote tn h =>
        match ownRemote t with
        | none => .wait (sendRemote (probeOp h) t 0 [] ((probeOp h).elems.map fun e => (e, tn)))
        | some (n, a) =>
          match a.reply with
          | none => .wait Fx.none
          | some (code, e, v) =>
            let gone : Fx := fun _ => [.access n none]
            if code ≠ 0 then .trapWith gone code (h + BitVec.ofNat 64 e) (some { fltOf 0x038 with i2 := BitVec.ofNat 64 tn.pkg })
            else .jump (gone.andThen set) (last + BitVec.ofNat 64 (wordLength (v.toNat % 2 ^ 32)))
    else .seq set

def execBeq (f : FB) (s : State) : Host.Outcome State Fault Refusal := branchIf 0x030 (fun a b => a == b) f.form s

def execBne (f : FB) (s : State) : Host.Outcome State Fault Refusal := branchIf 0x031 (fun a b => a != b) f.form s

def execBlt (f : FB) (s : State) : Host.Outcome State Fault Refusal := branchIf 0x032 BitVec.slt f.form s

def execBge (f : FB) (s : State) : Host.Outcome State Fault Refusal := branchIf 0x033 (fun a b => b.sle a) f.form s

def execBltu (f : FB) (s : State) : Host.Outcome State Fault Refusal := branchIf 0x034 BitVec.ult f.form s

def execBgeu (f : FB) (s : State) : Host.Outcome State Fault Refusal := branchIf 0x035 (fun a b => b.ule a) f.form s

def execJal (f : FB) (s : State) : Host.Outcome State Fault Refusal := jumpLink f.form s

def execBeqX32 (f : CB) (s : State) : Host.Outcome State Fault Refusal := branchIf 0x030 (fun a b => a == b) f.form s

def execBneX32 (f : CB) (s : State) : Host.Outcome State Fault Refusal := branchIf 0x031 (fun a b => a != b) f.form s

def execBltX32 (f : CB) (s : State) : Host.Outcome State Fault Refusal := branchIf 0x032 BitVec.slt f.form s

def execBgeX32 (f : CB) (s : State) : Host.Outcome State Fault Refusal := branchIf 0x033 (fun a b => b.sle a) f.form s

def execBltuX32 (f : CB) (s : State) : Host.Outcome State Fault Refusal := branchIf 0x034 BitVec.ult f.form s

def execBgeuX32 (f : CB) (s : State) : Host.Outcome State Fault Refusal := branchIf 0x035 (fun a b => b.ule a) f.form s

def execJalX32 (f : CJ) (s : State) : Host.Outcome State Fault Refusal := jumpLink f.form s

def execBeqX96 (f : FB96) (s : State) : Host.Outcome State Fault Refusal := branchIf 0x030 (fun a b => a == b) f.form s

def execBneX96 (f : FB96) (s : State) : Host.Outcome State Fault Refusal := branchIf 0x031 (fun a b => a != b) f.form s

def execBltX96 (f : FB96) (s : State) : Host.Outcome State Fault Refusal := branchIf 0x032 BitVec.slt f.form s

def execBgeX96 (f : FB96) (s : State) : Host.Outcome State Fault Refusal := branchIf 0x033 (fun a b => b.sle a) f.form s

def execBltuX96 (f : FB96) (s : State) : Host.Outcome State Fault Refusal := branchIf 0x034 BitVec.ult f.form s

def execBgeuX96 (f : FB96) (s : State) : Host.Outcome State Fault Refusal := branchIf 0x035 (fun a b => b.ule a) f.form s

def execJalX96 (f : FB96) (s : State) : Host.Outcome State Fault Refusal := jumpLink f.form s

def execJalr (f : FI) (s : State) : Host.Outcome State Fault Refusal := jumpReg f.form s

def execJalrX96 (f : FI96) (s : State) : Host.Outcome State Fault Refusal := jumpReg f.form s

end Sys2Proof.Machine
end

