-- ==== Sys2Proof/Machine/Package.lean ====
section
/-!
DEFINITION. Package management (16): the budget arbiter (R343 to R345), starts (R346, R347), tamper events (R348), attestation (R349) and
the management ports (R350).
-/
namespace Sys2Proof.Machine

def onPkg (f : Pkg → Pkg) : Fx := fun s => [.pkg (f s.pkg)]

/-! ### Ports at a start (R346, 18 R365, R367) -/

/-- Waiting parts leave while the port can form flits. -/
def flush (i : Nat) : Fx := fun s =>
  let r := Port.pump (s.port i).waiting.length (s.port i)
  .port i r.1 :: ((s.port i).sends i r.2).map Eff.out

/-- A start trains this port: a cold one every port, a warm one those that are dark (R346). -/
def trains (warm : Bool) (p : Port) : Bool := !warm || p.lit == 0

/-- A port as a start finds it. -/
def startPort (warm : Bool) (p : Port) : Port :=
  let q := if warm then { p with lreq := 0, lmask := 0xF } else .reset
  if trains warm p then { q with state := 1 } else q

/-- The package and the port at the far end of port `i` of package `n` (18 R367). -/
def peerOf (n i : Nat) : Nat × Nat :=
  let g := n / 12
  let m := n % 12
  if i < 11 then (12 * g + (m + 1 + i) % 12, 10 - i)
  else
    let k := 5 * m + (i - 11) + 1
    (12 * ((g + k) % 61) + (60 - k) / 5, 11 + (60 - k) % 5)

/-- The training of port `i` of package `n` ends. One that comes up is in L0, with every wavelength of LMASK, and counts its flits afresh
(18 R365); one that fails stays dark and is down, and what it held leaves by another route. -/
def trainPort (n i : Nat) : Fx := fun s =>
  let p := s.port i
  let q := { Port.reset with lreq := p.lreq, lmask := p.lmask, replays := p.replays, health := p.health }
  if p.state ≠ 1 then []
  else if Config.training s.clock i then
    (Fx.andThen
      (fun _ => [.port i { q with
        peerPkg := BitVec.ofNat 10 (peerOf n i).1, peerPort := BitVec.ofNat 4 (peerOf n i).2, state := 2
        active := p.lmask, lit := p.lmask, target := p.lmask, waiting := p.waiting }])
      (flush i)) s
  else .port i q :: (p.waiting.filterMap (·.txn)).map Eff.send

/-! ### Starts (R346, R347) -/

/-- The package begins a start: streams, engines, the sequencer and the package registers at their reset values, memory as R346 leaves
it. A warm start keeps the hamper base, what counts since the cold start, the firmware, which may be the recovery image, and the ports. -/
def begin (warm : Bool) (phase : Phase) : Fx := fun s =>
  let p := s.pkg
  let q : Pkg := { Pkg.reset with
    wfail := p.wfail, cfail := p.cfail, tfuse := p.tfuse, secBoot := p.secBoot, recov := phase == .recovery || (warm && p.recov)
    measured := p.measured, thermal := p.thermal, jtag := p.jtag, lnkId := p.lnkId, phase := phase
    hbase := if warm then p.hbase else 0, hbaseSet := warm && p.hbaseSet, energy := if warm then p.energy else 0, campClk := if warm then p.campClk else 0 }
  [.restart q ((List.range 16).map fun i => (i, startPort warm (s.port i)))
      (if warm then s.done else []),
    .forget s.clock (!warm), .clock (s.clock + 1)]

/-- A start may begin: a held reset takes none but a cold one. -/
def coldFx : Fx := begin false .cold
def warmFx : Fx := fun s => if s.pkg.phase = .held then [] else begin true .warm s

def execColdStart (s : State) : Host.Outcome State Fault Refusal := answer s coldFx
def execWarmStart (s : State) : Host.Outcome State Fault Refusal := answer s warmFx

/-- A SEC_RESET write starts the package. After a recovery image that failed, SEC_RESET does not answer. -/
def resets (p : Pkg) (kind : Nat) : Bool := !p.recovFailed && (kind == 2 || (kind == 1 && p.phase != .held))

/-- A SEC_RESET write: launches end without records. -/
def secResetFx (kind : Nat) : Fx := fun s =>
  if resets s.pkg kind then (if kind = 1 then begin true .warm s else begin false .cold s) else []

def execSecResetWarm (s : State) : Host.Outcome State Fault Refusal := answer s (secResetFx 1)
def execSecResetCold (s : State) : Host.Outcome State Fault Refusal := answer s (secResetFx 2)

def starting (p : Phase) : Bool := p == .cold || p == .warm || p == .recovery

/-- SEC_BOOT as it reads. -/
def secBootWord (p : Pkg) : Word :=
  setField (setField (setField p.secBoot 18 2 p.cfail) 16 2 p.wfail) 15 1 (if p.recov then 1 else 0)

/-- REASON and KIND of the start that ends; the one after a thermal hold records 9 (R345). -/
def bootWord (p : Pkg) (reason : Nat) (ver : Nat) : Word :=
  BitVec.ofNat 64 ((if p.thermal then 9 else reason) * 2 ^ 24 + (if p.phase == .warm then 2 ^ 14 else 0) + ver)

/-- What the failure of a start leaves of the counters and of what R345 keeps for it; of a recovery image, that it has failed. -/
def failCounts (p : Pkg) : Pkg :=
  match p.phase with
  | .warm => { p with wfail := if p.wfail + 1 = 3 then 0 else p.wfail + 1, thermal := false }
  | .cold => { p with cfail := if p.cfail = 0 then 1 else 2, thermal := false }
  | .recovery => { p with recovFailed := true, thermal := false }
  | _ => { p with thermal := false }

/-- A start fails (R347): the counters choose the next one. -/
def startFail (reason : Nat) : Fx := fun s =>
  let p := s.pkg
  let q := failCounts { p with secBoot := bootWord p reason (field p.secBoot 0 8) }
  match p.phase with
  | .warm => (Fx.andThen (fun _ => [.pkg q]) (if q.wfail = 0 then begin false .cold else begin true .warm)) s
  | .cold => (Fx.andThen (fun _ => [.pkg q]) (begin false (if q.cfail = 1 then .cold else .recovery))) s
  | .recovery => [.pkg { q with phase := .held }]
  | _ => []

/-- A start succeeds. Firmware is measured by a cold start and the runtime by each (R346, R348); a measurement stands for the number that
selects its bytes. -/
def startDone (ver : Nat) : Fx := fun s =>
  let p := s.pkg
  let n := s.clock
  let own := if p.phase == .warm then ownPackage s else Config.packageNumber n % 732
  (Fx.andThen
    (fun _ => [.pkg { p with
      secBoot := bootWord p 0 ver, wfail := 0, cfail := 0, thermal := false, phase := .up
      measured := some (match p.measured with | some m => (if p.phase == .warm then m.1 else n, n) | none => (n, n))
      lnkId := BitVec.ofNat 64 own }])
    (Fx.andThen (Fx.each (trainPort own) (List.range 16)) tick)) s

/-! ### Tamper events (R348) -/

def tamperLevel (p : Pkg) (e : Nat) : Nat := if bitOf p.tfuse (8 + e) then 3 else if bitOf p.tfuse e then 2 else 1

/-- The event is latched and logged. -/
def latch (e : Nat) : Fx := fun s =>
  let p := s.pkg
  let l := max (tamperLevel p e) (field p.tamper 16 2)
  .pkg { p with tamper := setField (p.tamper ||| BitVec.ofNat 64 (2 ^ e)) 16 2 l } :: .out (.msix 0) ::
    (if 2 ≤ tamperLevel p e then [.out (.i3cNotice e)] else [])

/-- Level 3: the vault is zeroized, with its measurements and its retained store, the fuse is blown and reset is held. -/
def zeroized (p : Pkg) : Pkg :=
  { p with tfuse := setField p.tfuse 16 1 1, wfail := 0, cfail := 0, measured := none, phase := .held }

/-- What its level does beside the log: a freeze; or what level 3 does. During a start, levels 2 and 3 fail it. -/
def act (level : Nat) : Fx := fun s =>
  let p := s.pkg
  if level = 3 then
    [.pkg (zeroized (if starting p.phase then failCounts { p with secBoot := bootWord p 8 (field p.secBoot 0 8) } else p))]
  else if level = 2 then
    (if starting p.phase then startFail 8 s else if p.phase = .up then [.pkg { p with phase := .frozen }] else [])
  else []

/-- A die reaches 115 °C (R345): tamper event 2, and reset is held whatever its level; the next start is cold and records it. A start that
the hold ends has failed if the event is of level 2 (R346). -/
def thermalFx : Fx :=
  (latch 2).andThen (Fx.andThen
    (fun s =>
      let p := s.pkg
      let l := tamperLevel p 2
      if l = 3 then act 3 s
      else if l = 2 ∧ starting p.phase then [.pkg (failCounts { p with secBoot := bootWord p 8 (field p.secBoot 0 8) })]
      else [])
    (onPkg fun p => { p with phase := .held, thermal := true }))

def tamperFx (e : Nat) : Fx := fun s =>
  if e = 2 then thermalFx s else (Fx.andThen (latch e) (act (tamperLevel s.pkg e))) s

def execTamperEvent (e : BitVec 3) (s : State) : Host.Outcome State Fault Refusal := answer s (tamperFx e.toNat)

/-- THERMAL_HOLD (R345). -/
def execThermalHold (s : State) : Host.Outcome State Fault Refusal := answer s thermalFx

/-- A start can end with this reason: a port that fails step 4 does not end it, and a warm one skips memory BIST and compares no version
(R346). -/
def endsWith (p : Phase) (reason : Nat) : Bool :=
  starting p && decide (reason ≤ 11) && reason != 4 && reason != 9 && !(p == .warm && (reason == 1 || reason == 10))

/-- START_END (R347). Reason 0 is success; 6 and 10 are failed firmware checks, tamper event 5. -/
def execStartEnd (reason ver : Byte) (s : State) : Host.Outcome State Fault Refusal :=
  answer s fun s =>
    if !endsWith s.pkg.phase reason.toNat then []
    else if reason = 0 then startDone ver.toNat s
    else if reason = 6 ∨ reason = 10 then
      (Fx.andThen (latch 5) (if tamperLevel s.pkg 5 = 3 then
          onPkg fun p => zeroized (failCounts { p with secBoot := bootWord p reason.toNat (field p.secBoot 0 8) })
        else startFail reason.toNat)) s
    else startFail reason.toNat s

/-- START_TIMEOUT: a start has not reached step 7 within 10 s. -/
def execStartTimeout (s : State) : Host.Outcome State Fault Refusal :=
  answer s fun s => if starting s.pkg.phase then startFail 7 s else []

/-- A write of SEC_TAMPER: EV bits are cleared, and LEVEL with the last of them. -/
def clearTamper (v : Word) : Fx := onPkg fun p =>
  let t := p.tamper &&& ~~~(v &&& 0xFF)
  { p with tamper := if field t 0 8 = 0 ∧ field p.tamper 0 8 ≠ 0 then setField t 16 2 0 else t }

/-! ### The budget arbiter (R343) -/

/-- Ladder(cap): clock steps down to 12, then gating. -/
def ladder (cap : Nat) : List (Nat × Nat) :=
  ((List.range (cap - 11)).map fun i => (cap - i, 0)) ++ (List.range 7).map fun g => (12, g + 1)

/-- A domain's cap in W (00 R3): hub, HBM, LLC, optics. -/
def domainCap (d : Nat) : Nat := match d with | 0 => 100 | 1 => 770 | 2 => 260 | _ => 130

/-- Grants in order: what each domain gets of what is left, and the rest. -/
def grants : List Nat → Nat → List Nat × Nat
  | [], avail => ([], avail)
  | d :: t, avail =>
    let g := min d avail
    let r := grants t (avail - g)
    (g :: r.1, r.2)

/-- Cores with a placed team. -/
def activeCores (s : State) : List Nat :=
  (List.range 192).filter fun c => match (s.core c).team.bind s.team with
    | some tm => tm.cores.contains c
    | none => false

/-- A core's power at a ladder step, in mW: at most one part in 192 of the 790 W of matrix arrays, vector, scalar and control, and Prism
units (00 R3). -/
def corePower (n c : Nat) (x : Nat × Nat) : Nat := min (Config.coreW n c x.1 x.2) 4114

/-- The first ladder step that fits a core's equal part of what is left. -/
def coreGrant (n cap avail count c : Nat) : Option (Nat × Nat) :=
  (ladder cap).find? fun x => corePower n c x * count ≤ avail * 1000

/-- Measured static and uncore power in W, at most 700, and the energy of a window in mJ: at most the 5.5 mJ that 2,750 W draw in 2 µs
(00 R3), rounded up. -/
def staticDraw (n : Nat) : Nat := min (Config.staticW n) 700
def windowEnergy (n : Nat) : Word := BitVec.ofNat 64 (min (Config.energyMj n).toNat 6)

/-- A window: the last window's figures are recorded and the budget is divided afresh. -/
def windowFx : Fx := fun s =>
    let n := s.clock
    let p := s.pkg
    let tj := Config.junction n
    let hot := decide (105 ≤ tj) || (p.hot && decide (100 ≤ tj))
    let a0 := field p.pwrCfg 0 12 - staticDraw n
    let avail := if hot then a0 - 200 else a0
    let cap := if hot then 20 else field p.pwrCfg 16 5
    let used := (List.range 4).map fun d => min (Config.demandW n d) (domainCap d)
    let g := grants used avail
    let act := activeCores s
    let core (c : Nat) : Option (Nat × Nat) := coreGrant n cap g.2 act.length c
    let draw := (act.map fun c => corePower n c ((s.core c).freq, (s.core c).gate)).foldl (· + ·) 0
    .pkg { p with
      pkgW := staticDraw n + used.foldl (· + ·) 0 + draw / 1000
      tj := tj % 256
      hot := hot
      overBudget := act.any fun c => (core c).isNone
      energy := p.energy + windowEnergy n
      dom := g.1.zip used } ::
      ((List.range 192).map fun c =>
        let fg := if act.contains c then (core c).getD (12, 7) else (12, 0)
        Eff.core c { s.core c with freq := fg.1, gate := fg.2 }) ++ tick s

/-- ARBITER_WINDOW. A junction that has reached 115 °C holds reset (R345). -/
def execArbiterWindow (s : State) : Host.Outcome State Fault Refusal :=
  answer s (windowFx.andThen fun t => if 115 ≤ Config.junction s.clock then thermalFx t else [])

/-! ### Attestation (R349) -/

def secInv : Word := 0x6600A1FF46404000

/-- A request starts, unless one runs or its buffer is not aligned. -/
def attestFx (op : Nat) (v : Word) : Fx := fun s =>
  if !s.pkg.attestDone ∨ field v 0 12 ≠ 0 then []
  else if op = 1 ∨ op = 2 then
    [.pkg { s.pkg with attestDone := false, attestReq := some (setField v 62 2 op) }]
  else []

def execAttestReport (v : Word) (s : State) : Host.Outcome State Fault Refusal := answer s (attestFx 1 v)
def execAttestCertificate (v : Word) (s : State) : Host.Outcome State Fault Refusal := answer s (attestFx 2 v)

/-- The measurements M0 and M1 (R348); a vault that has been zeroized holds none. -/
def measurement (p : Pkg) : List Byte :=
  match p.measured with
  | some m => (List.range 64).map (Config.m0 m.1) ++ (List.range 64).map (Config.m1 m.2)
  | none => List.replicate 128 0

/-- Bytes 64 to 255 of a report. -/
def reportBody (p : Pkg) : List Byte :=
  measurement p ++ natToBytes 8 secInv.toNat ++
    natToBytes 8 (secBootWord p).toNat ++ natToBytes 8 p.tfuse.toNat ++ List.replicate 40 0

/-- The certificate with its length, which is at most 4,088. -/
def certificate : List Byte :=
  let l := min Config.certLength.toNat 4088
  natToBytes 8 l ++ (List.range l).map Config.certByte

/-- ATTEST_DONE: the buffer is written, then DONE is set. A buffer that is a hamper's header page cannot be written (17 R353). -/
def execAttestDone (s : State) : Host.Outcome State Fault Refusal :=
  answer s fun s =>
    match s.pkg.attestReq with
    | none => []
    | some v =>
      let a := keyHbm (field v 0 39)
      let body := reportBody s.pkg
      let bs := if field v 62 2 = 1 then body ++ (List.range 132).map (Config.signature (s.bytes a 64 ++ body)) else certificate
      let bad := (s.headerAt a).isSome
      (if bad then [] else [.store (if field v 62 2 = 1 then a + 64 else a) bs]) ++
        [.pkg { s.pkg with attestDone := true, attestErr := bad, attestReq := none }]

/-! ### Management ports (R350)

An I3C private write or read carries a register's index; the IEEE 1149.1 port's own instructions are the four below. I3C_READ stands for a
register read through either port (R347; notes/assumptions/106.md). -/

/-- I3C_WRITE: SEC_RESET, SEC_TAMPER, or tamper event 7. -/
def execI3cWrite (ix : BitVec 16) (v : Word) (s : State) : Host.Outcome State Fault Refusal :=
  answer s (if ix = 0x902 then secResetFx (field v 0 2) else if ix = 0x903 then clearTamper v else tamperFx 7)

/-- The JTAG instructions, by number: IDCODE, BYPASS, SAMPLE/PRELOAD, EXTEST. -/
def jtagSelect (n : Nat) (v : List (BitVec 32)) : Fx := fun s =>
  .pkg { s.pkg with jtag := n } :: v.map fun x => .out (.jtag x)

def execJtagIdcode (s : State) : Host.Outcome State Fault Refusal := answer s (jtagSelect 0 [0x16600D6B])
def execJtagBypass (s : State) : Host.Outcome State Fault Refusal := answer s (jtagSelect 1 [])
def execJtagSamplePreload (s : State) : Host.Outcome State Fault Refusal := answer s (jtagSelect 2 [])
def execJtagExtest (s : State) : Host.Outcome State Fault Refusal := answer s (jtagSelect 3 [])

/-- JTAG_DEBUG_UNLOCK: a valid token unlocks the debug instructions; an attempt without one is tamper event 4. -/
def execJtagDebugUnlock (valid : Bool) (s : State) : Host.Outcome State Fault Refusal :=
  answer s (if valid then onPkg fun p => { p with unlocked := true } else tamperFx 4)

end Sys2Proof.Machine
end

