-- ==== Sys2Proof/Machine/Sync.lean ====
section
/-!
DEFINITION. Barriers, fences, waits and park (09 R223 to R230), the guard latch (08 R204), the delivery of engine faults
(12 R277, 14 R311) and the events that end a wait.
-/
namespace Sys2Proof.Machine

/-! ### Guard latches and fault records -/

/-- An access of window 1 of stream `k` has not performed (08 R204). -/
def window1Out (s : State) (k : Nat) : Bool := (accessesOf s k).any fun e => tidOf e.2.handle == 1

/-- GUARD of an instruction that has to look at the latch, if it is set. -/
def guardTrap (s : State) (k op9 : Nat) : Option Act :=
  let g := (s.ctl k).glatch
  if bitOf g 63 then some (.trap cGUARD true g (fltOf op9)) else none

/-- The oldest record in ENG order that stream `k` may deliver, among those of `p`. -/
def nextRecord (c : Core) (k : Nat) (p : FaultRec → Bool) : Option FaultRec :=
  (c.faults.filter fun r => (r.k == some k || r.k.isNone) && p r).foldl
    (fun acc r => match acc with
      | none => some r
      | some a => some (if r.order < a.order then r else a)) none

/-- What flt.rd returns for a delivered record (14 R334). -/
def recordFlt (r : FaultRec) : Flt := 
  { Flt.reset with i0 := BitVec.ofNat 64 (2 ^ 57 + r.op9 * 2 ^ 48 + r.kp), i1 := r.item1, i2 := BitVec.ofNat 64 r.far }

/-- The trap that delivers a record and clears it. -/
def deliver (co : Nat) (r : FaultRec) : Act :=
  .trapWith (onCore co fun c => { c with faults := c.faults.erase r }) r.code r.tval (some (recordFlt r))

/-! ### Barriers (09 R223, R224) -/

/-- The one access of a barrier instruction: the word at sa as a 64-bit atomic. -/
def barElem (ea : Word) (data : List Byte) : Elem := ⟨0, ea, scalarReach true ea 8, data⟩

def barScope (f : FY) : Nat := f.k.toNat % 8

def execBarInit (f : FY) (s : State) : Host.Outcome State Fault Refusal :=
  issue s { fyDesc f 0x0B8 [f.sa.toNat, f.sb.toNat] with closes := true } fun t =>
    let w : Word := BitVec.ofNat 64 (field (t.sreg t.cur f.sb.toNat) 0 16 * 2 ^ 32)
    let m := plainOp 0x0B8 .store 0 8 (.scalar 8) [barElem (t.sreg t.cur f.sa.toNat) (natToBytes 8 w.toNat)] []
    memIssue { m with scope := barScope f } noCatch t

def execBarArr (f : FY) (s : State) : Host.Outcome State Fault Refusal :=
  issue s { fyDesc f 0x0B9 [f.sa.toNat] with closes := true } fun t =>
    let m := plainOp 0x0B9 (.amo .arrive 64 0 0 none) 0 8 (.scalar 8) [barElem (t.sreg t.cur f.sa.toNat) []] []
    memIssue { m with scope := barScope f, rel := true } noCatch t

/-- The condition of bar.wt on a barrier word. -/
def barDone (w sb : Word) : Bool :=
  let gen := field w 48 16
  if bitOf sb 16 then gen % 2 == field sb 0 1 else decide ((gen + 2 ^ 16 - field sb 0 16) % 2 ^ 16 < 2 ^ 15)

/-- bar.wt: the checks of a 64-bit atomic, the guard latch, then the word (a class-0 read); while the condition does not hold
the stream waits for BARRIER_REREAD. A REMOTE word is read again each time. A word in a guard granule touches the latch with each
reading, and the next one applies R204 again (notes/assumptions/98.md). -/
def execBarWt (f : FY) (s : State) : Host.Outcome State Fault Refusal :=
  issue s (fyDesc f 0x0BA [f.sa.toNat, f.sb.toNat]) fun t =>
    let k := t.cur
    let c := t.ctx k
    let ea := t.sreg k f.sa.toNat
    let sb := t.sreg k f.sb.toNat
    let verdict (w : Word) (gone : Fx) : Act :=
      if barDone w sb then .seq gone
      else .wait (gone.andThen (onCtl k fun c => { c with run := .atBar f }))
    let m := { plainOp 0x0BA (.loadS 0 true) 0 8 (.scalar 8) [barElem ea []] [] with scope := barScope f, rkind := some 20 }
    let watched (a : Act) : Act :=
      if window1Out t k then .wait Fx.none
      else match guardTrap t k 0x0BA with
        | some g => g
        | none => a
    match ownRemote t with
    | some (n, a) =>
      (match a.reply with
        | some (0, _, v) => verdict (v.setWidth 64) fun _ => [.access n none]
        | _ => remoteDone m noCatch n a t)
    | none =>
      if m.behindTag t then .wait Fx.none
      else match checkAll t c (.scalar 8) [barElem ea []] with
      | .error (.trap code w0, h) => .trap code false h (memFlt 0x0BA false 0 (barScope f) 8 0 w0)
      | .error (.miss tn n, _) => .wait (startWalk c.k c.core c.asid tn n)
      | .error (.remote _, _) => watched (memIssue m noCatch t)
      | .error (.spots _ _, _) => .wait Fx.none
      | .ok (ps, touch) =>
        let acc := m.access t ps
        let latch : Fx := match touch with | some o => onCtl k (latchTouch false o) | none => Fx.none
        watched (if !inOrder t t.nextId acc then .wait Fx.none
          else verdict (BitVec.ofNat 64 (bytesToNat (ps.flatMap fun p => loadBytes t t.nextId acc p))) latch)

/-- BARRIER_REREAD: stream `k` reads its barrier word again (09 R224). -/
def execBarrierReread (k : Nat) (s : State) : Host.Outcome State Fault Refusal :=
  match (s.ctl k).run with
  | .atBar f => execBarWt f (s.applyAll (.cur k :: onCtl k (fun c => { c with run := .running }) s))
  | _ => .next s

/-! ### tbar (09 R225) -/

/-- The streams of a team. -/
def teamStreams (tm : Team) : List Nat := tm.cores.flatMap fun c => [3 * c, 3 * c + 1, 3 * c + 2]

/-- A stream that will arrive at no later tbar, or stands at one. -/
def arrivedAt (r : Run) : Bool :=
  match r with | .idle | .finished | .stopped | .atTbar _ => true | _ => false

/-- When every stream of the team has arrived, those that wait retire their tbar. -/
def tbarRelease (tid : Nat) : Fx := fun s =>
  match s.team tid with
  | none => []
  | some tm =>
    let ks := teamStreams tm
    if ks.all fun k => arrivedAt (s.ctl k).run then
      Fx.each (fun k => fun s => match (s.ctl k).run with
        | .atTbar f =>
          (Fx.andThen (onCtl k fun c => { c with run := .running }) (retireSeq k 8 f.fp (!(s.ctl k).prv))) s
        | _ => []) ks s
    else []

/-- `tbar` issues when it arrives: its FO field pops and a region closes there; its FP field pushes when it is released
(notes/assumptions/99.md). -/
def execTbar (f : FY) (s : State) : Host.Outcome State Fault Refusal :=
  issue s { fyDesc f 0x0BB [] with closes := true } fun t =>
    let k := t.cur
    if window1Out t k then .wait Fx.none
    else match guardTrap t k 0x0BB with
      | some a => a
      | none =>
        if accessesOf t k ≠ [] ∨ (t.ctl k).late ≠ [] then .wait Fx.none
        else .stop ((onCtl k fun c => { c with run := .atTbar f, tbars := c.tbars + 1 }).andThen
          (tbarRelease (((t.core (coreOf k)).team).getD 0)))

/-! ### Fences (09 R227, R228) -/

/-- A fence over the accesses `accs` in scope `f.k`'s SC: with none of them outstanding it retires at once, otherwise in a later step,
and the stream goes on. -/
def fenceAct (t : State) (f : FY) (accs : List Nat) (engine : Bool) : Act :=
  let mask : BitVec 16 := if engine then 0 else f.k.setWidth 16
  if accs = [] then .seq Fx.none
  else .slow Fx.none
    { stall := steps t, accs := accs, fence := some ⟨t.nextId, mask, f.k.toNat / 2 ^ 16 % 8, engine, false⟩ }

/-- `fence.cls` (09 R227): later accesses of its classes wait for it, those of other classes pass it. -/
def execFenceCls (f : FY) (s : State) : Host.Outcome State Fault Refusal :=
  issue s (fyDesc f 0x0BC []) fun t =>
    fenceAct t f (((accessesOf t t.cur).filter fun e => f.k.getLsbD e.2.cls).map (·.1)) false

/-- `xfence` (09 R228): later engine instructions wait for it, nothing else does. At scope `.st` every store has performed once it has
issued, for the stream sees its own stores at once. -/
def execXfence (f : FY) (s : State) : Host.Outcome State Fault Refusal :=
  issue s (fyDesc f 0x0BD []) fun t =>
    fenceAct t f (if f.k.toNat / 2 ^ 16 % 8 = 0 then [] else
      ((accessesOf t t.cur).filter fun e => !e.2.kind.isLoad).map (·.1)) true

/-! ### Waits (09 R229) -/

def execWait (f : FY) (s : State) : Host.Outcome State Fault Refusal :=
  issue s (fyDesc f 0x0BE []) fun t =>
    let n := f.k.toNat % 64
    let co := coreOf t.cur
    let c := t.core co
    match c.tok n with
    | .cancelled => .trap cTOKEN false (BitVec.ofNat 64 n) (fltOf 0x0BE)
    | .incomplete => .wait (block t.cur (.token n))
    | .complete =>
      match nextRecord c t.cur (fun r => r.kp == n) with
      | some r => if n = 0 then .seq Fx.none else deliver co r
      | none => .seq Fx.none

/-- The operations that stream `k` has issued and that have not completed; entries of chains are no instructions of its own. -/
def streamOps (s : State) (k : Nat) : List Op := ((opsOf s (coreOf k)).map (·.2)).filter fun o => o.k == k && o.parent.isNone

/-- Tile operations, as waitc counts them. -/
def isTileOp (op9 : Nat) : Bool := isMtx op9 || isPrz op9 || op9 == 0x0E4

/-- Loads, stores, copies and tile operations outstanding (09 R229). -/
def outCounts (s : State) (k : Nat) : Nat × Nat × Nat × Nat :=
  let l := ((accessesOf s k).filter fun e => e.2.kind.isLoad).length
  let ops := streamOps s k
  let t := (ops.filter fun o => isTileOp o.op9).length
  (l, (accessesOf s k).length - l, ops.length - t, t)

/-- `waitc` delivers the record of an operation that it waits out (12 R277): one for which, were it outstanding still, the counts would
not let the instruction through (notes/assumptions/36.md). -/
def execWaitc (f : FY) (s : State) : Host.Outcome State Fault Refusal :=
  issue s (fyDesc f 0x0BF []) fun t =>
    let k := t.cur
    let n (i : Nat) : Nat := f.k.toNat / 2 ^ (6 * i) % 64
    let o := outCounts t k
    if n 0 < o.1 ∨ n 1 < o.2.1 ∨ n 2 < o.2.2.1 ∨ n 3 < o.2.2.2 then .wait (block k (.counts (n 0) (n 1) (n 2) (n 3)))
    else match nextRecord (t.core (coreOf k)) k fun r => if isTileOp r.op9 then n 3 ≤ o.2.2.2 else n 2 ≤ o.2.2.1 with
      | some r => deliver (coreOf k) r
      | none => .seq Fx.none

/-! ### park (09 R230, 05 R126) -/

/-- The stream parks on rows (09 R230), or goes on at once: the park limit is 0, or a write to one of them has performed since the
stream's most recent load, which read it. Whether another package has written a row of its own is a free value. -/
def parkOn (rows : List Nat) (t : State) : Fx :=
  let seen : Bool := match (t.ctl t.cur).lastLoad with
    | some l => rows.any fun r => l.rows.contains r && (l.written.contains r || (decide (2 ^ 80 ≤ r) && Config.farWritten t.clock))
    | none => false
  tick.andThen (if field (t.core (coreOf t.cur)).parklim 0 32 = 0 ∨ seen then Fx.none
    else onCtl t.cur fun c => { c with run := .parked rows })

/-- `park`: the checks of a 1-byte load, which for a REMOTE tensor are made in its package (08 R202). -/
def execPark (f : FY) (s : State) : Host.Outcome State Fault Refusal :=
  issue s (fyDesc f 0x0C0 [f.sa.toNat]) fun t =>
    let c := t.ctx t.cur
    let ea := t.sreg t.cur f.sa.toNat
    let e : Elem := ⟨0, ea, .ok [(offOf ea, 1)], []⟩
    let far (tn : Tensor) : Act :=
      match memIssue { plainOp 0x0C0 (.loadS 0 true) 0 1 .load [e] [] with rkind := some 22 } noCatch t with
      | .seq fx => .seq (fx.andThen (parkOn [remoteRow t tn (offOf ea)] t))
      | a => a
    match checkAll t c .load [e] with
    | .error (.trap code w0, h) => .trap code false h (memFlt 0x0C0 false 0 0 1 0 w0)
    | .error (.miss tn n, _) => .wait (startWalk c.k c.core c.asid tn n)
    | .error (.remote tn, _) => far tn
    | .error _ => .seq Fx.none
    | .ok (ps, _) =>
      match ps.flatMap fun p => rowsOfSpot p.spot with
      | [] => .seq Fx.none
      | rows => .seq (parkOn rows t)

/-- A parked stream goes on. -/
def unpark (k : Nat) : Fx := fun s =>
  match (s.ctl k).run with
  | .parked _ => onCtl k (fun c => { c with run := .running }) s
  | _ => []

/-- PARK_LIMIT_EXPIRY: the park limit has passed. -/
def execParkLimitExpiry (k : Nat) (s : State) : Host.Outcome State Fault Refusal := answer s (unpark k)

/-- PARK_EARLY_RESUME: a stream may resume at any time. -/
def execParkEarlyResume (k : Nat) (s : State) : Host.Outcome State Fault Refusal := answer s (unpark k)

end Sys2Proof.Machine
end

