-- ==== Sys2Proof/Machine/Graph.lean ====
section
/-!
DEFINITION. Graphs in progress: the node records (07 R153 to R155), arrivals, skips and events (R157, R158), loops (R160), the
sequencer's own accesses (R396), completion records (R172), the end of shares (05 R129, 14 R336) and the failure of nodes (07 R167,
14 R312).
-/
namespace Sys2Proof.Machine

/-! ### Node records (07 R154, R155) -/

def Inst.word (i : Inst) (n w : Nat) : Word := (i.nodes.getD n []).getD w 0
def Inst.kind (i : Inst) (n : Nat) : Nat := field (i.word n 0) 61 3
def Inst.oper (i : Inst) (n : Nat) : Nat := field (i.word n 0) 40 16
def Inst.pred (i : Inst) (n : Nat) : Nat := field (i.word n 0) 24 16
def Inst.waitev (i : Inst) (n : Nat) : BitVec 16 := BitVec.ofNat 16 (field (i.word n 0) 0 16)
def Inst.sigev (i : Inst) (n : Nat) : BitVec 16 := BitVec.ofNat 16 (field (i.word n 1) 48 16)
def Inst.clrev (i : Inst) (n : Nat) : BitVec 16 := BitVec.ofNat 16 (field (i.word n 1) 32 16)
def Inst.node (i : Inst) (n : Nat) : NodeSt := FMap.get .reset i.nst n
def Inst.setNode (i : Inst) (n : Nat) (x : NodeSt) : Inst := { i with nst := FMap.set .reset i.nst n x }

/-- An operand descriptor of a kernel node: 96 bits from byte 48 + 12n. -/
structure Operand where
  tid : Nat
  mode : Nat
  froz : Bool
  rsvd : Nat
  tcnt : Nat
  tfirst : Nat
  deriving DecidableEq, Repr

def operandOf (ws : List Word) (n : Nat) : Operand :=
  let all := bytesToNat (((ws.drop 6).flatMap fun w => natToBytes 8 w.toNat).drop (12 * n) |>.take 12)
  { tid := all / 2 ^ 76 % 2 ^ 20, mode := all / 2 ^ 74 % 4, froz := all / 2 ^ 73 % 2 == 1, rsvd := all / 2 ^ 64 % 2 ^ 9
    tcnt := all / 2 ^ 32 % 2 ^ 32, tfirst := all % 2 ^ 32 }

/-- A field of the launch header: its lowest bit, its width, its count, and whether it is spread. -/
structure HField where
  shift : Nat
  width : Nat
  count : Nat
  spread : Bool
  deriving DecidableEq, Repr

def hfieldsFrom (limit spread wm : Nat) : Nat → Nat → Nat → List HField
  | 0, _, _ => []
  | k + 1, n, shift =>
    let w := wm / 2 ^ (6 * n) % 64 + 1
    ⟨shift, w, limit / 2 ^ shift % 2 ^ w + 1, spread / 2 ^ n % 2 == 1⟩ :: hfieldsFrom limit spread wm k (n + 1) (shift + w)

/-- The fields of a kernel node's launch header, field 0 first. -/
def headerOf (ws : List Word) : List HField :=
  let w4 := ws.getD 4 0
  hfieldsFrom (ws.getD 3 0).toNat (field w4 54 6) (field w4 0 36) (field w4 61 3) 0 0

def taxOf (ws : List Word) : Bool := bitOf (ws.getD 4 0) 60

/-- The length of the run axis (07 R163, R397). -/
def axisOf (ws : List Word) : Nat :=
  ((List.range 6).filter fun n => (operandOf ws n).mode != 0).foldl (fun t n => max t (operandOf ws n).tcnt) 1

/-- The successor sets of a record, with their places: 0 OKSET, 1 FAILSET, 2 ELSESET, 3 + k SETk. -/
def setsOf (ws : List Word) : List (Nat × Nat) :=
  let w2 := ws.getD 2 0
  let base := [(0, field w2 0 24), (1, field w2 24 24)]
  match field (ws.getD 0 0) 61 3 with
  | 1 => base ++ [(2, field (ws.getD 8 0) 40 24)]
  | 3 =>
    let all := bytesToNat (((ws.drop 7).take 6).flatMap fun w => natToBytes 8 w.toNat)
    base ++ (List.range (field (ws.getD 6 0) 0 5)).map fun k => (3 + k, all / 2 ^ (24 * k) % 2 ^ 24)
  | _ => base

/-- The entries of the successor array that a set names. -/
def setEntries (set : Nat) : List Nat := (List.range (set % 2 ^ 8)).map (· + set / 2 ^ 8)

def bodyFirst (ws : List Word) : Nat := field (ws.getD 6 0) 32 16
def bodyLast (ws : List Word) : Nat := field (ws.getD 6 0) 48 16

/-- The loop node whose body is the innermost one that holds node `n`. -/
def innermost (nodes : List (List Word)) (n : Nat) : Option Nat :=
  ((List.range n).filter fun l =>
    let ws := nodes.getD l []
    field (ws.getD 0 0) 61 3 == 2 && decide (bodyFirst ws ≤ n) && decide (n ≤ bodyLast ws)).getLast?

/-! ### Arrivals, skips, events, loops (07 R157 to R160) -/

def NState.ended (x : NState) : Bool := x == .completed || x == .failed || x == .skipped

def eventsMet (i : Inst) (n : Nat) : Bool := i.events &&& i.waitev n == i.waitev n

/-- A node that is due with a real start waits for its events or is ready. -/
def makeDue (stamp : Nat) (i : Inst) (n : Nat) : Inst :=
  i.setNode n { i.node n with state := if eventsMet i n then .ready else .due, stamp := stamp }

/-- Nodes that wait for events that are now set become ready. -/
def wakeNodes (stamp : Nat) (i : Inst) : Inst :=
  (List.range i.nodes.length).foldl (fun i n =>
    if (i.node n).state == .due && eventsMet i n then i.setNode n { i.node n with state := .ready, stamp := stamp } else i) i

/-- The start of an iteration of loop `l` (07 R160). -/
def iterate (stamp l iter count : Nat) (i : Inst) : Inst :=
  let ws := i.nodes.getD l []
  let body := (List.range (bodyLast ws + 1 - bodyFirst ws)).map (· + bodyFirst ws)
  let i1 := body.foldl (fun i n => i.setNode n { i.node n with
    arrivals := 0, real := false, state := .waiting, rise := 0, rooted := [], iter := 0, count := 0, met := [], latched := false, runs := [], args := [] }) i
  let i2 := { i1 with events := i1.events &&& ~~~(i.clrev l) }
  let i3 := i2.setNode l { i2.node l with state := .running, iter := iter, count := count }
  body.foldl (fun i n => if i.pred n = 0 ∧ innermost i.nodes n = some l then makeDue stamp i n else i) i3

/-- One arrival at a node; the node is due, or to be skipped (the second part), when the last one arrives. -/
def arrive (stamp : Nat) (real : Bool) (acc : Inst × List Nat) (n : Nat) : Inst × List Nat :=
  let i := acc.1
  let x := i.node n
  let x1 := { x with arrivals := x.arrivals + 1, real := x.real || real }
  let i1 := i.setNode n x1
  if x1.arrivals ≠ i.pred n then (i1, acc.2)
  else if x1.real then (makeDue stamp i1 n, acc.2)
  else (i1, acc.2 ++ [n])

/-- Conversion nodes of a run that has ended at once (SKIP) are still to run, or run (07 R164). -/
def NodeSt.converting (x : NodeSt) : Bool :=
  x.runs.any fun r => r.state == .ended && r.convs.any fun c => c.first.isSome && !(c.placed == c.tiles && c.live == 0)

/-- The node has ended, and its conversion nodes have. -/
def NodeSt.isOver (x : NodeSt) : Bool := x.state.ended && !x.converting

/-- An iteration of loop `l` ends when all of the nodes that belong to it have: the next one begins, or the loop is over (the second
part). -/
def loopTurn (stamp l : Nat) (i : Inst) : Inst × Bool :=
  let x := i.node l
  if ((List.range i.nodes.length).filter fun m => innermost i.nodes m == some l).all fun m => (i.node m).isOver then
    (if x.iter + 1 < x.count then (iterate stamp l (x.iter + 1) x.count i, false) else (i, true))
  else (i, false)

/-- The nodes of the list end, one after another, with all that follows: arrivals, skips, the ends of iterations. Each carries how
it ended and its chosen set. -/
def endNodes (stamp : Nat) : Nat → List (Nat × NState × Option Nat) → Inst → Inst
  | 0, _, i => i
  | _ + 1, [], i => i
  | fuel + 1, (n, how, chosen) :: t, i =>
    if (i.node n).state.ended then endNodes stamp fuel t i
    else
      let i1 := i.setNode n { i.node n with state := how }
      let i2 := if how == .completed then wakeNodes stamp { i1 with events := i1.events ||| i.sigev n } else i1
      let r := (setsOf (i.nodes.getD n [])).foldl (fun acc st =>
        (setEntries st.2).foldl (fun acc e => arrive stamp (chosen == some st.1) acc (i.succ.getD e 0)) acc) (i2, [])
      let skips : List (Nat × NState × Option Nat) := r.2.map fun m => (m, .skipped, none)
      match innermost i.nodes n with
      | none => endNodes stamp fuel (t ++ skips) r.1
      | some l =>
        let q := loopTurn stamp l r.1
        endNodes stamp fuel (t ++ skips ++ if q.2 then [(l, .completed, some 0)] else []) q.1

def endNode (stamp n : Nat) (how : NState) (chosen : Option Nat) (i : Inst) : Inst :=
  endNodes stamp (2 * i.nodes.length + 2) [(n, how, chosen)] i

/-- The last conversion node of an ended node is over: the loop around it may go on. -/
def afterConvs (stamp n : Nat) (i : Inst) : Inst :=
  match innermost i.nodes n with
  | none => i
  | some l =>
    if (i.node l).state != .running then i
    else
      let q := loopTurn stamp l i
      if q.2 then endNode stamp l .completed (some 0) q.1 else q.1

/-- Every node that the launch reached has ended (07 R172). -/
def Inst.isOver (i : Inst) : Bool :=
  (List.range i.nodes.length).all fun n =>
    let x := (i.node n).state
    !(x == .due || x == .ready || x == .running || (i.node n).converting)

/-! ### The sequencer's accesses (07 R396) -/

def seqCtx (asid : Nat) : Ctx := { plainCtx asid with user := false }

/-- The offset that an 8-byte access reaches, or ALIGN. -/
def seqOffset (h : Word) : Except Byte Nat :=
  if 256 ≤ tidOf h then (if offOf h % 8 = 0 then .ok (offOf h) else .error cALIGN) else .ok (offOf h / 4 * 4)

/-- `n` words read in the launch's address space. -/
def seqRead (s : State) (asid : Nat) (h : Word) (n : Nat) : BRead :=
  match seqOffset h with
  | .error code => .fault code h
  | .ok off =>
    match engRead s (seqCtx asid) anyTag (tidOf h) off (8 * n) with
    | .absent a => .absent a
    | .fault code x => .fault code x
    | .bytes bs g => .words ((List.range n).map fun i => BitVec.ofNat 64 (bytesToNat ((bs.drop (8 * i)).take 8))) g

/-- All the units perform, or none while one has to wait. -/
def writeAll : List WUnit → State → Option (List Eff)
  | [], _ => some []
  | u :: t, s =>
    match writeUnit s false u with
    | .did e => (writeAll t (s.applyAll e)).map (e ++ ·)
    | .wait => none
    | .refused => writeAll t s

/-- Words written in the launch's address space: the effects, the code of a failed check, or none while a tile or the frame pool
has to be waited for. -/
def seqWrite (s : State) (asid : Nat) (h : Word) (ws : List Word) : Option (Except Byte (List Eff)) :=
  match seqOffset h with
  | .error code => some (.error code)
  | .ok off =>
    let c := seqCtx asid
    let bs := ws.flatMap fun w => natToBytes 8 w.toNat
    match placeCheck s c (tidOf h) off bs.length true with
    | .error code => some (.error code)
    | .ok (.tensor t) =>
      if t.remote then some (.error cTILE_PROT)
      else if (rangeSegments t.tbytes off bs.length).any fun p => malformed (readTile s t (p.1 / t.tbytes)).tag then
        some (.error cTAG_MISMATCH)
      else
        let us : List WUnit := (rangeSegments t.tbytes off bs.length).map fun p =>
          ⟨asid, t.tid, p.1 / t.tbytes, [(p.1 % t.tbytes, (bs.drop (p.1 - off)).take p.2)], none, anyFormat⟩
        (writeAll us s).map .ok
    | .ok _ => some (.error cTILE_PROT)

/-! ### Completion records (07 R172) -/

/-- The MSI-X message that follows the record. -/
def interrupt (s : State) (i : Inst) : List Eff := if i.irq then [.out (.msix (s.queue i.queue).vec)] else []

/-- The record is written, unless its write has to wait; then the launch keeps it. A COMPL that is not aligned or whose write fails
its checks gets no record. -/
def writeRecord (n : Nat) (i : Inst) (w0 w1 : Word) : Fx := fun s =>
  let fin (e : List Eff) : List Eff := e ++ interrupt s i ++ [.inst n none]
  if offOf i.compl % 16 ≠ 0 then fin []
  else match seqWrite s i.asid i.compl [w0, w1] with
    | none => [.inst n (some { i with record := some (w0, w1) })]
    | some (.error _) => fin []
    | some (.ok e) => fin e

def recordWord (i : Inst) (status cause node : Nat) : Word :=
  BitVec.ofNat 64 (i.cookie.toNat * 2 ^ 32 + status * 2 ^ 24 + cause * 2 ^ 16 + node)

def timeWord (s : State) (detail : Nat) : Word := BitVec.ofNat 64 (detail * 2 ^ 56 + (Config.launchTime s.clock).toNat)

/-- The launch is over: its record, with the first failure. -/
def finishLaunch (n : Nat) (i : Inst) : Fx := fun s =>
  match i.failed with
  | none => writeRecord n i (recordWord i 0 0 0) (timeWord s 0) s
  | some (node, cause, detail) => writeRecord n i (recordWord i 1 cause.toNat node) (timeWord s detail.toNat) s

/-- The launch after a change of its nodes: kept, or over. -/
def keepInst (n : Nat) (i : Inst) : Fx :=
  Fx.andThen (fun _ => [.fresh]) (if i.isOver && !i.cancelled then finishLaunch n i else fun _ => [.inst n (some i)])

/-- Node `n` of launch `l` completes with its chosen set. -/
def completeNode (l n chosen : Nat) : Fx := fun s =>
  match s.inst l with
  | none => []
  | some i => if i.cancelled then [] else keepInst l (endNode s.nextId n .completed (some chosen) i) s

/-! ### Cancelling operations (14 R317, R318, 18 R378) -/

/-- The collective that a col.red takes part in: its key, its participants, the rank. -/
def collOf (s : State) (o : Op) : Option (Nat × Nat × Nat) :=
  if o.op9 ≠ 0x0E1 then none
  else
    let ws := if o.state = .contributed then o.table else match readBlock s (opCtx s o) o.a1 8 with | .words ws _ => ws | _ => []
    let cb : Cb := ⟨ws⟩
    if ws ≠ [] ∧ cb.ok ∧ o.state ≠ .ready then some (collKey cb.map cb.seq, cb.p, field o.a2 0 12) else none

/-- A collective aborts because operations of these ranks were cancelled, with the lowest of them (18 R378), and waits for none of them any
more; one that nobody has contributed to yet is kept as aborted. -/
def abortFor (key parts : Nat) (ranks : List Nat) : Fx :=
  Fx.andThen (fun s => match s.collNow key with
    | some _ => []
    | none => [.coll key (some (blankColl key parts s)), .fresh])
    (Fx.andThen (abortColl key (BitVec.ofNat 64 (ranks.foldl min 4096)) true) (Fx.each (collTold key) ranks))

/-- Operations stop at once: their tokens become cancelled, what they have not done never happens, and the collectives that they
take part in abort with the lowest of their ranks. -/
def cancelOps (l : List (Nat × Op)) : Fx := fun s =>
  let colls := l.filterMap fun e => collOf s e.2
  (Fx.each (fun (e : Nat × Op) => Fx.andThen (fun _ => [.op e.1 none]) (onCore e.2.core fun c =>
      if e.2.kp = 0 ∨ e.2.parent.isSome then c else { c with toks := FMap.set .complete c.toks e.2.kp .cancelled })) l).andThen
    (Fx.each (fun key =>
      let mine := colls.filter (·.1 == key)
      abortFor key ((mine.map (·.2.1)).headD 0) (mine.map (·.2.2))) (colls.map (·.1)).eraseDups) s

/-- The operations of a team. -/
def teamOps (s : State) (t : Nat) : List (Nat × Op) :=
  s.ops.filterMap fun e => match e.2 with | some o => if o.team = t then some (e.1, o) else none | none => none

/-! ### Ending shares (14 R336) -/

/-- A number for the core of rank `r` of a team that is on no core. -/
def offCore (t r : Nat) : Nat := 1000 + 6 * t + r

/-- Accesses of a team's streams when its share is ended: loads are dropped, the others go on to perform without an owner, in the order
that the fences between them keep (14 R336, 09 R227). -/
def orphan (t : Nat) (tm : Team) : Fx := fun s =>
  let owner (k : Nat) : Nat := 3 * offCore t (tm.cores.findIdx (· == coreOf k)) + kindOf k
  (s.accs.filterMap fun e => match e.2 with
    | some a =>
      if (teamStreams tm).contains a.k then
        some (.access e.1 (if a.kind.isLoad || a.remote then none else some { a with
          k := owner a.k
          kind := match a.kind with | .amo op w x c _ => .amo op w x c none | k => k }))
      else none
    | none => none) ++
  (teamStreams tm).filterMap fun k =>
    let fences := (s.ctl k).late.filter (·.fence.isSome)
    if fences = [] then none
    else some (.ctl (owner k) { Ctl.reset with late := fences.map fun l => { l with fp := 0, outcome := none, writes := [], counts := false } })

/-- The bit of a frame slot in its address space's bitmap (14 R320). -/
def slotBit (s : State) (asid slot : Nat) (v : Bool) : List Eff :=
  let a := field (asWord s asid 7) 0 39 + slot / 8
  [.store a [BitVec.ofNat 8 ((s.byte a).toNat / 2 ^ (slot % 8 + 1) * 2 ^ (slot % 8 + 1) + (if v then 2 ^ (slot % 8) else 0) +
    (s.byte a).toNat % 2 ^ (slot % 8))]]

/-- The cores of a team return to the pool: their streams are idle. -/
def freeCores (tm : Team) : Fx :=
  (Fx.each (fun k => onCtl k fun c => { c with run := .idle, blocked := none, late := [] }) (teamStreams tm)).andThen
    (Fx.each (fun c => onCore c fun r => { r with team := none, qfmt := none }) tm.cores)

/-- A share is ended before its streams are done: its streams stop, its operations are cancelled, its cores and its frame slot
are free. -/
def endShare (t : Nat) : Fx := fun s =>
  match s.team t with
  | none => []
  | some tm =>
    let slot : Fx := match tm.state with
      | .swapped _ n => fun s => slotBit s tm.asid n false
      | .saving _ _ _ n => fun s => slotBit s tm.asid n false
      | _ => Fx.none
    ((cancelOps (teamOps s t)).andThen ((orphan t tm).andThen ((freeCores tm).andThen slot)) |>.andThen fun s =>
      .team t none :: s.pool.filterMap fun e => match e.2 with
        | some p => if p.team = some t then some (.pool e.1 none) else none
        | none => none) s

/-- The teams that run shares of node `n` of launch `l`, its conversions among them; of every node if none is named. -/
def teamsOf (s : State) (l : Nat) (n : Option Nat) : List Nat :=
  s.teams.filterMap fun e => match e.2 with
    | some tm => if tm.inst = l ∧ (n = none ∨ n = some tm.node) then some e.1 else none
    | none => none

/-- The ready-pool entries of a node leave their pools, with their reservations. -/
def dropPool (l : Nat) (n : Option Nat) : Fx := fun s =>
  (s.pool.filterMap fun e => match e.2 with
    | some p => if p.inst = l ∧ (n = none ∨ n = some p.node) then some (.pool e.1 none) else none
    | none => none) ++
  s.reserved.filterMap fun e => match e.2 with
    | some p => (match FMap.get none s.pool p with
      | some x => if x.inst = l ∧ (n = none ∨ n = some x.node) then some (.reserve e.1 none) else none
      | none => some (.reserve e.1 none))
    | none => none

/-- The arena of a launch as a key of the arena records. -/
def arenaKey (i : Inst) : Nat := i.asid * 2 ^ 20 + tidOf i.arena

/-- The arena tiles of runs are free again (07 R166); those of a run that has ended already are. -/
def freeArena (i : Inst) (rs : List RunRec) : Fx := fun s =>
  let mine := (rs.filter (·.state != .ended)).flatMap fun r => r.convs.flatMap fun c => match c.first with
    | some f => (List.range c.tiles).map fun j => (arenaKey i, f + j)
    | none => []
  if mine = [] then [] else [.busy (s.busy.filter fun x => !mine.contains x)]

/-- Everything that a node, or a launch, has going stops (14 R336). -/
def stopNodes (l : Nat) (n : Option Nat) : Fx := fun s =>
  match s.inst l with
  | none => []
  | some i =>
    let ns := match n with | some n => [n] | none => List.range i.nodes.length
    ((Fx.each endShare (teamsOf s l n)).andThen ((dropPool l n).andThen
      (Fx.each (fun n => freeArena i (i.node n).runs) ns))) s

/-- The failure that the record of a launch names (07 R172): the first, and of failures in the same µs the one of the lowest node. Whether
a failure lies in the µs of the one recorded is open here (notes/assumptions/77.md). -/
def firstFailure (at0 : Nat) (old : Option (Nat × Byte × Byte)) (new : Nat × Byte × Byte) : Nat × Byte × Byte :=
  match old with
  | none => new
  | some f => if new.1 < f.1 ∧ Config.sameMicrosecond at0 = true then new else f

/-- Fail (07 R167): a node ends as failed. One that has completed, a conversion of a run that SKIP ended failing after it, stays completed:
its conversion nodes end, and the failure is recorded (notes/assumptions/85.md). -/
def failNode (l n : Nat) (cause : Byte) (detail : Nat) : Fx := fun s =>
  match s.inst l with
  | none => []
  | some i =>
    if i.cancelled || (i.node n).isOver then []
    else
      (Fx.andThen (stopNodes l (some n)) fun s =>
        let i1 := { i with failed := some (firstFailure s.nextId i.failed (n, cause, BitVec.ofNat 8 detail)) }
        let i2 := i1.setNode n { i1.node n with runs := [] }
        keepInst l (if (i.node n).state.ended then afterConvs s.nextId n i2 else endNode s.nextId n .failed (some 1) i2) s) s

/-- The node of a team fails. -/
def failTeam (t : Nat) (cause : Byte) : Fx := fun s =>
  match s.team t with
  | none => []
  | some tm =>
    match s.inst tm.inst with
    | some _ => (Fx.andThen (failNode tm.inst tm.node cause 0) (endShare t)) s
    | none => endShare t s

/-! ### The end of a share (05 R129) -/

/-- Every stream is done, every operation complete, every access performed: the end of a share is a release (07 R159). -/
def shareOver (s : State) (t : Nat) (tm : Team) : Bool :=
  tm.state == .placed && (teamStreams tm).all (fun k =>
    ((s.ctl k).run == .idle || (s.ctl k).run == .finished) && (accessesOf s k).isEmpty) && (teamOps s t).isEmpty

def RunRec.isOver (r : RunRec) : Bool := r.placed == r.shares && r.live == 0

/-- Run `r` of a node ends: its arena tiles are free; the node completes with its last run. -/
def endRun (l n r : Nat) : Fx := fun s =>
  match s.inst l with
  | none => []
  | some i =>
    let x := i.node n
    match x.runs[r]? with
    | none => []
    | some run =>
      let x1 := { x with runs := x.runs.set r { run with state := .ended } }
      (Fx.andThen (Fx.andThen (freeArena i [run]) fun _ => [.inst l (some (i.setNode n x1))])
        (if x1.runs.all (·.state == .ended) then completeNode l n 0 else Fx.none)) s

/-- One share fewer of the team's run or conversion is live. -/
def shareGone (tm : Team) : Fx := fun s =>
  match s.inst tm.inst with
  | none => []
  | some i =>
    let x := i.node tm.node
    match x.runs[tm.run]? with
    | none => []
    | some run =>
      match tm.conv with
      | some c =>
        let run1 := { run with convs := run.convs.modify c fun v => { v with live := v.live - 1 } }
        let i1 := i.setNode tm.node { x with runs := x.runs.set tm.run run1 }
        if run.state = .ended then keepInst tm.inst (afterConvs s.nextId tm.node i1) s else [.inst tm.inst (some i1)]
      | none =>
        let run1 := { run with live := run.live - 1 }
        (Fx.andThen (fun _ => [.inst tm.inst (some (i.setNode tm.node { x with runs := x.runs.set tm.run run1 }))])
          (if run1.isOver then endRun tm.inst tm.node tm.run else Fx.none)) s

/-- SHARE_END (05 R129). -/
def execShareEnd (t : Nat) (s : State) : Host.Outcome State Fault Refusal :=
  answer s fun s =>
    match s.team t with
    | none => []
    | some tm =>
      if shareOver s t tm then
        (Fx.andThen (freeCores tm) (Fx.andThen (fun _ => [.team t none]) (shareGone tm))) s
      else []

/-! ### Events (07 R158, R179) -/

/-- Graph event bits are set; nodes that wait for them become ready. -/
def signal (l : Nat) (bits : BitVec 16) : Fx := fun s =>
  match s.inst l with
  | none => []
  | some i =>
    if i.cancelled then []
    else [.inst l (some (wakeNodes s.nextId { i with events := i.events ||| bits })), .fresh]

/-! ### What a step leaves to be settled -/

/-- Nodes whose teams met a double trap fail (14 R312); completion records that waited for a tile are tried again (07 R396). -/
def settleFx : Fx :=
  Fx.andThen (fun s => if s.failing = [] then [] else
      (Fx.andThen (fun _ => [.failing []]) (Fx.each (fun (f : Nat × Byte) => failTeam f.1 f.2) s.failing)) s)
    fun s => Fx.each (fun (e : Nat × Option Inst) => fun s => match e.2 with
      | some i => (match i.record with | some (w0, w1) => writeRecord e.1 i w0 w1 s | none => [])
      | none => []) s.insts s

def settle (s : State) : State := s.applyAll (settleFx s)

end Sys2Proof.Machine
end

