-- ==== Sys2Proof/Machine/Launch.lean ====
section
/-!
DEFINITION. Launch queues and doorbells (07 R171), the check of a launch (R156), cancellation (R173), control and event nodes (R157 to
R161).
-/
namespace Sys2Proof.Machine

/-! ### Doorbells and cancels -/

def modDiff (a b : BitVec 32) : Nat := (a - b).toNat

/-- DOORBELL: a write of the doorbell of queue `q` (07 R171), of which there are 131,072 (00 R2). -/
def execDoorbell (q : Nat) (v : Word) (s : State) : Host.Outcome State Fault Refusal :=
  answer s fun s =>
    let d := s.queue q
    let t : BitVec 32 := v.setWidth 32
    if 131072 ≤ q then []
    else if field v 32 32 ≠ 0 ∨ 2 ^ d.log2n < modDiff t d.head then [.queue q { d with err := true }]
    else if modDiff t d.head ≤ modDiff d.tail d.head then []
    else [.queue q { d with tail := t }]

/-- A launch is cancelled (07 R173, steps 1 to 4). -/
def cancelLaunch (l : Nat) : Fx := fun s =>
  match s.inst l with
  | none => []
  | some i =>
    if i.cancelled || i.record.isSome then []
    else
      let live := (List.range i.nodes.length).filter fun n =>
        (i.node n).state == .ready || (i.node n).state == .running
      (Fx.andThen (fun _ => [.inst l (some { i with cancelled := true, cancelNode := live.headD 0 })]) (stopNodes l none)) s

/-- Every launch of the queue that has been fetched and has not completed. -/
def cancelAll (q : Nat) : Fx := fun s =>
  Fx.each cancelLaunch (s.insts.filterMap fun e => match e.2 with
    | some i => if i.queue = q then some e.1 else none
    | none => none) s

/-- Record `n` of the queue; one that is still ahead of HEAD is marked. There are 131,072 queues (00 R2). -/
def cancelOne (q : Nat) (n : BitVec 32) : Fx := fun s =>
  let d := s.queue q
  match s.insts.find? fun e => match e.2 with | some i => i.queue == q && i.number == n | none => false with
  | some (l, _) => cancelLaunch l s
  | none => if q < 131072 ∧ modDiff n d.head < 2 ^ d.log2n ∧ !d.marks.contains n then [.queue q { d with marks := d.marks ++ [n] }] else []

/-- CANALL -/
def execCanall (q : Nat) (s : State) : Host.Outcome State Fault Refusal := answer s (cancelAll q)

/-- CANONE -/
def execCanone (q : Nat) (n : BitVec 32) (s : State) : Host.Outcome State Fault Refusal := answer s (cancelOne q n)

/-- CANCEL_COMPLETE: the cancelled launch has stopped, and its record is written (07 R173, step 5). -/
def execCancelComplete (l : Nat) (s : State) : Host.Outcome State Fault Refusal :=
  answer s fun s =>
    match s.inst l with
    | none => []
    | some i =>
      if i.cancelled && i.record.isNone && (teamsOf s l none).isEmpty then
        writeRecord l i (recordWord i 3 0 i.cancelNode) (timeWord s 0) s
      else []

/-! ### The check of a launch (07 R156) -/

/-- The words of a range of GRAPH's tensor that the check reads, whether or not it has RD: none while a tile is absent, nothing if the
range is not held. A tile with a malformed tag holds nothing (notes/assumptions/78.md). -/
inductive IRead where
  | held (bs : List Byte)
  | missing
  | absent

def imageRead (s : State) (asid : Nat) (tid off n : Nat) : IRead :=
  match readTensor s asid tid with
  | none => .missing
  | some t =>
    if t.remote || t.bytes < off + n then .missing
    else match readParts (engPart s (seqCtx asid) anyTag t) (rangeSegments t.tbytes off n) with
      | .bytes bs _ => .held bs
      | .fault _ _ => .missing
      | .absent _ => .absent

def bytesWords (bs : List Byte) (n : Nat) : List Word :=
  (List.range n).map fun i => BitVec.ofNat 64 (bytesToNat ((bs.drop (8 * i)).take 8))

/-- Reserved bits of a record, by kind: the words' masks. -/
def reservedMask (kind w : Nat) : Nat :=
  let all := 2 ^ 64 - 1
  match w with
  | 0 => 0x1F00000000FF0000 + (if kind = 0 then 0 else 0x00FFFF0000000000)
  | 1 => 0xFFFFFFFF + (if kind = 2 then 0 else 0xFFFF00000000)
  | 2 => 0xFFFF000000000000
  | 15 => all
  | _ =>
    match kind with
    | 0 => if w = 4 then 0x003FFFF000000000 else 0
    | 1 => if w = 5 ∨ w = 6 ∨ w = 7 then 0 else if w = 8 then 0xFFFFFFFFF8 else all
    | 2 => if w = 5 then 0 else if w = 6 then 0xFFFFFFFF else all
    | 3 => if w = 5 ∨ (7 ≤ w ∧ w ≤ 12) then 0 else if w = 6 then all - 31 else all
    | _ => if 5 ≤ w ∧ w ≤ 8 then 0 else all

/-- Detail 1 of one record. -/
def recordOk (ws : List Word) : Bool :=
  let kind := field (ws.getD 0 0) 61 3
  let w6 := ws.getD 6 0
  let w7 := ws.getD 7 0
  decide (kind ≤ 4) && (List.range 16).all (fun w => ws.getD w 0 &&& BitVec.ofNat 64 (reservedMask kind w) == 0) &&
  match kind with
  | 0 => decide (field (ws.getD 4 0) 61 3 ≤ 6) && (List.range 6).all fun n => (operandOf ws n).rsvd == 0
  | 1 => decide (field (ws.getD 8 0) 0 3 ≤ 5)
  | 3 =>
    let n := field w6 0 5
    decide (1 ≤ n ∧ n ≤ 16) &&
      bytesToNat (((ws.drop 7).take 6).flatMap fun w => natToBytes 8 w.toNat) / 2 ^ (24 * n) == 0
  | 4 =>
    let n := field w7 40 8
    decide (1 ≤ n ∧ n ≤ 64) && decide (1 ≤ field w7 32 8 ∧ field w7 32 8 ≤ n) && field w7 48 16 % 8 == 0
  | _ => true

/-- Detail 1 of the header. -/
def headerOk (ws : List Word) : Bool :=
  field (ws.getD 0 0) 32 32 == 0 && field (ws.getD 0 0) 0 16 == 1 && field (ws.getD 0 0) 16 16 != 0 &&
  field (ws.getD 1 0) 0 32 % 2 == 0 && field (ws.getD 3 0) 16 48 == 0 && (ws.drop 4).all (· == 0)

/-- The image as the check finds it: records and successor entries, those not held missing. -/
structure Image where
  nodes : List (Option (List Word))
  succ : List (Option Nat)

def Image.whole (g : Image) : Bool := g.nodes.all (·.isSome) && g.succ.all (·.isSome)
def Image.records (g : Image) : List (List Word) := g.nodes.map (·.getD [])

/-- The entries of all sets of a record: their indices in the successor array. -/
def allEntries (ws : List Word) : List Nat := (setsOf ws).flatMap fun st => setEntries st.2

def detail2 (g : Image) : Bool :=
  g.records.zipIdx.all fun r => (allEntries r.1).all fun e =>
    match g.succ[e]? with
    | none => false
    | some none => true
    | some (some j) => decide (r.2 < j)

def detail3 (g : Image) : Bool :=
  let named := g.records.flatMap fun ws => (allEntries ws).filterMap fun e => (g.succ[e]?).join
  g.records.zipIdx.all fun r => field (r.1.getD 0 0) 24 16 == (named.filter (· == r.2)).length

def isLoop (ws : List Word) : Bool := field (ws.getD 0 0) 61 3 == 2

def detail4 (g : Image) : Bool :=
  let rs := g.records
  (rs.zipIdx.all fun r => !isLoop r.1 ||
    (bodyFirst r.1 == r.2 + 1 && decide (bodyFirst r.1 ≤ bodyLast r.1) &&
      -- the loops whose bodies this one's reaches: its body ends inside each, and they are at most three
      (let around := rs.zipIdx.filter fun a => isLoop a.1 && decide (a.2 < r.2) && decide (bodyFirst r.1 ≤ bodyLast a.1)
       around.all (fun a => decide (bodyLast r.1 ≤ bodyLast a.1)) && decide (around.length ≤ 3)))) &&
  rs.zipIdx.all fun r => (allEntries r.1).all fun e => match (g.succ[e]?).join with
    | some j => decide (rs.length ≤ j) || innermost rs j == innermost rs r.2
    | none => true

def detail5 (ws : List Word) : Bool :=
  if field (ws.getD 0 0) 61 3 ≠ 0 then true
  else
    let fs := headerOf ws
    let total : Nat := fs.foldl (fun t f => t + f.width) 0
    let sp := field (ws.getD 4 0) 54 6
    let nf := fs.length
    decide (total ≤ 64) && decide ((ws.getD 3 0).toNat < 2 ^ total) && decide (sp < 2 ^ nf) &&
    field (ws.getD 4 0) 0 36 / 2 ^ (6 * nf) == 0 &&
    -- once a field is spread, all further ones are
    (List.range nf).all fun k => (List.range nf).all fun m =>
      !(decide (k ≤ m) && sp / 2 ^ k % 2 == 1 && sp / 2 ^ m % 2 == 0)

def detail6 (s : State) (asid : Nat) (ws : List Word) : Bool :=
  if field (ws.getD 0 0) 61 3 ≠ 0 then true
  else
    let t := axisOf ws
    let ops := (List.range 6).map (operandOf ws)
    (ops.all fun o =>
      if o.mode = 0 then !o.froz
      else match readTensor s asid o.tid with
        | none => false
        | some tn => decide (1 ≤ o.tcnt) && decide (o.tfirst + o.tcnt ≤ tn.ntiles) && (o.tcnt == t || o.tcnt == 1) &&
            (!o.froz || (o.mode == 1 && tn.frozen))) &&
    (!taxOf ws || (match (headerOf ws).getLast? with | some f => f.spread && f.count == t | none => false))

/-- The handles of a record that must name tensors. -/
def handlesOf (ws : List Word) : List Word :=
  match field (ws.getD 0 0) 61 3 with
  | 0 => if ws.getD 5 0 = 0 then [] else [ws.getD 5 0]
  | 4 => ws.getD 5 0 :: (if ws.getD 8 0 = 0 then [] else [ws.getD 8 0])
  | _ => [ws.getD 5 0]

/-- A 128 B argument block lies within its tensor, which has RD. -/
def argsOk (s : State) (asid : Nat) (ws : List Word) : Bool :=
  if field (ws.getD 0 0) 61 3 ≠ 0 ∨ ws.getD 5 0 = 0 then true
  else match readTensor s asid (tidOf (ws.getD 5 0)) with
    | some t => t.rd && (t.remote || decide (offOf (ws.getD 5 0) + 128 ≤ t.bytes))
    | none => false

def detail7 (s : State) (asid : Nat) (graph arena : Word) (g : Image) : Bool :=
  (match readTensor s asid (tidOf graph) with | some t => t.rd | none => false) && g.whole && (g.succ.all fun e => match e with | some j => decide (j < g.nodes.length) | none => false) &&
  (g.records.all fun ws => !isLoop ws || decide (bodyLast ws < g.nodes.length)) &&
  ((if arena = 0 then [] else [arena]) ++ g.records.flatMap handlesOf).all (fun h => (readTensor s asid (tidOf h)).isSome) &&
  g.records.all (argsOk s asid)

/-- What the check of a launch comes to. -/
inductive Checked where
  | wait
  | refused (detail : Nat)
  | ok (header : List Word) (nodes : List (List Word)) (succ : List Nat)

/-- All parts of the image, or none while one of its tiles is absent. -/
def readImage (s : State) (asid tid off : Nat) (hd : List Word) : Option Image :=
  let part (o n : Nat) : Option (Option (List Byte)) := match imageRead s asid tid o n with
    | .held bs => some (some bs)
    | .missing => some none
    | .absent => none
  match allSome ((List.range (field (hd.getD 0 0) 16 16)).map fun i => part (off + 128 + 128 * i) 128),
      allSome ((List.range (field (hd.getD 1 0) 32 32)).map fun i => part (off + field (hd.getD 1 0) 0 32 + 2 * i) 2) with
  | some ns, some es => some ⟨ns.map fun b => b.map fun bs => bytesWords bs 16, es.map fun b => b.map bytesToNat⟩
  | _, _ => none

/-- The lowest detail whose check fails (07 R156). With a part of the image missing PRED cannot be judged, and detail 3 is passed over
(notes/assumptions/78.md). -/
def checkLaunch (s : State) (asid : Nat) (graph : Word) : Checked :=
  match imageRead s asid (tidOf graph) (offOf graph) 128 with
  | .absent => .wait
  | .missing => .refused 7
  | .held hb =>
    let hd := bytesWords hb 16
    match readImage s asid (tidOf graph) (offOf graph) hd with
    | none => .wait
    | some g =>
      if !headerOk hd || !(g.nodes.all fun n => match n with | some ws => recordOk ws | none => true) then .refused 1
      else if !detail2 g then .refused 2
      else if g.whole && !detail3 g then .refused 3
      else if !detail4 g then .refused 4
      else if !g.records.all detail5 then .refused 5
      else if !g.records.all (detail6 s asid) then .refused 6
      else if !detail7 s asid graph (hd.getD 2 0) g then .refused 7
      else .ok hd g.records (g.succ.map (·.getD 0))

/-! ### Fetching a launch record (07 R171, R172) -/

/-- Words of host memory. -/
def hostWords (s : State) (a n : Nat) : List Word := bytesWords (readCells s.hostMem a (8 * n)) n

def blankInst (q : Nat) (d : LQ) (ws : List Word) : Inst :=
  { queue := q, number := d.head, asid := d.asid, prio := field (ws.getD 1 0) 45 3, irq := bitOf (ws.getD 1 0) 44
    cookie := (ws.getD 1 0).setWidth 32, compl := ws.getD 2 0, graph := ws.getD 0 0, arena := 0, nodes := [], succ := []
    events := 0, nst := [], failed := none, cancelled := false, cancelNode := 0, record := none }

def launchRecordOk (ws : List Word) : Bool :=
  (ws.getD 0 0).toNat % 128 == 0 && field (ws.getD 1 0) 48 16 == 0 && field (ws.getD 1 0) 32 12 == 0 &&
  (ws.getD 2 0).toNat % 16 == 0 && (ws.drop 3).all (· == 0)

/-- The first nodes of a launch become due (07 R157). -/
def startNodes (stamp : Nat) (i : Inst) : Inst :=
  (List.range i.nodes.length).foldl (fun i n =>
    if i.pred n = 0 ∧ innermost i.nodes n = none then makeDue stamp i n else i) i

/-- The queue is fetched: it is enabled and not stopped, and a record is waiting. -/
def fetchable (d : LQ) : Bool := d.en && !d.err && decide (6 ≤ d.log2n ∧ d.log2n ≤ 16) && d.head != d.tail

/-- LAUNCH_FETCH: the fetcher reads the record at HEAD; the root checks the launch and starts or refuses it. -/
def execLaunchFetch (q : Nat) (s : State) : Host.Outcome State Fault Refusal :=
  answer s fun s =>
    let d := s.queue q
    if !fetchable d then []
    else
      let ws := hostWords s (d.ring.toNat / 64 * 64 + 64 * (d.head.toNat % 2 ^ d.log2n)) 8
      let i := blankInst q d ws
      let l := s.nextId
      let take : List Eff := [.queue q { d with head := d.head + 1, marks := d.marks.filter (· != d.head) }, .fresh]
      let refuse (detail : Nat) : List Eff :=
        (Fx.andThen (fun _ => take) fun s => writeRecord l i (recordWord i 2 0 0) (timeWord s detail) s) s
      if d.marks.contains d.head then
        (Fx.andThen (fun _ => take) fun s => writeRecord l i (recordWord i 3 0 0) (timeWord s 0) s) s
      else if !launchRecordOk ws then refuse 1
      else match checkLaunch s d.asid i.graph with
        | .wait => []
        | .refused detail => refuse detail
        | .ok hd nodes succ =>
          let i1 := { i with arena := hd.getD 2 0, nodes := nodes, succ := succ, events := BitVec.ofNat 16 (field (hd.getD 3 0) 0 16) }
          take ++ [.inst l (some (startNodes s.nextId i1))]

/-! ### Control nodes (07 R157, R159, R160) -/

/-- A ready control node acts on the word that it reads once; a failed read fails it. None while a tile is absent. -/
def controlNode (kind l n : Nat) (act : Inst → Word → Fx) : Fx := fun s =>
  match s.inst l with
  | none => []
  | some i =>
    if i.cancelled || i.kind n != kind || (i.node n).state != .ready || decide (i.nodes.length ≤ n) then []
    else match seqRead s i.asid (i.word n 5) 1 with
      | .absent _ => []
      | .fault code _ => failNode l n code 0 s
      | .words ws _ => act i (ws.getD 0 0) s

/-- (WORD AND MASK) CMP VALUE. -/
def condTrue (cmp : Nat) (a b : Word) : Bool :=
  match cmp with
  | 0 => a == b
  | 1 => a != b
  | 2 => a.slt b
  | 3 => b.sle a
  | 4 => a.ult b
  | _ => b.ule a

def execConditionalNode (i n : Nat) (s : State) : Host.Outcome State Fault Refusal :=
  answer s (controlNode 1 i n fun r w =>
    completeNode i n (if condTrue (field (r.word n 8) 0 3) (w &&& r.word n 7) (r.word n 6) then 0 else 2))

def execSwitchNode (i n : Nat) (s : State) : Host.Outcome State Fault Refusal :=
  answer s (controlNode 3 i n fun r w =>
    completeNode i n (if w.toNat < field (r.word n 6) 0 5 then 3 + w.toNat else 0))

def execLoopNode (i n : Nat) (s : State) : Host.Outcome State Fault Refusal :=
  answer s (controlNode 2 i n fun r w =>
    let count := field w 0 32
    if count = 0 then completeNode i n 0 else fun s => keepInst i (iterate s.nextId n 0 count r) s)

/-! ### Event nodes (07 R161) -/

def eventWords (i : Inst) (n : Nat) : Nat := field (i.word n 7) 40 8
def eventHandle (i : Inst) (n m : Nat) : Word := i.word n 5 + BitVec.ofNat 64 (field (i.word n 7) 48 16 * m)

/-- Which watched words the latest reads found met. -/
def metMask (l : List Bool) : Nat := l.zipIdx.foldl (fun a x => a + (if x.1 then 2 ^ x.2 else 0)) 0

/-- The node is decided and completes, RESULT first; a failed write fails it, and while the write has to wait the decision stands. -/
def finishEvent (l n : Nat) (i : Inst) (met : List Bool) : Fx := fun s =>
  let h := i.word n 8
  if h = 0 then completeNode l n 0 s
  else match seqWrite s i.asid h [BitVec.ofNat 64 (metMask met)] with
    | none => [.inst l (some (i.setNode n { i.node n with state := .running, met := met, latched := true }))]
    | some (.error code) => failNode l n code 0 s
    | some (.ok e) => (Fx.andThen (fun _ => e) (completeNode l n 0)) s

/-- Word `m` as read now: met or not, the code of a failed check, or none while its tile is absent. -/
def eventRead (s : State) (i : Inst) (n m : Nat) : Option (Except Byte Bool) :=
  match seqRead s i.asid (eventHandle i n m) 1 with
  | .absent _ => none
  | .fault code _ => some (.error code)
  | .words ws _ => some (.ok ((i.word n 6).ule (ws.getD 0 0)))

/-- After the reads: complete with QUORUM words met, or go on watching. -/
def eventRest (l n : Nat) (i : Inst) (met : List Bool) : Fx :=
  Fx.andThen (fun _ => [.inst l (some (i.setNode n { i.node n with state := .running, met := met }))])
    (if field (i.word n 7) 32 8 ≤ (met.filter id).length then finishEvent l n i met else Fx.none)

/-- EVENT_NODE: the node is ready and the root reads every watched word; one whose tile is absent is read when it is there
(EVENT_REREAD), and is not met before. The words are all read in this one step (notes/assumptions/100.md). -/
def execEventNode (i n : Nat) (s : State) : Host.Outcome State Fault Refusal :=
  answer s fun s =>
    match s.inst i with
    | none => []
    | some r =>
      if r.cancelled || r.kind n != 4 || (r.node n).state != .ready || decide (r.nodes.length ≤ n) then []
      else
        let l := (List.range (eventWords r n)).map (eventRead s r n)
        match l.findSome? fun x => match x with | some (.error code) => some code | _ => none with
        | some code => failNode i n code 0 s
        | none => eventRest i n r (l.map fun x => match x with | some (.ok b) => b | _ => false) s

/-- EVENT_REREAD: word `m` is read again after a write to its line or row; or, once the node is decided, RESULT's write is tried again. -/
def execEventReread (i n m : Nat) (s : State) : Host.Outcome State Fault Refusal :=
  answer s fun s =>
    match s.inst i with
    | none => []
    | some r =>
      if r.cancelled || r.kind n != 4 || (r.node n).state != .running || decide (eventWords r n ≤ m) then []
      else if (r.node n).latched then finishEvent i n r (r.node n).met s
      else match eventRead s r n m with
        | none => []
        | some (.error code) => failNode i n code 0 s
        | some (.ok b) => eventRest i n r ((r.node n).met.set m b) s

/-- EVENT_TIMEOUT: TIMEOUT has passed since the node became ready. -/
def execEventTimeout (i n : Nat) (s : State) : Host.Outcome State Fault Refusal :=
  answer s fun s =>
    match s.inst i with
    | none => []
    | some r =>
      if r.cancelled || r.kind n != 4 || (r.node n).state != .running || (r.node n).latched || field (r.word n 7) 0 32 == 0 then []
      else finishEvent i n r (r.node n).met s

end Sys2Proof.Machine
end

