-- ==== Sys2Proof/Machine/Place.lean ====
section
/-!
DEFINITION. Dispatch by method (07 R162 to R167), the ready pools and placement (R168 to R170), the start of shares (01 R29, 05 R116,
R127), and the node instructions (07 R175 to R180).
-/
namespace Sys2Proof.Machine

/-! ### Method tables (07 R162, R163) -/

def keyTag (e : List Word) (i : Nat) : Nat := field (e.getD 1 0) (16 * i) 16
def keyMask (e : List Word) (i : Nat) : Nat := field (e.getD 2 0) (16 * i) 16
def costOf (e : List Word) : Nat := field (e.getD 6 0) 0 32
def isConv (e : List Word) : Bool := bitOf (e.getD 0 0) 62
def isSkip (e : List Word) : Bool := bitOf (e.getD 0 0) 61
def affinOf (e : List Word) : Nat := field (e.getD 7 0) 58 6

/-- The entry counts as VALID. -/
def methodOk (e : List Word) : Bool :=
  let w0 := e.getD 0 0
  let w6 := e.getD 6 0
  bitOf w0 63 && field w0 48 13 == 0 && field w0 0 32 == 0 && field (e.getD 7 0) 0 57 == 0 && decide (field w6 61 3 < 4) && field w6 32 2 == 0 &&
  decide (spadOf w6 + 2 * guardOfMethod w6 ≤ 1024) &&
  (!isConv e || (field w0 32 16 == 0 && !isSkip e && keyMask e 1 == 0xFFFF && keyTag e 2 == 0 && keyTag e 3 == 0 &&
    keyMask e 2 == 0 && keyMask e 3 == 0 && !malformed (keyTag e 1)))

/-- A key tag accepts a tag. -/
def accepts (k m t : Nat) : Bool := (t ^^^ k) &&& m == 0

def methodMatches (oper : Nat) (tup : List Nat) (e : List Word) : Bool :=
  methodOk e && !isConv e && field (e.getD 0 0) 32 16 == oper &&
  (List.range 4).all fun n => accepts (keyTag e n) (keyMask e n) (tup.getD n 0)

/-- The matching method of lowest cost, then of lowest index. -/
def bestMethod (ms : List (Nat × List Word)) (oper : Nat) (tup : List Nat) : Option (Nat × List Word) :=
  ms.foldl (fun best m =>
    if !methodMatches oper tup m.2 then best
    else match best with
      | none => some m
      | some b => if costOf m.2 < costOf b.2 then some m else some b) none

def methodKey (asid i : Nat) : Nat := asid * 65536 + i

/-- The entry as a dispatch sees it: cached, or read from the table. -/
def methodEntry (s : State) (asid i : Nat) : List Word :=
  let here := (List.range 8).map fun w => s.word (keyHbm (field (asWord s asid 1) 0 39 + 64 * i + 8 * w))
  match FMap.get none s.methods (methodKey asid i) with
  | some e => if Config.methodKept s.clock i then e else here
  | none => here

def methodTable (s : State) (asid : Nat) : List (Nat × List Word) :=
  (List.range (field (asWord s asid 1) 48 16 + 1)).map fun i => (i, methodEntry s asid i)

/-- TRS_MFLUSH: the cached entries of an address space are dropped (07 R174). -/
def mflush (asid : Nat) : Fx := fun s =>
  s.methods.filterMap fun e => if e.1 / 65536 = asid then some (.method e.1 none) else none

def execTrsMflush (v : Word) (s : State) : Host.Outcome State Fault Refusal := answer s (mflush (field v 0 12))

/-! ### Runs (07 R163, R164) -/

/-- Position `j` of the run axis: the tags of the six operands; a frozen operand presents its frozen tag. -/
def tupleAt (s : State) (asid : Nat) (ws : List Word) (j : Nat) : List Nat :=
  (List.range 6).map fun k =>
    let o := operandOf ws k
    if o.mode = 0 then 0
    else match readTensor s asid o.tid with
      | some t => (readTile s t (o.tfirst + (if o.tcnt = axisOf ws then j else 0))).viewTag o.froz
      | none => 0

/-- Runs of equal tuples: first position, length, tuple. -/
def runsFrom : Nat → List (List Nat) → List (Nat × Nat × List Nat)
  | _, [] => []
  | j, t :: rest =>
    match runsFrom (j + 1) rest with
    | (f, n, u) :: more => if u = t then (j, n + 1, u) :: more else (j, 1, t) :: (f, n, u) :: more
    | [] => [(j, 1, t)]

/-- The range of operand `k` in a run, before it is rebound: tensor, first tile, count. -/
def rangeIn (ws : List Word) (first len k : Nat) : Option (Nat × Nat × Nat) :=
  let o := operandOf ws k
  if o.mode = 0 then none
  else if o.tcnt = axisOf ws then some (o.tid, o.tfirst + first, len) else some (o.tid, o.tfirst, 1)

/-! ### Resolve (07 R165) -/

/-- A conversion chosen for an operand: the operand, the entry's index, the entry. -/
structure Chosen where
  operand : Nat
  index : Nat
  entry : List Word

/-- The arena can hold an operand's tiles in a format (07 R166). Of a sparse format the size is that of the dense tile, and a raw one is held
by any tile (notes/assumptions/101.md). -/
def arenaHolds (arena src : Tensor) (tag : Nat) : Bool :=
  let fmt := formatOf tag
  arena.t == src.t && (fmt == 0 || (!(decide (13 ≤ fmt) && src.tileElems % 32 != 0) &&
    decide (formatSize fmt src.tileElems ≤ arena.tbytes)))

/-- The candidate conversions of an operand with this tag. -/
def candidates (ms : List (Nat × List Word)) (arena src : Tensor) (operand tag : Nat) : List Chosen :=
  ((ms.filter fun m => methodOk m.2 && isConv m.2 && accepts (keyTag m.2 0) (keyMask m.2 0) tag && keyTag m.2 1 != tag &&
    arenaHolds arena src (keyTag m.2 1)).take 8).map fun m => ⟨operand, m.1, m.2⟩

/-- Every choice of at most one candidate for each operand. -/
def choices : List (List Chosen) → List (List Chosen)
  | [] => [[]]
  | cs :: t => (choices t).flatMap fun rest => rest :: cs.map (· :: rest)

def lexLt : List Nat → List Nat → Bool
  | [], [] => false
  | [], _ => true
  | _, [] => false
  | a :: t, b :: u => decide (a < b) || (a == b && lexLt t u)

/-- A run resolved: the method, its conversions, the summed cost. -/
structure Resolved where
  index : Nat
  entry : List Word
  convs : List Chosen
  cost : Nat

/-- Better (07 R165). -/
def better (a b : Resolved) : Bool :=
  let ops (r : Resolved) := r.convs.map (·.operand)
  let ixs (r : Resolved) := r.convs.map (·.index)
  decide (a.cost < b.cost) || (a.cost == b.cost && (lexLt (ops a) (ops b) || (ops a == ops b &&
    (decide (a.index < b.index) || (a.index == b.index && lexLt (ixs a) (ixs b))))))

/-- The tuple with the destination tags of the chosen conversions. -/
def converted (tup : List Nat) (cs : List Chosen) : List Nat :=
  cs.foldl (fun t c => t.set c.operand (keyTag c.entry 1)) tup

def resolve (s : State) (asid : Nat) (arena : Word) (ms : List (Nat × List Word)) (ws : List Word) (tup : List Nat) :
    Option Resolved :=
  let oper := field (ws.getD 0 0) 40 16
  match bestMethod ms oper tup with
  | some m => some ⟨m.1, m.2, [], costOf m.2⟩
  | none =>
    match (if arena = 0 then none else readTensor s asid (tidOf arena)) with
    | none => none
    | some at0 =>
      let cands := (List.range 4).map fun k =>
        let o := operandOf ws k
        match (if o.mode = 1 then readTensor s asid o.tid else none) with
        | some src => candidates ms at0 src k (tup.getD k 0)
        | none => []
      ((choices cands).filter (· ≠ [])).foldl (fun best cs =>
        match bestMethod ms oper (converted tup cs) with
        | none => best
        | some m =>
          let r : Resolved := ⟨m.1, m.2, cs, costOf m.2 + (cs.map fun c => costOf c.entry).foldl (· + ·) 0⟩
          match best with
          | none => some r
          | some b => if better r b then some r else some b) none

/-! ### Shares (05 R128, 07 R164) -/

/-- The values that a spread field takes in a run: the first and how many. `outer`: those of the outermost field under TAX. -/
def spreadRange (f : HField) (last : Bool) (outer : Option (Nat × Nat)) : Nat × Nat :=
  if last then outer.getD (0, f.count) else (0, f.count)

def shareCount (outer : Option (Nat × Nat)) : List HField → Nat
  | [] => 1
  | f :: t => (if f.spread then (spreadRange f t.isEmpty outer).2 else 1) * shareCount outer t

/-- The base identifier of share `j`: spread values in ascending order, walk bits 0. -/
def shareBase (outer : Option (Nat × Nat)) : List HField → Nat → Nat
  | [], _ => 0
  | f :: t, j =>
    if f.spread then
      let r := spreadRange f t.isEmpty outer
      (r.1 + j % r.2) * 2 ^ f.shift + shareBase outer t (j / r.2)
    else shareBase outer t j

/-- The launch header of a conversion node (07 R166): one spread field over its tiles. -/
def convHeader (tiles : Nat) : List HField := [⟨0, max 1 (Nat.log2 (tiles - 1) + 1), tiles, true⟩]

/-! ### Affinity (07 R169) -/

/-- A range of tiles (tensor, first tile, count) and whether it is read in its frozen version. -/
abbrev FRange := Bool × Nat × Nat × Nat

/-- Bytes of a range of tiles whose frames lie in a die's HBM. -/
def dieBytes (s : State) (asid die : Nat) (x : FRange) : Nat :=
  let r := x.2
  if r.1 < 256 then 0
  else match readTensor s asid r.1 with
    | some t =>
      if t.remote then 0
      else ((List.range r.2.2).filter fun j =>
        let e := readTile s t (r.2.1 + j)
        e.viewValid x.1 && classOf (e.viewTag x.1) != 1 && e.viewFrame x.1 / 2 ^ 24 == die).length * t.tbytes
    | none => 0

/-- A die placed in the order: more bytes first, and the lower die first among equals. -/
def insertDie (f : Nat → Nat) (d : Nat) : List Nat → List Nat
  | [] => [d]
  | e :: t => if f e < f d then d :: e :: t else e :: insertDie f d t

/-- AffinityOrder: the ranges are those of the AFFIN operands. -/
def affinityOrder (s : State) (i : Inst) (n : Nat) (ranges : List FRange) : List Nat :=
  let f (d : Nat) : Nat := (ranges.map (dieBytes s i.asid d)).foldl (· + ·) 0
  if (List.range 8).all fun d => f d == 0 then (List.range 8).map fun k => ((i.queue + n) % 8 + k) % 8
  else (List.range 8).foldl (fun l d => insertDie f d l) []

/-- The conversions of a run as ranges: source and arena. -/
def convRanges (i : Inst) (n : Nat) (r : RunRec) (c : Conv) : List (Option (Nat × Nat × Nat)) :=
  [rangeIn (i.nodes.getD n []) r.first r.len c.operand, c.first.map fun f => (tidOf i.arena, f, c.tiles)]

/-- The ranges of a run's operands, rebound to the arena where they were converted (07 R166, R176). -/
def runRanges (i : Inst) (n : Nat) (r : RunRec) : List (Option (Nat × Nat × Nat)) :=
  (List.range 6).map fun k =>
    match r.convs.find? fun c => c.operand == k && c.first.isSome with
    | some c => c.first.map fun f => (tidOf i.arena, f, c.tiles)
    | none => rangeIn (i.nodes.getD n []) r.first r.len k

/-- The ranges that the bits of AFFIN select, with the frozen versions among them. -/
def affinRanges (affin : Nat) (froz : Nat → Bool) (l : List (Option (Nat × Nat × Nat))) : List FRange :=
  l.zipIdx.filterMap fun x => if affin / 2 ^ x.2 % 2 = 1 then x.1.map (froz x.2, ·) else none

/-- The order of a node: the AFFIN operands of all of its runs count, each run's as its method has them. -/
def nodeOrder (s : State) (i : Inst) (n : Nat) (rs : List RunRec) : List Nat :=
  affinityOrder s i n (rs.flatMap fun r => affinRanges (affinOf r.entry)
    (fun k => (operandOf (i.nodes.getD n []) k).froz && !(r.convs.any fun c => c.operand == k && c.first.isSome)) (runRanges i n r))

/-- The order of a conversion node. -/
def convOrder (s : State) (i : Inst) (n : Nat) (r : RunRec) (c : Conv) : List Nat :=
  affinityOrder s i n (affinRanges (affinOf c.entry) (fun k => k == 0 && (operandOf (i.nodes.getD n []) c.operand).froz) (convRanges i n r c))

/-- The order for a run (`conv` none) or a conversion of node `n`. -/
def entryOrder (s : State) (i : Inst) (n : Nat) (r : RunRec) (conv : Option Nat) : List Nat :=
  match conv.bind fun c => r.convs[c]? with
  | some c => convOrder s i n r c
  | none => nodeOrder s i n (i.node n).runs

/-! ### Dispatch (07 R164) -/

def poolCount (s : State) (shard : Nat) : Nat :=
  (s.pool.filter fun e => match e.2 with | some p => p.shard == shard && !p.rooted | none => false).length

/-- An entry that is handed over with this affinity order, to the shard of its first die. -/
def newEntry (order : List Nat) (l n r : Nat) (conv : Option Nat) (stamp : Nat) : PoolE :=
  { shard := order.headD 0, order := order, rooted := false, inst := l, node := n, run := r, conv := conv, team := none, stamp := stamp, rise := 0, resv := none }

/-- Entries join their pools. -/
def addEntries (l : List PoolE) : Fx := Fx.each (fun p => fun s => [.pool s.nextId (some p), .fresh]) l

/-- What an entry stands for: a node, or a conversion node of it (07 R166). -/
def PoolE.id (p : PoolE) : Nat × Nat × Option (Nat × Nat) := (p.inst, p.node, p.conv.map fun c => (p.run, c))

/-- Every pool has room for the entries that would join it. -/
def roomFor (s : State) (l : List PoolE) : Bool :=
  (List.range 8).all fun d => decide (poolCount s d + (l.filter (·.shard == d)).length ≤ 4096)

/-- The effective priority of a node (07 R168). -/
def nodePrio (i : Inst) (n : Nat) : Nat := min 7 (i.prio + (i.node n).rise)

/-- The effective priority of an entry: its node's, or, of a swapped team, counted from its swap (07 R168). -/
def entryPrio (s : State) (p : PoolE) : Nat :=
  match s.inst p.inst with
  | none => min 7 p.rise
  | some i => if p.team.isSome then min 7 (i.prio + p.rise) else nodePrio i p.node

/-- Higher priority, then older. -/
def prioBefore (a b : Nat × Nat) : Bool := decide (b.1 < a.1) || (a.1 == b.1 && decide (a.2 < b.2))

/-- Who waits at the root for a full pool: the shards, the priority and the age (07 R168). -/
def rootWaits (s : State) : List (List Nat × Nat × Nat) :=
  (s.insts.flatMap fun e => match e.2 with
    | some i => if i.cancelled then [] else (List.range i.nodes.length).filterMap fun n =>
        if (i.node n).state == .ready && (i.node n).rooted != [] then some ((i.node n).rooted, nodePrio i n, (i.node n).stamp) else none
    | none => []) ++
  s.pool.filterMap fun e => match e.2 with
    | some p => if p.rooted then some ([p.shard], entryPrio s p, p.stamp) else none
    | none => none

/-- Somebody stands before a newcomer at the root of one of these shards. -/
def rootBefore (s : State) (shards : List Nat) (x : Nat × Nat) : Bool :=
  (rootWaits s).any fun w => prioBefore w.2 x && w.1.any shards.contains

/-- Entries join their pools, or, one that finds its pool full, wait at the root in their order (07 R168). -/
def joinPools (l : List PoolE) : Fx :=
  Fx.each (fun p => fun s =>
    [.pool s.nextId (some { p with rooted := !roomFor s [p] || rootBefore s [p.shard] (entryPrio s p, p.stamp) }), .fresh]) l

/-- Conversion nodes and swapped teams that wait at the root enter their pools, each in its turn, as there is room. -/
def enterPools : Fx := fun s =>
  Fx.each (fun (e : Nat × Option PoolE) => fun s => match e.2 with
    | some p =>
      if p.rooted && roomFor s [p] && !rootBefore s [p.shard] (entryPrio s p, p.stamp) then [.pool e.1 (some { p with rooted := false })] else []
    | none => []) s.pool s

/-- The runs of a node before anything of them has run; one with conversions ends, if its method has SKIP, when they are inserted. -/
def newRuns (i : Inst) (n : Nat) (l : List ((Nat × Nat × List Nat) × Resolved)) : List RunRec :=
  let ws := i.nodes.getD n []
  l.map fun x =>
    let first := x.1.1
    let len := x.1.2.1
    { first := first, len := len, tags := (converted x.1.2.2 x.2.convs).map (BitVec.ofNat 16), index := x.2.index
      entry := x.2.entry
      convs := x.2.convs.map fun c => { operand := c.operand, index := c.index, entry := c.entry, first := none, tags := 0
                                        tiles := ((rangeIn ws first len c.operand).map (·.2.2)).getD 0, placed := 0, live := 0 }
      shares := shareCount (if taxOf ws then some (first, len) else none) (headerOf ws), placed := 0, live := 0
      state := if !x.2.convs.isEmpty then .arena else if isSkip x.2.entry then .ended else .ready }

/-- The entries that a dispatch caches. -/
def cacheMethods (asid : Nat) (ms : List (Nat × List Word)) : Fx := fun _ =>
  ms.map fun m => .method (methodKey asid m.1) (some m.2)

/-- DISPATCH: node `n` of launch `l` is ready and reaches its shard, or finds the pool full and waits at the root. In the pool each of its
runs has an entry of its own (notes/assumptions/105.md). -/
def dispatchFx (l n : Nat) : Fx := fun s =>
  match s.inst l with
  | none => []
  | some i =>
    let ws := i.nodes.getD n []
    if i.cancelled || decide (i.nodes.length ≤ n) || i.kind n != 0 || (i.node n).state != .ready then []
    else
      let ms := methodTable s i.asid
      let cache := (Fx.andThen (cacheMethods i.asid ms) tick) s
      let fail (cause : Byte) (detail : Nat) : List Eff := cache ++ failNode l n cause detail (s.applyAll cache)
      let runs := runsFrom 0 ((List.range (axisOf ws)).map (tupleAt s i.asid ws))
      if 16 < runs.length then fail cTAG_RUNS 0
      else match allSome (runs.map fun r => (resolve s i.asid i.arena ms ws r.2.2).map fun x => (r, x)) with
        | none => fail cNO_METHOD 1
        | some res =>
          let recs := newRuns i n res
          let holds := ((readTensor s i.asid (tidOf i.arena)).map Tensor.ntiles).getD 0
          if recs.any fun r => decide (holds < (r.convs.map (·.tiles)).foldl (· + ·) 0) then fail cNO_METHOD 2
          else match (if ws.getD 5 0 = 0 then BRead.words (List.replicate 16 0) none else seqRead s i.asid (ws.getD 5 0) 16) with
            | .absent _ => []
            | .fault code _ => fail code 0
            | .words args _ =>
              let x := i.node n
              let i1 := i.setNode n { x with state := .running, rooted := [], runs := recs, args := args }
              let es := recs.zipIdx.filterMap fun r =>
                if r.1.state = .ended then none
                else some (newEntry (nodeOrder s i1 n recs) l n r.2 none x.stamp)
              let shards := es.map (·.shard)
              if !roomFor s es || rootBefore s shards (nodePrio i n, x.stamp) then
                [.inst l (some (i.setNode n { x with rooted := shards.eraseDups }))]
              else
                cache ++ (Fx.andThen (fun _ => [.inst l (some i1)]) ((addEntries es).andThen
                  (if es = [] then completeNode l n 0 else Fx.none))) (s.applyAll cache)

def execDispatch (i n : Nat) (s : State) : Host.Outcome State Fault Refusal := answer s (dispatchFx i n)

/-! ### Conversions (07 R166) -/

/-- The first start, from tile `cur` on and round to tile 0, of `n` tiles that are all free. -/
def findRange (taken : List Nat) (size n cur : Nat) : Option Nat :=
  ((List.range size).map fun k => (cur + k) % size).find? fun f =>
    decide (f + n ≤ size) && (List.range n).all fun j => !taken.contains (f + j)

/-- Ranges for the conversions of a run, one after another: their first tiles and the end of the last. A run gets all of them in one step
or none (notes/assumptions/103.md). -/
def takeRanges (size : Nat) : List Nat → List Nat → Nat → Option (List Nat × Nat)
  | [], _, cur => some ([], cur)
  | n :: t, taken, cur =>
    match findRange taken size n cur with
    | none => none
    | some f =>
      match takeRanges size t (taken ++ (List.range n).map (f + ·)) ((f + n) % size) with
      | none => none
      | some r => some (f :: r.1, r.2)

/-- A run whose method has SKIP ends when its conversion nodes are inserted (07 R164): it leaves its pool, and its arena tiles are free. -/
def skipRun (l n r : Nat) : Fx := fun s =>
  (Fx.andThen (fun s => s.pool.filterMap fun e => match e.2 with
      | some p => if p.inst = l ∧ p.node = n ∧ p.run = r ∧ p.conv = none ∧ p.team = none then some (.pool e.1 none) else none
      | none => none) (endRun l n r)) s

/-- ARENA_RANGE_TAKEN: run `r` gets its arena tiles, and its conversion nodes enter the pools or wait at the root. -/
def execArenaRangeTaken (l n r : Nat) (s : State) : Host.Outcome State Fault Refusal :=
  answer s fun s =>
    match s.inst l with
    | none => []
    | some i =>
      let x := i.node n
      match x.runs[r]?, readTensor s i.asid (tidOf i.arena) with
      | some run, some at0 =>
        if i.cancelled || run.state != .arena then []
        else
          let key := arenaKey i
          let taken := (s.busy.filter (·.1 == key)).map (·.2)
          match takeRanges at0.ntiles (run.convs.map (·.tiles)) taken (FMap.get 0 s.arenas key) with
          | none => []
          | some (fs, cur) =>
            let ws := i.nodes.getD n []
            let convs := List.zipWith (fun (c : Conv) f =>
              let src := match rangeIn ws run.first run.len c.operand with
                | some (tid, at1, _) => ((readTensor s i.asid tid).map fun t => (readTile s t at1).viewTag (operandOf ws c.operand).froz).getD 0
                | none => 0
              { c with first := some f, tags := BitVec.ofNat 64 (src + (readTile s at0 f).tag * 2 ^ 16) }) run.convs fs
            let run1 := { run with convs := convs, state := .converting }
            let i1 := i.setNode n { x with runs := x.runs.set r run1 }
            let es := convs.zipIdx.map fun c =>
              newEntry (entryOrder s i1 n run1 (some c.2)) l n r (some c.2) x.stamp
            (Fx.andThen (fun _ => [.inst l (some i1), .arena key cur,
                .busy (s.busy ++ (List.zipWith (fun (c : Conv) f => (List.range c.tiles).map fun j => (key, f + j)) run.convs fs).flatten)])
              ((joinPools es).andThen (if isSkip run.entry then skipRun l n r else Fx.none))) s
      | _, _ => []

/-- MAKE_SHARES: every conversion of run `r` has completed, and its own shares can be placed. -/
def execMakeShares (l n r : Nat) (s : State) : Host.Outcome State Fault Refusal :=
  answer s fun s =>
    match s.inst l with
    | none => []
    | some i =>
      let x := i.node n
      match x.runs[r]? with
      | some run =>
        if run.state == .converting && run.convs.all fun c => c.placed == c.tiles && c.live == 0 then
          [.inst l (some (i.setNode n { x with runs := x.runs.set r { run with state := .ready } }))]
        else []
      | none => []

/-! ### Placement (05 R127, 07 R169, R170) -/

/-- What an entry has to place: the method entry, and whether a share is left and may start. -/
def entryMethod (s : State) (p : PoolE) : Option (List Word × Bool) :=
  match s.inst p.inst with
  | none => none
  | some i =>
    match (i.node p.node).runs[p.run]? with
    | none => none
    | some run =>
      match p.conv with
      | none => some (run.entry, run.state == .ready && decide (run.placed < run.shares))
      | some c => (run.convs[c]?).map fun v => (v.entry, decide (v.placed < v.tiles))

/-- The size of the team that an entry places. -/
def entrySize (s : State) (p : PoolE) : Nat :=
  match p.team.bind s.team with
  | some tm => teamSize tm.method6
  | none => ((entryMethod s p).map fun m => teamSize (m.1.getD 6 0)).getD 1

/-- Bytes at these keys that stores of shares that have been ended have still to write (14 R336): they count as in use until then, for no
share sees another's stores (00 R5, R12). -/
def orphanKeys (s : State) (hit : Nat → Bool) : List Nat :=
  s.accs.flatMap fun e => match e.2 with
    | some a => if 1000 ≤ coreOf a.k then a.pieces.flatMap fun p => p.spot.flat.filterMap fun x => match x with
        | .key key => if hit key then some key else none
        | _ => none
      else []
    | none => []

/-- Granules of cluster memory in use: first and count. -/
def clusterUsed (s : State) (die cl : Nat) : List (Nat × Nat) :=
  let base := keyCluster (die * 4 + cl) 0
  (s.teams.filterMap fun e => match e.2 with
    | some tm => if tm.die = die ∧ tm.cluster = cl ∧ tm.cores ≠ [] then some (tm.w2, cmemOf tm.method6) else none
    | none => none) ++
  (orphanKeys s fun key => decide (base ≤ key ∧ key < base + 2 ^ 24)).map fun key => ((key - base) / 4096, 1)

/-- The lowest run of `n` free granules of a cluster's memory; a share waits while enough are free only in pieces
(notes/assumptions/104.md). -/
def clusterRun (s : State) (die cl n : Nat) : Option Nat :=
  let used := clusterUsed s die cl
  ((List.range 3073).filter fun g => g == 0 || used.any fun u => u.1 + u.2 == g).find? fun g =>
    decide (g + n ≤ 3072) && used.all fun u => decide (u.1 + u.2 ≤ g) || decide (g + n ≤ u.1)

/-- The scratchpad or the lane slices of a core hold this key. -/
def ofCore (c key : Nat) : Bool :=
  decide (keyPad c 0 ≤ key ∧ key < keyPad c 0 + 2 ^ 22) || decide (keyLane c 0 0 ≤ key ∧ key < keyLane c 0 0 + 2 ^ 18)

def setFree (s : State) (first size : Nat) : Bool :=
  (List.range size).all fun j => (s.core (first + j)).team.isNone && orphanKeys s (ofCore (first + j)) == []

/-- The lowest aligned free core set of a size in a cluster. -/
def freeSet (s : State) (die cl size : Nat) : Option Nat :=
  ((List.range (6 / size)).map fun j => die * 24 + cl * 6 + j * size).find? fun c => setFree s c size

/-- The cluster is reserved by another node for a larger team. -/
def reservedFor (s : State) (p : PoolE) (die cl size : Nat) : Bool :=
  match FMap.get none s.reserved (die * 4 + cl) with
  | none => false
  | some q =>
    match FMap.get none s.pool q with
    | none => false
    | some x => x.id != p.id && decide (size < entrySize s x)

/-- PlaceShare's search: the first core, and the first granule of window 2. -/
def findPlace (s : State) (p : PoolE) (order : List Nat) (method6 : Word) : Option (Nat × Nat) :=
  let size := teamSize method6
  (order.flatMap fun d => (List.range 4).map fun c => (d, c)).findSome? fun x =>
    if reservedFor s p x.1 x.2 size then none
    else match freeSet s x.1 x.2 size, clusterRun s x.1 x.2 (cmemOf method6) with
      | some c, some g => some (c, g)
      | _, _ => none

/-- The address space may place teams (14 R324). -/
def asValid (s : State) (asid : Nat) : Bool := bitOf (asWord s asid 0) 63

/-- Where the next share of an entry, or its swapped team, would go now. -/
def placeable (s : State) (p : PoolE) : Option (Nat × Nat) :=
  match s.inst p.inst with
  | none => none
  | some i =>
    if i.cancelled || p.rooted || !asValid s i.asid then none
    else match p.team with
      | some t => (s.team t).bind fun tm => findPlace s p p.order tm.method6
      | none =>
        match entryMethod s p with
        | some (e, true) => findPlace s p p.order (e.getD 6 0)
        | _ => none

/-- Entry `a` stands before `b` in their pool. -/
def poolBefore (s : State) (a b : PoolE) : Bool :=
  prioBefore (entryPrio s a, a.stamp) (entryPrio s b, b.stamp)

/-- An entry may act: no entry before it in its pool could be placed now. -/
def poolTurn (s : State) (p : PoolE) : Bool :=
  s.pool.all fun e => match e.2 with
    | some q => q.shard != p.shard || !poolBefore s q p || (placeable s q).isNone
    | none => true

/-! ### The start of a share (01 R29, R30, 05 R116, R127, 12 R256, 13 R283) -/

/-- The scratchpad and the lane slices of a core hold nothing of an earlier share (00 R5, R12; notes/assumptions/79.md). -/
def wipeCore (c : Nat) : List Eff := [.wipe (keyPad c 0) (2 ^ 22), .wipe (keyLane c 0 0) (2 ^ 18)]

/-- A core at the start of a share. -/
def startCore (t size rank : Nat) (entry : List Word) (c : Nat) : Fx := fun s =>
  let r := s.core c
  .clear c :: wipeCore c ++ .core c { Core.reset with
    parklim := r.parklim, teamWait := r.teamWait, freq := r.freq, gate := r.gate, tlb := r.tlb
    teamInfo := BitVec.ofNat 64 (size * 16 + rank), team := some t } ::
  (List.range 3).map fun j =>
    let h := entry.getD (3 + j) 0
    .ctl (3 * c + j) { Ctl.reset with cycle := 0 - s.time, tvec := (s.ctl (3 * c + j)).tvec, pc := h, run := if h = 0 then .idle else .running }

/-- Tensors that the run reaches in their frozen version (07 R176). -/
def frozenIn (ws : List Word) (conv : Option Conv) : List Nat :=
  (List.range 6).filterMap fun k =>
    let o := operandOf ws k
    if o.mode != 0 && o.froz && (match conv with | some c => c.operand == k | none => true) then some o.tid else none

/-- The run after one more of its shares, or of a conversion's, is placed. -/
def onePlaced (run : RunRec) (conv : Option Nat) : RunRec :=
  match conv with
  | some c => { run with convs := run.convs.modify c fun v => { v with placed := v.placed + 1, live := v.live + 1 } }
  | none => { run with placed := run.placed + 1, live := run.live + 1 }

/-- The reservation of an entry ends when a share of its node is placed in that cluster. -/
def endReservation (p : PoolE) (die cl : Nat) : Fx := fun s =>
  match FMap.get none s.reserved (die * 4 + cl) with
  | some q =>
    (match FMap.get none s.pool q with
      | some x => if x.id = p.id then [.reserve (die * 4 + cl) none, .pool q (some { x with resv := none })] else []
      | none => [.reserve (die * 4 + cl) none])
  | none => []

/-- PLACE_SHARE: the next share of pool entry `p` starts. -/
def placeFx (p : Nat) : Fx := fun s =>
  match FMap.get none s.pool p with
  | none => []
  | some x =>
    match s.inst x.inst, placeable s x with
    | some i, some (c, g) =>
      if x.team.isSome || !poolTurn s x then []
      else
        let nd := i.node x.node
        let ws := i.nodes.getD x.node []
        match nd.runs[x.run]? with
        | none => []
        | some run =>
          let conv := x.conv.bind fun v => run.convs[v]?
          let entry := match conv with | some v => v.entry | none => run.entry
          let j := match conv with | some v => v.placed | none => run.placed
          let total := match conv with | some v => v.tiles | none => run.shares
          let base := match conv with
            | some _ => j
            | none => shareBase (if taxOf ws then some (run.first, run.len) else none) (headerOf ws) j
          let size := teamSize (entry.getD 6 0)
          let cores := (List.range size).map (c + ·)
          let t := s.nextId
          let die := dieOf c
          let cl := clusterOf c % 4
          let tm : Team :=
            { asid := i.asid, inst := x.inst, node := x.node, run := x.run, conv := x.conv, base := BitVec.ofNat 64 base
              shares := total, method6 := entry.getD 6 0, rgn := bitOf (entry.getD 7 0) 57, die := die, cluster := cl
              cores := cores, kept := .none, w1 := 0, w2 := g, froz := frozenIn ws conv, state := .placed, request := false
              prio := entryPrio s x, stamp := t }
          (Fx.andThen (fun _ => [.team t (some tm), .fresh, .wipe (keyCluster (die * 4 + cl) (g * 4096)) (cmemOf (entry.getD 6 0) * 4096),
              .inst x.inst (some (i.setNode x.node { nd with runs := nd.runs.set x.run (onePlaced run x.conv) }))])
            ((Fx.each (fun (e : Nat × Nat) => startCore t size e.2 entry e.1) cores.zipIdx).andThen
              ((endReservation x die cl).andThen
                (if j + 1 = total then fun _ => [.pool p none] else Fx.none)))) s
    | _, _ => []

def execPlaceShare (p : Nat) (s : State) : Host.Outcome State Fault Refusal := answer s (placeFx p)

/-- A node's priority rises by a level. -/
def riseNode (l n : Nat) : Fx := fun s =>
  match s.inst l with
  | some i => if nodePrio i n < 7 then [.inst l (some (i.setNode n { i.node n with rise := (i.node n).rise + 1 }))] else []
  | none => []

/-- The number by which PRIORITY_RISE names a node that waits at the root: above those of pool entries. -/
def rootNumber (l n : Nat) : Nat := 2 ^ 48 + l * 2 ^ 16 + n

/-- PRIORITY_RISE: 256 µs more have passed since the node of entry `p` became ready, since the team of entry `p` was swapped, or since
node `n` of launch `l`, which waits at the root, became ready (07 R168). -/
def execPriorityRise (p : Nat) (s : State) : Host.Outcome State Fault Refusal :=
  answer s fun s =>
    match FMap.get none s.pool p with
    | some x =>
      if x.team.isNone then riseNode x.inst x.node s
      else if entryPrio s x < 7 then [.pool p (some { x with rise := x.rise + 1 })] else []
    | none => if 2 ^ 48 ≤ p then riseNode ((p - 2 ^ 48) / 2 ^ 16) (p % 2 ^ 16) s else []

/-- The node of an entry holds a reservation. -/
def hasReservation (s : State) (x : PoolE) : Bool :=
  s.pool.any fun e => match e.2 with | some y => y.id == x.id && y.resv.isSome | none => false

/-- RESERVATION: the entry's node has waited past TRS_CFG.RESV, and reserves one cluster of its first affinity die (07 R169). -/
def execReservation (p : Nat) (s : State) : Host.Outcome State Fault Refusal :=
  answer s fun s =>
    match FMap.get none s.pool p with
    | none => []
    | some x =>
      match s.inst x.inst with
      | none => []
      | some i =>
        if hasReservation s x || i.cancelled || x.rooted then []
        else
          let d := x.shard
          let free (c : Nat) : Nat := ((List.range 6).filter fun j => (s.core (d * 24 + c * 6 + j)).team.isNone).length
          let c := (List.range 4).foldl (fun b c => if free b < free c then c else b) 0
          let mine : List Eff := [.reserve (d * 4 + c) (some p), .pool p (some { x with resv := some (d, c) })]
          match (FMap.get none s.reserved (d * 4 + c)).bind fun q => (FMap.get none s.pool q).map fun y => (q, y) with
          | none => mine
          | some (q, y) => if x.stamp < y.stamp then .pool q (some { y with resv := none }) :: mine else []

/-! ### Node instructions (07 R175 to R180) -/

/-- The run and, for a share of a conversion node, the conversion that a team serves. -/
def servedRun (s : State) (tm : Team) : Option (Inst × RunRec × Option Conv) :=
  (s.inst tm.inst).bind fun i => ((i.node tm.node).runs[tm.run]?).map fun r => (i, r, tm.conv.bind fun c => r.convs[c]?)

def rangeHandle (r : Option (Nat × Nat × Nat)) : Word := match r with | some (tid, _, _) => handleOf tid 0 | none => 0
def rangeWord (r : Option (Nat × Nat × Nat)) : Word := match r with | some (_, f, n) => BitVec.ofNat 64 (n * 2 ^ 32 + f) | none => 0

/-- The iteration of the innermost loop that holds a node. -/
def iterationOf (i : Inst) (n : Nat) : Nat := match innermost i.nodes n with | some l => (i.node l).iter | none => 0

/-- Item `n` of a share's run (07 R176). A share of a conversion node reads in item 16 the tags of its two operands: the source's, and the
one that its first arena tile had when the range was taken (notes/assumptions/102.md). -/
def argItem (s : State) (tm : Team) (n : Nat) : Word :=
  match servedRun s tm with
  | none => 0
  | some (i, r, conv) =>
    let ranges := match conv with | some c => convRanges i tm.node r c | none => runRanges i tm.node r
    let tags : List Nat := match conv with
      | some c => [field c.tags 0 16, field c.tags 16 16]
      | none => r.tags.map BitVec.toNat
    let t (k : Nat) : Nat := tags.getD k 0
    if n < 8 then rangeHandle (ranges.getD n none)
    else if n < 16 then rangeWord (ranges.getD (n - 8) none)
    else if n = 16 then BitVec.ofNat 64 (t 0 + t 1 * 2 ^ 16 + t 2 * 2 ^ 32 + t 3 * 2 ^ 48)
    else if n = 17 then BitVec.ofNat 64 (t 4 + t 5 * 2 ^ 16)
    else if n = 18 then
      BitVec.ofNat 64 ((match conv with | some _ => 0 | none => i.oper tm.node * 2 ^ 32 + tm.run * 2 ^ 16) + tm.node)
    else if n = 19 then BitVec.ofNat 64 (iterationOf i tm.node % 2 ^ 32)
    else match conv with | some _ => 0 | none => (i.node tm.node).args.getD (n - 32) 0

/-- Value `n` of a share's work identifier (07 R177). -/
def widItem (s : State) (tm : Team) (n : Nat) : Word :=
  if n = 6 then tm.base
  else if n = 7 then BitVec.ofNat 64 tm.shares
  else match servedRun s tm with
    | none => 0
    | some (i, _, conv) =>
      let fs := match conv with | some c => convHeader c.tiles | none => headerOf (i.nodes.getD tm.node [])
      match fs[n]? with
      | none => 0
      | some f => if f.spread then BitVec.ofNat 64 (field tm.base f.shift f.width) else BitVec.ofNat 64 f.count

/-- The team of the stream that issues. -/
def State.ownTeam (t : State) : Option Team := ((t.core (coreOf t.cur)).team).bind t.team

def execNdArg (f : FY) (s : State) : Host.Outcome State Fault Refusal :=
  issue s (fyDesc f 0x080 [f.sd.toNat]) fun t =>
    .seq fun _ => [.sreg t.cur f.sd.toNat ((t.ownTeam.map fun tm => argItem t tm f.k.toNat).getD 0)]

def execWid (f : FY) (s : State) : Host.Outcome State Fault Refusal :=
  issue s (fyDesc f 0x081 [f.sd.toNat]) fun t =>
    .seq fun _ => [.sreg t.cur f.sd.toNat ((t.ownTeam.map fun tm => widItem t tm f.k.toNat).getD 0)]

/-- `done` (07 R178). -/
def execDoneI (f : FY) (s : State) : Host.Outcome State Fault Refusal :=
  issue s { fyDesc f 0x082 [] with closes := true } fun t =>
    let k := t.cur
    let co := coreOf k
    if streamOps t k ≠ [] ∨ (t.ctl k).late ≠ [] ∨ window1Out t k ∨ (accessesOf t k).any (fun e => e.2.kind.isLoad) then .wait (block k .ending)
    else match nextRecord (t.core co) k (fun _ => true) with
      | some r => deliver co r
      | none =>
        match guardTrap t k 0x082 with
        | some a => a
        | none => .stop ((onCtl k fun c => { c with run := .finished, instret := c.instret + 1, blocked := none }).andThen
            ((pushFifo co f.fp).andThen (tbarRelease (((t.core co).team).getD 0))))

/-- `gr.sig` (07 R179): a release of the stream's earlier accesses, then the event bits. -/
def execGrSig (f : FY) (s : State) : Host.Outcome State Fault Refusal :=
  issue s { fyDesc f 0x083 [f.sa.toNat] with closes := true } fun t =>
    if accessesOf t t.cur ≠ [] ∨ (t.ctl t.cur).late ≠ [] then .wait Fx.none
    else .seq (match t.ownTeam with
      | some tm => signal tm.inst ((t.sreg t.cur f.sa.toNat).setWidth 16)
      | none => Fx.none)

end Sys2Proof.Machine
end

