-- ==== Sys2Proof/Machine/Swap.lean ====
section
/-!
DEFINITION. Pre-emption, swaps and fault-swaps (14 R316 to R323, R333, 05 R130, R131): team frames, saving and resuming a team.
-/
namespace Sys2Proof.Machine

/-! ### Queue levels (05 R123) -/

/-- One byte for each of `n` queues. -/
def byteWord (n : Nat) (f : Nat → Nat) : Word :=
  BitVec.ofNat 64 ((List.range n).foldl (fun a i => a + f i % 256 * 2 ^ (8 * i)) 0)

def Core.qLevel (c : Core) : Word := byteWord 8 fun n => (c.queue n).rows.length
def Core.fLevel (c : Core) : Word := byteWord 6 c.tokens
def Core.bLevel (c : Core) : Word := byteWord 6 fun n => (c.outcomes n).length

/-! ### Blocked streams and teams (05 R130) -/

/-- What the stream found in its way still is. -/
def stillWaits (s : State) (k : Nat) (w : Wait) : Bool :=
  let c := s.core (coreOf k)
  match w with
  | .pop n => c.tokens n == 0
  | .push n => decide (64 ≤ c.tokens n + pendingPush s (coreOf k) (BitVec.ofNat 3 (n + 1)))
  | .rowRoom n => decide (16 ≤ (c.queue n).rows.length)
  | .elements n => decide (heldElems (c.queue n) (c.src n) < elemCount (tyWidth (qTy (c.snk n))))
  | .outRoom n => decide (64 ≤ (c.outcomes n).length + lateOutcomes (s.ctl k) n)
  | .outcome n => (c.outcomes n).isEmpty
  | .token n => c.tok n == .incomplete
  | .counts a b d e =>
    let o := outCounts s k
    decide (a < o.1) || decide (b < o.2.1) || decide (d < o.2.2.1) || decide (e < o.2.2.2)
  | .ending => !(streamOps s k).isEmpty || !(accessesOf s k).isEmpty || (s.ctl k).late != []

def streamBlocked (s : State) (k : Nat) : Bool :=
  let c := s.ctl k
  match c.run with
  | .idle | .finished | .parked _ | .atBar _ | .atTbar _ => true
  | .running => (match c.blocked with | some w => stillWaits s k w | none => false)
  | _ => false

/-- Every running stream of the team is blocked, and one is running. -/
def teamBlocked (s : State) (tm : Team) : Bool :=
  (teamStreams tm).all (streamBlocked s) &&
  (teamStreams tm).any fun k => (s.ctl k).run != .idle && (s.ctl k).run != .finished

/-- Every stream of the team stands at an instruction boundary: none waits for another package, or for the instruction at hand to retire. -/
def atBoundary (s : State) (tm : Team) : Bool :=
  ((teamStreams tm).all fun k => match (s.ctl k).run with | .atFormat | .retiring => false | _ => true) &&
  !s.accs.any fun e => match e.2 with | some a => a.remote && (teamStreams tm).contains a.k | none => false

/-! ### The parts of a frame (14 R321) -/

def words8 (ws : List Word) : List Byte := ws.flatMap fun w => natToBytes 8 w.toNat
def padTo (n : Nat) (bs : List Byte) : List Byte := bs.take n ++ List.replicate (n - bs.length) 0

/-- What a save holds of a stream: all of it, or its live-ins (14 R322). -/
inductive Keep where
  | all
  | live (s : Word) (p : Word)

def Keep.has (m : Keep) (scalar : Bool) (n : Nat) : Bool :=
  match m with
  | .all => true
  | .live s p => bitOf (if scalar then s else p) n

/-- A stream in an open region goes back to its entry (14 R317). -/
def rollback (c : Ctl) : Ctl :=
  if !c.open then c
  else match c.snap with
    | none => { c with pc := c.rgnpc, walked := [], code := none }
    | some n =>
      { c with
        l0 := n.l0, l1 := n.l1, l2 := n.l2, l3 := n.l3, status := n.status, fpctl := n.fpctl, rgn := n.rgn, rgnpc := n.rgnpc
        rgns := n.rgns, rgnp := n.rgnp, epc := n.epc, cause := n.cause, tval := n.tval, tvec := n.tvec, scratch := n.scratch
        flt := n.flt, pc := n.rgnpc, walked := [], code := none }

def loopWords (c : Ctl) : List Word :=
  let ls := [c.l0, c.l1, c.l2, c.l3]
  ls.map (·.lb) ++ ls.map (·.le)

def stmWords (now : Word) (c : Ctl) : List Word :=
  [c.status, c.fpctl, c.fpflags, c.cycle + now, c.instret, c.parks, c.rgn, c.rgnpc, c.rgns, c.rgnp, c.epc, c.cause, c.tval, c.tvec,
    c.scratch]

/-- 1,024 bytes of one stream. -/
def streamBytes (s : State) (k : Nat) (keep : Keep) : List Byte :=
  let c := s.ctl k
  padTo 1024 (words8 (c.pc :: (List.range 63).map fun i => if keep.has true (i + 1) then s.sreg k (i + 1) else 0) ++
    ((List.range 15).flatMap fun i => natToBytes 16 (if keep.has false (i + 1) then (s.preg k (i + 1)).toNat else 0)) ++
    ([c.l0, c.l1, c.l2, c.l3].flatMap fun l => natToBytes 8 l.lc.toNat) ++ words8 (loopWords c) ++ words8 (stmWords s.time c) ++
    natToBytes 8 c.glatch.toNat)

/-- The oldest record of a token. -/
def oldestRecord (c : Core) (n : Nat) : Option FaultRec :=
  (c.faults.filter (·.kp == n)).foldl (fun acc r => match acc with
    | none => some r
    | some a => some (if r.order < a.order then r else a)) (none : Option FaultRec)

/-- The 16 bytes of a token; of several records of one token the frame holds the oldest. -/
def tokenBytes (c : Core) (n : Nat) : List Byte :=
  match c.tok n, oldestRecord c n with
  | .cancelled, _ => natToBytes 8 (2 ^ 62) ++ natToBytes 8 0
  | .incomplete, _ => natToBytes 8 (3 * 2 ^ 62) ++ natToBytes 8 0
  | .complete, some r => natToBytes 8 (2 * 2 ^ 62 + r.op9 * 2 ^ 48 + r.code.toNat) ++ natToBytes 8 r.tval.toNat
  | .complete, none => List.replicate 16 0

/-- The core header, without the bits of its streams. -/
def coreHeader (c : Core) (doneIdle : Nat) : List Word :=
  [c.livesp, c.liveacc] ++ (List.range 8).map c.src ++ (List.range 8).map c.snk ++
  [c.qflags, c.qLevel, c.fLevel, c.bLevel, c.mtxFlags, c.przFlags, c.przCflags, byteWord 8 fun n => (c.queue n).used,
    BitVec.ofNat 64 doneIdle, c.lnkCflags]

def engineBytes (c : Core) : List Byte :=
  let plan := c.plan.getD ⟨List.replicate 8 0, false, 0⟩
  padTo 256 (padTo 128 (words8 c.shadow) ++ padTo 64 (words8 plan.words) ++ [if plan.valid then 1 else 0])

/-- Bytes `lo` to `lo + n − 1` of a core's window 1; zero beyond its extent. -/
def windowBytes (s : State) (c : Ctx) (lo n : Nat) : List Byte :=
  padTo n (s.bytes (keyPad c.core (c.w1 * 4096 + lo)) (min n (c.w1len - lo)))

def accBytes (s : State) (c page : Nat) : List Byte :=
  (List.range 4096).flatMap fun j => natToBytes 4 (s.acc c (4096 * page + j)).toNat

/-- Pages of window 1 and of the accumulator store that a save holds. -/
def padPages (full : Bool) (live : Word) (w1len : Nat) : List Nat :=
  (List.range 64).filter fun n => decide (65536 * n < w1len) && (full || bitOf live n)
def accPages (full : Bool) (live : Word) : List Nat := (List.range 64).filter fun n => full || bitOf live n

/-- The vector registers that a region save holds: the ranges of the core's open regions. -/
def liveVectors (s : State) (c : Nat) (full : Bool) : List Nat :=
  if full then List.range 1024
  else (List.range 1024).filter fun n => (List.range 3).any fun j =>
    let r := s.ctl (3 * c + j)
    r.open && decide (field r.rgn 0 10 ≤ n) && decide (n < field r.rgn 0 10 + field r.rgn 10 11)

def keepOf (c : Ctl) (full : Bool) : Keep := if !full && c.open then .live c.rgns c.rgnp else .all

/-- The section of one core. -/
def coreBytes (s : State) (tm : Team) (c : Nat) (full : Bool) : List Byte :=
  let r := s.core c
  let x := teamCtx tm c (3 * c) false
  let run (j : Nat) : Run := (s.ctl (3 * c + j)).run
  let flags := (List.range 3).foldl (fun a j =>
    a + (if run j == .finished then 2 ^ j else 0) + (if run j == .idle then 2 ^ (3 + j) else 0)) 0
  let vs := liveVectors s c full
  padTo 512 (words8 (coreHeader r flags)) ++
  natToBytes 128 (vs.foldl (fun a n => a + 2 ^ n) 0) ++
  (List.range 64).flatMap (tokenBytes r) ++
  padTo 128 ((List.range 6).flatMap fun n =>
    natToBytes 8 ((r.outcomes n).zipIdx.foldl (fun a o => a + (if o.1 then 2 ^ o.2 else 0)) 0)) ++
  engineBytes r ++
  ((List.range 8).flatMap fun n => padTo 2048 ((r.queue n).rows.flatMap vecBytes)) ++
  ((List.range 3).flatMap fun j => streamBytes s (3 * c + j) (keepOf (s.ctl (3 * c + j)) full)) ++
  (vs.flatMap fun n => vecBytes (s.vreg c n)) ++
  ((padPages full r.livesp x.w1len).flatMap fun n => windowBytes s x (65536 * n) 65536) ++
  (accPages full r.liveacc).flatMap (accBytes s c)

/-- The whole frame. -/
def frameBytes (s : State) (tm : Team) (reason : Nat) (full : Bool) (cause : Nat) : List Byte :=
  let body := (tm.cores.flatMap fun c => coreBytes s tm c full) ++
    s.bytes (keyCluster (tm.die * 4 + tm.cluster) (tm.w2 * 4096)) (cmemOf tm.method6 * 4096)
  let w0 := reason * 2 ^ 62 + (if full then 2 ^ 61 else 0) + cause * 2 ^ 48 + tm.node * 2 ^ 32 + tm.run * 2 ^ 16
  padTo 128 (words8 [BitVec.ofNat 64 w0, BitVec.ofNat 64 tm.inst, tm.base, tm.method6, BitVec.ofNat 64 (128 + body.length)]) ++ body

/-! ### Frame slots (14 R320) -/

def slotSize (s : State) (asid : Nat) : Nat := field (asWord s asid 6) 0 32 * 4096
def slotKey (s : State) (asid slot : Nat) : Nat := keyHbm (field (asWord s asid 5) 0 39 + slot * slotSize s asid)

/-- The lowest free slot. -/
def freeSlotOf (s : State) (asid : Nat) : Option Nat :=
  (List.range (field (asWord s asid 6) 48 16)).find? fun n =>
    !(s.byte (field (asWord s asid 7) 0 39 + n / 8)).getLsbD (n % 8)

/-! ### Saving -/

/-- The stream at its stop: nothing of it waits any more but an arrival at tbar, which stands. -/
def stopStream (c : Ctl) : Ctl :=
  { c with
    blocked := none, spin := none
    run := match c.run with | .parked _ | .atBar _ => .running | r => r }

/-- Operations that may be outstanding while a team is saved (18 R383). -/
def armedOnly (l : List (Nat × Op)) : Bool := l.all fun e => e.2.op9 == 0x0E2 && e.2.state == .armed

/-- Nothing of the team is under way any more. -/
def drained (s : State) (t : Nat) (tm : Team) : Bool :=
  (teamStreams tm).all (fun k => (accessesOf s k).isEmpty && (s.ctl k).late == []) && armedOnly (teamOps s t) &&
  tm.cores.all fun c => (s.core c).qfmt.isNone

/-- The team's armed chains leave its cores. -/
def detachOps (t : Nat) (tm : Team) : Fx := fun s =>
  (teamOps s t).map fun e =>
    let c := offCore t (tm.cores.findIdx (· == e.2.core))
    .op e.1 (some { e.2 with core := c, k := 3 * c + kindOf e.2.k })

/-- The pool entry of a swapped team. -/
def swapEntry (s : State) (t : Nat) (tm : Team) : PoolE :=
  let order := match s.inst tm.inst with
    | some i => (match (i.node tm.node).runs[tm.run]? with
      | some run => entryOrder s i tm.node run tm.conv
      | none => List.range 8)
    | none => List.range 8
  { newEntry order tm.inst tm.node tm.run tm.conv s.nextId with team := some t }

/-- What the frame has no place for. -/
def keptOf (s : State) (tm : Team) : Kept :=
  { runs := (teamStreams tm).map fun k => ((s.ctl k).run, (s.ctl k).snap, (s.ctl k).flt)
    recs := tm.cores.map fun c => (List.range 64).filterMap fun n =>
      (oldestRecord (s.core c) n).map fun r => (n, r.order, r.k.map kindOf, r.item1, r.far)
    plans := tm.cores.map fun c => ((s.core c).plan).map (·.handle) }

/-- A stopped team whose accesses and operations have drained is written to its frame and leaves its cores; a frame that does not fit, or
whose writing meets an uncorrectable error, fails its node (14 R317, R322, R323). -/
def trySave (t : Nat) : Fx := fun s =>
  match s.team t with
  | none => []
  | some tm =>
    match tm.state with
    | .saving reason full cause slot =>
      Fx.andThen (drain (teamStreams tm)) (fun s =>
        if !drained s t tm then []
        else
          let bs := frameBytes s tm reason full cause
          if slotSize s tm.asid < bs.length || Config.frameFails s.nextId then failTeam t cSWAP_FAIL s
          else
            let kept := keptOf s tm
            ((Fx.andThen (fun _ => [.store (slotKey s tm.asid slot) bs]) (detachOps t tm)).andThen ((freeCores tm).andThen fun s =>
              .team t (some { tm with state := .swapped reason slot, cores := [], kept := kept, request := false }) ::
                (if reason = 1 then [] else joinPools [swapEntry s t tm] s))) s) s
    | _ => []

/-- The team stops at once with a slot of its own; without a free one nothing happens. -/
def beginSave (t reason : Nat) (full : Bool) (cause : Nat) (first : Team → Fx) : Fx := fun s =>
  match s.team t with
  | none => []
  | some tm =>
    match freeSlotOf s tm.asid with
    | none => []
    | some slot =>
      ((Fx.andThen (fun s => .team t (some { tm with state := .saving reason full cause slot }) :: slotBit s tm.asid slot true)
          ((Fx.each (fun k => onCtl k stopStream) (teamStreams tm)).andThen (first tm))).andThen (trySave t)) s

/-- A halted team takes a slot as soon as one is free. -/
def haltStep (t : Nat) : Fx := fun s =>
  match s.team t with
  | some tm =>
    (match tm.state with
      | .halting w => if atBoundary s tm then beginSave t 1 true (field w 0 8) (fun _ => Fx.none) s else []
      | _ => [])
  | none => []

/-- TEAM_SWAP: team `t` has been blocked for TEAM_WAIT.THRESH clk (05 R131), or is halted and finds a slot, or has drained. -/
def execTeamSwap (t : Nat) (s : State) : Host.Outcome State Fault Refusal :=
  answer s fun s =>
    match s.team t with
    | none => []
    | some tm =>
      match tm.state with
      | .placed => if teamBlocked s tm && atBoundary s tm then beginSave t 0 true 0 (fun _ => Fx.none) s else []
      | .halting _ => haltStep t s
      | .saving _ _ _ _ => trySave t s
      | .swapped _ _ => []

/-! ### Pre-emption (14 R316, R317) -/

def preGap (s : State) : Nat := field s.pkg.trsPre 32 3

/-- A ready entry, or a node that waits at the root, that cannot be placed and whose priority exceeds the team's by TRS_PRE.GAP. -/
def preemptor (s : State) (tm : Team) : Bool :=
  preGap s != 0 && ((rootWaits s).any (fun w => decide (tm.prio + preGap s ≤ w.2.1)) || s.pool.any fun e => match e.2 with
    | some p => decide (tm.prio + preGap s ≤ entryPrio s p) && (placeable s p).isNone &&
        (match p.team with
          | some _ => true
          | none => (match entryMethod s p with | some (_, w) => w | none => false))
    | none => false)

/-- The placed teams that may be pre-empted: of lowest priority, the most recent first. -/
def preemptVictim (s : State) : Option Nat :=
  (s.teams.foldl (fun best e => match e.2 with
    | some tm =>
      if tm.rgn && tm.state == .placed && !tm.request then
        (match best with
          | none => some (e.1, tm)
          | some b => if tm.prio < b.2.prio ∨ (tm.prio = b.2.prio ∧ b.2.stamp < tm.stamp) then some (e.1, tm) else some b)
      else best
    | none => best) (none : Option (Nat × Team))).map (·.1)

/-- PREEMPT_REQUEST: the sequencer chooses team `t` (14 R316). -/
def execPreemptRequest (t : Nat) (s : State) : Host.Outcome State Fault Refusal :=
  answer s fun s =>
    match s.team t with
    | some tm => if preemptVictim s = some t ∧ preemptor s tm then [.team t (some { tm with request := true })] else []
    | none => []

/-- Every running stream is in an open region or has executed `done`. -/
def regionReady (s : State) (tm : Team) : Bool :=
  (teamStreams tm).all fun k => let c := s.ctl k; c.run == .idle || c.run == .finished || c.open

/-- The operations issued by a stream inside its open region are cancelled, and the streams go back (14 R317). -/
def regionStop (t : Nat) (tm : Team) : Fx := fun s =>
  (Fx.andThen (cancelOps ((teamOps s t).filter fun e => e.2.region && (s.ctl e.2.k).open))
    (Fx.each (fun k => onCtl k rollback) (teamStreams tm))) s

/-- A requested team stops, or its request ends: no slot is free, or, when its streams have reached regions, the waiting node has been placed
elsewhere. Once TRS_PRE.DEFER has passed it is stopped anyway (14 R316). -/
def preemptFx (t : Nat) (full : Bool) : Fx := fun s =>
  match s.team t with
  | none => []
  | some tm =>
    if !tm.request || tm.state != .placed || !atBoundary s tm then []
    else if (!full && !preemptor s tm) || (freeSlotOf s tm.asid).isNone then [.team t (some { tm with request := false })]
    else beginSave t 2 full 0 (fun tm => if full then Fx.none else regionStop t tm) s

/-- PREEMPT_STOP: the streams of a requested team have reached regions; or a stopped team has drained. -/
def execPreemptStop (t : Nat) (s : State) : Host.Outcome State Fault Refusal :=
  answer s fun s =>
    match s.team t with
    | none => []
    | some tm =>
      match tm.state with
      | .saving _ _ _ _ => trySave t s
      | _ => if regionReady s tm then preemptFx t false s else []

/-- PREEMPT_DEFER_EXPIRY: TRS_PRE.DEFER has passed since the request. -/
def execPreemptDeferExpiry (t : Nat) (s : State) : Host.Outcome State Fault Refusal :=
  answer s fun s =>
    match s.team t with
    | some tm => if regionReady s tm then [] else preemptFx t true s
    | none => []

/-! ### Resuming (14 R319) -/

def frameWord (s : State) (a : Nat) : Word := s.word a
def frameVec (s : State) (a : Nat) : Vec := vecOfBytes (s.bytes a 128)

/-- A stream as its section gives it. -/
def streamCtl (s : State) (a : Nat) (run : Run) (snap : Option Snap) (flt : Flt) : Ctl :=
  let w (o : Nat) : Word := frameWord s (a + o)
  let loop (n : Nat) : Loop := ⟨(w (752 + 8 * n)).setWidth 32, w (784 + 8 * n), w (816 + 8 * n)⟩
  { Ctl.reset with
    l0 := loop 0, l1 := loop 1, l2 := loop 2, l3 := loop 3, pc := w 0, status := w 848, fpctl := w 856, fpflags := w 864
    cycle := w 872 - s.time, instret := w 880, parks := w 888, rgn := w 896, rgnpc := w 904, rgns := w 912, rgnp := w 920, epc := w 928
    cause := w 936, tval := w 944, tvec := w 952, scratch := w 960, glatch := w 968, snap := snap, run := run, flt := flt }

/-- Registers of a stream from its section. -/
def streamRegs (s : State) (a k : Nat) : List Eff :=
  ((List.range 63).map fun i => .sreg k (i + 1) (frameWord s (a + 8 + 8 * i))) ++
  (List.range 15).map fun i => .preg k (i + 1) (BitVec.ofNat 128 (bytesToNat (s.bytes (a + 512 + 16 * i) 16)))

/-- The core record that a core section gives, on core `c`. -/
def restoredCore (s : State) (a t size rank c : Nat) (kept : Kept) : Core :=
  let old := s.core c
  let w (i : Nat) : Word := frameWord s (a + 8 * i)
  let tok (n : Nat) : Word := frameWord s (a + 640 + 16 * n)
  let byteAt (x : Word) (n : Nat) : Nat := field x (8 * n) 8
  let put {α : Type} [DecidableEq α] (d : α) (f : Nat → α) (n : Nat) : FMap α :=
    (List.range n).foldl (fun m i => FMap.set d m i (f i)) []
  let planWords := (List.range 8).map fun i => frameWord s (a + 1792 + 128 + 8 * i)
  let planValid := (s.byte (a + 1792 + 192)).getLsbD 0
  { Core.reset with
    parklim := old.parklim, teamWait := old.teamWait, freq := old.freq, gate := old.gate, tlb := old.tlb
    teamInfo := BitVec.ofNat 64 (size * 16 + rank), team := some t, livesp := w 0, liveacc := w 1
    qsrc := put 0 (fun n => w (2 + n)) 8, qsnk := put 0 (fun n => w (10 + n)) 8, qflags := w 18
    toks := put .complete (fun n => match field (tok n) 62 2 with | 1 => Tok.cancelled | 3 => .incomplete | _ => .complete) 64
    faults := (List.range 64).filterMap fun n =>
      if field (tok n) 62 2 = 2 then
        let r := ((kept.recs.getD rank []).find? (·.1 == n)).getD (n, n, none, 0, 0)
        some ⟨r.2.1, r.2.2.1.map (3 * c + ·), n, field (tok n) 48 9, BitVec.ofNat 8 (field (tok n) 0 8), frameWord s (a + 648 + 16 * n), r.2.2.2.1, r.2.2.2.2⟩
      else none
    fifo := put 0 (fun n => byteAt (w 20) n) 6
    bq := put [] (fun n => (List.range (byteAt (w 21) n)).map fun j => bitOf (frameWord s (a + 1664 + 8 * n)) j) 6
    dq := put .reset (fun n => ⟨(List.range (byteAt (w 19) n)).map fun j => frameVec s (a + 2048 + 2048 * n + 128 * j),
      byteAt (w 25) n⟩) 8
    mtxFlags := w 22, przFlags := w 23, przCflags := w 24, lnkCflags := w 27
    shadow := (List.range 14).map fun i => frameWord s (a + 1792 + 8 * i)
    plan := match kept.plans.getD rank none with
      | some h => some ⟨planWords, planValid, h⟩
      | none => if planValid then some ⟨planWords, true, 0⟩ else none }

/-- One core resumes from its section at `a`: the effects and the end of the section. -/
def resumeCore (t : Nat) (tm : Team) (full : Bool) (rank c a : Nat) (s : State) : List Eff × Nat :=
  let x := teamCtx tm c (3 * c) false
  let r := restoredCore s a t tm.cores.length rank c tm.kept
  let flags := frameWord s (a + 208)
  let st (j : Nat) : Nat := a + 18432 + 1024 * j
  let runOf (j : Nat) (kept : Run) : Run :=
    if bitOf flags j then .finished else if bitOf flags (3 + j) then .idle else match kept with | .atTbar f => .atTbar f | _ => .running
  let ctls := (List.range 3).flatMap fun j =>
    let kept := tm.kept.runs.getD (3 * rank + j) (.running, none, .reset)
    .ctl (3 * c + j) (streamCtl s (st j) (runOf j kept.1) kept.2.1 kept.2.2) :: streamRegs s (st j) (3 * c + j)
  let vs := (List.range 1024).filter fun n => (s.byte (a + 512 + n / 8)).getLsbD (n % 8)
  let at1 := a + 21504
  let vecs := vs.zipIdx.map fun v => .vreg c v.1 (frameVec s (at1 + 128 * v.2))
  let at2 := at1 + 128 * vs.length
  let pp := padPages full r.livesp x.w1len
  let key (o : Nat) : Nat := keyPad c (x.w1 * 4096 + o)
  let pads := pp.zipIdx.map fun p =>
    .store (key (65536 * p.1)) (s.bytes (at2 + 65536 * p.2) (min 65536 (x.w1len - 65536 * p.1)))
  let at3 := at2 + 65536 * pp.length
  let ap := accPages full r.liveacc
  let accs := ap.zipIdx.flatMap fun p => (List.range 4096).map fun j =>
    .acc c (4096 * p.1 + j) (BitVec.ofNat 32 (bytesToNat (s.bytes (at3 + 16384 * p.2 + 4 * j) 4)))
  (.clear c :: wipeCore c ++ .core c r :: ctls ++ vecs ++ pads ++ accs, at3 + 16384 * ap.length)

/-- The cores resume in order of rank; the second part is where the sections end. -/
def resumeCores (t : Nat) (tm : Team) (full : Bool) : List (Nat × Nat) → Nat → State → List Eff × Nat
  | [], a, _ => ([], a)
  | (c, rank) :: rest, a, s =>
    let r := resumeCore t tm full rank c a s
    let q := resumeCores t tm full rest r.2 (s.applyAll r.1)
    (r.1 ++ q.1, q.2)

/-- The team's armed chains come to its new cores. -/
def attachOps (t : Nat) (tm : Team) : Fx := fun s =>
  (teamOps s t).map fun e =>
    let c := tm.cores.getD (e.2.core - offCore t 0) 0
    .op e.1 (some { e.2 with core := c, k := 3 * c + kindOf e.2.k })

/-- TEAM_RESUME: swapped team `t` resumes on the aligned core set that begins at core `c`. -/
def resumeFx (t c : Nat) : Fx := fun s =>
  match s.team t, s.pool.find? fun e => match e.2 with | some p => p.team == some t | none => false with
  | some tm, some (pn, some p) =>
    (match tm.state with
      | .swapped _ slot =>
        let size := teamSize tm.method6
        let die := dieOf c
        let cl := clusterOf c % 4
        (match clusterRun s die cl (cmemOf tm.method6) with
          | some g =>
            if 192 ≤ c ∨ p.rooted ∨ c % 6 % size ≠ 0 ∨ !setFree s c size || reservedFor s p die cl size || !poolTurn s p ||
                !asValid s tm.asid then []
            else
              if Config.frameFails s.nextId then failTeam t cSWAP_FAIL s
              else
              let a := slotKey s tm.asid slot
              let full := bitOf (frameWord s a) 61
              let tm1 := { tm with
                die := die, cluster := cl, cores := (List.range size).map (c + ·), w2 := g, state := .placed, prio := entryPrio s p
                stamp := s.nextId }
              let r := resumeCores t tm1 full tm1.cores.zipIdx (a + 128) s
              (Fx.andThen (fun s => r.1 ++
                  [.store (keyCluster (die * 4 + cl) (g * 4096)) (s.bytes r.2 (cmemOf tm.method6 * 4096)),
                    .team t (some { tm1 with kept := .none }), .pool pn none, .fresh] ++ slotBit s tm.asid slot false)
                ((attachOps t tm1).andThen (endReservation p die cl))) s
          | none => [])
      | _ => [])
  | _, _ => []

def execTeamResume (t c : Nat) (s : State) : Host.Outcome State Fault Refusal := answer s (resumeFx t c)

/-- A write of TRS_RESUME: the fault-swapped team in that slot of the address space may resume (14 R333, R337). -/
def trsResumeFx (asid slot : Nat) : Fx := fun s =>
  match s.teams.find? fun e => match e.2 with
      | some tm => tm.asid == asid && tm.state == .swapped 1 slot
      | none => false with
  | some (t, some tm) =>
    if s.pool.any fun e => match e.2 with | some p => p.team == some t | none => false then []
    else joinPools [swapEntry s t tm] s
  | _ => []

def execTrsResume (a : Nat) (v : Word) (s : State) : Host.Outcome State Fault Refusal := answer s (trsResumeFx a (field v 0 16))

/-! ### halt (14 R333): the loop-end action does not take place (04 R98) -/

def execHalt (f : FY) (s : State) : Host.Outcome State Fault Refusal :=
  issue s { fyDesc f 0x0F3 [f.sa.toNat] with priv := true, closes := true } fun t =>
    let k := t.cur
    let w := t.sreg k f.sa.toNat
    let team := ((t.core (coreOf k)).team).getD 0
    if (t.ctl k).late ≠ [] then .wait Fx.none
    else .stop ((retireJump k ((t.ctl k).pc + 8) f.fp false).andThen
      (if bitOf w 8 then failTeam team (BitVec.ofNat 8 (field w 0 8))
       else Fx.andThen (fun s => match s.team team with
         | some tm => [.team team (some { tm with state := .halting w })]
         | none => []) (haltStep team)))

end Sys2Proof.Machine
end

