-- ==== Sys2Proof/Machine/Link.lean ====
section
/-!
DEFINITION. Jiwen ports: acknowledgement and replay of flits (18 R362), failed wavelengths, lost ports and lost transactions (R363, R369),
health (R364), narrowing and widening (R365), laser states (R366). What flits carry is performed by Home.lean; how they are made and
routed is Wire.lean's.
-/
namespace Sys2Proof.Machine

/-! ### Ports -/

/-- Ports 0 to 15 (00 R2). -/
def portOk (p : Nat) : Bool := decide (p < 16)

/-- A flit that carries no transaction: it takes a SEQ and is kept like the others (R361). -/
def control (i : Nat) (typ : Byte) (x : Part) : Fx := fun s =>
  let p := s.port i
  if p.state ≠ 2 ∨ p.active = 0 ∨ 512 ≤ p.buffer.length then []
  else
    let r := p.form typ x
    .port i r.1 :: (p.sends i [r.2]).map Eff.out

/-- A NAK with the first missing SEQ, which its ACK names (R362). -/
def sendNak (i : Nat) : Fx := control i 2 .none

/-- An idle flit, which keeps a lit direction busy; none is formed once a change has stopped new flits. -/
def idleFx (i : Nat) : Fx := fun s => if portOk i && (s.port i).ready then control i 0 .none s else []

/-- SEQ `a` is not after `b`. -/
def notAfter (a b : BitVec 16) : Bool := decide ((b - a).toNat < 2 ^ 15)

/-- ACK advances: acknowledged flits leave the replay buffer. -/
def takeAck (i : Nat) (a : BitVec 16) : Fx := fun s =>
  let p := s.port i
  let rest := p.buffer.filter fun f => !notAfter f.seq a
  if rest.length = p.buffer.length then []
  else (Fx.andThen (fun _ => [.port i { p with buffer := rest, txAck := a, resends := [] }]) (flush i)) s

/-- The wavelengths that carry a flit: a marker goes on every one of the new mask, without those that have failed since it was formed; a
dark marker on every one that is active (R365, R366). -/
def wavesOf (p : Port) (f : Flit) : List Nat :=
  if f.typ = 3 then waves (if f.mask &&& p.target = 0 then p.target else f.mask &&& p.target) else if f.typ = 4 then waves p.active else [p.wave f.seq]

/-- Held flits from SEQ `q` on are sent again, unchanged (R362); each wavelength's resends are counted (R363). -/
def replay (i : Nat) (q : BitVec 16) : Fx := fun s =>
  let p := s.port i
  let again := p.buffer.filter fun f => notAfter q f.seq
  if again = [] then []
  else
    let ws := (again.flatMap (wavesOf p)).eraseDups
    .port i { p with
      replays := if p.replays = 0x7FFF then p.replays else p.replays + 1
      resends := ws.foldl (fun m w => FMap.set 0 m w (FMap.get 0 m w + 1)) p.resends } ::
      again.flatMap fun f => (wavesOf p f).map fun w => .out (.flit i w f)

/-- FLIT_RECEIVE: a flit arrives at port `p` (R361, R362); what one of TYPE 5 to 255 holds is discarded. -/
def execFlitReceive (p : Nat) (f : Flit) (s : State) : Host.Outcome State Fault Refusal :=
  answer s fun s =>
    let x := s.port p
    if x.state ≠ 2 ∨ 16 ≤ p then []
    else if f.bad then sendNak p s
    else if f.seq = x.rxSeq + 1 then
      (Fx.andThen (fun _ => [.port p { x with rxSeq := f.seq }]) (Fx.andThen (takeAck p f.ack)
        (if f.typ = 2 then replay p (f.ack + 1)
        else match f.typ, f.txn with
          | 1, some t => serve p t
          | _, _ => Fx.none))) s
    else if notAfter f.seq x.rxSeq then takeAck p f.ack s
    else (Fx.andThen (takeAck p f.ack) (sendNak p)) s

/-- NAK_RECEIVE: the peer misses SEQ `q`. -/
def execNakReceive (p : Nat) (q : BitVec 16) (s : State) : Host.Outcome State Fault Refusal :=
  answer s (if portOk p then Fx.andThen (takeAck p (q - 1)) (replay p q) else Fx.none)

/-- REPLAY_TIMEOUT: 2 µs without ACK advancing. -/
def execReplayTimeout (p : Nat) (s : State) : Host.Outcome State Fault Refusal :=
  answer s fun s => match (s.port p).buffer with | f :: _ => replay p f.seq s | [] => []

/-! ### Narrowing and widening (R365) -/

def lowest (m : BitVec 4) : BitVec 4 := m &&& (0 - m)

/-- The mask that the port changes to next, if it does: in L1 and on the way to it the lowest wavelength of LMASK, on the way to L2 none,
otherwise LMASK; each once all of it is lit. -/
def nextMask (p : Port) : Option (BitVec 4) :=
  if p.state ≠ 2 ∨ p.nstep ≠ 0 ∨ p.lstate = 2 then none
  else if p.lstate = 0 ∧ p.lreq ≠ 0 then
    (if p.active ≠ lowest p.lmask ∧ lowest p.lmask &&& ~~~p.lit = 0 then some (lowest p.lmask) else none)
  else if p.lstate = 1 ∧ p.lreq = 2 then (if p.waiting = [] then some 0 else none)
  else if p.lstate = 1 then
    (if p.active ≠ lowest p.lmask ∧ lowest p.lmask &&& ~~~p.lit = 0 then some (lowest p.lmask) else none)
  else if p.lmask ≠ p.active ∧ p.lmask &&& ~~~p.lit = 0 then some p.lmask
  else none

/-- RESTRIPE_START: steps 0 and 1. -/
def execRestripeStart (p : Nat) (s : State) : Host.Outcome State Fault Refusal :=
  answer s fun s => match nextMask (s.port p) with
    | some m => [.port p { s.port p with target := m, nstep := 2 }]
    | none => []

/-- RESTRIPE_DRAINED: ACK covers every flit sent, and the marker goes out on every wavelength of the new mask; on the way to L2 a
dark marker. -/
def execRestripeDrained (p : Nat) (s : State) : Host.Outcome State Fault Refusal :=
  answer s fun s =>
    let x := s.port p
    if x.nstep ≠ 2 ∨ x.buffer ≠ [] then []
    else
      let r := x.form (if x.target = 0 then 4 else 3) (.marker x.target)
      .port p { r.1 with nstep := 3, mseq := r.2.seq } :: (wavesOf x r.2).map fun w => .out (.flit p w r.2)

/-- RESTRIPE_MARKER_ACK: the peer has acknowledged the marker; steps 4 and 5. -/
def execRestripeMarkerAck (p : Nat) (s : State) : Host.Outcome State Fault Refusal :=
  answer s fun s =>
    let x := s.port p
    if x.nstep ≠ 3 ∨ x.target = 0 ∨ (x.buffer.any fun f => f.seq == x.mseq) then []
    else (Fx.andThen (fun _ => [.port p { x with active := x.target, mark := x.mseq, nstep := 0 }]) (flush p)) s

/-- A write of LMASK: 0 is ignored; a change in progress goes on first. -/
def lmaskFx (p : Nat) (m : BitVec 4) : Fx := fun s => if m = 0 ∨ portOk p = false then [] else [.port p { s.port p with lmask := m }]

/-- A write of LREQ: 3 is ignored (R366, R388). -/
def lreqFx (p : Nat) (r : BitVec 2) : Fx := fun s => if r = 3 ∨ portOk p = false then [] else [.port p { s.port p with lreq := r }]

def execLmaskWrite (p : Nat) (m : BitVec 4) (s : State) : Host.Outcome State Fault Refusal := answer s (lmaskFx p m)
def execLreqWrite (p : Nat) (r : BitVec 2) (s : State) : Host.Outcome State Fault Refusal := answer s (lreqFx p r)

/-! ### Laser states (R366) -/

/-- LASER_STATE_REACHED: the direction of port `p` reaches state `r`. In L0 the wavelengths of LMASK are lit, whatever state is asked for
next (R365: a change waits for a dark one). In L1 it names the lowest wavelength of LMASK: that one is lit, beside
the one that still carries flits, and once it is the one that carries them it is the only one. -/
def execLaserStateReached (p : Nat) (r : BitVec 2) (s : State) : Host.Outcome State Fault Refusal :=
  answer s fun s =>
    let x := s.port p
    if x.state ≠ 2 then []
    else if r = 0 then
      (if x.nstep = 0 ∧ x.lstate ≠ 2 ∧ (x.lreq = 0 ∨ x.lstate = 0) then [.port p { x with lstate := 0, lit := x.lmask ||| x.active }] else [])
    else if r = 1 then
      (if x.lstate = 0 ∧ x.lreq ≠ 0 ∧ x.nstep = 0 ∧ x.active = lowest x.lmask then [.port p { x with lstate := 1, lit := x.active }]
      else if x.lstate = 2 ∧ (x.lreq ≠ 2 ∨ x.waking) then
        (Fx.andThen (fun _ => [.port p { x with
          lstate := 1, lit := lowest x.lmask, active := lowest x.lmask, mark := 0, waking := false }]) (flush p)) s
      else if x.lstate = 1 ∧ x.nstep = 0 then [.port p { x with lit := x.active ||| lowest x.lmask }]
      else [])
    else if x.lstate = 1 ∧ x.nstep = 3 ∧ x.target = 0 ∧ (x.buffer.any fun f => f.seq == x.mseq) = false then
      [.port p { x with lstate := 2, lit := 0, active := 0, nstep := 0 }]
    else []

/-- LASER_WAKE: a dark direction wakes by itself when a flit is held for it. -/
def execLaserWake (p : Nat) (s : State) : Host.Outcome State Fault Refusal :=
  answer s fun s =>
    let x := s.port p
    if x.state = 2 ∧ x.lstate = 2 ∧ x.waiting ≠ [] then [.port p { x with waking := true }] else []

/-! ### Failures (R363, R369) -/

/-- WAVELENGTH_FAIL: wavelength `w`, resent 16 times, fails. The port narrows without it, in ACTIVE and in LMASK; with none left it is lost,
and its transactions are sent by another route. -/
def execWavelengthFail (p w : Nat) (s : State) : Host.Outcome State Fault Refusal :=
  answer s fun s =>
    let x := s.port p
    let gone : BitVec 4 := BitVec.ofNat 4 (2 ^ w)
    let rest := x.active &&& ~~~gone
    if x.state ≠ 2 ∨ 4 ≤ w ∨ FMap.get 0 x.resends w < 16 then []
    else if rest = 0 then
      let ts := x.buffer.filterMap (·.txn) ++ x.waiting.filterMap (·.txn)
      .port p { x with state := 3, active := 0, lit := 0, nstep := 0, buffer := [], waiting := [], resends := [] } ::
        ts.map fun t => .send t
    else
      let m := if x.nstep = 0 then rest else x.target &&& ~~~gone
      let y := { x with
        active := rest, target := if x.nstep ≠ 0 ∧ x.target = 0 then 0 else if m = 0 then rest else m
        lmask := if x.lmask &&& ~~~gone = 0 then rest else x.lmask &&& ~~~gone, lit := x.lit &&& ~~~gone, resends := FMap.del w x.resends
        nstep := if x.nstep = 0 then 2 else x.nstep }
      .port p y :: x.buffer.flatMap fun f => (wavesOf y f).map fun w => .out (.flit p w f)

/-- TRANSACTION_LOST: a transaction of this package was not performed within LOSTTO (R363, R369): the access traps, the engine
operation faults, the collective aborts with the rank at its destination (R378). -/
def execTransactionLost (src : Nat) (tag : Nat) (s : State) : Host.Outcome State Fault Refusal :=
  answer s fun s =>
    if src ≠ ownPackage s then []
    else match s.colls.find? fun e => match e.2 with | some c => c.sent.any (·.1 == tag) | none => false with
      | some (key, some c) =>
        abortColl key (BitVec.ofNat 64 (((c.sent.find? (·.1 == tag)).map (·.2)).getD 0)) true s
      | _ => lostTo tag s

/-- HEALTH_UPDATE: the readings of wavelength `w` of port `p` (R364); a dark one reads no power and keeps its counters. -/
def execHealthUpdate (p w : Nat) (opt ber corr unc : Word) (s : State) : Host.Outcome State Fault Refusal :=
  answer s fun s =>
    if 16 ≤ p ∨ 4 ≤ w then []
    else
      let x := s.port p
      let h := FMap.get .reset x.health w
      let new : Health :=
        if x.lit.getLsbD w then ⟨opt &&& 0xFFFFFFFFFFFFFF00, ber &&& 0x1FFF, corr, unc⟩
        else ⟨0x8000800000000000 ||| (opt &&& 0xFF00), ber &&& 0x1FFF, h.corr, h.unc⟩
      [.port p { x with health := FMap.set .reset x.health w new }]

/-- What ends every step: nodes fail and records are written that had to wait, and freed room in full pools is taken (07 R168). -/
def finishStep (s : State) : State :=
  let t := settle s
  t.applyAll (enterPools t)

end Sys2Proof.Machine
end

