-- ==== Sys2Proof/Machine/CtlRegs.lean ====
section
/-!
DEFINITION. The control registers (01 R22 to R28, 04 R100 to R104, 05 R119 to R124, 07 R174, 08 R205, R207, 12 R279, 13 R306, 14 R337,
16 R342 to R349, 17 R360, 18 R364, R388): their values, their fields' access types, the four `ctl` instructions, and the writes of the
host and the management port.
-/
namespace Sys2Proof.Machine

/-! ### Values -/

/-- A stream register (01 R23, 14 R337). -/
def stmValue (s : State) (c : Ctl) (ix : Nat) : Word :=
  match ix with
  | 0x000 => c.status
  | 0x001 => c.fpctl
  | 0x002 => c.fpflags
  | 0x003 => c.cycle + s.time
  | 0x004 => c.instret
  | 0x005 => c.parks
  | 0x006 => c.rgn
  | 0x007 => c.rgnpc
  | 0x008 => c.rgns
  | 0x009 => c.rgnp
  | 0x100 => c.epc
  | 0x101 => c.cause
  | 0x102 => c.tval
  | 0x103 => c.tvec
  | 0x104 => c.scratch
  | _ =>
    let l := c.loop (ix % 4)
    if ix < 0x014 then l.lc.setWidth 64 else if ix < 0x018 then l.lb else l.le

/-- CORE_ID (05 R124). -/
def coreId (c : Nat) : Word := BitVec.ofNat 64 (dieOf c * 32 + clusterOf c % 4 * 8 + c % 6)

/-- A register of a core (05 R120, 12 R279, 13 R306, 14 R337, 18 R388). -/
def coreValue (r : Core) (c ix : Nat) : Word :=
  match ix with
  | 0x200 => coreId c
  | 0x218 => r.qflags
  | 0x219 => r.qLevel
  | 0x21A => r.fLevel
  | 0x21B => r.bLevel
  | 0x21C => r.parklim
  | 0x220 => r.livesp
  | 0x221 => r.liveacc
  | 0x300 => r.teamInfo
  | 0x301 => r.teamWait
  | 0x600 => r.mtxFlags
  | 0x700 => r.przFlags
  | 0x701 => r.przCflags
  | 0xA14 => r.lnkCflags
  | _ =>
    if ix < 0x210 then r.src (ix - 0x208)
    else if ix < 0x218 then r.snk (ix - 0x210)
    else r.shadow.getD (ix - 0x610) 0

/-- MEM_COMMQ of a die. -/
def commqValue (s : State) (die : Nat) : Word := s.pkg.commq.getD die 0

/-- PWR_STAT (16 R344) but for FREQ and GATE. -/
def pwrStat (p : Pkg) : Word :=
  BitVec.ofNat 64 (p.pkgW * 2 ^ 48 + p.tj * 2 ^ 40 + (if p.hot then 2 else 0) + (if p.overBudget then 1 else 0))

/-- LNK_PORTn (18 R388); a port that is not up carries nothing. -/
def portWord (s : State) (i : Nat) : Word :=
  let p := s.port i
  BitVec.ofNat 64 (p.peerPkg.toNat * 2 ^ 54 + p.peerPort.toNat * 2 ^ 50 + p.lreq.toNat * 2 ^ 46 + p.lstate.toNat * 2 ^ 44 +
    p.lmask.toNat * 2 ^ 40 + p.active.toNat * 2 ^ 36 + p.state.toNat * 2 ^ 34 + p.nstep.toNat * 2 ^ 31 + p.replays.toNat * 2 ^ 16 +
    (if p.state = 2 then (Config.utilisation s.clock i).toNat else 0))

def healthWord (h : Health) (j : Nat) : Word := match j with | 0 => h.opt | 1 => h.ber | 2 => h.corr | _ => h.unc

/-- A package register as core `c` reads it, or, with none, the host or a management port. -/
def pkgValue (s : State) (c : Option Nat) (ix : Nat) : Word :=
  let p := s.pkg
  match ix with
  | 0x400 => p.trsCfg
  | 0x401 => BitVec.ofNat 64 (poolCount s (dieOf (c.getD 0)))
  | 0x403 => p.trsPre
  | 0x508 => commqValue s (dieOf (c.getD 0))
  | 0x510 => p.astab
  | 0x710 => p.mapbase
  | 0x800 => p.pwrCfg
  | 0x801 =>
    pwrStat p ||| (match c with
      | some c => BitVec.ofNat 64 ((s.core c).freq % 32 * 2 ^ 27 + (s.core c).gate % 8 * 2 ^ 24)
      | none => (Config.readerGrant s.clock).setWidth 64 <<< 24)
  | 0x802 => p.energy
  | 0x900 => secInv
  | 0x901 => secBootWord p
  | 0x903 => p.tamper
  | 0x904 => p.tfuse
  | 0x905 => BitVec.ofNat 64 ((if p.attestDone then 2 ^ 61 else 0) + (if p.attestErr then 2 ^ 60 else 0))
  | 0xA10 => p.lnkId
  | 0xA11 => p.lnkCfg
  | 0xA12 => p.treeIdx
  | 0xA13 => FMap.get 0 s.trees (field p.treeIdx 0 10)
  | 0xB00 => p.hbase
  | 0xB03 => cmpBusy s
  | 0xB04 => p.cmpErr
  | _ =>
    if 0x808 ≤ ix ∧ ix ≤ 0x80B then
      let d := p.dom.getD (ix - 0x808) (0, 0)
      BitVec.ofNat 64 (d.1 * 2 ^ 16 + d.2)
    else if 0xA00 ≤ ix ∧ ix ≤ 0xA0F then portWord s (ix - 0xA00)
    else if 0xC00 ≤ ix then healthWord (FMap.get .reset (s.port (ix / 16 % 16)).health (ix / 4 % 4)) (ix % 4)
    else 0

def isStm (ix : Nat) : Bool := decide (ix < 0x200)
def isGlatch (ix : Nat) : Bool := decide (0x500 ≤ ix ∧ ix ≤ 0x502)
def isFormat (ix : Nat) : Bool := decide (0x208 ≤ ix ∧ ix ≤ 0x217)
def isShadow (ix : Nat) : Bool := decide (0x610 ≤ ix ∧ ix ≤ 0x61D)
def isCoreReg (ix : Nat) : Bool :=
  decide (0x200 ≤ ix ∧ ix ≤ 0x3FF) || ix == 0x600 || isShadow ix || ix == 0x700 || ix == 0x701 || ix == 0xA14

/-- Any register as stream `k` reads it (04 R101). -/
def creg (s : State) (k ix : Nat) : Word :=
  if isStm ix then stmValue s (s.ctl k) ix
  else if isGlatch ix then (s.ctl (3 * coreOf k + (ix - 0x500))).glatch
  else if isCoreReg ix then coreValue (s.core (coreOf k)) (coreOf k) ix
  else pkgValue s (some (coreOf k)) ix

/-! ### Access types -/

/-- The RW bits of a register. -/
def rwBits (ix : Nat) : Word :=
  match ix with
  | 0x000 => 0x68
  | 0x001 => 0x1F07
  | 0x002 => 0x1F
  | 0x005 => 0xFFFFFFFF
  | 0x100 | 0x103 => ~~~3
  | 0x101 => 0x1FF
  | 0x003 | 0x004 | 0x102 | 0x104 | 0x220 | 0x221 | 0xA11 => ~~~0
  | 0x21C | 0x301 | 0x400 => 0xFFFFFFFF
  | 0x403 => 0x7FFFFFFFF
  | 0x508 => 0x3FFFF
  | 0x510 => 0x7FFFFFFF80
  | 0x710 => 0x7FFFFF0000
  | 0x800 => 0x1F0FFF
  | 0xA12 => 0x3FF
  | 0xA13 => 0xFC0000000001FFFF
  | 0xB00 => 0x7FFFFFF000
  | _ =>
    if 0x010 ≤ ix ∧ ix ≤ 0x013 then 0xFFFFFFFF
    else if (0x014 ≤ ix ∧ ix ≤ 0x01B) ∨ isShadow ix then ~~~0
    else if isFormat ix then 0xFF
    else if 0xA00 ≤ ix ∧ ix ≤ 0xA0F then 0xCF0000000000
    else 0

/-- The W1C bits of a register. -/
def w1cBits (ix : Nat) : Word :=
  match ix with
  | 0x218 => 0x9797979797979797
  | 0x500 | 0x501 | 0x502 => 0x8000000000000000
  | 0x600 => 0x7F
  | 0x700 => 0x37
  | 0x701 => 0xF
  | 0x903 => 0xFF
  | 0xA14 => 0x17
  | 0xB04 => 3
  | _ => 0

/-- How a write acts (04 R101). -/
inductive WMode where
  | wr | set | clr
  deriving DecidableEq, Repr

/-- The value that a write leaves. -/
def merged (m : WMode) (ix : Nat) (old v : Word) : Word :=
  match m with
  | .wr => ((old &&& ~~~(rwBits ix)) ||| (v &&& rwBits ix)) &&& ~~~(v &&& w1cBits ix)
  | .set => old ||| (v &&& rwBits ix)
  | .clr => old &&& ~~~(v &&& (rwBits ix ||| w1cBits ix))

/-- User level may read the register (01 R23, 04 R104, and the User columns). -/
def userReads (ix : Nat) : Bool :=
  decide (ix < 0x100) || isFormat ix || decide (0x218 ≤ ix ∧ ix ≤ 0x21B) || ix == 0x220 || ix == 0x221 || ix == 0x300 || ix == 0x600 ||
  ix == 0x700 || ix == 0x701 || ix == 0x801 || ix == 0x802 || decide (0x808 ≤ ix ∧ ix ≤ 0x80B) || ix == 0x900 || ix == 0x901 ||
  ix == 0x904 || ix == 0xA14

/-- User level may write it. -/
def userWrites (ix : Nat) : Bool :=
  ix == 0x001 || ix == 0x002 || isFormat ix || ix == 0x218 || ix == 0x220 || ix == 0x221 || ix == 0x600 || ix == 0x700 || ix == 0x701 ||
  ix == 0xA14

/-! ### Writes -/

/-- A stream register set; `now` is the time passed. -/
def setStm (ix : Nat) (now v : Word) (c : Ctl) : Ctl :=
  match ix with
  | 0x000 => { c with status := v }
  | 0x001 => { c with fpctl := v }
  | 0x002 => { c with fpflags := v }
  | 0x003 => { c with cycle := v - now }
  | 0x004 => { c with instret := v }
  | 0x005 => { c with parks := v }
  | 0x100 => { c with epc := v }
  | 0x101 => { c with cause := v }
  | 0x102 => { c with tval := v }
  | 0x103 => { c with tvec := v }
  | 0x104 => { c with scratch := v }
  | _ =>
    let n := ix % 4
    let l := c.loop n
    if 0x010 ≤ ix ∧ ix ≤ 0x013 then c.setLoop n { l with lc := v.setWidth 32 }
    else if 0x014 ≤ ix ∧ ix ≤ 0x017 then c.setLoop n { l with lb := v }
    else if 0x018 ≤ ix ∧ ix ≤ 0x01B then c.setLoop n { l with le := v }
    else c

/-- A register of a core set; the queue formats are not set here. -/
def setCore (ix : Nat) (v : Word) (r : Core) : Core :=
  match ix with
  | 0x218 => { r with qflags := v }
  | 0x21C => { r with parklim := v }
  | 0x220 => { r with livesp := v }
  | 0x221 => { r with liveacc := v }
  | 0x301 => { r with teamWait := v }
  | 0x600 => { r with mtxFlags := v }
  | 0x700 => { r with przFlags := v }
  | 0x701 => { r with przCflags := v }
  | 0xA14 => { r with lnkCflags := v }
  | _ => if isShadow ix then { r with shadow := r.shadow.set (ix - 0x610) v } else r

/-- PWR_CFG: a field out of range keeps its value (16 R344). -/
def setPwr (v : Word) (p : Pkg) : Pkg :=
  let f := field v 16 5
  let b := field v 0 12
  { p with pwrCfg := BitVec.ofNat 64 ((if 12 ≤ f ∧ f ≤ 24 then f else field p.pwrCfg 16 5) * 2 ^ 16 +
      (if 600 ≤ b ∧ b ≤ 2400 then b else field p.pwrCfg 0 12)) }

/-- MEM_COMMQ of a die: HI and LO, unless out of order (08 R207). -/
def setCommq (die : Nat) (v : Word) (p : Pkg) : Pkg :=
  if field v 9 9 ≤ field v 0 9 ∨ 256 < field v 9 9 then p
  else { p with commq := p.commq.set die ((p.commq.getD die 0 &&& 0x3FF000000) ||| (v &&& 0x3FFFF)) }

/-- The actions of registers with WO fields; `asid` is the writer's address space. -/
def actionFx (asid ix : Nat) (v : Word) : Fx :=
  match ix with
  | 0x402 => mflush (field v 0 12)
  | 0x404 => trsResumeFx asid (field v 0 16)
  | 0x902 => secResetFx (field v 0 2)
  | 0x905 => attestFx (field v 62 2) v
  | 0xB01 => episodeFx v
  | 0xB02 => stopFx v
  | _ => Fx.none

/-- A package register takes a new value: `m` is the write that led to it, `v` its operand. -/
def setPkg (core asid ix : Nat) (m : WMode) (v new : Word) : Fx :=
  match ix with
  | 0x400 => onPkg fun p => { p with trsCfg := new }
  | 0x403 => onPkg fun p => { p with trsPre := new }
  | 0x508 => onPkg (setCommq (dieOf core) new)
  | 0x510 => onPkg fun p => { p with astab := new }
  | 0x710 => onPkg fun p => { p with mapbase := new }
  | 0x800 => onPkg (setPwr new)
  | 0x903 => if m = .set then Fx.none else clearTamper v
  | 0xA11 => onPkg fun p => { p with lnkCfg := new }
  | 0xA12 => onPkg fun p => { p with treeIdx := new }
  | 0xA13 => fun s => [.tree (field s.pkg.treeIdx 0 10) new]
  | 0xB00 => hbaseFx new
  | 0xB04 => onPkg fun p => { p with cmpErr := new }
  | _ =>
    if 0xA00 ≤ ix ∧ ix ≤ 0xA0F then
      (lreqFx (ix - 0xA00) (BitVec.ofNat 2 (field new 46 2))).andThen (lmaskFx (ix - 0xA00) (BitVec.ofNat 4 (field new 40 4)))
    else if m = .wr then actionFx asid ix v else Fx.none

/-! ### The instructions (04 R100 to R104) -/

def ctlDesc (f : FY) (op9 : Nat) : Desc := fyDesc f op9 [f.sd.toNat, f.sa.toNat]

/-- PRIV precedes the rest and reports the index (04 R104). -/
def ctlIssue (f : FY) (op9 : Nat) (allowed : Nat → Bool) (s : State) (body : State → Act) : Host.Outcome State Fault Refusal :=
  let ix := f.k.toNat
  if !(s.ctl s.cur).prv && !allowed ix then answer s (takeTrap s.cur cPRIV false (BitVec.ofNat 64 ix) (fltOf op9))
  else issue s (ctlDesc f op9) body

/-- STM_INSTRET waits for the instructions of the stream that have issued and are still to be counted (01 R15). -/
def uncounted (t : State) (ix : Nat) : Bool := ix == 0x004 && (t.ctl t.cur).late.any (·.counts)

def execCtlRd (f : FY) (s : State) : Host.Outcome State Fault Refusal :=
  ctlIssue f 0x03C userReads s fun t =>
    if uncounted t f.k.toNat then .wait Fx.none
    else .seq fun _ => [.sreg t.cur f.sd.toNat (creg t t.cur f.k.toNat)]

/-- ctl.wr, ctl.set and ctl.clr. The shadow table is read by `mtx.go` and written by `mtx.ldt` when they issue, so that issue order
holds (12 R279). A write of a loop register acts on what the instruction's own loop-end action leaves (04 R102, R103); one of
STM_INSTRET precedes the count of its own retirement (04 R102 allows either; notes/assumptions/71.md). A write that starts the package
leaves no stream to retire it (16 R346). -/
def ctlWrite (f : FY) (op9 : Nat) (m : WMode) (s : State) : Host.Outcome State Fault Refusal :=
  ctlIssue f op9 userWrites s fun t =>
    let ix := f.k.toNat
    let k := t.cur
    let co := coreOf k
    let v := t.sreg k f.sa.toNat
    let new := merged m ix (creg t k ix) v
    if uncounted t ix then .wait Fx.none
    else if isStm ix then
      if 0x010 ≤ ix ∧ ix ≤ 0x01B then
        let looped (c : Ctl) : Ctl := loopEnd c.pc 8 4 c
        .jump (onCtl k fun c => setStm ix 0 (merged m ix (stmValue t (looped c) ix) v) (looped c)) (looped (t.ctl k)).pc
      else .seq (onCtl k (setStm ix t.time new))
    else if isGlatch ix then .seq (onCtl (3 * co + (ix - 0x500)) fun c => { c with glatch := new })
    else if isFormat ix then
      if (t.core co).qfmt.isSome || (List.range 3).any (fun j => (t.ctl (3 * co + j)).late != []) then .wait Fx.none
      else .stop ((onCore co fun r => { r with qfmt := some ⟨k, ix, new, f.fp⟩ }).andThen
        (onCtl k fun c => { c with run := .atFormat, blocked := none }))
    else if isCoreReg ix then .seq (onCore co (setCore ix new))
    else if ix = 0x902 ∧ m = .wr ∧ resets t.pkg (field v 0 2) then .stop (secResetFx (field v 0 2))
    else .seq (setPkg co (t.ctx k).asid ix m v new)

def execCtlWr (f : FY) (s : State) : Host.Outcome State Fault Refusal := ctlWrite f 0x03D .wr s
def execCtlSet (f : FY) (s : State) : Host.Outcome State Fault Refusal := ctlWrite f 0x03E .set s
def execCtlClr (f : FY) (s : State) : Host.Outcome State Fault Refusal := ctlWrite f 0x03F .clr s

/-! ### The host and the management port -/

/-- The package registers that BAR2 and I3C reach (16 R342, 17 R360, 18 R388). -/
def hostReg (ix : Nat) : Bool := decide (0x800 ≤ ix) && ctlExists ix && ix != 0xA14

/-- A word of a launch queue's descriptor, written through BAR0 (07 R171). -/
def queueWrite (q w : Nat) (v : Word) : Fx := fun s =>
  let d := s.queue q
  match w with
  | 0 => [.queue q { d with ring := v &&& ~~~63 }]
  | 1 => [.queue q { d with asid := field v 52 12, en := bitOf v 51, log2n := field v 46 5, err := d.err && !bitOf v 45 }]
  | 2 => [.queue q { d with vec := field v 0 11 }]
  | _ => if bitOf v 63 then cancelAll q s else if bitOf v 62 then cancelOne q (v.setWidth 32) s else []

/-- A word of a launch queue's descriptor as the host reads it: WO and reserved fields read 0 (00 R9). -/
def queueRead (q w : Nat) (s : State) : Word :=
  let d := s.queue q
  match w with
  | 0 => d.ring
  | 1 => BitVec.ofNat 64 (d.asid * 2 ^ 52 + (if d.en then 2 ^ 51 else 0) + d.log2n * 2 ^ 46 + (if d.err then 2 ^ 45 else 0) + d.head.toNat)
  | 2 => BitVec.ofNat 64 d.vec
  | _ => 0

/-- REGISTER_WRITE: the host writes a register with supervisor rights (00 R9, 16 R342): the package register with index `ix` through
BAR2, or, from index 4096 up, word `ix` mod 4 of the descriptor of queue (`ix` − 4096) / 4 through BAR0. -/
def execRegisterWrite (ix : Nat) (v : Word) (s : State) : Host.Outcome State Fault Refusal :=
  answer s fun s =>
    if 4096 ≤ ix then (if (ix - 4096) / 4 < 131072 then queueWrite ((ix - 4096) / 4) (ix % 4) v s else [])
    else if hostReg ix then setPkg 0 0 ix .wr v (merged .wr ix (pkgValue s none ix) v) s
    else []

/-- What the host reads through BAR2, or, from index 4096 up, through BAR0; an offset that names no register reads 0 (16 R342). -/
def hostRead (ix : Nat) (s : State) : Word :=
  if 4096 ≤ ix then (if (ix - 4096) / 4 < 131072 then queueRead ((ix - 4096) / 4) (ix % 4) s else 0)
  else if hostReg ix then pkgValue s none ix else 0

/-- HOST_ACCESS: the host reads or writes a tensor (10 R246), or, with kind 23, reads the register with the index in `handle` as
REGISTER_WRITE numbers them. -/
def execHostAccess (r : Req) (s : State) : Host.Outcome State Fault Refusal :=
  answer s fun s =>
    if r.kind = 23 then [.out (.host ((hostRead r.handle.toNat s).setWidth 1024))]
    else if 1 < r.kind ∨ r.bytes = 0 ∨ 128 < r.bytes then []
    else hostTensor r s

/-- The registers that a management port reads (16 R350): those of R342; after a recovery image that failed only SEC_BOOT, SEC_INV and
SEC_TAMPER answer (R347). -/
def managementReads (p : Pkg) (ix : Nat) : Bool :=
  decide (0x800 ≤ ix ∧ ix ≤ 0x905) && ctlExists ix && (!p.recovFailed || ix == 0x900 || ix == 0x901 || ix == 0x903)

/-- I3C_READ: a read through a management port returns a register (notes/assumptions/106.md). -/
def execI3cRead (ix : BitVec 16) (s : State) : Host.Outcome State Fault Refusal :=
  answer s fun s => if managementReads s.pkg ix.toNat then [.out (.i3c (pkgValue s none ix.toNat))] else []

end Sys2Proof.Machine
end

