-- ==== Sys2Proof/Machine/System.lean ====
section
/-!
DEFINITION. The system instructions (14 R313, R326 to R332, R334): svc, rte, brk, rgn, tinv, pin, unpin, flt.rd.
-/
namespace Sys2Proof.Machine

/-! ### svc, rte, brk, flt.rd (14 R331, R332, R334) -/

/-- `svc n` raises SVC; it closes an open region before it issues (14 R314). -/
def execSvc (f : FY) (s : State) : Host.Outcome State Fault Refusal :=
  issue s { fyDesc f 0x0F0 [] with closes := true } fun t =>
    .trapWith (closeRegion t.cur) cSVC (BitVec.ofNat 64 f.k.toNat) none

def execBrk (f : FY) (s : State) : Host.Outcome State Fault Refusal :=
  issue s (fyDesc f 0x0F2 []) fun _ => .trap cBREAK false (BitVec.ofNat 64 (0x10000 + f.k.toNat)) (fltOf 0x0F2)

def execRte (f : FY) (s : State) : Host.Outcome State Fault Refusal :=
  issue s { fyDesc f 0x0F1 [] with priv := true } fun t => .jump (onCtl t.cur rteCtl) (t.ctl t.cur).epc

def fltItem (x : Flt) (n : Nat) : Word := match n with | 0 => x.i0 | 1 => x.i1 | 2 => x.i2 | _ => x.i3

def execFltRd (f : FY) (s : State) : Host.Outcome State Fault Refusal :=
  issue s { fyDesc f 0x0F8 [f.sd.toNat] with priv := true } fun t =>
    let c := t.ctl t.cur
    .seq fun _ => [.sreg t.cur f.sd.toNat (if c.tip then fltItem c.flt f.k.toNat else 0)]

/-! ### rgn (14 R313) -/

/-- The region registers of an opening `rgn`. -/
def openRegion (sa sb : Word) (k : Nat) (c : Ctl) : Ctl :=
  { c with rgn := BitVec.ofNat 64 (2 ^ 63 + k % 2 ^ 21), rgnpc := c.pc, rgns := sa &&& ~~~1, rgnp := sb &&& 0xFFFE }

/-- The region snapshot. -/
def snapOf (c : Ctl) : Snap :=
  { l0 := c.l0, l1 := c.l1, l2 := c.l2, l3 := c.l3, status := c.status, fpctl := c.fpctl, rgn := c.rgn, rgnpc := c.rgnpc
    rgns := c.rgns, rgnp := c.rgnp, epc := c.epc, cause := c.cause, tval := c.tval, tvec := c.tvec, scratch := c.scratch, flt := c.flt }

def takeSnap (c : Ctl) : Ctl := { c with snap := some (snapOf c) }

def execRgnOpen (f : FY) (s : State) : Host.Outcome State Fault Refusal :=
  issue s { fyDesc f 0x0F4 [f.sa.toNat, f.sb.toNat] with closes := true } fun t =>
    let k := t.cur
    .seq (onCtl k fun c => takeSnap (openRegion (t.sreg k f.sa.toNat) (t.sreg k f.sb.toNat) f.k.toNat c))

def execRgnClose (f : FY) (s : State) : Host.Outcome State Fault Refusal :=
  issue s { fyDesc f 0x0F4 [] with closes := true } fun _ => .seq Fx.none

/-! ### Ranges of tiles (14 R326) -/

/-- The tiles that a system instruction acts on. -/
structure TRange where
  asid : Nat
  t : Tensor
  first : Nat
  count : Nat

def TRange.tiles (r : TRange) : List Nat := (List.range r.count).map (r.first + ·)

/-- The range from the tile of handle `h`, cut at the tensor's last tile. -/
def rangeOf (s : State) (asid : Nat) (h : Word) (count : Nat) : Option TRange :=
  if !asValid s asid then none
  else match readTensor s asid (tidOf h) with
    | some t =>
      if t.remote then none
      else
        let first := offOf h / t.tbytes
        some ⟨asid, t, first, min count (t.ntiles - first)⟩
    | none => none

/-- The accesses that were translated through the tiles and have not performed (`waitsOn`: what a home holds belongs to the tile's new
frame, 14 R329). -/
def stale (s : State) (r : TileSet) : List Nat := (s.accs.map (·.1)).filter (waitsOn s (some r))

/-- The tiles of a range. -/
def TRange.set (r : TRange) : TileSet := (r.asid, some (r.t.tid, r.first, r.count))

def TRange.hit (r : TRange) (asid tid n : Nat) : Bool :=
  asid == r.asid && tid == r.t.tid && decide (r.first ≤ n) && decide (n < r.first + r.count)

/-- ISEQ advances by 1, and matching entries leave every translation cache (14 R327, steps 3 and 4). -/
def shootdown (asid : Nat) (hit : Nat → Nat → Nat → Bool) : Fx :=
  Fx.andThen (fun s => [.store (asAddr s asid + 16) (natToBytes 4 (field (asWord s asid 2) 0 32 + 1))])
    (dropTlb fun e => hit e.asid e.tid e.n)

/-- A change of each tile's entry. -/
def eachTile (r : TRange) (f : Nat → Tile → Tile) : Fx :=
  Fx.each (fun i => fun s => putTile r.asid r.t.tid (r.first + i) (f i (readTile s r.t (r.first + i))) s) (List.range r.count)

/-- The held writes of tiles perform, in the order of arrival (14 R329). -/
def releaseHeld (r : TRange) : Fx := fun s =>
  (Fx.andThen (fun _ => [.held (s.held.filter fun h => !r.hit h.asid h.tid h.n)])
    (Fx.each releaseOne (s.held.filter fun h => r.hit h.asid h.tid h.n))) s

/-- Steps 2 to 5 of `tinv` (14 R327): the change `fx`, the shootdown, the status; it retires once every access that was translated through a
dropped entry has performed. -/
def tinvEnd (sd : Nat) (set : TileSet) (hit : Nat → Nat → Nat → Bool) (fx : Fx) (t : State) : Act :=
  let e : Fx := (fx.andThen (shootdown set.1 hit)).andThen fun _ => [.sreg t.cur sd 0]
  match stale t set with
  | [] => .seq e
  | accs => .slow e { stall := true, accs := accs, tiles := some set }

/-- `tinv` in any mode (14 R326, R327): `find` names the tiles (none: TILE_PROT), `act` makes the change and gives the status. -/
def tinvOp (f : FY) (find : State → Nat → Option TRange) (act : TRange → State → Option (Except Word Fx)) (s : State) :
    Host.Outcome State Fault Refusal :=
  issue s { fyDesc f 0x0F5 [f.sd.toNat, f.sa.toNat, f.sb.toNat] with priv := true, closes := true } fun t =>
    let k := t.cur
    let asid := f.k.toNat / 2 ^ 12
    let status (v : Word) : Fx := fun _ => [.sreg k f.sd.toNat v]
    if writesOut t k then .wait Fx.none
    else match find t asid with
      | none => .trap cTILE_PROT false (t.sreg k f.sa.toNat) (fltOf 0x0F5)
      | some r =>
        if r.count = 0 then .seq (status 0)
        else match act r t with
          | none => .wait Fx.none
          | some (.error v) => .seq (status v)
          | some (.ok fx) => tinvEnd f.sd.toNat r.set r.hit fx t

/-- The range of sa and sb. -/
def tinvRange (f : FY) (t : State) (asid : Nat) : Option TRange :=
  rangeOf t asid (t.sreg t.cur f.sa.toNat) (field (t.sreg t.cur f.sb.toNat) 32 32)

def anyTile (r : TRange) (t : State) (p : Tile → Bool) : Bool := r.tiles.any fun n => p (readTile t r.t n)

/-- Mode 0. -/
def execTinvInvalidate (f : FY) (s : State) : Host.Outcome State Fault Refusal :=
  tinvOp f (tinvRange f) (fun _ _ => some (.ok Fx.none)) s

/-- Mode 1: every tile of sa's tensor. -/
def execTinvInvalidateTensor (f : FY) (s : State) : Host.Outcome State Fault Refusal :=
  tinvOp f (fun t asid => (rangeOf t asid (t.sreg t.cur f.sa.toNat) 0).map fun r => { r with first := 0, count := r.t.ntiles })
    (fun _ _ => some (.ok Fx.none)) s

/-- Mode 2: every tile of the address space. -/
def execTinvInvalidateAsid (f : FY) (s : State) : Host.Outcome State Fault Refusal :=
  issue s { fyDesc f 0x0F5 [f.sd.toNat, f.sa.toNat, f.sb.toNat] with priv := true, closes := true } fun t =>
    let k := t.cur
    let asid := f.k.toNat / 2 ^ 12
    let hit (a _ _ : Nat) : Bool := a == asid
    if writesOut t k then .wait Fx.none
    else if !asValid t asid then .trap cTILE_PROT false (t.sreg k f.sa.toNat) (fltOf 0x0F5)
    else tinvEnd f.sd.toNat (asid, none) hit Fx.none t

/-- Mode 3: VALID := 0. -/
def execTinvUnmap (f : FY) (s : State) : Host.Outcome State Fault Refusal :=
  tinvOp f (tinvRange f) (fun r t =>
    if anyTile r t Tile.pin then some (.error 1)
    else some (.ok (eachTile r fun _ e => { e with w0 := setField e.w0 31 1 0 }))) s

def absentOrZero (e : Tile) : Bool := !e.valid || classOf e.tag == 1

/-- Mode 4: MOVING := 1. -/
def execTinvMoveBegin (f : FY) (s : State) : Host.Outcome State Fault Refusal :=
  tinvOp f (tinvRange f) (fun r t =>
    if anyTile r t absentOrZero then some (.error 2)
    else if anyTile r t Tile.pin then none
    else some (.ok (eachTile r fun _ e => { e with w0 := setField e.w0 28 1 1 }))) s

/-- Mode 5: the tiles move to the new frames, and the held writes perform there. -/
def execTinvMoveCommit (f : FY) (s : State) : Host.Outcome State Fault Refusal :=
  tinvOp f (tinvRange f) (fun r t =>
    let base := field (t.sreg t.cur f.sb.toNat) 0 27
    let dst (i : Nat) : Nat := (base + i * r.t.g) % 2 ^ 27
    if anyTile r t fun e => !e.moving then some (.error 2)
    else some (.ok ((Fx.each (fun i => fun s => copyFrame r.t.tid r.t.g (readTile s r.t (r.first + i)).frame (dst i) s)
        (List.range r.count)).andThen
      ((eachTile r fun i e => { e with w0 := setField (setField e.w0 36 27 (dst i)) 28 1 0 }).andThen (releaseHeld r))))) s

/-- Mode 6: the move is given up, and the held writes perform on the old frames. -/
def execTinvMoveAbort (f : FY) (s : State) : Host.Outcome State Fault Refusal :=
  tinvOp f (tinvRange f) (fun r t =>
    if anyTile r t fun e => !e.moving then some (.error 2)
    else some (.ok ((eachTile r fun _ e => { e with w0 := setField e.w0 28 1 0 }).andThen (releaseHeld r)))) s

/-! ### pin and unpin (14 R328) -/

def pinKey (asid tid : Nat) : Nat := asid * 2 ^ 20 + tid

/-- Bytes of a die's HBM that pinned tiles lock. -/
def lockedBytes (s : State) (pins : List (Nat × Nat)) (die : Nat) : Nat :=
  pins.foldl (fun a p =>
    let tid := p.1 % 2 ^ 20
    match readTensor s (p.1 / 2 ^ 20) tid with
    | some t => if 256 ≤ tid ∧ (readTile s t p.2).frame / 2 ^ 24 = die then a + t.g * 4096 else a
    | none => a) 0

def execPin (f : FY) (s : State) : Host.Outcome State Fault Refusal :=
  issue s { fyDesc f 0x0F6 [f.sd.toNat, f.sa.toNat, f.sb.toNat] with priv := true, closes := true } fun t =>
    let k := t.cur
    let asid := f.k.toNat / 2 ^ 12
    let sa := t.sreg k f.sa.toNat
    let status (v : Word) : Fx := fun _ => [.sreg k f.sd.toNat v]
    match rangeOf t asid sa (field (t.sreg k f.sb.toNat) 0 32) with
    | none => .trap cTILE_PROT false sa (fltOf 0x0F6)
    | some r =>
      let mine := r.tiles.map fun n => (pinKey asid r.t.tid, n)
      let pins := t.pins ++ mine.filter fun p => !t.pins.contains p
      if anyTile r t Tile.moving then .wait Fx.none
      else if anyTile r t absentOrZero then .seq (status 2)
      else if (List.range 8).any fun d => decide (24 * 2 ^ 20 < lockedBytes t pins d) then .seq (status 1)
      else .seq ((eachTile r fun _ e => { e with w0 := setField e.w0 29 1 1 }).andThen
        (Fx.andThen (fun _ => [.pins pins]) (status 0)))

def execUnpin (f : FY) (s : State) : Host.Outcome State Fault Refusal :=
  issue s { fyDesc f 0x0F7 [f.sd.toNat, f.sa.toNat, f.sb.toNat] with priv := true, closes := true } fun t =>
    let k := t.cur
    let asid := f.k.toNat / 2 ^ 12
    let sa := t.sreg k f.sa.toNat
    match rangeOf t asid sa (field (t.sreg k f.sb.toNat) 0 32) with
    | none => .trap cTILE_PROT false sa (fltOf 0x0F7)
    | some r =>
      let mine := r.tiles.map fun n => (pinKey asid r.t.tid, n)
      .seq ((eachTile r fun _ e => { e with w0 := setField e.w0 29 1 0 }).andThen
        fun _ => [.pins (t.pins.filter fun p => !mine.contains p), .sreg k f.sd.toNat 0])

end Sys2Proof.Machine
end

