-- ==== Sys2Proof/Machine/Dispatch.lean ====
section
/-!
DEFINITION. One arm for each constructor of Instr: a direct call of its meaning.
-/
namespace Sys2Proof.Machine

def exec (i : Instr) (s : State) : Host.Outcome State Fault Refusal :=
  match i with
  | .coreQformatWrite c => Sys2Proof.Machine.execCoreQformatWrite c s
  | .parkLimitExpiry k => Sys2Proof.Machine.execParkLimitExpiry k s
  | .barrierReread k => Sys2Proof.Machine.execBarrierReread k s
  | .accessPerform a j => Sys2Proof.Machine.execAccessPerform a j s
  | .loadReturn a j => Sys2Proof.Machine.execLoadReturn a j s
  | .remoteReply a code v => Sys2Proof.Machine.execRemoteReply a code v s
  | .engineWriteResume o => Sys2Proof.Machine.execEngineWriteResume o s
  | .walkReturn w => Sys2Proof.Machine.execWalkReturn w s
  | .mirrorChunkArrive o j => Sys2Proof.Machine.execMirrorChunkArrive o j s
  | .engineOpStart o => Sys2Proof.Machine.execEngineOpStart o s
  | .engineOpComplete o => Sys2Proof.Machine.execEngineOpComplete o s
  | .chainFire o => Sys2Proof.Machine.execChainFire o s
  | .slotEmit n => Sys2Proof.Machine.execSlotEmit n s
  | .collTimeout n => Sys2Proof.Machine.execCollTimeout n s
  | .teamSwap t => Sys2Proof.Machine.execTeamSwap t s
  | .teamResume t c => Sys2Proof.Machine.execTeamResume t c s
  | .preemptRequest t => Sys2Proof.Machine.execPreemptRequest t s
  | .preemptStop t => Sys2Proof.Machine.execPreemptStop t s
  | .preemptDeferExpiry t => Sys2Proof.Machine.execPreemptDeferExpiry t s
  | .doorbell q v => Sys2Proof.Machine.execDoorbell q v s
  | .launchFetch q => Sys2Proof.Machine.execLaunchFetch q s
  | .canall q => Sys2Proof.Machine.execCanall q s
  | .canone q n => Sys2Proof.Machine.execCanone q n s
  | .cancelComplete x => Sys2Proof.Machine.execCancelComplete x s
  | .dispatch x n => Sys2Proof.Machine.execDispatch x n s
  | .arenaRangeTaken x n r => Sys2Proof.Machine.execArenaRangeTaken x n r s
  | .makeShares x n r => Sys2Proof.Machine.execMakeShares x n r s
  | .placeShare p => Sys2Proof.Machine.execPlaceShare p s
  | .shareEnd t => Sys2Proof.Machine.execShareEnd t s
  | .conditionalNode x n => Sys2Proof.Machine.execConditionalNode x n s
  | .switchNode x n => Sys2Proof.Machine.execSwitchNode x n s
  | .loopNode x n => Sys2Proof.Machine.execLoopNode x n s
  | .eventNode x n => Sys2Proof.Machine.execEventNode x n s
  | .eventReread x n m => Sys2Proof.Machine.execEventReread x n m s
  | .eventTimeout x n => Sys2Proof.Machine.execEventTimeout x n s
  | .priorityRise p => Sys2Proof.Machine.execPriorityRise p s
  | .reservation p => Sys2Proof.Machine.execReservation p s
  | .trsMflush v => Sys2Proof.Machine.execTrsMflush v s
  | .trsResume a v => Sys2Proof.Machine.execTrsResume a v s
  | .registerWrite ix v => Sys2Proof.Machine.execRegisterWrite ix v s
  | .arbiterWindow => Sys2Proof.Machine.execArbiterWindow s
  | .thermalHold => Sys2Proof.Machine.execThermalHold s
  | .tamperEvent e => Sys2Proof.Machine.execTamperEvent e s
  | .coldStart => Sys2Proof.Machine.execColdStart s
  | .warmStart => Sys2Proof.Machine.execWarmStart s
  | .secResetWarm => Sys2Proof.Machine.execSecResetWarm s
  | .secResetCold => Sys2Proof.Machine.execSecResetCold s
  | .startTimeout => Sys2Proof.Machine.execStartTimeout s
  | .startEnd reason ver => Sys2Proof.Machine.execStartEnd reason ver s
  | .attestReport v => Sys2Proof.Machine.execAttestReport v s
  | .attestCertificate v => Sys2Proof.Machine.execAttestCertificate v s
  | .attestDone => Sys2Proof.Machine.execAttestDone s
  | .i3cRead ix => Sys2Proof.Machine.execI3cRead ix s
  | .i3cWrite ix v => Sys2Proof.Machine.execI3cWrite ix v s
  | .jtagBypass => Sys2Proof.Machine.execJtagBypass s
  | .jtagIdcode => Sys2Proof.Machine.execJtagIdcode s
  | .jtagSamplePreload => Sys2Proof.Machine.execJtagSamplePreload s
  | .jtagExtest => Sys2Proof.Machine.execJtagExtest s
  | .jtagDebugUnlock valid => Sys2Proof.Machine.execJtagDebugUnlock valid s
  | .cmpHbase v => Sys2Proof.Machine.execCmpHbase v s
  | .cmpStart v => Sys2Proof.Machine.execCmpStart v s
  | .cmpStop v => Sys2Proof.Machine.execCmpStop v s
  | .aseqWrite h v => Sys2Proof.Machine.execAseqWrite h v s
  | .post h v => Sys2Proof.Machine.execPost h v s
  | .hamperHeaderWrite camp h o bs => Sys2Proof.Machine.execHamperHeaderWrite camp h o bs s
  | .stepExpiry h => Sys2Proof.Machine.execStepExpiry h s
  | .wallExpiry h => Sys2Proof.Machine.execWallExpiry h s
  | .episodeEcall c a7 => Sys2Proof.Machine.execEpisodeEcall c a7 s
  | .episodeException c cause => Sys2Proof.Machine.execEpisodeException c cause s
  | .campAccess c r => Sys2Proof.Machine.execCampAccess c r s
  | .flitReceive p f => Sys2Proof.Machine.execFlitReceive p f s
  | .nakReceive p q => Sys2Proof.Machine.execNakReceive p q s
  | .replayTimeout p => Sys2Proof.Machine.execReplayTimeout p s
  | .wavelengthFail p w => Sys2Proof.Machine.execWavelengthFail p w s
  | .transactionLost src tag => Sys2Proof.Machine.execTransactionLost src tag s
  | .lmaskWrite p m => Sys2Proof.Machine.execLmaskWrite p m s
  | .restripeStart p => Sys2Proof.Machine.execRestripeStart p s
  | .restripeDrained p => Sys2Proof.Machine.execRestripeDrained p s
  | .restripeMarkerAck p => Sys2Proof.Machine.execRestripeMarkerAck p s
  | .lreqWrite p r => Sys2Proof.Machine.execLreqWrite p r s
  | .laserStateReached p r => Sys2Proof.Machine.execLaserStateReached p r s
  | .laserWake p => Sys2Proof.Machine.execLaserWake p s
  | .healthUpdate p w opt ber corr unc => Sys2Proof.Machine.execHealthUpdate p w opt ber corr unc s
  | .hostAccess r => Sys2Proof.Machine.execHostAccess r s
  | .parkEarlyResume k => Sys2Proof.Machine.execParkEarlyResume k s
  | .add f => Sys2Proof.Machine.execAdd f s
  | .sub f => Sys2Proof.Machine.execSub f s
  | .and f => Sys2Proof.Machine.execAnd f s
  | .or f => Sys2Proof.Machine.execOr f s
  | .xor f => Sys2Proof.Machine.execXor f s
  | .sll f => Sys2Proof.Machine.execSll f s
  | .srl f => Sys2Proof.Machine.execSrl f s
  | .sra f => Sys2Proof.Machine.execSra f s
  | .slt f => Sys2Proof.Machine.execSlt f s
  | .sltu f => Sys2Proof.Machine.execSltu f s
  | .mul f => Sys2Proof.Machine.execMul f s
  | .mulh f => Sys2Proof.Machine.execMulh f s
  | .mulhu f => Sys2Proof.Machine.execMulhu f s
  | .div f => Sys2Proof.Machine.execDiv f s
  | .divu f => Sys2Proof.Machine.execDivu f s
  | .rem f => Sys2Proof.Machine.execRem f s
  | .remu f => Sys2Proof.Machine.execRemu f s
  | .min f => Sys2Proof.Machine.execMin f s
  | .max f => Sys2Proof.Machine.execMax f s
  | .minu f => Sys2Proof.Machine.execMinu f s
  | .maxu f => Sys2Proof.Machine.execMaxu f s
  | .clz f => Sys2Proof.Machine.execClz f s
  | .ctz f => Sys2Proof.Machine.execCtz f s
  | .popc f => Sys2Proof.Machine.execPopc f s
  | .sel f => Sys2Proof.Machine.execSel f s
  | .nop f => Sys2Proof.Machine.execNop f s
  | .addX32 f => Sys2Proof.Machine.execAddX32 f s
  | .subX32 f => Sys2Proof.Machine.execSubX32 f s
  | .andX32 f => Sys2Proof.Machine.execAndX32 f s
  | .orX32 f => Sys2Proof.Machine.execOrX32 f s
  | .xorX32 f => Sys2Proof.Machine.execXorX32 f s
  | .sllX32 f => Sys2Proof.Machine.execSllX32 f s
  | .srlX32 f => Sys2Proof.Machine.execSrlX32 f s
  | .sraX32 f => Sys2Proof.Machine.execSraX32 f s
  | .sltX32 f => Sys2Proof.Machine.execSltX32 f s
  | .sltuX32 f => Sys2Proof.Machine.execSltuX32 f s
  | .mulX32 f => Sys2Proof.Machine.execMulX32 f s
  | .mulhX32 f => Sys2Proof.Machine.execMulhX32 f s
  | .mulhuX32 f => Sys2Proof.Machine.execMulhuX32 f s
  | .divX32 f => Sys2Proof.Machine.execDivX32 f s
  | .divuX32 f => Sys2Proof.Machine.execDivuX32 f s
  | .remX32 f => Sys2Proof.Machine.execRemX32 f s
  | .remuX32 f => Sys2Proof.Machine.execRemuX32 f s
  | .minX32 f => Sys2Proof.Machine.execMinX32 f s
  | .maxX32 f => Sys2Proof.Machine.execMaxX32 f s
  | .minuX32 f => Sys2Proof.Machine.execMinuX32 f s
  | .maxuX32 f => Sys2Proof.Machine.execMaxuX32 f s
  | .clzX32 f => Sys2Proof.Machine.execClzX32 f s
  | .ctzX32 f => Sys2Proof.Machine.execCtzX32 f s
  | .popcX32 f => Sys2Proof.Machine.execPopcX32 f s
  | .selX32 f => Sys2Proof.Machine.execSelX32 f s
  | .nopX32 => Sys2Proof.Machine.execNopX32 s
  | .addi f => Sys2Proof.Machine.execAddi f s
  | .andi f => Sys2Proof.Machine.execAndi f s
  | .ori f => Sys2Proof.Machine.execOri f s
  | .xori f => Sys2Proof.Machine.execXori f s
  | .slli f => Sys2Proof.Machine.execSlli f s
  | .srli f => Sys2Proof.Machine.execSrli f s
  | .srai f => Sys2Proof.Machine.execSrai f s
  | .slti f => Sys2Proof.Machine.execSlti f s
  | .sltiu f => Sys2Proof.Machine.execSltiu f s
  | .addiX32 f => Sys2Proof.Machine.execAddiX32 f s
  | .andiX32 f => Sys2Proof.Machine.execAndiX32 f s
  | .oriX32 f => Sys2Proof.Machine.execOriX32 f s
  | .xoriX32 f => Sys2Proof.Machine.execXoriX32 f s
  | .slliX32 f => Sys2Proof.Machine.execSlliX32 f s
  | .srliX32 f => Sys2Proof.Machine.execSrliX32 f s
  | .sraiX32 f => Sys2Proof.Machine.execSraiX32 f s
  | .sltiX32 f => Sys2Proof.Machine.execSltiX32 f s
  | .sltiuX32 f => Sys2Proof.Machine.execSltiuX32 f s
  | .addiX96 f => Sys2Proof.Machine.execAddiX96 f s
  | .andiX96 f => Sys2Proof.Machine.execAndiX96 f s
  | .oriX96 f => Sys2Proof.Machine.execOriX96 f s
  | .xoriX96 f => Sys2Proof.Machine.execXoriX96 f s
  | .sltiX96 f => Sys2Proof.Machine.execSltiX96 f s
  | .sltiuX96 f => Sys2Proof.Machine.execSltiuX96 f s
  | .extI f => Sys2Proof.Machine.execExtI f s
  | .li f => Sys2Proof.Machine.execLi f s
  | .liX96 f => Sys2Proof.Machine.execLiX96 f s
  | .beq f => Sys2Proof.Machine.execBeq f s
  | .bne f => Sys2Proof.Machine.execBne f s
  | .blt f => Sys2Proof.Machine.execBlt f s
  | .bge f => Sys2Proof.Machine.execBge f s
  | .bltu f => Sys2Proof.Machine.execBltu f s
  | .bgeu f => Sys2Proof.Machine.execBgeu f s
  | .beqX32 f => Sys2Proof.Machine.execBeqX32 f s
  | .bneX32 f => Sys2Proof.Machine.execBneX32 f s
  | .bltX32 f => Sys2Proof.Machine.execBltX32 f s
  | .bgeX32 f => Sys2Proof.Machine.execBgeX32 f s
  | .bltuX32 f => Sys2Proof.Machine.execBltuX32 f s
  | .bgeuX32 f => Sys2Proof.Machine.execBgeuX32 f s
  | .beqX96 f => Sys2Proof.Machine.execBeqX96 f s
  | .bneX96 f => Sys2Proof.Machine.execBneX96 f s
  | .bltX96 f => Sys2Proof.Machine.execBltX96 f s
  | .bgeX96 f => Sys2Proof.Machine.execBgeX96 f s
  | .bltuX96 f => Sys2Proof.Machine.execBltuX96 f s
  | .bgeuX96 f => Sys2Proof.Machine.execBgeuX96 f s
  | .jal f => Sys2Proof.Machine.execJal f s
  | .jalX32 f => Sys2Proof.Machine.execJalX32 f s
  | .jalX96 f => Sys2Proof.Machine.execJalX96 f s
  | .jalr f => Sys2Proof.Machine.execJalr f s
  | .jalrX96 f => Sys2Proof.Machine.execJalrX96 f s
  | .loopI f => Sys2Proof.Machine.execLoopI f s
  | .ctlRd f => Sys2Proof.Machine.execCtlRd f s
  | .ctlWr f => Sys2Proof.Machine.execCtlWr f s
  | .ctlSet f => Sys2Proof.Machine.execCtlSet f s
  | .ctlClr f => Sys2Proof.Machine.execCtlClr f s
  | .vadd f => Sys2Proof.Machine.execVadd f s
  | .vsub f => Sys2Proof.Machine.execVsub f s
  | .vmul f => Sys2Proof.Machine.execVmul f s
  | .vfma f => Sys2Proof.Machine.execVfma f s
  | .vaddX32 f => Sys2Proof.Machine.execVaddX32 f s
  | .vsubX32 f => Sys2Proof.Machine.execVsubX32 f s
  | .vmulX32 f => Sys2Proof.Machine.execVmulX32 f s
  | .vfmaX32 f => Sys2Proof.Machine.execVfmaX32 f s
  | .vminX32 f => Sys2Proof.Machine.execVminX32 f s
  | .vmaxX32 f => Sys2Proof.Machine.execVmaxX32 f s
  | .vandX32 f => Sys2Proof.Machine.execVandX32 f s
  | .vorX32 f => Sys2Proof.Machine.execVorX32 f s
  | .vdiv f => Sys2Proof.Machine.execVdiv f s
  | .vsqrt f => Sys2Proof.Machine.execVsqrt f s
  | .vrcp f => Sys2Proof.Machine.execVrcp f s
  | .vrsq f => Sys2Proof.Machine.execVrsq f s
  | .vexp f => Sys2Proof.Machine.execVexp f s
  | .vlog f => Sys2Proof.Machine.execVlog f s
  | .vexp2 f => Sys2Proof.Machine.execVexp2 f s
  | .vlog2 f => Sys2Proof.Machine.execVlog2 f s
  | .vsin f => Sys2Proof.Machine.execVsin f s
  | .vcos f => Sys2Proof.Machine.execVcos f s
  | .vmin f => Sys2Proof.Machine.execVmin f s
  | .vmax f => Sys2Proof.Machine.execVmax f s
  | .vabs f => Sys2Proof.Machine.execVabs f s
  | .vneg f => Sys2Proof.Machine.execVneg f s
  | .vclass f => Sys2Proof.Machine.execVclass f s
  | .vand f => Sys2Proof.Machine.execVand f s
  | .vor f => Sys2Proof.Machine.execVor f s
  | .vxor f => Sys2Proof.Machine.execVxor f s
  | .vandn f => Sys2Proof.Machine.execVandn f s
  | .vsll f => Sys2Proof.Machine.execVsll f s
  | .vsrl f => Sys2Proof.Machine.execVsrl f s
  | .vsra f => Sys2Proof.Machine.execVsra f s
  | .vmulh f => Sys2Proof.Machine.execVmulh f s
  | .vmulhu f => Sys2Proof.Machine.execVmulhu f s
  | .vcmp f => Sys2Proof.Machine.execVcmp f s
  | .vsel f => Sys2Proof.Machine.execVsel f s
  | .vcvt f => Sys2Proof.Machine.execVcvt f s
  | .vcmul f => Sys2Proof.Machine.execVcmul f s
  | .vredAdd f => Sys2Proof.Machine.execVredAdd f s
  | .vredMin f => Sys2Proof.Machine.execVredMin f s
  | .vredMax f => Sys2Proof.Machine.execVredMax f s
  | .vscanAdd f => Sys2Proof.Machine.execVscanAdd f s
  | .vperm f => Sys2Proof.Machine.execVperm f s
  | .vslide f => Sys2Proof.Machine.execVslide f s
  | .vrotm f => Sys2Proof.Machine.execVrotm f s
  | .vbcast f => Sys2Proof.Machine.execVbcast f s
  | .vmov f => Sys2Proof.Machine.execVmov f s
  | .vins f => Sys2Proof.Machine.execVins f s
  | .vext f => Sys2Proof.Machine.execVext f s
  | .vpopc f => Sys2Proof.Machine.execVpopc f s
  | .vclz f => Sys2Proof.Machine.execVclz f s
  | .pcnt f => Sys2Proof.Machine.execPcnt f s
  | .pand f => Sys2Proof.Machine.execPand f s
  | .por f => Sys2Proof.Machine.execPor f s
  | .pxor f => Sys2Proof.Machine.execPxor f s
  | .pnot f => Sys2Proof.Machine.execPnot f s
  | .pfirst f => Sys2Proof.Machine.execPfirst f s
  | .ppopc f => Sys2Proof.Machine.execPpopc f s
  | .pany f => Sys2Proof.Machine.execPany f s
  | .qPush f => Sys2Proof.Machine.execQPush f s
  | .qPop f => Sys2Proof.Machine.execQPop f s
  | .bqPush f => Sys2Proof.Machine.execBqPush f s
  | .bqBr f => Sys2Proof.Machine.execBqBr f s
  | .bqBrX96 f => Sys2Proof.Machine.execBqBrX96 f s
  | .ndArg f => Sys2Proof.Machine.execNdArg f s
  | .wid f => Sys2Proof.Machine.execWid f s
  | .doneI f => Sys2Proof.Machine.execDoneI f s
  | .grSig f => Sys2Proof.Machine.execGrSig f s
  | .ldB f => Sys2Proof.Machine.execLdB f s
  | .ldH f => Sys2Proof.Machine.execLdH f s
  | .ldW f => Sys2Proof.Machine.execLdW f s
  | .ldD f => Sys2Proof.Machine.execLdD f s
  | .stB f => Sys2Proof.Machine.execStB f s
  | .stH f => Sys2Proof.Machine.execStH f s
  | .stW f => Sys2Proof.Machine.execStW f s
  | .stD f => Sys2Proof.Machine.execStD f s
  | .ldBX32 f => Sys2Proof.Machine.execLdBX32 f s
  | .ldHX32 f => Sys2Proof.Machine.execLdHX32 f s
  | .ldWX32 f => Sys2Proof.Machine.execLdWX32 f s
  | .ldDX32 f => Sys2Proof.Machine.execLdDX32 f s
  | .ldBZX32 f => Sys2Proof.Machine.execLdBZX32 f s
  | .ldHZX32 f => Sys2Proof.Machine.execLdHZX32 f s
  | .ldWZX32 f => Sys2Proof.Machine.execLdWZX32 f s
  | .stBX32 f => Sys2Proof.Machine.execStBX32 f s
  | .stHX32 f => Sys2Proof.Machine.execStHX32 f s
  | .stWX32 f => Sys2Proof.Machine.execStWX32 f s
  | .stDX32 f => Sys2Proof.Machine.execStDX32 f s
  | .ldBX96 f => Sys2Proof.Machine.execLdBX96 f s
  | .ldHX96 f => Sys2Proof.Machine.execLdHX96 f s
  | .ldWX96 f => Sys2Proof.Machine.execLdWX96 f s
  | .ldDX96 f => Sys2Proof.Machine.execLdDX96 f s
  | .stBX96 f => Sys2Proof.Machine.execStBX96 f s
  | .stHX96 f => Sys2Proof.Machine.execStHX96 f s
  | .stWX96 f => Sys2Proof.Machine.execStWX96 f s
  | .stDX96 f => Sys2Proof.Machine.execStDX96 f s
  | .vldRow f => Sys2Proof.Machine.execVldRow f s
  | .vstRow f => Sys2Proof.Machine.execVstRow f s
  | .vldRowX32 f => Sys2Proof.Machine.execVldRowX32 f s
  | .vstRowX32 f => Sys2Proof.Machine.execVstRowX32 f s
  | .vldRowX96 f => Sys2Proof.Machine.execVldRowX96 f s
  | .vstRowX96 f => Sys2Proof.Machine.execVstRowX96 f s
  | .vldFf f => Sys2Proof.Machine.execVldFf f s
  | .vldFfX96 f => Sys2Proof.Machine.execVldFfX96 f s
  | .vldT f => Sys2Proof.Machine.execVldT f s
  | .vstT f => Sys2Proof.Machine.execVstT f s
  | .tagGet f => Sys2Proof.Machine.execTagGet f s
  | .tagSet f => Sys2Proof.Machine.execTagSet f s
  | .vgat f => Sys2Proof.Machine.execVgat f s
  | .vsct f => Sys2Proof.Machine.execVsct f s
  | .vamoOr f => Sys2Proof.Machine.execVamoOr f s
  | .vamoAdd f => Sys2Proof.Machine.execVamoAdd f s
  | .vamoMax f => Sys2Proof.Machine.execVamoMax f s
  | .amoAdd f => Sys2Proof.Machine.execAmoAdd f s
  | .amoSwap f => Sys2Proof.Machine.execAmoSwap f s
  | .amoAnd f => Sys2Proof.Machine.execAmoAnd f s
  | .amoOr f => Sys2Proof.Machine.execAmoOr f s
  | .amoXor f => Sys2Proof.Machine.execAmoXor f s
  | .amoMin f => Sys2Proof.Machine.execAmoMin f s
  | .amoMax f => Sys2Proof.Machine.execAmoMax f s
  | .amoMinu f => Sys2Proof.Machine.execAmoMinu f s
  | .amoMaxu f => Sys2Proof.Machine.execAmoMaxu f s
  | .amoCas f => Sys2Proof.Machine.execAmoCas f s
  | .barInit f => Sys2Proof.Machine.execBarInit f s
  | .barArr f => Sys2Proof.Machine.execBarArr f s
  | .barWt f => Sys2Proof.Machine.execBarWt f s
  | .tbar f => Sys2Proof.Machine.execTbar f s
  | .fenceCls f => Sys2Proof.Machine.execFenceCls f s
  | .xfence f => Sys2Proof.Machine.execXfence f s
  | .wait f => Sys2Proof.Machine.execWait f s
  | .waitc f => Sys2Proof.Machine.execWaitc f s
  | .park f => Sys2Proof.Machine.execPark f s
  | .mtxLdt f => Sys2Proof.Machine.execMtxLdt f s
  | .mtxWb f => Sys2Proof.Machine.execMtxWb f s
  | .mtxGo f => Sys2Proof.Machine.execMtxGo f s
  | .mtxClr f => Sys2Proof.Machine.execMtxClr f s
  | .mtxRd f => Sys2Proof.Machine.execMtxRd f s
  | .mtxSt f => Sys2Proof.Machine.execMtxSt f s
  | .przCfg f => Sys2Proof.Machine.execPrzCfg f s
  | .przFft f => Sys2Proof.Machine.execPrzFft f s
  | .przSht f => Sys2Proof.Machine.execPrzSht f s
  | .cpy f => Sys2Proof.Machine.execCpy f s
  | .cpyCvt f => Sys2Proof.Machine.execCpyCvt f s
  | .cpyG f => Sys2Proof.Machine.execCpyG f s
  | .mirGo f => Sys2Proof.Machine.execMirGo f s
  | .colWr f => Sys2Proof.Machine.execColWr f s
  | .colRed f => Sys2Proof.Machine.execColRed f s
  | .colArm f => Sys2Proof.Machine.execColArm f s
  | .colCtr f => Sys2Proof.Machine.execColCtr f s
  | .cowMark f => Sys2Proof.Machine.execCowMark f s
  | .drnGo f => Sys2Proof.Machine.execDrnGo f s
  | .svc f => Sys2Proof.Machine.execSvc f s
  | .rte f => Sys2Proof.Machine.execRte f s
  | .brk f => Sys2Proof.Machine.execBrk f s
  | .halt f => Sys2Proof.Machine.execHalt f s
  | .rgnOpen f => Sys2Proof.Machine.execRgnOpen f s
  | .rgnClose f => Sys2Proof.Machine.execRgnClose f s
  | .tinvInvalidate f => Sys2Proof.Machine.execTinvInvalidate f s
  | .tinvInvalidateTensor f => Sys2Proof.Machine.execTinvInvalidateTensor f s
  | .tinvInvalidateAsid f => Sys2Proof.Machine.execTinvInvalidateAsid f s
  | .tinvUnmap f => Sys2Proof.Machine.execTinvUnmap f s
  | .tinvMoveBegin f => Sys2Proof.Machine.execTinvMoveBegin f s
  | .tinvMoveCommit f => Sys2Proof.Machine.execTinvMoveCommit f s
  | .tinvMoveAbort f => Sys2Proof.Machine.execTinvMoveAbort f s
  | .pin f => Sys2Proof.Machine.execPin f s
  | .unpin f => Sys2Proof.Machine.execUnpin f s
  | .fltRd f => Sys2Proof.Machine.execFltRd f s

end Sys2Proof.Machine
end

