-- ==== Sys2Proof/Machine/Schedule.lean ====
section
/-!
DEFINITION. Which agent acts next. The manual fixes no order among streams, engines and the other agents (10 R232, R236, R242), so the
order is plain data of the state (notes/assumptions/1.md).
-/
namespace Sys2Proof.Machine

/-- An agent that can act: an event of the machine, the next event of the outside world, or a stream, whose next instruction retires
in the same step, or issues and retires in a later one, or whose issued instruction `i` retires; an engine operation that reads some
rows ahead, is to write one line after another, or writes one (10 R242, R243); line or access `i` of arrival `j`; a port that sends an idle
flit; a camp core, which executes an instruction, or whose access `j` performs (17 R351). -/
inductive Agent where
  | due (i : Instr)
  | input (i : Instr)
  | stream (k : Nat)
  | early (k : Nat)
  | retire (k i : Nat)
  | readAhead (o : Nat)
  | defer (o : Nat)
  | write (o j : Nat)
  | serve (j i : Nat)
  | idle (p : Nat)
  | camp (c : Nat)
  | campOp (c j : Nat)
  deriving DecidableEq, Repr

/-! ### Events of the machine

For every object of the state, the events that can happen to it; one whose own condition does not hold changes nothing. -/

def streamEvents (s : State) : List Instr :=
  s.ctls.flatMap fun e => if stands s e.1 then [] else match e.2.run with
    | .parked _ => [.parkLimitExpiry e.1, .parkEarlyResume e.1]
    | .atBar _ => [.barrierReread e.1]
    | _ => []

def coreEvents (s : State) : List Instr :=
  s.cores.filterMap fun e => if e.2.qfmt.isSome then some (.coreQformatWrite e.1) else none

/-- An access goes on unless its stream stands; one that another has passed does so in any case (10 R237). -/
def accessEvents (s : State) : List Instr :=
  s.accs.flatMap fun e => match e.2 with
    | some a => if a.remote || (stands s a.k && !(openDebts s).any fun d => d.1 == e.1) then [] else (List.range a.pieces.length).map fun j =>
        if a.kind.isLoad then .loadReturn e.1 j else .accessPerform e.1 j
    | none => []

def opEvents (s : State) : List Instr :=
  s.ops.flatMap fun e => match e.2 with
    | some o => if opStands s o.k then [] else
      (match o.state with
        | .issued => [.engineOpStart e.1]
        | .writing => [.engineWriteResume e.1]
        | .armed => [.chainFire e.1]
        | _ => (if o.units = [] then [] else [.engineWriteResume e.1]) ++ [.engineOpComplete e.1]) ++
      (List.range o.pieces.length).filterMap fun j =>
        if (o.pieces[j]?.bind (·.tag)).isNone then some (.mirrorChunkArrive e.1 j) else none
    | none => []

/-- What an operation may do beside its events: read ahead once its tokens are complete, and write its lines by themselves. -/
def opAgents (s : State) : List Agent :=
  s.ops.flatMap fun e => match e.2 with
    | some o =>
      if opStands s o.k then []
      else (if o.state = .issued then (if tokensMet s o then [.readAhead e.1] else []) ++ (if o.deferred then [] else [.defer e.1]) else []) ++
        (List.range o.units.length).map (Agent.write e.1)
    | none => []

/-- The widest scope in which nothing happens until an access that was passed has performed (10 R233). -/
def debtScope (s : State) : Nat := (openDebts s).foldl (fun m d => max m d.2.2) 0

/-- The shard of die `d` stands: from `.pk` on every shard does, within `.di` that of the die alone (10 R233). -/
def shardStands (s : State) (d : Nat) : Bool :=
  (openDebts s).any fun e => decide (5 ≤ e.2.2) || (e.2.2 == 4 && dieOf (coreOf e.2.1) == d)

/-- Arrivals go on, each in as many parts as are left of it; accesses of camp cores belong to the package. -/
def inboxAgents (s : State) : List Agent :=
  s.inbox.zipIdx.flatMap fun x =>
    if x.1.txn.kind = 10 ∧ 5 ≤ debtScope s then []
    else
      let parts := match x.1.units, x.1.left with
        | some l, _ => l.length
        | none, some l => l.length
        | none, none => 1
      (List.range (max 1 parts)).map (Agent.serve x.2)

def campAgents (s : State) : List Agent :=
  if 5 ≤ debtScope s then []
  else s.camps.flatMap fun e => (if e.2.ep.isSome then [.camp e.1] else []) ++ (List.range e.2.ops.length).map (Agent.campOp e.1)

/-- Ports that can send an idle flit (18 R361). -/
def idleAgents (s : State) : List Agent := s.ports.filterMap fun e => if portOk e.1 && e.2.ready then some (.idle e.1) else none

def collEvents (s : State) : List Instr := s.slots.map (fun e => .slotEmit e.1) ++ s.colls.map fun e => .collTimeout e.1

def teamEvents (s : State) : List Instr :=
  s.teams.flatMap fun e => match e.2 with
    | some tm => (match tm.state with
      | .swapped _ _ => (List.range 192).map fun c => .teamResume e.1 c
      | _ => [.teamSwap e.1, .preemptRequest e.1, .preemptStop e.1, .preemptDeferExpiry e.1, .shareEnd e.1])
    | none => []

def nodeEvents (l : Nat) (i : Inst) : List Instr :=
  (List.range i.nodes.length).flatMap fun n =>
    let x := FMap.get .reset i.nst n
    match x.state with
    | .ready => [.dispatch l n, .conditionalNode l n, .switchNode l n, .loopNode l n, .eventNode l n]
    | .running => (List.range 64).map (.eventReread l n) ++ [.eventTimeout l n] ++
        (List.range x.runs.length).flatMap fun r => [.arenaRangeTaken l n r, .makeShares l n r]
    | _ => []

/-- Nodes that wait at the root rise too (07 R168). -/
def rootRises (s : State) : List Instr :=
  s.insts.flatMap fun e => match e.2 with
    | some i => (List.range i.nodes.length).filterMap fun n => if (i.node n).rooted = [] then none else some (.priorityRise (rootNumber e.1 n))
    | none => []

/-- The sequencer: its root acts for launches and their nodes, and each shard for the entries of its pool. -/
def launchEvents (s : State) : List Instr :=
  (if 5 ≤ debtScope s then []
  else (s.queues.map fun e => .launchFetch e.1) ++
    (s.insts.flatMap fun e => match e.2 with
      | some i => if i.cancelled then [.cancelComplete e.1] else nodeEvents e.1 i
      | none => []) ++ rootRises s) ++
  s.pool.flatMap fun e => match e.2 with
    | some p => if shardStands s p.shard then [] else [.placeShare e.1, .priorityRise e.1, .reservation e.1]
    | none => []

def portEvents (s : State) : List Instr :=
  s.ports.flatMap fun e =>
    [.restripeStart e.1, .restripeDrained e.1, .restripeMarkerAck e.1, .laserWake e.1] ++
    (if e.2.buffer = [] then [] else [.replayTimeout e.1]) ++ e.2.resends.map fun w => .wavelengthFail e.1 w.1

def episodeEvents (s : State) : List Instr :=
  s.camps.flatMap fun e => match e.2.ep with
    | some ep => [.stepExpiry ep.hamper, .wallExpiry ep.hamper]
    | none => []

/-- Events of the machine. During a freeze streams, engines, the sequencer and links stand (16 R348); while reset is held and during
a start nothing goes on by itself. -/
def dueEvents (s : State) : List Instr :=
  match s.pkg.phase with
  | .up => streamEvents s ++ coreEvents s ++ accessEvents s ++ (s.walks.map fun e => .walkReturn e.1) ++ opEvents s ++ collEvents s ++
      teamEvents s ++ launchEvents s ++ portEvents s ++ episodeEvents s ++ (if s.pkg.attestDone then [] else [.attestDone])
  | .frozen => episodeEvents s ++ (if s.pkg.attestDone then [] else [.attestDone])
  | _ => []

/-- An event of the outside world that a package in this phase takes (16 R347, R348, R350); the others are lost. In a freeze those of
streams, engines, the sequencer and links are. -/
def accepted (p : Phase) (i : Instr) : Bool :=
  match i with
  | .coldStart | .secResetCold | .tamperEvent _ | .thermalHold | .i3cRead _ | .i3cWrite _ _ | .jtagBypass | .jtagIdcode
  | .jtagSamplePreload | .jtagExtest | .jtagDebugUnlock _ => true
  | .warmStart | .secResetWarm => p != .held
  | .startEnd _ _ | .startTimeout => p == .cold || p == .warm || p == .recovery
  | .registerWrite _ _ | .hostAccess _ | .doorbell _ _ | .arbiterWindow | .healthUpdate _ _ _ _ _ _ | .attestReport _ | .attestCertificate _
  | .attestDone | .cmpHbase _ | .cmpStart _ | .cmpStop _ | .post _ _ | .hamperHeaderWrite true _ _ _ | .stepExpiry _ | .wallExpiry _
  | .episodeEcall _ _ | .episodeException _ _ | .campAccess _ _ => p == .up || p == .frozen
  | _ => p == .up

/-- An event of the outside world that is a camp core's, and so within the package (10 R233). -/
def campInput (i : Instr) : Bool :=
  match i with
  | .campAccess _ _ | .post _ _ | .hamperHeaderWrite true _ _ _ | .episodeEcall _ _ | .episodeException _ _ => true
  | _ => false

/-- The next event of the outside world, unless its agent stands: the host and other packages stand within `.sy` alone. -/
def inputAgents (s : State) : List Agent :=
  match s.inputs with
  | [] => []
  | i :: _ => if (if campInput i then 5 else 6) ≤ debtScope s then [] else [.input i]

/-! ### Streams -/

/-- The team of a stream lets it issue: it is placed, or it halts and the stream still waits for another package. -/
def teamLets (s : State) (k : Nat) : Bool :=
  match (s.core (coreOf k)).team.bind s.team with
  | some tm => (match tm.state with
    | .placed => true
    | .halting _ => s.accs.any fun e => match e.2 with | some a => a.remote && a.k == k | none => false
    | _ => false)
  | none => false

/-- Streams that can issue. -/
def runnable (s : State) : List Nat :=
  if s.pkg.phase = .up then
    s.ctls.filterMap fun e => if e.2.run == .running && teamLets s e.1 && !stands s e.1 then some e.1 else none
  else []

/-- A vector instruction of the stream has issued and not retired. -/
def writesLate (s : State) (k : Nat) : Bool := (s.ctl k).late.any fun l => l.writes != []

/-- Instructions that have issued and not retired, of every stream that has any. -/
def unretired (s : State) : List Agent :=
  if s.pkg.phase = .up then
    s.ctls.flatMap fun e => if stands s e.1 then [] else (List.range e.2.late.length).map (Agent.retire e.1)
  else []

/-- Agents beside the events. During a freeze camp cores and the host go on (16 R348). -/
def otherAgents (s : State) : List Agent :=
  match s.pkg.phase with
  | .up => opAgents s ++ inboxAgents s ++ idleAgents s ++ campAgents s
  | .frozen => (inboxAgents s).filter (fun a => match a with
      | .serve j _ => (match s.inbox[j]? with | some x => x.txn.kind == 9 || x.txn.kind == 10 | none => false)
      | _ => false) ++ campAgents s
  | _ => []

def agents (s : State) : List Agent :=
  (dueEvents s).map Agent.due ++ inputAgents s ++ (runnable s).map Agent.stream ++ (runnable s).map Agent.early ++ unretired s ++
  otherAgents s

/-- The FIFO field of the push that an instruction which took core `c` from `s` to `t` made, at once or behind the stream's earlier
instructions. -/
def pushedBy (s t : State) (k : Nat) : BitVec 3 :=
  match ((t.ctl k).late.drop (s.ctl k).late.length).head? with
  | some l => l.fp
  | none =>
    BitVec.ofNat 3 ((((List.range 6).find? fun n =>
      decide (FMap.get 0 (s.core (coreOf k)).fifo n < FMap.get 0 (t.core (coreOf k)).fifo n)).map (· + 1)).getD 0)

/-- An instruction that took the stream from `s` to `t` did nothing but read registers and a data queue, write registers and push a token:
it can retire later than it issues (05 R108). One that accesses memory, starts an operation, traps or goes through a branch-outcome queue
does not. -/
def holdable (s t : State) (k : Nat) : Bool :=
  let c := s.ctl k
  let d := t.ctl k
  let co := coreOf k
  let new := d.late.drop c.late.length
  d.run == .running && d.instret == c.instret + 1 && d.tip == c.tip && d.late.take c.late.length == c.late &&
  new.all (fun l => l.outcome.isNone && l.accs == [] && l.op.isNone && l.writes == [] && !l.counts && l.fence.isNone) &&
  t.accs == s.accs && t.ops == s.ops && t.pkg == s.pkg && (t.core co).bq == (s.core co).bq && (t.core co).toks == (s.core co).toks &&
  (t.core co).qfmt == (s.core co).qfmt

/-- Its vector register is written, its token enters the FIFO and it is counted when it retires; with STEP the stream waits for that, and
BREAK follows (01 R24). -/
def hold (s t : State) (k : Nat) (step : Bool) : State :=
  match t.wrote with
  | some (n, m) =>
    let fp := pushedBy s t k
    let atOnce := fp != 0 && (t.ctl k).late.length == (s.ctl k).late.length
    State.applyAll { t with vregs := s.vregs }
      (((if atOnce then popFifo (coreOf k) fp else Fx.none).andThen (onCtl k fun c => { c with
          late := (s.ctl k).late ++ [Late.mk fp none [] none none [(n, m, t.vreg (coreOf k) n)] true none]
          instret := c.instret - 1, run := if step then .retiring else c.run
          status := if step then setField c.status 3 1 1 else c.status })) t)
  | none => t

/-! ### The HBM controllers (08 R206, R207) -/

/-- Communication traffic: Mirror transfers, the six operations of 18 R380 and their collectives, and accesses of other packages. -/
def commTraffic (s : State) : Bool :=
  s.inbox.any (fun a => a.txn.kind != 9 && a.txn.kind != 10) || s.colls.any (fun e => e.2.any fun c => !c.over) ||
  s.ops.any fun e => match e.2 with | some o => o.op9 == 0x0DE || decide (0x0E0 ≤ o.op9 ∧ o.op9 ≤ 0x0E5) | none => false

/-- A controller's next decision: the entries that its queue holds, and the rank, which rises at HI and falls at LO. -/
def commNext (busy : Bool) (n die : Nat) (w : Word) : Word :=
  let level := if busy then Config.commQueue n die % 257 else 0
  let up := if field w 9 9 ≤ level then 1 else if level ≤ field w 0 9 then 0 else field w 24 1
  setField (setField w 25 9 level) 24 1 up

/-- What time does to the package: the controllers decide, and the camp clock runs (17 R351). -/
def commStep (s : State) : Pkg :=
  { s.pkg with
    commq := s.pkg.commq.zipIdx.map fun x => commNext (commTraffic s) s.clock x.2 x.1
    campClk := s.pkg.campClk + Config.campStep s.clock }

/-- The agent named by the schedule's head, counted through the agents in order; with no schedule, all of them in turn. -/
def pick (s : State) : Option Agent :=
  let l := agents s
  match s.schedule with
  | n :: _ => l[n % l.length]?
  | [] => l[s.clock % l.length]?

/-- The state after the choice is made: the schedule's head and an event taken are used up, and time has passed. -/
def chosen (s : State) (a : Agent) : State :=
  s.applyAll ([.schedule s.schedule.tail, .clock (s.clock + 1), .time (s.time + Config.clkStep s.clock), .pkg (commStep s)] ++
    (match a with | .input _ => [.inputs s.inputs.tail] | _ => []))

end Sys2Proof.Machine
end

