-- ==== Sys2Proof/Machine/Step.lean ====
section
/-!
DEFINITION. One step of the machine: the chosen agent acts. A stream fetches and executes one instruction; an event happens.
-/
namespace Sys2Proof.Machine

/-- A stream fetches at its pc and executes what it finds, or takes the fetch trap. -/
noncomputable def streamStep (k : Nat) (s : State) : Host.Outcome State Fault Refusal :=
  match fetchInstr s k with
  | .error e => answer s e
  | .ok (i, w) => exec i (s.begin k w)

/-- A stream goes on with an instruction that retires in this step, if it retires here. A trap waits until the vector instructions before
it have retired (01 R34). -/
noncomputable def streamNow (k : Nat) (s : State) : Host.Outcome State Fault Refusal :=
  match streamStep k s with
  | .next t => .next (if writesLate s k && ((t.ctl k).tip != (s.ctl k).tip || (t.ctl k).run == .stopped) then s else t)
  | r => r

/-- A stream issues an instruction that retires later, where it can (05 R108). -/
noncomputable def earlyStep (k : Nat) (s : State) : Host.Outcome State Fault Refusal :=
  let step := (s.ctl k).step
  let u := s.applyAll (onCtl k (fun c => { c with status := setField c.status 3 1 0 }) s)
  match streamStep k u with
  | .next t => if holdable u t k && t.wrote.isSome then .next (hold u t k step) else streamNow k s
  | r => r

/-- What the chosen agent does. -/
noncomputable def agentStep (a : Agent) (s : State) : Host.Outcome State Fault Refusal :=
  match a with
  | .due i => exec i s
  | .input i => if accepted s.pkg.phase i then exec i s else .next s
  | .stream k => streamNow k s
  | .early k => earlyStep k s
  | .retire k i => answer s (retireLate k i)
  | .readAhead n => answer s (match s.op n with | some o => readAhead n o | none => Fx.none)
  | .defer n => answer s (match s.op n with | some o => deferWrites n o | none => Fx.none)
  | .write n j => answer s (match s.op n with | some o => writeAlone n j o | none => Fx.none)
  | .serve j i => answer s (serveArrival j i)
  | .idle p => answer s (idleFx p)
  | .camp c => answer s (campStep c)
  | .campOp c j => answer s (campPerform c j)

/-- The end of a step. -/
def settled : Host.Outcome State Fault Refusal → Host.Outcome State Fault Refusal
  | .next t => .next (finishStep t)
  | r => r

/-- One step. With no agent that can act, nothing happens. -/
noncomputable def step (s : State) : Host.Outcome State Fault Refusal :=
  match pick s with
  | none => .next s
  | some a => settled (agentStep a (chosen s a))

/-- The places used to lay out a program for one step: descriptor, tensor table, tile table and frame of tensor 256. -/
def fetchHandle : Word := handleOf 256 0
def fetchTensorAt : Nat := 0x10000 + 64 * 256
def fetchTileAt : Nat := 0x20000
def fetchCodeAt : Nat := 0x30000

/-- The tables and the code of one executable tensor of 4 KiB in address space 0. -/
def fetchMemory (m : List Host.Cell) (w : Nat) : List Host.Cell :=
  let words (m : List Host.Cell) (a : Nat) (l : List Word) : List Host.Cell :=
    writeCells m a (l.flatMap fun x => natToBytes 8 x.toNat)
  let m1 := words m 0 [0x8000000000010000]
  let m2 := words m1 fetchTensorAt [0xF100000000001000, 0, 0, 4096, 0x20000, 0, 0, 0]
  let m3 := words m2 fetchTileAt [0x0000030080000000, 0]
  writeCells m3 fetchCodeAt (natToBytes 12 w)

/-- The team that runs it: one core, no windows. -/
def fetchTeam : Team :=
  { asid := 0, inst := 0, node := 0, run := 0, conv := none, base := 0, shares := 1, method6 := 0, rgn := false, die := 0,
    cluster := 0, cores := [0], kept := .none, w1 := 0, w2 := 0, froz := [], state := .placed, request := false, prio := 0,
    stamp := 0 }

/-- The state with one instruction placed where stream M of core 0 fetches next, and that stream chosen to act. -/
def State.withFetchWord (s : State) (nbits w : Nat) : State :=
  let t : State := { s with
    mem := fetchMemory s.mem (w % 2 ^ nbits)
    pkg := { s.pkg with astab := 0, phase := .up }
    teams := FMap.set none s.teams 1 (some fetchTeam)
    cores := FMap.set .reset s.cores 0 { s.core 0 with team := some 1 }
    ctls := FMap.set .reset s.ctls 1 { s.ctl 1 with pc := fetchHandle, run := .running } }
  { t with schedule := [(agents t).findIdx (· == .stream 1)] }

end Sys2Proof.Machine
end

