-- ==== Sys2Proof/Safety.lean ====
section
/-!
DEFINITION. The terms in which statements about the machine are made: the invariant, what it takes for an instruction of a stream
to issue, and what its retirement leaves.
-/
namespace Sys2Proof.Machine

/-- A stream's registers hold no bit that the hardware does not have. -/
def Ctl.legal (c : Ctl) : Bool := c.norm == c

/-- The invariant of the machine: every memory is in its canonical form, and every stream's registers hold only bits that exist,
so that every pc and every saved pc is the handle of a word (01 R13, R23). -/
structure State.Inv (s : State) : Prop where
  mem : Memory.wf s.mem = true
  hostMem : Memory.wf s.hostMem = true
  wbuf : Memory.wf s.wbuf = true
  ctls : ∀ e ∈ s.ctls, e.2.legal = true

/-- A run of `n` steps that never stops. -/
def SafeRun (n : Nat) (s : State) : Prop := ∃ t, Sys2Proof.core.run n s = .next t

/-- Tokens in FIFO `n` of the core of the stream that acts (05 R114). -/
def State.tokens (s : State) (n : Nat) : Nat := FMap.get 0 (s.core (coreOf s.cur)).fifo n

/-- The stream that acts. -/
def State.now (s : State) : Ctl := s.ctl s.cur

/-- The stream that acts can issue an instruction with these FIFO fields and these registers, and it retires without a trap of
STEP: its registers are legal; the FIFO it takes from is its own and holds a token, the one it gives to is its own and has room
(03 R66, 05 R114); no access in flight has still to write one of its registers (01 R15); an open region would not be closed by its
FIFO fields (14 R314); it is at supervisor level or STEP is 0 (01 R24); and if it pushes, the stream's earlier instructions have
retired, its loads among them, so that it pushes at once (05 R109, R114, 10 R241). -/
structure Issues (s : State) (fp fo : BitVec 3) (sregs vregs : List Nat) : Prop where
  legal : s.now.legal = true
  takes : fo ≠ 0 → consumer (fo.toNat - 1) = kindOf s.cur ∧ s.tokens (fo.toNat - 1) ≠ 0
  gives : fp ≠ 0 → producer (fp.toNat - 1) = kindOf s.cur ∧
    s.tokens (fp.toNat - 1) + pendingPush s (coreOf s.cur) fp < 64
  scalars : ∀ n ∈ sregs, n = 0 ∨ n ∉ pendingS s s.cur
  vectors : ∀ n ∈ vregs, n ∉ pendingV s s.cur
  region : s.now.open = true → fp = 0 ∧ fo = 0
  noStep : s.now.prv = true ∨ s.now.step = false
  settled : fp ≠ 0 → s.now.late = []

/-- No active hardware loop ends at the instruction at the pc (04 R98). -/
def NoLoopEnd (c : Ctl) : Prop := ∀ n, n < 4 → (c.loop n).lc = 0 ∨ (c.loop n).le ≠ c.pc

/-- The FIFO counts of the core after an instruction that took from `fo` and gave to `fp`. -/
def Fifos (s t : State) (fp fo : BitVec 3) : Prop := ∀ n,
  FMap.get 0 (t.core (coreOf s.cur)).fifo n + (if fo ≠ 0 ∧ n = fo.toNat - 1 then 1 else 0) =
    s.tokens n + (if fp ≠ 0 ∧ n = fp.toNat - 1 then 1 else 0)

/-- `t` is `s` after the acting stream has retired an instruction that leaves the pc at `pc` and whose FIFO fields are `fp` and
`fo`, and nothing else has changed but the model's notes of what the step wrote, what its walks have found and what another package has
returned of its code. -/
structure Retired (s t : State) (pc : Word) (fp fo : BitVec 3) : Prop where
  ctl : t.ctl s.cur = { s.now with pc := pc, instret := s.now.instret + 1, blocked := none, walked := [], code := none }
  ctls : ∀ j, j ≠ s.cur → t.ctl j = s.ctl j
  fifos : Fifos s t fp fo
  core : ∀ c, { t.core c with fifo := (s.core c).fifo } = s.core c
  cores : ∀ c, c ≠ coreOf s.cur → t.core c = s.core c
  rest : { t with ctls := s.ctls, cores := s.cores, wrote := s.wrote } = s

/-- `t` is `s` after the acting stream has taken a trap (01 R35): the saved pc, cause and value, the level saved and raised, TIP, and
the pc at the trap entry; nothing else but what `flt.rd` returns, and what counted takings, said why the stream waited or noted walks and code. -/
structure Trapped (s t : State) (code : Byte) (val : Word) : Prop where
  pc : (t.ctl s.cur).pc = s.now.tvec
  epc : (t.ctl s.cur).epc = s.now.pc
  cause : (t.ctl s.cur).cause = code.setWidth 64
  tval : (t.ctl s.cur).tval = val
  prv : (t.ctl s.cur).prv = true
  pprv : bitOf (t.ctl s.cur).status 5 = s.now.prv
  tip : (t.ctl s.cur).tip = true
  status : ∀ b, b ≠ 4 → b ≠ 5 → b ≠ 6 → (t.ctl s.cur).status.getLsbD b = s.now.status.getLsbD b
  running : (t.ctl s.cur).run = .running
  kept : ∀ c, c = t.ctl s.cur →
    { c with pc := s.now.pc, epc := s.now.epc, cause := s.now.cause, tval := s.now.tval, status := s.now.status, run := s.now.run,
             blocked := s.now.blocked, spin := s.now.spin, walked := s.now.walked, code := s.now.code, flt := s.now.flt } = s.now
  ctls : ∀ j, j ≠ s.cur → t.ctl j = s.ctl j
  rest : { t with ctls := s.ctls } = s

/-- A scalar instruction with these fields issues and has its effect: besides, bit 0 of its guard is 1 (03 R65) and no loop ends
at it. -/
structure Executes (s : State) (g : Guard) (fp fo : BitVec 3) (sregs vregs : List Nat) : Prop extends
    Issues s fp fo sregs vregs where
  guard : guardTrue s s.cur g = true
  noLoop : NoLoopEnd s.now

/-- The state in which the acting stream's register `n` holds `v`; s0 keeps reading zero (01 R14). -/
def State.setS (s : State) (n : Nat) (v : Word) : State := s.apply (.sreg s.cur n v)

/-- The state in which predicate `n` of the acting stream holds `v`; p0 keeps reading ones (01 R14). -/
def State.setP (s : State) (n : Nat) (v : Pred) : State := s.apply (.preg s.cur n v)

/-- The state in which vector register `n` of the acting stream's core holds `v`. -/
def State.setV (s : State) (n : Nat) (v : Vec) : State := s.apply (.vreg (coreOf s.cur) n v)

/-- The state in which the acting stream's control record is `c`. -/
def State.setCtl (s : State) (c : Ctl) : State := s.apply (.ctl s.cur c)

end Sys2Proof.Machine
end

