-- ==== Sys2Proof/Certificates/Slice0/Obligations.lean ====
section
/-!
DEFINITION. The statements about the machine for the provers. Those about an instruction take a state in which its stream can issue it
(Executes, Issues: Safety.lean) and say which state it leaves.
-/
namespace Sys2Proof.Statements
open Sys2Proof.Machine

/-! ### Values that the scalar rules give, written with integers -/

def ofBool (b : Bool) : Word := if b then 1 else 0

/-- Signed saturation to 64 bits (02 R39). -/
def clamp (z : Int) : Word := BitVec.ofInt 64 (max (-(2 ^ 63)) (Min.min z (2 ^ 63 - 1)))

/-- A shift by the low 7 bits of the amount (02 R41). -/
def shiftLeft (a b : Word) : Word := BitVec.ofNat 64 (a.toNat * 2 ^ (b.toNat % 128))
def shiftRight (a b : Word) : Word := BitVec.ofNat 64 (a.toNat / 2 ^ (b.toNat % 128))
def shiftSigned (a b : Word) : Word := BitVec.ofInt 64 (a.toInt / 2 ^ (b.toNat % 128))

/-- Every register-register instruction with these fields and the value it gives sd (04 R86, R87, R88, 02 R39 to R41). -/
noncomputable def registerResults (f : FS) (a b c : Word) : List (Instr × Word) := [
  (.add f, if f.fn = 1 then clamp (a.toInt + b.toInt) else a + b),
  (.sub f, if f.fn = 1 then clamp (a.toInt - b.toInt) else a - b),
  (.and f, a &&& b), (.or f, a ||| b), (.xor f, a ^^^ b),
  (.sll f, shiftLeft a b), (.srl f, shiftRight a b), (.sra f, shiftSigned a b),
  (.slt f, ofBool (decide (a.toInt < b.toInt))), (.sltu f, ofBool (decide (a.toNat < b.toNat))),
  (.mul f, BitVec.ofInt 64 (a.toInt * b.toInt)),
  (.mulh f, BitVec.ofInt 64 (a.toInt * b.toInt / 2 ^ 64)),
  (.mulhu f, BitVec.ofNat 64 (a.toNat * b.toNat / 2 ^ 64)),
  (.div f, if b = 0 then BitVec.allOnes 64 else BitVec.ofInt 64 (a.toInt.tdiv b.toInt)),
  (.divu f, if b = 0 then BitVec.allOnes 64 else BitVec.ofNat 64 (a.toNat / b.toNat)),
  (.rem f, if b = 0 then a else BitVec.ofInt 64 (a.toInt.tmod b.toInt)),
  (.remu f, if b = 0 then a else BitVec.ofNat 64 (a.toNat % b.toNat)),
  (.min f, if a.toInt ≤ b.toInt then a else b), (.max f, if a.toInt ≤ b.toInt then b else a),
  (.minu f, if a.toNat ≤ b.toNat then a else b), (.maxu f, if a.toNat ≤ b.toNat then b else a),
  (.clz f, if a = 0 then 64 else BitVec.ofNat 64 (63 - a.toNat.log2)),
  (.ctz f, BitVec.ofNat 64 (((List.range 64).find? a.getLsbD).getD 64)),
  (.popc f, BitVec.ofNat 64 ((List.range 64).countP a.getLsbD)),
  (.sel f, if c ≠ 0 then a else b)]

/-- The same for the 32-bit words, which read and write as FP = FO = FN = SC = 0 and no guard (03 R73). -/
noncomputable def shortResults (f : CS) (a b : Word) : List (Instr × Word) := [
  (.addX32 f, a + b), (.subX32 f, a - b), (.andX32 f, a &&& b), (.orX32 f, a ||| b), (.xorX32 f, a ^^^ b),
  (.sllX32 f, shiftLeft a b), (.srlX32 f, shiftRight a b), (.sraX32 f, shiftSigned a b),
  (.sltX32 f, ofBool (decide (a.toInt < b.toInt))), (.sltuX32 f, ofBool (decide (a.toNat < b.toNat))),
  (.mulX32 f, BitVec.ofInt 64 (a.toInt * b.toInt)),
  (.mulhX32 f, BitVec.ofInt 64 (a.toInt * b.toInt / 2 ^ 64)),
  (.mulhuX32 f, BitVec.ofNat 64 (a.toNat * b.toNat / 2 ^ 64)),
  (.divX32 f, if b = 0 then BitVec.allOnes 64 else BitVec.ofInt 64 (a.toInt.tdiv b.toInt)),
  (.divuX32 f, if b = 0 then BitVec.allOnes 64 else BitVec.ofNat 64 (a.toNat / b.toNat)),
  (.remX32 f, if b = 0 then a else BitVec.ofInt 64 (a.toInt.tmod b.toInt)),
  (.remuX32 f, if b = 0 then a else BitVec.ofNat 64 (a.toNat % b.toNat)),
  (.minX32 f, if a.toInt ≤ b.toInt then a else b), (.maxX32 f, if a.toInt ≤ b.toInt then b else a),
  (.minuX32 f, if a.toNat ≤ b.toNat then a else b), (.maxuX32 f, if a.toNat ≤ b.toNat then b else a),
  (.clzX32 f, if a = 0 then 64 else BitVec.ofNat 64 (63 - a.toNat.log2)),
  (.ctzX32 f, BitVec.ofNat 64 (((List.range 64).find? a.getLsbD).getD 64)),
  (.popcX32 f, BitVec.ofNat 64 ((List.range 64).countP a.getLsbD)),
  (.selX32 f, b)]

/-- A bit field of a word, zero-extended or sign-extended (04 R90). -/
def bitField (a : Word) (pos len : Nat) (zero : Bool) : Word :=
  let f := a.toNat / 2 ^ pos % 2 ^ len
  if zero = true ∨ f < 2 ^ (len - 1) then BitVec.ofNat 64 f else BitVec.ofInt 64 ((f : Int) - 2 ^ len)

/-- Every immediate instruction in its 64-bit word and the value it gives sd (04 R89, R90); `x` is the immediate, sign-extended. -/
noncomputable def immediateResults (f : FI) (a : Word) : List (Instr × Word) :=
  let x : Word := f.imm.signExtend 64
  [(.addi f, a + x), (.andi f, a &&& x), (.ori f, a ||| x), (.xori f, a ^^^ x),
   (.slli f, shiftLeft a x), (.srli f, shiftRight a x), (.srai f, shiftSigned a x),
   (.slti f, ofBool (decide (a.toInt < x.toInt))), (.sltiu f, ofBool (decide (a.toNat < x.toNat))),
   (.extI f, bitField a (f.imm.toNat % 64) (f.imm.toNat / 64 % 64 + 1) (f.imm.getLsbD 12))]

/-- The same in the 32-bit words. -/
noncomputable def shortImmediates (f : CI) (a : Word) : List (Instr × Word) :=
  let x : Word := f.imm.signExtend 64
  [(.addiX32 f, a + x), (.andiX32 f, a &&& x), (.oriX32 f, a ||| x), (.xoriX32 f, a ^^^ x),
   (.slliX32 f, shiftLeft a x), (.srliX32 f, shiftRight a x), (.sraiX32 f, shiftSigned a x),
   (.sltiX32 f, ofBool (decide (a.toInt < x.toInt))), (.sltiuX32 f, ofBool (decide (a.toNat < x.toNat)))]

/-- The same in the 96-bit words. -/
noncomputable def longImmediates (f : FI96) (a : Word) : List (Instr × Word) :=
  let x : Word := f.lit.signExtend 64
  [(.addiX96 f, a + x), (.andiX96 f, a &&& x), (.oriX96 f, a ||| x), (.xoriX96 f, a ^^^ x),
   (.sltiX96 f, ofBool (decide (a.toInt < x.toInt))), (.sltiuX96 f, ofBool (decide (a.toNat < x.toNat)))]

/-! ### Branches -/

/-- When each conditional branch is taken (04 R92). -/
noncomputable def branches (f : FB) (a b : Word) : List (Instr × Bool) := [
  (.beq f, decide (a = b)), (.bne f, decide (a ≠ b)), (.blt f, decide (a.toInt < b.toInt)), (.bge f, decide (b.toInt ≤ a.toInt)),
  (.bltu f, decide (a.toNat < b.toNat)), (.bgeu f, decide (b.toNat ≤ a.toNat))]

noncomputable def shortBranches (f : CB) (a b : Word) : List (Instr × Bool) := [
  (.beqX32 f, decide (a = b)), (.bneX32 f, decide (a ≠ b)), (.bltX32 f, decide (a.toInt < b.toInt)),
  (.bgeX32 f, decide (b.toInt ≤ a.toInt)), (.bltuX32 f, decide (a.toNat < b.toNat)), (.bgeuX32 f, decide (b.toNat ≤ a.toNat))]

noncomputable def longBranches (f : FB96) (a b : Word) : List (Instr × Bool) := [
  (.beqX96 f, decide (a = b)), (.bneX96 f, decide (a ≠ b)), (.bltX96 f, decide (a.toInt < b.toInt)),
  (.bgeX96 f, decide (b.toInt ≤ a.toInt)), (.bltuX96 f, decide (a.toNat < b.toNat)), (.bgeuX96 f, decide (b.toNat ≤ a.toNat))]

/-- The stream's control record when a branch has been taken to `target` (05 R125): the run of takings of a backward branch goes on while
branch, registers s1 to s63 and the most recent load are those of the takings before; after the 16th the stream is parked on the rows of
that load. Any other taken branch ends the run, and so does one without a load, or with parking off. -/
def taking (s : State) (target : Word) : Ctl :=
  let c := s.now
  let regs := (List.range 63).map fun i => s.sreg s.cur (i + 1)
  match c.lastLoad with
  | none => { c with spin := none }
  | some l =>
    let before := match c.spin with
      | some x => if x.pc = c.pc ∧ x.regs = regs ∧ x.load = some (l.rows, l.value) then x.count else 0
      | none => 0
    if c.pc.toNat ≤ target.toNat ∨ (s.core (coreOf s.cur)).parklim = 0 then { c with spin := none }
    else if before + 1 < 16 then { c with spin := some ⟨c.pc, before + 1, regs, some (l.rows, l.value)⟩ }
    else { c with spin := none, run := .parked l.rows, parks := c.parks + 1 }

/-- What a branch that is taken, or not, leaves: not taken, it retires in sequence; taken, the pc is at the target. -/
def Branched (s t : State) (cond : Bool) (len target : Word) (fp fo : BitVec 3) : Prop :=
  (cond = false → Retired s t (s.now.pc + len) fp fo) ∧ (cond = true → Retired (s.setCtl (taking s target)) t target fp fo)

/-- The control record of a stream after `jal` or `jalr`: the run of takings ends, and a fence that has still to retire is marked, so that
what is fetched from here on sees the stores before it (01 R20, 04 R95). -/
def jumped (c : Ctl) : Ctl :=
  { c with spin := none, late := c.late.map fun l => { l with fence := l.fence.map fun x => { x with jumped := true } } }

/-! ### Hardware loops -/

/-- Level `n` ends at the instruction at the pc. -/
def ends (c : Ctl) (n : Nat) : Prop := (c.loop n).lc ≠ 0 ∧ (c.loop n).le = c.pc

/-- What the loop-end action of an instruction of `len` bytes makes of the control record `c` (04 R98): of the levels that end there, from 3
down, those with one pass left are finished, and the first with more passes loses one and sends the pc to its body; with none, the pc goes
on behind the instruction. -/
def LoopsEnded (c d : Ctl) (len : Word) : Prop :=
  (∀ m, m < 4 → (d.loop m).lb = (c.loop m).lb ∧ (d.loop m).le = (c.loop m).le) ∧
  (∀ n, n < 4 → ends c n → 1 < (c.loop n).lc.toNat → (∀ m, n < m → m < 4 → ends c m → (c.loop m).lc = 1) →
    d.pc = (c.loop n).lb &&& ~~~3 ∧ (d.loop n).lc = (c.loop n).lc - 1 ∧
    (∀ m, n < m → m < 4 → ends c m → (d.loop m).lc = 0) ∧ (∀ m, n < m → m < 4 → ¬ends c m → (d.loop m).lc = (c.loop m).lc) ∧
    ∀ m, m < n → (d.loop m).lc = (c.loop m).lc) ∧
  ((∀ m, m < 4 → ends c m → (c.loop m).lc = 1) → d.pc = c.pc + len ∧
    ∀ m, m < 4 → (ends c m → (d.loop m).lc = 0) ∧ (¬ends c m → (d.loop m).lc = (c.loop m).lc))

/-! ### Vectors -/

/-- An exact integer in `w` bits: saturated to the type's range, or wrapped (02 R39). -/
def fit (w : Nat) (signed sat : Bool) (z : Int) : Nat :=
  let lo : Int := if signed then -(2 ^ (w - 1)) else 0
  let hi : Int := if signed then 2 ^ (w - 1) - 1 else 2 ^ w - 1
  ((if sat then max lo (Min.min z hi) else z) % 2 ^ w).toNat

/-- The integer in an element. -/
def intOf (w : Nat) (signed : Bool) (x : Nat) : Int := if signed = true ∧ 2 ^ (w - 1) ≤ x then (x : Int) - 2 ^ w else x

/-- The integer element instructions over va, vb and the old vd, and the value of an element of width `w` (06 R136). -/
noncomputable def integerElements (f : X3) (a b c : Nat) : List (Instr × Nat) :=
  let w := tyWidth f.ty.toNat
  let sg := decide (f.ty.toNat ≤ 3)
  let v := intOf w sg
  let put := fit w sg (f.sat == 1)
  [(.vadd f, put (v a + v b)), (.vsub f, put (v a - v b)), (.vmul f, put (v a * v b)), (.vfma f, put (v a * v b + v c)),
   (.vmin f, put (Min.min (v a) (v b))), (.vmax f, put (Max.max (v a) (v b))), (.vabs f, put ((v a).natAbs : Int)), (.vneg f, put (-v a)),
   (.vmulh f, fit w true false (intOf w true a * intOf w true b / 2 ^ w)), (.vmulhu f, a * b / 2 ^ w)]

/-- The bit element instructions, which take integer and floating-point types alike. -/
noncomputable def bitElements (f : X3) (a b : Nat) : List (Instr × Nat) :=
  let w := tyWidth f.ty.toNat
  [(.vand f, a &&& b), (.vor f, a ||| b), (.vxor f, a ^^^ b), (.vandn f, a &&& (2 ^ w - 1 - b)), (.vmov f, a),
   (.vsll f, a * 2 ^ (b % 128) % 2 ^ w), (.vsrl f, a / 2 ^ (b % 128)), (.vsra f, fit w true false (intOf w true a / 2 ^ (b % 128))),
   (.vpopc f, (List.range w).countP a.testBit), (.vclz f, if a = 0 then w else w - 1 - a.log2)]

/-- The 32-bit words, which have no guard and no saturation (06 R134), for integer types and bits. -/
noncomputable def shortElements (f : CV) (a b c : Nat) : List (Instr × Nat) :=
  let w := tyWidth f.ty.toNat
  let sg := decide (f.ty.toNat ≤ 3)
  let v := intOf w sg
  let put := fit w sg false
  [(.vaddX32 f, put (v a + v b)), (.vsubX32 f, put (v a - v b)), (.vmulX32 f, put (v a * v b)), (.vfmaX32 f, put (v a * v b + v c)),
   (.vminX32 f, put (Min.min (v a) (v b))), (.vmaxX32 f, put (Max.max (v a) (v b))), (.vandX32 f, a &&& b), (.vorX32 f, a ||| b)]

/-- The state after `fl` was added to the sticky flags. -/
def withFlagsSet (s : State) (fl : Fl) : State := s.setCtl { s.now with fpflags := s.now.fpflags ||| fl.setWidth 64 }

/-- What an instruction leaves that raises the flags `fl`: with none of them enabled to trap, its effect and the flags; otherwise the
flags and ARITH, without its effect (01 R26). -/
def Flagged (s t : State) (fl : Fl) (effect : State → State) (len : Word) (fp fo : BitVec 3) : Prop :=
  (fl &&& BitVec.ofNat 5 (field s.now.fpctl 8 5) = 0 → Retired (effect (withFlagsSet s fl)) t (s.now.pc + len) fp fo) ∧
  (fl &&& BitVec.ofNat 5 (field s.now.fpctl 8 5) ≠ 0 → s.now.tip = false →
    Trapped (withFlagsSet s fl) t cARITH (fl.setWidth 64))

/-- The union of the flags of the elements below `n`. -/
def flagsOf (n : Nat) (h : Nat → Fl) : Fl := (List.range n).foldl (fun x i => x ||| h i) 0

/-! ### Floating-point elements as bits (02 R43, R44, 06 R136 to R141) -/

/-- Significand bits of a floating-point type. -/
def sigBits (ty : Nat) : Nat := match ty with | 8 => 10 | 9 => 7 | 10 => 23 | _ => 52

/-- The bits of an element but its sign, those of infinity, and whether its sign bit is 1. -/
def magnitude (ty x : Nat) : Nat := x % 2 ^ (tyWidth ty - 1)
def infinity (ty : Nat) : Nat := (2 ^ (tyWidth ty - 1 - sigBits ty) - 1) * 2 ^ sigBits ty
def negative (ty x : Nat) : Bool := x / 2 ^ (tyWidth ty - 1) % 2 == 1

def isNaN (ty x : Nat) : Bool := decide (infinity ty < magnitude ty x)
def isSignalling (ty x : Nat) : Bool := isNaN ty x && x / 2 ^ (sigBits ty - 1) % 2 == 0
def isInfinite (ty x : Nat) : Bool := magnitude ty x == infinity ty
def isZero (ty x : Nat) : Bool := magnitude ty x == 0
def canonicalNaN (ty : Nat) : Nat := infinity ty + 2 ^ (sigBits ty - 1)
def signed (ty : Nat) (s : Bool) (mag : Nat) : Nat := (if s then 2 ^ (tyWidth ty - 1) else 0) + mag

/-- NV, if any of these operands is a signalling NaN. -/
def invalidIf (ty : Nat) (l : List Nat) : Fl := if l.any (isSignalling ty) then fNV else 0

/-- Places on the number line: −0 below +0, and −0 at +0. -/
def placeOf (ty x : Nat) : Int := if negative ty x then -(magnitude ty x : Int) - 1 else magnitude ty x
def valueOrder (ty x : Nat) : Int := if negative ty x then -(magnitude ty x : Int) else magnitude ty x

/-- The smaller or larger of two elements (R137). -/
def extreme (ty : Nat) (largest : Bool) (a b : Nat) : Nat × Fl :=
  (if isNaN ty a then (if isNaN ty b then canonicalNaN ty else b)
   else if isNaN ty b then a
   else if decide (placeOf ty a ≤ placeOf ty b) != largest then a else b, invalidIf ty [a, b])

/-- The class bit of an element (R141). -/
def classBit (ty x : Nat) : Nat :=
  let m := magnitude ty x
  let pick (neg pos : Nat) : Nat := if negative ty x then 2 ^ neg else 2 ^ pos
  if isNaN ty x then (if isSignalling ty x then 2 ^ 8 else 2 ^ 9)
  else if m = infinity ty then pick 0 7
  else if m = 0 then pick 3 4
  else if m < 2 ^ sigBits ty then pick 2 5
  else pick 1 6

/-- The floating-point element instructions, whether they round, and their operation on elements (06 R136, R137, R138). -/
noncomputable def floatElements (f : X3) : List (Instr × Bool × EOp) := [
  (.vadd f, true, eAdd), (.vsub f, true, eSub), (.vmul f, true, eMul), (.vfma f, true, eFma), (.vdiv f, true, eDiv),
  (.vsqrt f, true, eFun .sqrt 0x045), (.vrcp f, true, eFun .rcp 0x046), (.vrsq f, true, eFun .rsq 0x047), (.vexp f, true, eFun .exp 0x048),
  (.vlog f, true, eFun .log 0x049), (.vexp2 f, true, eFun .exp2 0x04A), (.vlog2 f, true, eFun .log2 0x04B), (.vsin f, true, eFun .sin 0x04C),
  (.vcos f, true, eFun .cos 0x04D), (.vmin f, false, fun ty _ _ a b _ => extreme ty false a b),
  (.vmax f, false, fun ty _ _ a b _ => extreme ty true a b),
  (.vabs f, false, fun ty _ _ a _ _ => (if isNaN ty a then canonicalNaN ty else magnitude ty a, 0)),
  (.vneg f, false, fun ty _ _ a _ _ => (if isNaN ty a then canonicalNaN ty else signed ty (!negative ty a) (magnitude ty a), 0)),
  (.vclass f, false, fun ty _ _ a _ _ => (classBit ty a, 0))]

/-- The results of an invalid operation and of operands that are infinite or a NaN, and those of R138's table: no rounding, whatever the
mode. None: the result is rounded. -/
def specials (f : X3) (ty a b c : Nat) : List (Instr × Option (Nat × Fl)) :=
  let nan (l : List Nat) : Option (Nat × Fl) := some (canonicalNaN ty, invalidIf ty l)
  let invalid : Option (Nat × Fl) := some (canonicalNaN ty, fNV)
  let inf (s : Bool) (fl : Fl) : Option (Nat × Fl) := some (signed ty s (infinity ty), fl)
  let zero (s : Bool) : Option (Nat × Fl) := some (signed ty s 0, 0)
  let one : Option (Nat × Fl) := some ((2 ^ (tyWidth ty - 2 - sigBits ty) - 1) * 2 ^ sigBits ty, 0)
  let sum (flip : Bool) : Option (Nat × Fl) :=
    let sb := negative ty b != flip
    if isNaN ty a || isNaN ty b then nan [a, b]
    else if isInfinite ty a && isInfinite ty b then (if negative ty a = sb then inf sb 0 else invalid)
    else if isInfinite ty a then inf (negative ty a) 0
    else if isInfinite ty b then inf sb 0
    else none
  let sp := negative ty a != negative ty b
  let clash : Bool := (isInfinite ty a && isZero ty b) || (isZero ty a && isInfinite ty b)
  let product : Option (Nat × Fl) :=
    if isNaN ty a || isNaN ty b then nan [a, b]
    else if clash then invalid
    else if isInfinite ty a || isInfinite ty b then inf sp 0
    else none
  [(.vadd f, sum false), (.vsub f, sum true), (.vmul f, product),
   (.vfma f, if isNaN ty a || isNaN ty b then nan [a, b, c] else if clash then invalid else if isNaN ty c then nan [c]
     else if isInfinite ty a || isInfinite ty b then (if isInfinite ty c && negative ty c != sp then invalid else inf sp 0)
     else if isInfinite ty c then inf (negative ty c) 0 else none),
   (.vdiv f, if isNaN ty a || isNaN ty b then nan [a, b]
     else if (isZero ty a && isZero ty b) || (isInfinite ty a && isInfinite ty b) then invalid
     else if isInfinite ty a then inf sp 0 else if isZero ty b then inf sp fDZ else if isInfinite ty b || isZero ty a then zero sp else none),
   (.vrcp f, if isNaN ty a then nan [a] else if isZero ty a then inf (negative ty a) fDZ
     else if isInfinite ty a then zero (negative ty a) else none),
   (.vsqrt f, if isNaN ty a then nan [a] else if isZero ty a then zero (negative ty a) else if negative ty a then invalid
     else if isInfinite ty a then inf false 0 else none),
   (.vrsq f, if isNaN ty a then nan [a] else if isZero ty a then inf (negative ty a) fDZ else if negative ty a then invalid
     else if isInfinite ty a then zero false else none)] ++
  (([.vexp f, .vexp2 f] : List Instr).map fun x => (x, if isNaN ty a then nan [a] else if isInfinite ty a then (if negative ty a then zero false else inf false 0)
     else if isZero ty a then one else none)) ++
  (([.vlog f, .vlog2 f] : List Instr).map fun x => (x, if isNaN ty a then nan [a] else if isZero ty a then inf true fDZ else if negative ty a then invalid
     else if isInfinite ty a then inf false 0 else if some (a, (0 : Fl)) = one then zero false else none)) ++
  [(.vsin f, if isNaN ty a then nan [a] else if isInfinite ty a then invalid else if isZero ty a then zero (negative ty a) else none),
   (.vcos f, if isNaN ty a then nan [a] else if isInfinite ty a then invalid else if isZero ty a then one else none)]

/-- Whether two elements meet condition `cond` of `vcmp`, and the flag (R139). -/
def compares (ty cond a b : Nat) : Bool × Fl :=
  let w := tyWidth ty
  let x : Int := if ty ≤ 7 then intOf w (ty ≤ 3) a else valueOrder ty a
  let y : Int := if ty ≤ 7 then intOf w (ty ≤ 3) b else valueOrder ty b
  let unordered : Bool := decide (8 ≤ ty) && (isNaN ty a || isNaN ty b)
  let holds : Bool := match cond with
    | 0 => decide (x = y) && !unordered
    | 1 => decide (x ≠ y) || unordered
    | 2 => decide (x < y) && !unordered
    | 3 => decide (x ≤ y) && !unordered
    | 4 => decide (y < x) && !unordered
    | 5 => decide (y ≤ x) && !unordered
    | _ => unordered
  (holds, if ty ≤ 7 then 0 else if cond ∈ [2, 3, 4, 5] then (if unordered then fNV else 0) else invalidIf ty [a, b])

/-! ### Conversions, complex products, reductions and scans (06 R142 to R145) -/

/-- TreeSum (02 R61) over 2^`d` leaves, of which some may be absent: the left half's sum and the right half's. -/
def treeOf (op : Nat → Nat → Nat × Fl) : Nat → (Nat → Option Nat) → Option (Nat × Fl)
  | 0, g => (g 0).map fun x => (x, 0)
  | d + 1, g =>
    match treeOf op d g, treeOf op d fun i => g (i + 2 ^ d) with
    | none, y => y
    | x, none => x
    | some x, some y => some ((op x.1 y.1).1, (op x.1 y.1).2 ||| x.2 ||| y.2)

/-- The outcome of a reduction over E elements: of a float type, a NaN that met no other leaf becomes the canonical one
(notes/assumptions/72.md). -/
def reduced (ty : Nat) (op : Nat → Nat → Nat × Fl) (empty : Nat) (g : Nat → Option Nat) : Nat × Fl :=
  let r := (treeOf op (1024 / tyWidth ty).log2 g).getD (empty, 0)
  if 8 ≤ ty ∧ isNaN ty r.1 = true then (canonicalNaN ty, r.2 ||| invalidIf ty [r.1]) else r

/-- The operations at a node of the tree. -/
def addNode (ty m : Nat) (sat : Bool) (a b : Nat) : Nat × Fl :=
  if ty ≤ 7 then (fit (tyWidth ty) (ty ≤ 3) sat (intOf (tyWidth ty) (ty ≤ 3) a + intOf (tyWidth ty) (ty ≤ 3) b), 0) else eAdd ty m sat a b 0
def extremeNode (ty : Nat) (largest : Bool) (a b : Nat) : Nat × Fl :=
  if ty ≤ 7 then (if decide (intOf (tyWidth ty) (ty ≤ 3) a ≤ intOf (tyWidth ty) (ty ≤ 3) b) != largest then a else b, 0)
  else extreme ty largest a b

/-- The largest and smallest integer of a type, or infinity. -/
def topOf (ty : Nat) (largest : Bool) : Nat :=
  let w := tyWidth ty
  if 8 ≤ ty then signed ty (!largest) (infinity ty)
  else if largest then (if ty ≤ 3 then 2 ^ (w - 1) - 1 else 2 ^ w - 1)
  else if ty ≤ 3 then 2 ^ (w - 1) else 0

/-- `vcvt`, `vcmul`, the reductions and the scan in mode `m`: what element `i` becomes, with the flags that it raises. Element `i` of
`vcvt` comes from an element of the part, or keeps its value. -/
noncomputable def wideElements (s : State) (f : X3) (m : Nat) : List (Instr × (Nat → Nat × Fl)) :=
  let td := f.ty.toNat
  let ts := f.md.toNat
  let w := tyWidth td
  let ed := 1024 / w
  let es := 1024 / tyWidth ts
  let part := f.vb.toNat
  let g := guardPred s s.cur f.g
  let a := elemAt w (s.vreg (coreOf s.cur) f.va.toNat)
  let b := elemAt w (s.vreg (coreOf s.cur) f.vb.toNat)
  let old := elemAt w (s.vreg (coreOf s.cur) f.vd.toNat)
  let convert (x : Nat) : Nat × Fl :=
    if td ≤ 7 ∧ ts ≤ 7 then (fit w (td ≤ 3) (f.sat == 1) (intOf (tyWidth ts) (ts ≤ 3) x), 0) else convertElem ts td m (f.sat == 1) x
  let source (i : Nat) : Option Nat := if ed ≤ es then some (part * ed + i) else if part * es ≤ i ∧ i < part * es + es then some (i - part * es) else none
  let leaf (i : Nat) : Option Nat := if i < ed ∧ g.getLsbD i = true then some (a i) else none
  let upTo (n i : Nat) : Option Nat := if i ≤ n then leaf i else none
  let first (r : Nat × Fl) (i : Nat) : Nat × Fl := if i = 0 then r else (0, 0)
  [(.vcvt f, fun i => match source i with
      | some j => if g.getLsbD i then convert (elemAt (tyWidth ts) (s.vreg (coreOf s.cur) f.va.toNat) j) else (old i, 0)
      | none => (old i, 0)),
   (.vcmul f, fun i => if g.getLsbD i then
        (if i % 2 = 0 then ftwo (fmtOf td) m true (a i) (b i) (a (i + 1)) (b (i + 1))
         else ftwo (fmtOf td) m false (a (i - 1)) (b i) (a i) (b (i - 1)))
      else (if f.md.getLsbD 0 then 0 else old i, 0)),
   (.vredAdd f, first (reduced td (addNode td m (f.sat == 1)) 0 leaf)),
   (.vredMin f, first (reduced td (extremeNode td false) (topOf td true) leaf)),
   (.vredMax f, first (reduced td (extremeNode td true) (topOf td false) leaf)),
   (.vscanAdd f, fun i => reduced td (addNode td m (f.sat == 1)) 0 (upTo i))]

/-- Those of them that round, and so have a rounding mode. -/
def wideRounds (f : X3) (x : Instr) : Prop :=
  ((x = .vcvt f ∧ ¬(f.ty.toNat ≤ 7 ∧ f.md.toNat ≤ 7)) ∨ x = .vcmul f ∨ ((x = .vredAdd f ∨ x = .vscanAdd f) ∧ 8 ≤ f.ty.toNat))

/-- Element `i` of a destination that is written under a guard: the new value, or zero or the old one (05 R111, 06 R133). -/
def merge (g : Pred) (zero : Bool) (old new : Nat → Nat) (i : Nat) : Nat :=
  if g.getLsbD i then new i else if zero then 0 else old i

/-- The element permutes and moves: their registers, whether Z zeroes, and the value of element `i` of width `w` (06 R140, R146). -/
noncomputable def permutes (s : State) (f : X3) : List (Instr × List Nat × List Nat × Bool × (Nat → Nat → Nat)) :=
  let va (w : Nat) := elemAt w (s.vreg (coreOf s.cur) f.va.toNat)
  let vb (w : Nat) := elemAt w (s.vreg (coreOf s.cur) f.vb.toNat)
  let amount := (s.sreg s.cur f.md.toNat).toNat
  [(.vperm f, [], [f.vd.toNat, f.va.toNat, f.vb.toNat], f.md.getLsbD 0, fun w i =>
      if vb w i < 1024 / w then va w (vb w i) else 0),
   (.vslide f, [f.md.toNat], [f.vd.toNat, f.va.toNat, f.vb.toNat], false, fun w i =>
      if amount + i < 1024 / w then va w (amount + i)
      else if amount + i < 2 * (1024 / w) then vb w (amount + i - 1024 / w) else 0),
   (.vrotm f, [f.md.toNat], [f.vd.toNat, f.va.toNat, f.vb.toNat], false, fun w i =>
      ((s.vreg (coreOf s.cur) f.va.toNat).toNat + (s.vreg (coreOf s.cur) f.vb.toNat).toNat * 2 ^ 1024) /
        2 ^ (8 * (amount % 128) + w * i) % 2 ^ w),
   (.vbcast f, [f.va.toNat], [f.vd.toNat], f.md.getLsbD 0, fun w _ => (s.sreg s.cur f.va.toNat).toNat % 2 ^ w),
   (.vsel f, [], [f.vd.toNat, f.va.toNat, f.vb.toNat], false, fun w i =>
      if (s.preg s.cur f.md.toNat).getLsbD i then va w i else vb w i),
   (.vins f, [f.va.toNat, f.vb.toNat], [f.vd.toNat], false, fun w i =>
      if i = (s.sreg s.cur f.vb.toNat).toNat then (s.sreg s.cur f.va.toNat).toNat % 2 ^ w
      else elemAt w (s.vreg (coreOf s.cur) f.vd.toNat) i)]

/-- The predicate instructions, their scalar sources and bit `i` of the result, under the guard `g` (06 R147). -/
noncomputable def predicates (s : State) (f : X3) (g : Pred) : List (Instr × List Nat × (Nat → Bool)) :=
  let pa := s.preg s.cur f.va.toNat
  let pb := s.preg s.cur f.vb.toNat
  [(.pand f, [], fun i => g.getLsbD i && (pa.getLsbD i && pb.getLsbD i)), (.por f, [], fun i => g.getLsbD i && (pa.getLsbD i || pb.getLsbD i)),
   (.pxor f, [], fun i => g.getLsbD i && xor (pa.getLsbD i) (pb.getLsbD i)), (.pnot f, [], fun i => g.getLsbD i && !pa.getLsbD i),
   (.pfirst f, [], fun i => g.getLsbD i && pa.getLsbD i && (List.range i).all fun j => !(g.getLsbD j && pa.getLsbD j)),
   (.pcnt f, [f.va.toNat], fun i => decide (i < 1024 / tyWidth f.ty.toNat) && g.getLsbD i &&
      decide (i < (s.sreg s.cur f.va.toNat).toNat))]

/-! ### Memory accesses -/

/-- What a memory instruction is at issue: the fields of its word, the registers it waits for, its checks (09 R210), the access it leaves
outstanding (09 R211), and the scalar registers it writes at once. -/
structure Access9 where
  g : Guard
  fp : BitVec 3
  fo : BitVec 3
  len : Nat
  elem : Bool                 -- an element instruction, whose guard governs elements
  closes : Bool               -- closes an open region (14 R314)
  sregs : List Nat
  vregs : List Nat
  want : Want
  elems : List Elem
  op9 : Nat
  kind : AKind
  cls : Nat
  scope : Nat
  rel : Bool
  bump : List (Nat × Word)

/-- A 64-bit, 32-bit or 96-bit scalar load of `n` bytes. -/
def scalarLoadForm (s : State) (m : MemForm) (op9 n : Nat) : Access9 :=
  { g := m.g, fp := m.fp, fo := m.fo, len := m.len, elem := false, closes := false, sregs := [m.v % 64, m.sa], vregs := [], want := .load
    elems := [⟨0, memEa m s n, scalarReach false (memEa m s n) n, []⟩], op9 := op9, kind := .loadS (m.v % 64) (m.z || n == 8), cls := m.cls
    scope := 0, rel := false
    bump := if m.pi then [(m.sa, s.sreg s.cur m.sa + m.off * BitVec.ofNat 64 n)] else [] }

def scalarStoreForm (s : State) (m : MemForm) (op9 n : Nat) : Access9 :=
  { scalarLoadForm s m op9 n with
    want := .scalar n, kind := .store
    elems := [⟨0, memEa m s n, scalarReach false (memEa m s n) n, natToBytes n (s.sreg s.cur (m.v % 64)).toNat⟩] }

/-- The enabled lanes of a row form, and its one access, none with every lane disabled (09 R212). -/
def lanes (s : State) (g : Guard) : Pred := guardPred s s.cur g &&& 0xFFFFFFFF

def rowLoadForm (s : State) (m : MemForm) : Access9 :=
  { scalarLoadForm s m 0x098 128 with
    elem := true, sregs := [m.sa], vregs := [m.v], kind := .loadV m.v 32 (lanes s m.g) true
    elems := if lanes s m.g = 0 then [] else [⟨0, memEa m s 128, rowReach (memEa m s 128), []⟩] }

def rowStoreForm (s : State) (m : MemForm) : Access9 :=
  { rowLoadForm s m with
    op9 := 0x099, want := .row, kind := .row (lanes s m.g)
    elems := if lanes s m.g = 0 then [] else
      [⟨0, memEa m s 128, rowReach (memEa m s 128), vecBytes (s.vreg (coreOf s.cur) m.v)⟩] }

/-- `vld.ff` (09 R216): besides, 0 in sn. -/
def firstLoadForm (s : State) (m : MemForm) : Access9 :=
  { rowLoadForm s m with
    op9 := 0x09C, sregs := [m.sa, m.sb], kind := .loadV m.v 32 (lanes s m.g) false
    bump := (rowLoadForm s m).bump ++ [(m.sb, 0)] }

/-- A gather, scatter or vector atomic (09 R219, R220): one access for each enabled element. -/
def indexedForm (s : State) (f : FX) (op9 : Nat) (kind : AKind) (closes : Bool) : Access9 :=
  { g := f.g, fp := f.fp, fo := f.fo, len := 8, elem := true, closes := closes, sregs := [f.sa.toNat], vregs := [f.vd.toNat, f.vi.toNat]
    want := if kind.isLoad then .load else .scalar (tyWidth f.ty.toNat / 8), elems := fxAccesses f (!kind.isLoad) s, op9 := op9, kind := kind
    cls := f.cls.toNat, scope := f.sc.toNat, rel := false, bump := [] }

/-- A scalar atomic (09 R221). -/
def atomicForm (s : State) (f : FA) (op9 : Nat) (op : Amo) : Access9 :=
  let w := if f.wd = 1 then 64 else 32
  let ea := s.sreg s.cur f.sa.toNat
  let low (n : Nat) : Word := BitVec.ofNat 64 ((s.sreg s.cur n).toNat % 2 ^ w)
  { g := f.g, fp := f.fp, fo := f.fo, len := 8, elem := false, closes := true, sregs := [f.sd.toNat, f.sa.toNat, f.sb.toNat, f.sc.toNat]
    vregs := [], want := .scalar (w / 8), elems := [⟨0, ea, scalarReach true ea (w / 8), []⟩], op9 := op9
    kind := .amo op w (low f.sb.toNat) (low f.sc.toNat) (if f.sd = 0 then none else some f.sd.toNat), cls := f.cls.toNat
    scope := f.scope.toNat, rel := false, bump := [] }

/-- `bar.init` writes a word with the expected count, and `bar.arr` is a releasing arrival (09 R223, R224). -/
def barrierForm (s : State) (f : FY) (arrive : Bool) : Access9 :=
  let ea := s.sreg s.cur f.sa.toNat
  let w := field (s.sreg s.cur f.sb.toNat) 0 16 * 2 ^ 32
  { g := f.g, fp := f.fp, fo := f.fo, len := 8, elem := false, closes := true, sregs := if arrive then [f.sa.toNat] else [f.sa.toNat, f.sb.toNat]
    vregs := [], want := .scalar 8, elems := [⟨0, ea, scalarReach true ea 8, if arrive then [] else natToBytes 8 w⟩]
    op9 := if arrive then 0x0B9 else 0x0B8, kind := if arrive then .amo .arrive 64 0 0 none else .store, cls := 0, scope := f.k.toNat % 8
    rel := arrive, bump := [] }

/-- Every load and what it is at issue. -/
noncomputable def loadForms (s : State) (m : FM) (l : FM96) (c : CL) (r : CR) (x : FX) : List (Instr × Access9) := [
  (.ldB m, scalarLoadForm s m.form 0x090 1), (.ldH m, scalarLoadForm s m.form 0x091 2), (.ldW m, scalarLoadForm s m.form 0x092 4),
  (.ldD m, scalarLoadForm s m.form 0x093 8), (.ldBX96 l, scalarLoadForm s l.form 0x090 1), (.ldHX96 l, scalarLoadForm s l.form 0x091 2),
  (.ldWX96 l, scalarLoadForm s l.form 0x092 4), (.ldDX96 l, scalarLoadForm s l.form 0x093 8),
  (.ldBX32 c, scalarLoadForm s (c.form false) 0x090 1), (.ldHX32 c, scalarLoadForm s (c.form false) 0x091 2),
  (.ldWX32 c, scalarLoadForm s (c.form false) 0x092 4), (.ldDX32 c, scalarLoadForm s (c.form false) 0x093 8),
  (.ldBZX32 c, scalarLoadForm s (c.form true) 0x090 1), (.ldHZX32 c, scalarLoadForm s (c.form true) 0x091 2),
  (.ldWZX32 c, scalarLoadForm s (c.form true) 0x092 4), (.vldRow m, rowLoadForm s m.form), (.vldRowX96 l, rowLoadForm s l.form),
  (.vldRowX32 r, rowLoadForm s r.form), (.vldFf m, firstLoadForm s m.form), (.vldFfX96 l, firstLoadForm s l.form),
  (.vgat x, indexedForm s x 0x0A0 (.loadV x.vd.toNat (tyWidth x.ty.toNat) (guardPred s s.cur x.g) false) false)]

/-- Every store, atomic and arrival and what it is at issue. -/
noncomputable def storeForms (s : State) (m : FM) (l : FM96) (c : CT) (r : CR) (x : FX) (a : FA) (y : FY) : List (Instr × Access9) := [
  (.stB m, scalarStoreForm s m.form 0x094 1), (.stH m, scalarStoreForm s m.form 0x095 2), (.stW m, scalarStoreForm s m.form 0x096 4),
  (.stD m, scalarStoreForm s m.form 0x097 8), (.stBX96 l, scalarStoreForm s l.form 0x094 1), (.stHX96 l, scalarStoreForm s l.form 0x095 2),
  (.stWX96 l, scalarStoreForm s l.form 0x096 4), (.stDX96 l, scalarStoreForm s l.form 0x097 8),
  (.stBX32 c, scalarStoreForm s c.form 0x094 1), (.stHX32 c, scalarStoreForm s c.form 0x095 2), (.stWX32 c, scalarStoreForm s c.form 0x096 4),
  (.stDX32 c, scalarStoreForm s c.form 0x097 8), (.vstRow m, rowStoreForm s m.form), (.vstRowX96 l, rowStoreForm s l.form),
  (.vstRowX32 r, rowStoreForm s r.form), (.vsct x, indexedForm s x 0x0A1 .scatter false),
  (.vamoOr x, indexedForm s x 0x0A2 (.vamo .or (tyWidth x.ty.toNat)) true), (.vamoAdd x, indexedForm s x 0x0A3 (.vamo .add (tyWidth x.ty.toNat)) true),
  (.vamoMax x, indexedForm s x 0x0A4 (.vamo (if x.ty.toNat ≤ 3 then .max else .maxu) (tyWidth x.ty.toNat)) true),
  (.amoAdd a, atomicForm s a 0x0A8 .add), (.amoSwap a, atomicForm s a 0x0A9 .swap), (.amoAnd a, atomicForm s a 0x0AA .and),
  (.amoOr a, atomicForm s a 0x0AB .or), (.amoXor a, atomicForm s a 0x0AC .xor), (.amoMin a, atomicForm s a 0x0AD .min),
  (.amoMax a, atomicForm s a 0x0AE .max), (.amoMinu a, atomicForm s a 0x0AF .minu), (.amoMaxu a, atomicForm s a 0x0B0 .maxu),
  (.amoCas a, atomicForm s a 0x0B1 .cas), (.barInit y, barrierForm s y false), (.barArr y, barrierForm s y true)]

/-- The state issues this memory instruction; no access of the stream to another package is under way, and no tag change of the stream's
own stands before it at its tiles (10 R235). -/
def Accesses (s : State) (a : Access9) : Prop :=
  Issues s a.fp a.fo a.sregs a.vregs ∧ (a.elem = true ∨ guardTrue s s.cur a.g = true) ∧ NoLoopEnd s.now ∧
  (a.closes = true → s.now.open = false) ∧ ownRemote s = none ∧
  ∀ e ∈ a.elems, tagAhead s s.cur a.cls (tidOf e.ea) (fun tb n => offOf e.ea / tb == n) = false

/-- No element of the instruction lies in another package. -/
def AllLocal (s : State) (a : Access9) : Prop := ∀ e ∈ a.elems, ∀ tn, checkElem s (s.ctx s.cur) a.want e ≠ .remote tn

/-- `s` with the registers that the instruction writes at issue. -/
def bumped (s : State) (a : Access9) : State := s.applyAll (a.bump.map fun x => .sreg s.cur x.1 x.2)

/-- `s` with the guard latch set by the first touch of a guard granule, if there was one (08 R203). -/
def latched (s : State) (store : Bool) (touch : Option Nat) : State :=
  match touch with
  | some o => s.setCtl (latchTouch store o s.now)
  | none => s

/-- The access that the instruction leaves outstanding, with the pieces `ps`. -/
def Access9.access (s : State) (a : Access9) (ps : List Piece) : Access :=
  { k := s.cur, cls := a.cls, scope := a.scope, rel := a.rel, kind := a.kind, pieces := ps, got := [], want := a.want
    rows := (ps.flatMap fun p => rowsOfSpot p.spot).eraseDups, remote := false, near := [], probe := false, reply := none
    handle := (a.elems.map (·.ea)).headD 0, pc := s.now.pc, op9 := a.op9 }

/-- `s` with the access outstanding, its pieces `ps` still to perform. -/
def outstanding (s : State) (a : Access9) (ps : List Piece) : State :=
  (s.apply (.access s.nextId (some (a.access s ps)))).apply .fresh

/-- The keys of the bytes of a place that nothing stands before: a key, the two of a doubleword, or bytes of a tile that is not of class zero,
COW or MOVING. -/
def LiesAt (s : State) (spot : Spot) (n : Nat) (keys : List Nat) : Prop :=
  (∃ a, spot = .key a ∧ keys = List.range' a n) ∨
  (∃ lo hi, spot = .pair (.key lo) (.key hi) ∧ (lo + 4 ≤ hi ∨ hi + (n - 4) ≤ lo) ∧ keys = List.range' lo (min n 4) ++ List.range' hi (n - 4)) ∨
  (∃ asid tid off tn e, spot = .tile asid tid off ∧ readTensor s asid tid = some tn ∧ e = readTile s tn (off / tn.tbytes) ∧
    e.moving = false ∧ e.cow = false ∧ classOf e.tag ≠ 1 ∧ keyHbm (e.frame * 4096 + off % tn.tbytes) + n ≤ 2 ^ 39 ∧ keys = List.range' (frameKey tid e.frame (off % tn.tbytes)) n)

/-- Bytes at these keys are `data`, one after the other, where `on` says so, and everything else of memory is as in `s`. -/
def Stored (s t : State) (keys : List Nat) (data : List Byte) (on : Nat → Bool) : Prop :=
  (∀ i, i < keys.length → t.byte (keys.getD i 0) = if on i then data.getD i 0 else s.byte (keys.getD i 0)) ∧
  ∀ b, b ∉ keys → t.byte b = s.byte b

/-- What is left of access `n` when piece `p` has performed, which writes no vector, predicate or accumulator. -/
def Performed (s t : State) (n : Nat) (a : Access) (p : Piece) : Prop :=
  t.access n = (if a.pieces.erase p = [] then none else some { a with pieces := a.pieces.erase p }) ∧
  t.vregs = s.vregs ∧ t.pregs = s.pregs ∧ t.accw = s.accw ∧ t.ops = s.ops ∧ t.cores = s.cores

/-- `t` is `s` after the acting stream has issued an instruction of `len` bytes that retires in a later step, as `l` says: the stream goes
on behind it, and it is neither counted nor has it pushed. -/
def IssuedLate (s t : State) (l : Late) (len : Word) (fo : BitVec 3) : Prop :=
  t.ctl s.cur = { s.now with
    pc := s.now.pc + len, blocked := none, walked := [], code := none, late := s.now.late ++ [l] } ∧
  (∀ j, j ≠ s.cur → t.ctl j = s.ctl j) ∧ Fifos s t 0 fo ∧ (∀ c, { t.core c with fifo := (s.core c).fifo } = s.core c) ∧
  (∀ c, c ≠ coreOf s.cur → t.core c = s.core c) ∧ { t with ctls := s.ctls, cores := s.cores } = s

/-! ### Control registers, queues, node instructions -/

/-- `s` with the record of the acting stream's core changed. -/
def onOwnCore (s : State) (f : Core → Core) : State := s.apply (.core (coreOf s.cur) (f (s.core (coreOf s.cur))))

/-- The registers of a stream by index (01 R23), `time` clk after the start. -/
def streamRegisters (time : Word) (c : Ctl) : List (Nat × Word) := [
  (0x000, c.status), (0x003, c.cycle + time), (0x001, c.fpctl), (0x002, c.fpflags), (0x004, c.instret), (0x005, c.parks), (0x006, c.rgn), (0x007, c.rgnpc),
  (0x008, c.rgns), (0x009, c.rgnp), (0x010, c.l0.lc.setWidth 64), (0x011, c.l1.lc.setWidth 64), (0x012, c.l2.lc.setWidth 64),
  (0x013, c.l3.lc.setWidth 64), (0x014, c.l0.lb), (0x015, c.l1.lb), (0x016, c.l2.lb), (0x017, c.l3.lb), (0x018, c.l0.le), (0x019, c.l1.le),
  (0x01A, c.l2.le), (0x01B, c.l3.le), (0x100, c.epc), (0x101, c.cause), (0x102, c.tval), (0x103, c.tvec), (0x104, c.scratch)]

/-- Registers of a core (05 R120, 12 R279, 13 R306, 18 R388) and of the package (14 R337, 16 R344, R348, 17 R360, 18 R388). -/
def coreRegisters (r : Core) : List (Nat × Word) := [
  (0x208, FMap.get 0 r.qsrc 0), (0x20F, FMap.get 0 r.qsrc 7), (0x210, FMap.get 0 r.qsnk 0), (0x217, FMap.get 0 r.qsnk 7), (0x218, r.qflags),
  (0x21C, r.parklim), (0x220, r.livesp), (0x221, r.liveacc), (0x300, r.teamInfo), (0x301, r.teamWait), (0x600, r.mtxFlags),
  (0x610, r.shadow.getD 0 0), (0x61D, r.shadow.getD 13 0), (0x700, r.przFlags), (0x701, r.przCflags), (0xA14, r.lnkCflags)]

def packageRegisters (p : Pkg) : List (Nat × Word) := [
  (0x400, p.trsCfg), (0x403, p.trsPre), (0x510, p.astab), (0x710, p.mapbase), (0x800, p.pwrCfg), (0x802, p.energy), (0x903, p.tamper),
  (0x904, p.tfuse), (0xA10, p.lnkId), (0xA11, p.lnkCfg), (0xA12, p.treeIdx), (0xB00, p.hbase), (0xB04, p.cmpErr)]

noncomputable def ctlWrites (f : FY) : List (Instr × WMode) := [(.ctlWr f, .wr), (.ctlSet f, .set), (.ctlClr f, .clr)]

/-- The package registers whose writes do nothing but change the register. -/
def plainPackage (ix : Nat) (v : Word) (p : Pkg) : Pkg :=
  match ix with
  | 0x400 => { p with trsCfg := v }
  | 0x403 => { p with trsPre := v }
  | 0x510 => { p with astab := v }
  | 0x710 => { p with mapbase := v }
  | 0xA11 => { p with lnkCfg := v }
  | 0xA12 => { p with treeIdx := v }
  | _ => { p with cmpErr := v }

/-- `s` with register `ix`, which is no queue format, holding `v`. -/
def withRegister (s : State) (ix : Nat) (v : Word) : State :=
  if ix < 0x200 then s.setCtl (setStm ix s.time v s.now)
  else if 0x500 ≤ ix ∧ ix ≤ 0x502 then
    s.apply (.ctl (3 * coreOf s.cur + (ix - 0x500)) { s.ctl (3 * coreOf s.cur + (ix - 0x500)) with glatch := v })
  else if ix ∈ [0x400, 0x403, 0x510, 0x710, 0xA11, 0xA12, 0xB04] then s.apply (.pkg (plainPackage ix v s.pkg))
  else onOwnCore s (setCore ix v)

/-- The writes that `withRegister` describes. -/
def plainRegister (ix : Nat) : Prop :=
  ix < 0x200 ∨ (0x500 ≤ ix ∧ ix ≤ 0x502) ∨
  ix ∈ [0x400, 0x403, 0x510, 0x710, 0xA11, 0xA12, 0xB04, 0x218, 0x21C, 0x220, 0x221, 0x301, 0x600, 0x700, 0x701, 0xA14] ∨
  (0x610 ≤ ix ∧ ix ≤ 0x61D)

/-- The RW fields of a register, by lowest bit and width, as the tables of its chapter give them (01 R23 to R27, 05 R121, R124, 07 R174,
08 R207, 12 R279, 13 R306, 14 R337, 16 R344, 17 R360, 18 R388). -/
def rwFields (ix : Nat) : List (Nat × Nat) :=
  if ix = 0x000 then [(3, 1), (5, 1), (6, 1)]
  else if ix = 0x001 then [(0, 3), (8, 1), (9, 1), (10, 1), (11, 1), (12, 1)]
  else if ix = 0x002 then [(0, 1), (1, 1), (2, 1), (3, 1), (4, 1)]
  else if ix = 0x003 ∨ ix = 0x004 then [(0, 64)]
  else if ix = 0x005 then [(0, 32)]
  else if 0x010 ≤ ix ∧ ix ≤ 0x013 then [(0, 32)]
  else if 0x014 ≤ ix ∧ ix ≤ 0x01B then [(0, 64)]
  else if ix = 0x100 ∨ ix = 0x103 then [(2, 62)]
  else if ix = 0x101 then [(0, 8), (8, 1)]
  else if ix = 0x102 ∨ ix = 0x104 then [(0, 64)]
  else if 0x208 ≤ ix ∧ ix ≤ 0x217 then [(0, 4), (4, 3), (7, 1)]
  else if ix = 0x21C ∨ ix = 0x301 ∨ ix = 0x400 then [(0, 32)]
  else if ix = 0x220 ∨ ix = 0x221 then [(0, 64)]
  else if ix = 0x403 then [(0, 32), (32, 3)]
  else if ix = 0x508 then [(0, 9), (9, 9)]
  else if ix = 0x510 then [(7, 32)]
  else if 0x610 ≤ ix ∧ ix ≤ 0x61D then [(0, 64)]
  else if ix = 0x710 then [(16, 23)]
  else if ix = 0x800 then [(0, 12), (16, 5)]
  else if 0xA00 ≤ ix ∧ ix ≤ 0xA0F then [(40, 4), (46, 2)]
  else if ix = 0xA11 then [(0, 32), (32, 32)]
  else if ix = 0xA12 then [(0, 10)]
  else if ix = 0xA13 then [(0, 16), (16, 1), (58, 5), (63, 1)]
  else if ix = 0xB00 then [(12, 27)]
  else []

/-- The same of the W1C fields (05 R122, 08 R205, 12 R279, 13 R306, 16 R348, 17 R360, 18 R388). -/
def w1cFields (ix : Nat) : List (Nat × Nat) :=
  if ix = 0x218 then (List.range 8).flatMap fun n => [(8 * n, 1), (8 * n + 1, 1), (8 * n + 2, 1), (8 * n + 4, 1), (8 * n + 7, 1)]
  else if 0x500 ≤ ix ∧ ix ≤ 0x502 then [(63, 1)]
  else if ix = 0x600 then [(0, 7)]
  else if ix = 0x700 then [(0, 1), (1, 1), (2, 1), (4, 1), (5, 1)]
  else if ix = 0x701 then [(0, 1), (1, 1), (2, 1), (3, 1)]
  else if ix = 0x903 then [(0, 8)]
  else if ix = 0xA14 then [(0, 1), (1, 1), (2, 1), (4, 1)]
  else if ix = 0xB04 then [(0, 1), (1, 1)]
  else []

/-- The bit lies in one of the fields. -/
def inFields (l : List (Nat × Nat)) (b : Nat) : Bool := l.any fun f => decide (f.1 ≤ b ∧ b < f.1 + f.2)

/-- The registers that user level may read and write, and those it may only read, by the User columns of their tables. -/
def userBoth : List Nat := [0x001, 0x002] ++ List.range' 0x208 16 ++ [0x218, 0x220, 0x221, 0x600, 0x700, 0x701, 0xA14]
def userOnlyRead : List Nat :=
  [0x000] ++ List.range' 0x003 7 ++ List.range' 0x010 12 ++ [0x219, 0x21A, 0x21B, 0x300, 0x801, 0x802] ++ List.range' 0x808 4 ++
    [0x900, 0x901, 0x904]

/-- The registers that user level may not reach (the None columns, 07 R174, 08 R205, R207, 17 R360, 18 R364, R388). -/
def supervisorRegisters : List Nat :=
  List.range' 0x100 5 ++ [0x200, 0x21C, 0x301] ++ List.range' 0x400 5 ++ List.range' 0x500 3 ++ [0x508, 0x510] ++ List.range' 0x610 14 ++
    [0x710, 0x800, 0x902, 0x903, 0x905] ++ List.range' 0xA00 20 ++ List.range' 0xB00 5 ++ List.range' 0xC00 256

/-- The instructions of the supervisor but for the control registers', and their OP9 (01 R17). -/
noncomputable def supervisorOnly (f : FY) : List Instr := [
  .rte f, .halt f, .tinvInvalidate f, .tinvInvalidateTensor f, .tinvInvalidateAsid f, .tinvUnmap f, .tinvMoveBegin f, .tinvMoveCommit f,
  .tinvMoveAbort f, .pin f, .unpin f, .fltRd f]

/-- `s` with outcome queue `n` of the acting stream's core holding `l`. -/
def withOutcomes (s : State) (n : Nat) (l : List Bool) : State := onOwnCore s fun c => { c with bq := FMap.set [] c.bq n l }

/-! ### Barriers, waits, traps -/

/-- The atomic read of its barrier word that `bar.wt` makes (09 R224). -/
def barrierRead (s : State) (f : FY) (ps : List Piece) : Access :=
  { k := s.cur, cls := 0, scope := f.k.toNat % 8, rel := false, kind := .loadS 0 true, pieces := ps, got := [], want := .scalar 8
    rows := (ps.flatMap fun p => rowsOfSpot p.spot).eraseDups, remote := false, near := [], probe := false, reply := none
    handle := s.sreg s.cur f.sa.toNat, pc := s.now.pc, op9 := 0x0BA }

/-- The stream can read the word of its `bar.wt`, which is `w`: no tag change of its own is out, the checks pass, no access of window 1 is
out, the guard latch is clear, and class order lets the read perform. -/
def Barred (s : State) (f : FY) (touch : Option Nat) (w : Nat) : Prop :=
  Executes s f.g f.fp f.fo [f.sa.toNat, f.sb.toNat] [] ∧ ownRemote s = none ∧ (∀ e ∈ accessesOf s s.cur, e.2.kind.isTag = false) ∧
  window1Out s s.cur = false ∧ bitOf s.now.glatch 63 = false ∧
  ∃ ps, checkAll s (s.ctx s.cur) (.scalar 8) [⟨0, s.sreg s.cur f.sa.toNat, scalarReach true (s.sreg s.cur f.sa.toNat) 8, []⟩] = .ok (ps, touch) ∧
    inOrder s s.nextId (barrierRead s f ps) = true ∧ w = bytesToNat (ps.flatMap (loadBytes s s.nextId (barrierRead s f ps)))

/-- What `bar.wt` does with the word `w`: the generation passed, or, with sb[16], its parity is sb[0], and it retires; or it waits. -/
def Waited (s t : State) (f : FY) (touch : Option Nat) (w : Nat) : Prop :=
  let gen := w / 2 ^ 48 % 2 ^ 16
  let sb := (s.sreg s.cur f.sb.toNat).toNat
  let passed := if sb / 2 ^ 16 % 2 = 1 then gen % 2 = sb % 2 else (gen + 2 ^ 16 - sb % 2 ^ 16) % 2 ^ 16 < 2 ^ 15
  (passed → Retired (latched s false touch) t (s.now.pc + 8) f.fp f.fo) ∧
  (¬passed → (t.ctl s.cur).run = .atBar f ∧ (t.ctl s.cur).pc = s.now.pc ∧ t.sregs = s.sregs ∧ t.mem = s.mem ∧
    ∀ j, j ≠ s.cur → t.ctl j = s.ctl j)

/-- A fence that has issued and waits for the accesses `accs`. -/
def lateFence (s : State) (f : FY) (accs : List Nat) (engine : Bool) : Late :=
  ⟨f.fp, none, accs, none, none, [], true,
    some ⟨s.nextId, if engine then 0 else f.k.setWidth 16, f.k.toNat / 2 ^ 16 % 8, engine, false⟩⟩

/-- Stream `k`, which waited at its barrier, acts. -/
def woken (s : State) (k : Nat) : State := (s.apply (.cur k)).apply (.ctl k { s.ctl k with run := .running })

/-! ### Engines -/

/-- What the checks at issue ask of each engine instruction's operands, whether it closes a region, and what it records beside its
operands (12 R270 to R276, 13 R294 to R305, 18 R380 to R386). -/
structure EngineForm where
  op9 : Nat
  closes : Bool
  passes : Prop
  record : Op → Op

/-- The loop nest's table is well formed and its reads lie in range. -/
def nestReady (s : State) (o : Op) : Prop :=
  let table := (s.core o.core).shadow
  let head := table.getD 0 0
  headOk head (table.getD 1 0) = true ∧ (∀ i, i < 6 → levelOk (table.getD (2 * i + 3) 0) = true) ∧
  (modeMx (headMode head) = true → ∀ l ∈ levelsOf table, l.bk % 32 = 0) ∧
  ((∃ l ∈ levelsOf table, l.count = 0) ∨ tidOf o.a1 ≠ 3 ∧
    rangeCheck s (opCtx s o) o.a1 (goRange table).1 ((goRange table).2 + rowBytes (headMode head) (headK head) - 1) false = none)

/-- The output of `mtx.st` is one that it accepts and lies in range. -/
def storeReady (s : State) (o : Op) : Prop :=
  let d := ((stRows o : Int) - 1) * stMstr o
  stTy o ∈ [0, 1, 2, 8, 9, 10, 12, 13, 14] ∧ field o.a3 36 3 < 5 ∧ (bitOf o.a3 39 = true → bitOf o.a3 40 = true ∧ stTy o ≤ 2) ∧
  field o.a3 42 22 = 0 ∧ (12 ≤ stTy o → stCols o % 32 = 0) ∧
  (stRows o = 0 ∨ stCols o = 0 ∨ tidOf o.a1 ≠ 3 ∧
    rangeCheck s (opCtx s o) o.a1 (Min.min d 0) (Max.max d 0 + stBytes o - 1) true = none)

/-- Every engine instruction that leaves an operation, but for `mtx.rd`, with the operation as its word and registers give it. -/
noncomputable def engineForms (s : State) (f : FE) : List (Instr × EngineForm) :=
  let o (op9 : Nat) : Op := newOp s op9 f
  [(.mtxWb f, ⟨0x0D1, false, ∃ tn, readTensor s (s.ctx s.cur).asid (tidOf (o 0x0D1).a1) = some tn ∧ tn.remote = false ∧
      offOf (o 0x0D1).a1 < tn.bytes ∧ tn.rd = true ∧ (s.sreg s.cur f.a2.toNat).toNat % 2 ^ 7 + (tn.tbytes + 4095) / 4096 ≤ 128, id⟩),
   (.mtxGo f, ⟨0x0D2, false, nestReady s (o 0x0D2), fun x => { x with table := (s.core x.core).shadow }⟩),
   (.mtxClr f, ⟨0x0D3, false, (o 0x0D3).a2.toNat ≤ 2 ^ 18, id⟩),
   (.mtxSt f, ⟨0x0D5, false, storeReady s (o 0x0D5), id⟩),
   (.przCfg f, ⟨0x0D8, false, rangeCheck s (opCtx s (o 0x0D8)) (o 0x0D8).a1 0 63 false = none, id⟩),
   (.przFft f, ⟨0x0D9, false, (o 0x0D9).a3.toNat < 2 ^ 32, id⟩), (.przSht f, ⟨0x0DA, false, (o 0x0DA).a3.toNat < 2 ^ 32, id⟩),
   (.cpy f, ⟨0x0DB, false, cpyCheck s (o 0x0DB) = none, id⟩), (.cpyCvt f, ⟨0x0DC, false, cvtCheck s (o 0x0DC) = none, id⟩),
   (.cpyG f, ⟨0x0DD, false, True, id⟩), (.mirGo f, ⟨0x0DE, true, (o 0x0DE).a2.toNat < 2 ^ 13, id⟩),
   (.colWr f, ⟨0x0E0, true, (o 0x0E0).a2.toNat < 2 ^ 12 ∧ (o 0x0E0).a3.toNat % 256 = 0, id⟩),
   (.colRed f, ⟨0x0E1, true, (o 0x0E1).a2.toNat < 2 ^ 12, id⟩),
   (.colArm f, ⟨0x0E2, true, (o 0x0E2).a3 ≠ 0 ∧ tidOf (o 0x0E2).a1 ≠ 3 ∧ tidOf (o 0x0E2).a3 ≠ 3, fun x => { x with vd := dieOf x.core }⟩),
   (.colCtr f, ⟨0x0E3, true, True, fun x => { x with fn := givenRegs f }⟩),
   (.cowMark f, ⟨0x0E4, true, True, fun x => { x with fn := givenRegs f }⟩),
   (.drnGo f, ⟨0x0E5, true, tidOf (o 0x0E5).a2 ≠ 3, fun x => { x with fn := givenRegs f }⟩)]

/-- `s` with the operation issued: its token incomplete, the operation the newest. -/
def withOperation (s : State) (o : Op) : State :=
  ((if o.kp = 0 then s else onOwnCore s fun c => { c with toks := FMap.set .complete c.toks o.kp .incomplete }).apply
    (.op s.nextId (some o))).apply .fresh

/-- No token that the instruction waits for is cancelled, and its own is free. -/
def engineFree (s : State) (f : FE) : Prop :=
  (∀ n ∈ feWaits f, (s.core (coreOf s.cur)).tok n ≠ .cancelled) ∧ (s.core (coreOf s.cur)).tok f.kp.toNat ≠ .incomplete

/-- An `xfence` of the stream that has still to retire, or, with `.rel` and a scope beyond the stream, a write of its own that is out keeps the
instruction back. -/
def keptBack (s : State) (f : FE) : Prop :=
  (∃ l ∈ s.now.late, ∃ x, l.fence = some x ∧ x.engine = true) ∨ (f.rel = 1 ∧ f.sc ≠ 0 ∧ ∃ e ∈ accessesOf s s.cur, e.2.kind.isLoad = false)

/-! ### Tiles, teams, launches -/

/-- `s` with a token taken from `fo`. -/
def taken (s : State) (fo : BitVec 3) : State := s.applyAll (popFifo (coreOf s.cur) fo s)

/-- `t` is `s` after the acting stream has taken from `fo`, had the effects `e` and retired in sequence, giving to `fp`. -/
def RetiredWith (s t : State) (e : Fx) (fp fo : BitVec 3) : Prop :=
  let v := (taken s fo).applyAll (e (taken s fo))
  { t with ctls := v.ctls, cores := v.cores } = v ∧ (∀ j, j ≠ s.cur → t.ctl j = v.ctl j) ∧
  (∀ c, { t.core c with fifo := (v.core c).fifo } = v.core c) ∧ (∀ c, c ≠ coreOf s.cur → t.core c = v.core c) ∧
  (∀ n, FMap.get 0 (t.core (coreOf s.cur)).fifo n =
    FMap.get 0 (v.core (coreOf s.cur)).fifo n + (if fp ≠ 0 ∧ n = fp.toNat - 1 then 1 else 0)) ∧
  t.ctl s.cur = ({ (loopEnd (v.ctl s.cur).pc 8 4 (v.ctl s.cur)) with
    instret := (v.ctl s.cur).instret + 1, blocked := none, walked := [], code := none } : Ctl).norm

/-- `t` is `s` after the acting stream has taken from `fo`, had the effects `e` and issued: it waits to retire, giving to `fp`, until the
parts of the accesses `accs` in the tiles `set` have performed. -/
def IssuedWith (s t : State) (e : Fx) (accs : List Nat) (set : TileSet) (fp fo : BitVec 3) : Prop :=
  let v := (taken s fo).applyAll (e (taken s fo))
  { t with ctls := v.ctls } = v ∧ (∀ j, j ≠ s.cur → t.ctl j = v.ctl j) ∧
  t.ctl s.cur = ({ (loopEnd (v.ctl s.cur).pc 8 4 (v.ctl s.cur)) with
    blocked := none, walked := [], code := none, run := .retiring
    late := (v.ctl s.cur).late ++ [⟨fp, none, accs, some set, none, [], true, none⟩] } : Ctl).norm

/-- The instructions that change a range of tiles: the range, whether their tiles let them, and the change (14 R326, R329). -/
noncomputable def tileForms (s : State) (f : FY) : List (Instr × Option TRange × (TRange → Prop) × (TRange → Fx)) :=
  let asid := f.k.toNat / 2 ^ 12
  let range : Option TRange := rangeOf s asid (s.sreg s.cur f.sa.toNat) ((s.sreg s.cur f.sb.toNat).toNat / 2 ^ 32)
  let whole : Option TRange := (rangeOf s asid (s.sreg s.cur f.sa.toNat) 0).map fun r => { r with first := 0, count := r.t.ntiles }
  let base := (s.sreg s.cur f.sb.toNat).toNat % 2 ^ 27
  let tile (r : TRange) (n : Nat) : Tile := readTile s r.t n
  [(.tinvInvalidate f, range, fun _ => True, fun _ => Fx.none), (.tinvInvalidateTensor f, whole, fun _ => True, fun _ => Fx.none),
   (.tinvUnmap f, range, fun r => ∀ n ∈ r.tiles, (tile r n).pin = false, fun r => eachTile r fun _ e => { e with w0 := setField e.w0 31 1 0 }),
   (.tinvMoveBegin f, range, fun r => ∀ n ∈ r.tiles, (tile r n).pin = false ∧ (tile r n).valid = true ∧ classOf (tile r n).tag ≠ 1,
      fun r => eachTile r fun _ e => { e with w0 := setField e.w0 28 1 1 }),
   (.tinvMoveCommit f, range, fun r => ∀ n ∈ r.tiles, (tile r n).moving = true, fun r =>
      (Fx.each (fun i => fun s => copyFrame r.t.tid r.t.g (readTile s r.t (r.first + i)).frame ((base + i * r.t.g) % 2 ^ 27) s)
        (List.range r.count)).andThen ((eachTile r fun i e => { e with
          w0 := setField (setField e.w0 36 27 ((base + i * r.t.g) % 2 ^ 27)) 28 1 0 }).andThen (releaseHeld r))),
   (.tinvMoveAbort f, range, fun r => ∀ n ∈ r.tiles, (tile r n).moving = true, fun r =>
      (eachTile r fun _ e => { e with w0 := setField e.w0 28 1 0 }).andThen (releaseHeld r))]

/-- A supervisor instruction on tiles issues: its registers are free, no region is open and no write of the stream is out. -/
def TileIssue (s : State) (f : FY) : Prop :=
  Executes s f.g f.fp f.fo [f.sd.toNat, f.sa.toNat, f.sb.toNat] [] ∧ s.now.prv = true ∧ s.now.open = false

/-- Nothing of a placed team is under way, and it can be stopped where it is. -/
def Quiet (s : State) (n : Nat) (tm : Team) : Prop :=
  tm.state = .placed ∧ atBoundary s tm = true ∧ (∀ k ∈ teamStreams tm, accessesOf s k = [] ∧ (s.ctl k).late = []) ∧ teamOps s n = [] ∧
  ∀ c ∈ tm.cores, (s.core c).qfmt = none

/-- `s` when team `n` has stopped, with the frame slot that it takes: its streams stand, or, of a save of regions, are back at the entries
of those that they have open. -/
def stopped (s : State) (n : Nat) (tm : Team) (reason : Nat) (full : Bool) (slot : Nat) : State :=
  s.applyAll ((Fx.andThen (fun s => .team n (some { tm with state := .saving reason full 0 slot }) :: slotBit s tm.asid slot true)
    ((Fx.each (fun k => onCtl k stopStream) (teamStreams tm)).andThen (if full then Fx.none else regionStop n tm))) s)

/-- `t` is what becomes of team `n`, which nothing holds back and which stopped in `u`: it is swapped, written to its frame with its reason
and cause, its cores are free, and it is back in the pool of its shard, but for a halted one, which waits for TRS_RESUME (14 R333); or, if the
frame is too small or its writing fails, it has ended (14 R317, R323). -/
def Swaps (s u t : State) (n : Nat) (tm : Team) (reason : Nat) (full : Bool) (cause slot : Nat) : Prop :=
  let bs := frameBytes u tm reason full cause
  (bs.length ≤ slotSize u tm.asid → Config.frameFails u.nextId = false →
    (∃ v, t.team n = some v ∧ v.state = .swapped reason slot ∧ v.cores = []) ∧
    (reason ≠ 1 → ∃ x, FMap.get none t.pool u.nextId = some x ∧ x.team = some n ∧ x.inst = tm.inst ∧ x.node = tm.node) ∧
    (reason = 1 → t.pool = u.pool) ∧ (∀ c ∈ tm.cores, (t.core c).team = none) ∧ (∀ k ∈ teamStreams tm, (t.ctl k).run = .idle) ∧
    (s.pkg.hbaseSet = false → t.bytes (slotKey u tm.asid slot) bs.length = bs)) ∧
  (slotSize u tm.asid < bs.length ∨ Config.frameFails u.nextId = true → t.team n = none)

/-- The launch `l` holds `i`, which has not been cancelled. -/
def Running (s : State) (l : Nat) (i : Inst) : Prop := s.inst l = some i ∧ i.cancelled = false

/-- The state in which launch `l` goes on as `j`. -/
def relaunched (s : State) (l : Nat) (j : Inst) : State := (s.apply .fresh).apply (.inst l (some j))

/-- `t` is `s` when launch `l`, whose nodes are now as in `j`, goes on; or, when all that it reached is over, when its record is written or
waits to be (07 R172). -/
def Went (s t : State) (l : Nat) (j : Inst) : Prop :=
  (j.isOver = false → t = relaunched s l j) ∧ (j.isOver = true → t.inst l = none ∨ ∃ w, t.inst l = some { j with record := some w })

/-- When a conditional node's word holds (07 R157). -/
def holds (cmp : Nat) (a b : Word) : Prop :=
  match cmp with
  | 0 => a = b
  | 1 => a ≠ b
  | 2 => a.toInt < b.toInt
  | 3 => b.toInt ≤ a.toInt
  | 4 => a.toNat < b.toNat
  | _ => b.toNat ≤ a.toNat

/-! ### The package -/

/-- What follows a start that fails: the next phase, WFAIL and CFAIL (16 R347). -/
def nextStart (p : Pkg) : Phase × Nat × Nat :=
  match p.phase with
  | .warm => if p.wfail = 2 then (.cold, 0, p.cfail) else (.warm, p.wfail + 1, p.cfail)
  | .cold => if p.cfail = 0 then (.cold, p.wfail, 1) else (.recovery, p.wfail, 2)
  | _ => (.held, p.wfail, p.cfail)

/-- A reset package, but for memory, that has begun a start. -/
def Begun (s t : State) (phase : Phase) : Prop :=
  t.pkg.phase = phase ∧ (∀ k, t.ctl k = .reset) ∧ (∀ k n, n ≠ 0 → t.sreg k n = 0 ∧ t.preg k n = 0) ∧ (∀ c n, t.vreg c n = 0) ∧
  (∀ c, t.core c = .reset) ∧ (∀ c w, t.acc c w = 0) ∧ (∀ q, t.queue q = .reset) ∧ t.teams = [] ∧ t.insts = [] ∧ t.pool = [] ∧ t.ops = [] ∧
  t.accs = [] ∧ t.pkg.pwrCfg = 0x180960 ∧ t.pkg.astab = 0 ∧ t.pkg.wfail = s.pkg.wfail ∧ t.pkg.cfail = s.pkg.cfail ∧
  t.pkg.tfuse = s.pkg.tfuse ∧ t.hostMem = s.hostMem

/-- A tamper event is latched with its level, and what the level asks for has happened (16 R348); event 2 holds reset whatever its level (R345). -/
def Tampered (s t : State) (e : Nat) : Prop :=
  let l := tamperLevel s.pkg e
  bitOf t.pkg.tamper e = true ∧ field t.pkg.tamper 16 2 = max l (field s.pkg.tamper 16 2) ∧
  (∀ d, d < 8 → d ≠ e → bitOf t.pkg.tamper d = bitOf s.pkg.tamper d) ∧
  t.pkg.phase = (if l = 3 ∨ e = 2 then .held else if l = 2 ∧ s.pkg.phase = .up then .frozen else s.pkg.phase) ∧
  bitOf t.pkg.tfuse 16 = (bitOf s.pkg.tfuse 16 || decide (l = 3)) ∧ (∃ o, t.out = s.out ++ .msix 0 :: o) ∧ t.mem = s.mem ∧ t.ctls = s.ctls ∧
  t.sregs = s.sregs

/-! ### The Campground -/

/-- Camp core `c`, and no other, runs the episode `ep` on hamper `h`, which is open; no camp core is listed twice. -/
def OnEpisode (s : State) (c h : Nat) (ep : Episode) : Prop :=
  hamperOk s h = true ∧ stateOf s h = 1 ∧ (s.camp c).ep = some ep ∧ ep.hamper = h ∧ FMap.canon Camp.reset 0 s.camps = true ∧
  ∀ e ∈ s.camps, ∀ q, e.2.ep = some q → q.hamper = h → e.1 = c

/-- The episode has closed: the header says how, an action that waited is answered, and the camp core is idle (17 R359). -/
def Closes (s t : State) (c h st cause which : Nat) : Prop :=
  (∀ x, x = t.camp c → x.ep = none ∧ x.pc = 0 ∧ x.x = [] ∧ x.f = [] ∧ x.fcsr = 0 ∧ x.resv = none) ∧ field (t.hamper h 4) 56 8 = st ∧ field (t.hamper h 4) 48 8 = cause ∧ field (t.hamper h 4) 46 2 = which ∧
  t.hamper h 0 = s.hamper h 0 ∧ t.hamper h 1 = (if s.hamper h 0 = s.hamper h 1 + 1 then s.hamper h 0 else s.hamper h 1) ∧
  t.sregs = s.sregs ∧ ∀ d, d ≠ c → (t.camp d).ep = (s.camp d).ep

/-- What closes the episode of camp core `c` on hamper `h`: the event, and STATE, CAUSE and WHICH. -/
def episodeEnds (s : State) (c h : Nat) (ep : Episode) (v : Word) (cause : Byte) (r : Req) : List (Instr × Prop × Nat × Nat × Nat) := [
  (.cmpStop v, field v 0 6 = c, 5, 0, 0), (.episodeEcall c 0, True, 2, 0, 0), (.episodeEcall c v, v ≠ 0, 4, 8, 0),
  (.episodeException c cause, True, 4, cause.toNat, 0),
  (.stepExpiry h, pending s h = true ∧ field (ep.desc.getD 2 0) 32 32 ≠ 0, 3, 17, 1),
  (.wallExpiry h, field (ep.desc.getD 3 0) 32 32 ≠ 0, 3, 17, 3),
  (.campAccess c r, r.kind = 0 ∧ r.bytes ∈ [1, 2, 4, 8] ∧ (s.camp c).ops = [] ∧ reach ep.desc r.handle r.bytes (·.r) = none, 4, 5, 0),
  (.campAccess c r, r.kind = 1 ∧ r.bytes ∈ [1, 2, 4, 8] ∧ (s.camp c).ops = [] ∧ reach ep.desc r.handle r.bytes (·.w) = none, 4, 7, 0)]

/-! ### Links -/

/-- The flits of a port from SEQ `q` on, as they leave again. -/
def resent (p : Nat) (x : Port) (q : BitVec 16) (l : List Flit) : List Out :=
  (l.filter fun f => notAfter q f.seq).flatMap fun f => (wavesOf x f).map fun w => .flit p w f

/-- `t` is `s` but for port `p`, which is `x`. -/
def PortOnly (s t : State) (p : Nat) (x : Port) : Prop :=
  t.port p = x ∧ (∀ q, q ≠ p → t.port q = s.port q) ∧ { t with ports := s.ports } = s

/-! ### Frames -/

/-- The scalar instructions without memory, their destination (0 for a branch), and none of their operands. -/
def ScalarForm (x : Instr) (sd : Nat) : Prop :=
  (∃ (f : FS) (a b c r : Word), (x, r) ∈ registerResults f a b c ∧ sd = f.sd.toNat) ∨
  (∃ (f : CS) (a b r : Word), (x, r) ∈ shortResults f a b ∧ sd = f.sd.toNat) ∨
  (∃ (f : FI) (a r : Word), (x, r) ∈ immediateResults f a ∧ sd = f.sd.toNat) ∨
  (∃ (f : CI) (a r : Word), (x, r) ∈ shortImmediates f a ∧ sd = f.sd.toNat) ∨
  (∃ (f : FI96) (a r : Word), (x, r) ∈ longImmediates f a ∧ sd = f.sd.toNat) ∨
  (∃ f : FK, x = .li f ∧ sd = f.sd.toNat) ∨ (∃ f : FK96, x = .liX96 f ∧ sd = f.sd.toNat) ∨
  (∃ (f : FB) (a b : Word) (c : Bool), (x, c) ∈ branches f a b ∧ sd = 0) ∨
  (∃ (f : CB) (a b : Word) (c : Bool), (x, c) ∈ shortBranches f a b ∧ sd = 0) ∨
  (∃ (f : FB96) (a b : Word) (c : Bool), (x, c) ∈ longBranches f a b ∧ sd = 0)

/-- The element instructions and their destination. -/
def VectorForm (x : Instr) (vd : Nat) : Prop :=
  (∃ (f : X3) (a b c r : Nat), (x, r) ∈ integerElements f a b c ++ bitElements f a b ∧ vd = f.vd.toNat) ∨
  (∃ (f : X3) (r : Bool) (h : EOp), (x, r, h) ∈ floatElements f ∧ vd = f.vd.toNat) ∨
  (∃ (f : CV) (a b c r : Nat), (x, r) ∈ shortElements f a b c ∧ vd = f.vd.toNat)

/-- What a stream's control record keeps in an instruction that writes no control register: all but the pc, what has been walked and fetched for it, what retirement counts or still
has to push, the hardware loops, an open region, the trap registers and, where `flags` says so, the sticky flags. -/
def ctlKept (c d : Ctl) (flags : Bool) : Prop :=
  { c with
    pc := d.pc, status := d.status, epc := d.epc, cause := d.cause, tval := d.tval, run := d.run, blocked := d.blocked, spin := d.spin
    flt := d.flt, instret := d.instret, parks := d.parks, rgn := d.rgn, l0 := d.l0, l1 := d.l1, l2 := d.l2, l3 := d.l3, late := d.late
    walked := d.walked, code := d.code, fpflags := if flags then d.fpflags else c.fpflags } = d

/-- What both kinds of instruction leave unchanged; of an operation only whether it was issued in a region that is open can change. -/
def Framed (s t : State) (flags : Bool) : Prop :=
  { t with sregs := s.sregs, vregs := s.vregs, ctls := s.ctls, cores := s.cores, failing := s.failing, ops := s.ops, wrote := s.wrote } = s ∧
  (FMap.canon none 0 s.ops = true → ∀ n, (t.op n).map (fun o => { o with region := false }) = (s.op n).map fun o => { o with region := false }) ∧
  (∀ k, k ≠ s.cur → t.ctl k = s.ctl k) ∧ (s.now.legal = true → ctlKept (t.ctl s.cur) s.now flags) ∧
  (∀ c, { t.core c with fifo := (s.core c).fifo } = s.core c) ∧ ∀ b, t.byte b = s.byte b

/-! ### What operations read and write -/

/-- Operation `n` takes its effects in the next step in which it is asked to, whole; and the hamper base is not set. -/
def Begins (s : State) (n : Nat) (o : Op) (op9 : Nat) : Prop :=
  s.op n = some o ∧ mayStart s n o = true ∧ o.op9 = op9 ∧ o.deferred = false ∧ o.retagged = [] ∧ o.seen = [] ∧ s.pkg.hbaseSet = false

/-- The operation once it has taken its effects, with nothing left to write. -/
def started (o : Op) (flags : Word) : Op :=
  { o with state := .ready, units := [], flags := flags, fault := none, pieces := [], adds := [], table := [] }

/-- The operation once it has failed before it wrote anything. -/
def failed (o : Op) (f : Flaw) : Op := { started o 0 with fault := some f }

/-- The key of a byte of window 2 of an operation's team. -/
def window2 (s : State) (o : Op) (off : Nat) : Nat := keyCluster (opCtx s o).cluster ((opCtx s o).w2 * 4096 + off)

/-- These bytes stand in window 2 from `off` on, or in one raw dense tile of a tensor of this package that the operation may read. -/
def Reads (s : State) (o : Op) (tid off : Nat) (bs : List Byte) : Prop :=
  bs ≠ [] ∧
  ((tid = 2 ∧ off + bs.length ≤ (opCtx s o).w2len ∧ bs = s.bytes (window2 s o off) bs.length) ∨
   (∃ tn e, readTensor s o.asid tid = some tn ∧ e = readTile s tn (off / tn.tbytes) ∧ tn.remote = false ∧ tn.rd = true ∧
    tid ∉ (opCtx s o).froz ∧ off + bs.length ≤ tn.bytes ∧ off % tn.tbytes + bs.length ≤ tn.tbytes ∧ e.tag = 0 ∧ e.valid = true ∧
    bs = s.bytes (frameKey tid e.frame (off % tn.tbytes)) bs.length))

/-- A write of `n` bytes goes to the keys from `key` on: in window 2, or in part of one raw dense tile that is neither shared nor moving. -/
def GoesTo (s : State) (o : Op) (tid off n key : Nat) : Prop :=
  (tid = 2 ∧ key = window2 s o off) ∨
  (∃ tn e, readTensor s o.asid tid = some tn ∧ e = readTile s tn (off / tn.tbytes) ∧ tn.remote = false ∧ off % tn.tbytes + n < tn.tbytes ∧
    e.tag = 0 ∧ e.valid = true ∧ e.cow = false ∧ e.moving = false ∧ key = frameKey tid e.frame (off % tn.tbytes))

/-- Byte `b` after runs of bytes were written at keys, one after another. -/
def afterRuns (s : State) (runs : List (Nat × List Byte)) (b : Nat) : Byte :=
  runs.foldl (fun v r => if r.1 ≤ b ∧ b < r.1 + r.2.length then r.2.getD (b - r.1) 0 else v) (s.byte b)

/-- The micro-ops of a nest, level 5 outermost: the sums of each level's steps so far, for A, for K and N in B, and for the accumulators
(12 R261, R262). -/
def nest (l : Nat → Level) : List (Int × Int × Int × Int) :=
  (List.range (l 5).count).flatMap fun (e : Nat) => (List.range (l 4).count).flatMap fun (d : Nat) =>
  (List.range (l 3).count).flatMap fun (c : Nat) => (List.range (l 2).count).flatMap fun (b : Nat) =>
  (List.range (l 1).count).flatMap fun (a : Nat) => (List.range (l 0).count).map fun (z : Nat) =>
    let sum (v : Level → Int) : Int := e * v (l 5) + d * v (l 4) + c * v (l 3) + b * v (l 2) + a * v (l 1) + z * v (l 0)
    (sum (·.astride), sum (·.bk), sum (·.bn), sum (·.cs))

/-- The points of an operation of a plan: of its input, and of its output (13 R290, R291). -/
def pointsIn (p : Plan) : Nat := if p.kind = 0 then p.n else if p.inverse then shtCount p else p.nlat * p.n
def pointsOut (p : Plan) : Nat := if p.kind = 0 then p.n else if p.inverse then p.nlat * p.n else shtCount p

/-- What a transform makes of its input and its table of latitudes (13 R286, R293). -/
def transformed (p : Plan) (x : List Pt) (table : List Byte) : List Pt × Fl :=
  let word (i : Nat) : Nat := bytesToNat ((table.drop (8 * i)).take 8)
  let lats : List Latitude := (List.range p.nlat).map fun j => (word (4 * j), word (4 * j + 1), word (4 * j + 2))
  if p.kind = 0 then fft p.fmt p.inverse p.factors x else if p.inverse then shtSynthesise p lats x else shtAnalyse p lats x

/-! ### Guards and FIFO fields -/

/-- The scalar instructions with a guard and FIFO fields: the guard, FP, FO, the length in bytes and the registers they wait for. -/
structure GuardedForm where
  x : Instr
  g : Guard
  fp : BitVec 3
  fo : BitVec 3
  len : Word
  sregs : List Nat

noncomputable def guardedForms (s : FS) (i : FI) (l : FI96) (b : FB) (m : FB96) : List GuardedForm :=
  ((registerResults s 0 0 0).map fun x => ⟨x.1, s.g, s.fp, s.fo, 8, [s.sd.toNat, s.sa.toNat, s.sb.toNat, s.sc.toNat]⟩) ++
  ((immediateResults i 0).map fun x => ⟨x.1, i.g, i.fp, i.fo, 8, [i.sd.toNat, i.sa.toNat]⟩) ++
  ((longImmediates l 0).map fun x => ⟨x.1, l.g, l.fp, l.fo, 12, [l.sd.toNat, l.sa.toNat]⟩) ++
  ((branches b 0 0).map fun x => ⟨x.1, b.g, b.fp, b.fo, 8, [b.sa.toNat, b.sb.toNat]⟩) ++
  ((longBranches m 0 0).map fun x => ⟨x.1, m.g, m.fp, m.fo, 12, [m.sa.toNat, m.sb.toNat]⟩)

end Sys2Proof.Statements

section
open Sys2Proof Sys2Proof.Machine Sys2Proof.Statements

/-- The scalar instructions that write one register. Register-register, in their 64-bit words: sd takes the value that R87 and R88 give of
sa, sb and sc as they were, and the instruction retires, whatever the divisor; with sd = 0 nothing is written; `nop` changes no register. The
same in the 32-bit words, which carry no guard, no FIFO field, no SAT and s0 as sc. The immediate instructions in their three words; and `li`:
the constant sign-extended, or all 64 bits of the 96-bit word. -/
def Obligations.ScalarResults : Prop :=
  (∀ (s : State) (f : FS),
  (∀ (i : Instr) (r : Word), (i, r) ∈ registerResults f (s.sreg s.cur f.sa.toNat) (s.sreg s.cur f.sb.toNat) (s.sreg s.cur f.sc.toNat) →
    Executes s f.g f.fp f.fo [f.sd.toNat, f.sa.toNat, f.sb.toNat, f.sc.toNat] [] →
    ∃ t, exec i s = .next t ∧ Retired (s.setS f.sd.toNat r) t (s.now.pc + 8) f.fp f.fo) ∧
  (Executes s f.g f.fp f.fo [] [] → ∃ t, exec (.nop f) s = .next t ∧ Retired s t (s.now.pc + 8) f.fp f.fo)) ∧
  (∀ (s : State) (f : CS) (i : Instr) (r : Word),
  ((i, r) ∈ shortResults f (s.sreg s.cur f.sa.toNat) (s.sreg s.cur f.sb.toNat) →
    Executes s unguarded 0 0 [f.sd.toNat, f.sa.toNat, f.sb.toNat, 0] [] →
    ∃ t, exec i s = .next t ∧ Retired (s.setS f.sd.toNat r) t (s.now.pc + 4) 0 0) ∧
  (Executes s unguarded 0 0 [] [] → ∃ t, exec .nopX32 s = .next t ∧ Retired s t (s.now.pc + 4) 0 0)) ∧
  (∀ (s : State) (i : Instr) (r : Word),
  (∀ f : FI, (i, r) ∈ immediateResults f (s.sreg s.cur f.sa.toNat) →
    Executes s f.g f.fp f.fo [f.sd.toNat, f.sa.toNat] [] →
    ∃ t, exec i s = .next t ∧ Retired (s.setS f.sd.toNat r) t (s.now.pc + 8) f.fp f.fo) ∧
  (∀ f : CI, (i, r) ∈ shortImmediates f (s.sreg s.cur f.sa.toNat) →
    Executes s unguarded 0 0 [f.sd.toNat, f.sa.toNat] [] →
    ∃ t, exec i s = .next t ∧ Retired (s.setS f.sd.toNat r) t (s.now.pc + 4) 0 0) ∧
  (∀ f : FI96, (i, r) ∈ longImmediates f (s.sreg s.cur f.sa.toNat) →
    Executes s f.g f.fp f.fo [f.sd.toNat, f.sa.toNat] [] →
    ∃ t, exec i s = .next t ∧ Retired (s.setS f.sd.toNat r) t (s.now.pc + 12) f.fp f.fo)) ∧
  (∀ (s : State),
  (∀ f : FK, Executes s f.g 0 0 [f.sd.toNat] [] →
    ∃ t, exec (.li f) s = .next t ∧ Retired (s.setS f.sd.toNat (BitVec.ofInt 64 f.k32.toInt)) t (s.now.pc + 8) 0 0) ∧
  (∀ f : FK96, Executes s f.g 0 0 [f.sd.toNat] [] →
    ∃ t, exec (.liX96 f) s = .next t ∧
      Retired (s.setS f.sd.toNat (BitVec.ofNat 64 (f.k32.toNat * 2 ^ 32 + f.lit.toNat))) t (s.now.pc + 12) 0 0))

/-- The conditional branches in their three words: taken exactly when the condition of R92 holds, to the pc plus four times the
offset; the 16th taking of a backward branch with nothing changed between parks the stream (05 R125). -/
def Obligations.BranchResults : Prop := ∀ (s : State) (i : Instr) (c : Bool),
  (∀ f : FB, (i, c) ∈ branches f (s.sreg s.cur f.sa.toNat) (s.sreg s.cur f.sb.toNat) →
    Executes s f.g f.fp f.fo [f.sa.toNat, f.sb.toNat] [] →
    ∃ t, exec i s = .next t ∧ Branched s t c 8 (s.now.pc + BitVec.ofInt 64 (4 * f.off.toInt)) f.fp f.fo) ∧
  (∀ f : CB, (i, c) ∈ shortBranches f (s.sreg s.cur f.sa.toNat) (s.sreg s.cur f.sb.toNat) →
    Executes s unguarded 0 0 [f.sa.toNat, f.sb.toNat] [] →
    ∃ t, exec i s = .next t ∧ Branched s t c 4 (s.now.pc + BitVec.ofInt 64 (4 * f.off.toInt)) 0 0) ∧
  (∀ f : FB96, (i, c) ∈ longBranches f (s.sreg s.cur f.sa.toNat) (s.sreg s.cur f.sb.toNat) →
    Executes s f.g f.fp f.fo [f.sa.toNat, f.sb.toNat] [] →
    ∃ t, exec i s = .next t ∧ Branched s t c 12 (s.now.pc + BitVec.ofInt 64 (4 * f.lit.toInt)) f.fp f.fo)

/-- `jal` in its three words and `jalr` in its two: sd takes the address of the next instruction and the pc the target, which for `jalr` is
formed from sa as it was; the spin count of R125 starts again. A `jalr` in either word to an address that is no multiple of 4 takes ALIGN with
the target in TVAL and links nothing (04 R93, R94, 01 R20, R35). -/
def Obligations.JumpResults : Prop :=
  (∀ (s : State),
  let linked (sd : Nat) (len : Word) := (s.setS sd (s.now.pc + len)).setCtl (jumped s.now)
  (∀ f : FB, Executes s f.g f.fp f.fo [f.sa.toNat] [] → ∃ t, exec (.jal f) s = .next t ∧
    Retired (linked f.sa.toNat 8) t (s.now.pc + BitVec.ofInt 64 (4 * f.off.toInt)) f.fp f.fo) ∧
  (∀ f : CJ, Executes s unguarded 0 0 [f.sd.toNat] [] → ∃ t, exec (.jalX32 f) s = .next t ∧
    Retired (linked f.sd.toNat 4) t (s.now.pc + BitVec.ofInt 64 (4 * f.off.toInt)) 0 0) ∧
  (∀ f : FB96, Executes s f.g f.fp f.fo [f.sa.toNat] [] → ∃ t, exec (.jalX96 f) s = .next t ∧
    Retired (linked f.sa.toNat 12) t (s.now.pc + BitVec.ofInt 64 (4 * f.lit.toInt)) f.fp f.fo)) ∧
  (∀ (s : State) (x : Instr) (g : Guard) (fp fo : BitVec 3) (sd sa : Nat) (off len : Word),
  let target := s.sreg s.cur sa + off
  (∃ f : FI, x = .jalr f ∧ (g, fp, fo, sd, sa, off, len) = (f.g, f.fp, f.fo, f.sd.toNat, f.sa.toNat, f.imm.signExtend 64, 8)) ∨
  (∃ f : FI96, x = .jalrX96 f ∧ (g, fp, fo, sd, sa, off, len) = (f.g, f.fp, f.fo, f.sd.toNat, f.sa.toNat, f.lit.signExtend 64, 12)) →
  Executes s g fp fo [sd, sa] [] →
  (target.toNat % 4 = 0 → ∃ t, exec x s = .next t ∧
    Retired ((s.setS sd (s.now.pc + len)).setCtl (jumped s.now)) t target fp fo) ∧
  (target.toNat % 4 ≠ 0 → s.now.tip = false → ∃ t, exec x s = .next t ∧ Trapped s t cALIGN target))

/-- `loop` (04 R97). With a trip count that is not 0 it sets up its level and goes on at the body; the level's earlier loop is gone. With a
trip count of 0 it skips the body: past the word at its end, whose length it learns by a fetch; where that fetch fails it takes the fetch
trap and changes none of the level's registers. With a count of 0 the model takes the reading of notes/assumptions/18.md. -/
def Obligations.LoopSetup : Prop :=
  (∀ (s : State) (f : FL) (n : BitVec 32),
  (Instr.loopI f).wf → Executes s f.g 0 0 [f.sa.toNat] [] →
  n = (if f.immc = 1 then BitVec.ofNat 32 f.cnt.toNat else BitVec.ofNat 32 (s.sreg s.cur f.sa.toNat).toNat) → n ≠ 0 →
  ∃ t, exec (.loopI f) s = .next t ∧
    Retired (s.setCtl (s.now.setLoop f.ln.toNat ⟨n, s.now.pc + 8, s.now.pc + BitVec.ofNat 64 (4 * f.fin.toNat)⟩)) t
      (s.now.pc + 8) 0 0) ∧
  (∀ (s : State) (f : FL) (last : Word),
  (Instr.loopI f).wf → Executes s f.g 0 0 [f.sa.toNat] [] → s.now.tip = false →
  (if f.immc = 1 then f.cnt.toNat else (s.sreg s.cur f.sa.toNat).toNat % 2 ^ 32) = 0 →
  last = s.now.pc + BitVec.ofNat 64 (4 * f.fin.toNat) →
  (∀ bs, fetchBytes s (s.codeCtx s.cur) true 4 last = .bytes bs → ∃ t, exec (.loopI f) s = .next t ∧
    Retired (s.setCtl (s.now.setLoop f.ln.toNat ⟨0, s.now.pc + 8, last⟩)) t
      (last + BitVec.ofNat 64 (wordLength (bytesToNat bs))) 0 0) ∧
  (∀ code h w0, fetchBytes s (s.codeCtx s.cur) true 4 last = .trap code h w0 →
    ∃ t, exec (.loopI f) s = .next t ∧ Trapped s t code h))

/-- The loop-end action (04 R98) of what retires and passes control in sequence: `nop` in both words, every scalar instruction of the 64-bit
and 96-bit words whose guard is false, a branch that is not taken, and every register-register instruction, whose destination it does not
disturb. That the pc takes STM_LB without its low bits is the reading of notes/assumptions/19.md. -/
def Obligations.LoopEnd : Prop := ∀ (s : State) (fs : FS) (fi : FI) (fl : FI96) (fb : FB) (fm : FB96),
  let done (t : State) (len : Word) : Prop := LoopsEnded s.now (t.ctl s.cur) len ∧ (t.ctl s.cur).instret = s.now.instret + 1
  (Issues s fs.fp fs.fo [] [] → ∃ t, exec (.nop fs) s = .next t ∧ done t 8) ∧
  (Issues s 0 0 [] [] → ∃ t, exec .nopX32 s = .next t ∧ done t 4) ∧
  (∀ y ∈ guardedForms fs fi fl fb fm, Issues s y.fp y.fo y.sregs [] → guardTrue s s.cur y.g = false →
    ∃ t, exec y.x s = .next t ∧ done t y.len ∧ t.sregs = s.sregs) ∧
  (∀ x, (x, false) ∈ branches fb (s.sreg s.cur fb.sa.toNat) (s.sreg s.cur fb.sb.toNat) →
    Issues s fb.fp fb.fo [fb.sa.toNat, fb.sb.toNat] [] → ∃ t, exec x s = .next t ∧ done t 8 ∧ t.sregs = s.sregs) ∧
  (∀ x r, (x, r) ∈ registerResults fs (s.sreg s.cur fs.sa.toNat) (s.sreg s.cur fs.sb.toNat) (s.sreg s.cur fs.sc.toNat) →
    Issues s fs.fp fs.fo [fs.sd.toNat, fs.sa.toNat, fs.sb.toNat, fs.sc.toNat] [] → guardTrue s s.cur fs.g = true →
    ∃ t, exec x s = .next t ∧ done t 8 ∧ t.sregs = (s.setS fs.sd.toNat r).sregs)

/-- The integer and bit element instructions (06 R133, R136): every enabled element takes the exact value, saturated or wrapped, of the
elements as they were, every other one becomes 0 or keeps its value, and no flag is touched. -/
def Obligations.IntegerElementResults : Prop := ∀ (s : State) (f : X3) (x : Instr) (val : Nat → Nat → Nat → Nat),
  let w := tyWidth f.ty.toNat
  let va := elemAt w (s.vreg (coreOf s.cur) f.va.toNat)
  let vb := elemAt w (s.vreg (coreOf s.cur) f.vb.toNat)
  let vd := elemAt w (s.vreg (coreOf s.cur) f.vd.toNat)
  x.wf → ((f.ty.toNat ≤ 7 ∧ ∀ a b c, (x, val a b c) ∈ integerElements f a b c) ∨ ∀ a b c, (x, val a b c) ∈ bitElements f a b) →
  Issues s f.fp f.fo [] [f.vd.toNat, f.va.toNat, f.vb.toNat] → NoLoopEnd s.now →
  ∃ t r, exec x s = .next t ∧ Retired (s.setV f.vd.toNat r) t (s.now.pc + 8) f.fp f.fo ∧
    ∀ i, i < 1024 / w → elemAt w r i =
      merge (guardPred s s.cur f.g) (f.md.getLsbD 0) vd (fun i => val (va i) (vb i) (vd i)) i

/-- The element instructions in their 32-bit words, which have no guard and no saturation (06 R134), for integer types and bits; for
floating-point types they do what the 64-bit word without guard does, but for the length. -/
def Obligations.ShortElementResults : Prop :=
  (∀ (s : State) (f : CV) (x : Instr) (val : Nat → Nat → Nat → Nat),
  let w := tyWidth f.ty.toNat
  let va := elemAt w (s.vreg (coreOf s.cur) f.va.toNat)
  let vb := elemAt w (s.vreg (coreOf s.cur) f.vb.toNat)
  let vd := elemAt w (s.vreg (coreOf s.cur) f.vd.toNat)
  f.ty.toNat ≤ 11 → (f.ty.toNat ≤ 7 ∨ x = .vandX32 f ∨ x = .vorX32 f) →
  (∀ a b c, (x, val a b c) ∈ shortElements f a b c) →
  Issues s 0 0 [] [f.vd.toNat, f.va.toNat, f.vb.toNat] → NoLoopEnd s.now →
  ∃ t r, exec x s = .next t ∧ Retired (s.setV f.vd.toNat r) t (s.now.pc + 4) 0 0 ∧
    ∀ i, i < 1024 / w → elemAt w r i = val (va i) (vb i) (vd i)) ∧
  (∀ (s : State) (f : CV) (x y : Instr),
  (x, y) ∈ ([(.vaddX32 f, .vadd (f.wide true)), (.vsubX32 f, .vsub (f.wide true)), (.vmulX32 f, .vmul (f.wide true)),
    (.vfmaX32 f, .vfma (f.wide true)), (.vminX32 f, .vmin (f.wide false)), (.vmaxX32 f, .vmax (f.wide false)),
    (.vandX32 f, .vand (f.wide false)), (.vorX32 f, .vor (f.wide false))] : List (Instr × Instr)) →
  ∃ t u, exec x s = .next t ∧ exec y s = .next u ∧ { t with ctls := u.ctls } = u ∧
    ∀ j, { t.ctl j with pc := (u.ctl j).pc, epc := (u.ctl j).epc } = u.ctl j)

/-- The floating-point element instructions: every enabled element takes what its operation gives in the mode the RM field selects,
STM_FPFLAGS collects the flags of the enabled elements, and a flag that is enabled takes ARITH instead of writing vd; DYN with no mode in
STM_FPCTL takes ILLEGAL (01 R25, R26, 06 R133). What those that do not round give is written out (06 R136, R137, R141), and so is what the
others give of NaN and infinite operands, of invalid operations and of the operands of R138's table (02 R44, 06 R138); the rounded values are
the model's. A faithful result is a free value within its two bracketing values (notes/assumptions/6.md, 17.md). -/
def Obligations.FloatElementResults : Prop :=
  (∀ (s : State) (f : X3) (x : Instr) (rounds : Bool) (h : EOp),
  let w := tyWidth f.ty.toNat
  let g := guardPred s s.cur f.g
  let va := elemAt w (s.vreg (coreOf s.cur) f.va.toNat)
  let vb := elemAt w (s.vreg (coreOf s.cur) f.vb.toNat)
  let vd := elemAt w (s.vreg (coreOf s.cur) f.vd.toNat)
  x.wf → 8 ≤ f.ty.toNat → (x, rounds, h) ∈ floatElements f →
  Issues s f.fp f.fo [] [f.vd.toNat, f.va.toNat, f.vb.toNat] → NoLoopEnd s.now →
  (∀ m, m = (if f.rm = 7 ∧ rounds = true then field s.now.fpctl 0 3 else f.rm.toNat) → (f.rm = 7 ∧ rounds = true → m ≤ 4) →
    ∃ t r, exec x s = .next t ∧
      Flagged s t (flagsOf (1024 / w) fun i => if g.getLsbD i then (h f.ty.toNat m (f.sat == 1) (va i) (vb i) (vd i)).2 else 0)
        (fun s => s.setV f.vd.toNat r) 8 f.fp f.fo ∧
      ∀ i, i < 1024 / w → elemAt w r i =
        merge g (f.md.getLsbD 0) vd (fun i => (h f.ty.toNat m (f.sat == 1) (va i) (vb i) (vd i)).1 % 2 ^ w) i) ∧
  (f.rm = 7 → rounds = true → 4 < field s.now.fpctl 0 3 → s.now.tip = false →
    ∃ t, exec x s = .next t ∧ Trapped s t cILLEGAL (s.fetched.setWidth 64))) ∧
  (∀ (f : X3) (x : Instr) (rounds sat : Bool) (h : EOp) (m a b c : Nat) (r : Nat × Fl),
  let w := tyWidth f.ty.toNat
  x.wf → 8 ≤ f.ty.toNat → (x, rounds, h) ∈ floatElements f → m ≤ 4 → a < 2 ^ w → b < 2 ^ w → c < 2 ^ w →
  (x, some r) ∈ specials f f.ty.toNat a b c → h f.ty.toNat m sat a b c = r)

/-- `vcmp`: bit `i` of the predicate is 1 for an enabled element that meets the condition, and every other bit is 0; NaN operands
raise NV as R139 says, signalling ones with `.eq`, `.ne` and `.un`, any with the others. -/
def Obligations.CompareResults : Prop := ∀ (s : State) (f : X3),
  let w := tyWidth f.ty.toNat
  let g := guardPred s s.cur f.g
  let c (i : Nat) := compares f.ty.toNat f.md.toNat (elemAt w (s.vreg (coreOf s.cur) f.va.toNat) i)
    (elemAt w (s.vreg (coreOf s.cur) f.vb.toNat) i)
  (Instr.vcmp f).wf → Issues s f.fp f.fo [] [f.va.toNat, f.vb.toNat] → NoLoopEnd s.now →
  ∃ t r, exec (.vcmp f) s = .next t ∧
    Flagged s t (flagsOf (1024 / w) fun i => if g.getLsbD i then (c i).2 else 0) (fun s => s.setP f.vd.toNat r) 8 f.fp f.fo ∧
    ∀ i, r.getLsbD i = (decide (i < 1024 / w) && g.getLsbD i && (c i).1)

/-- `vcvt`, `vcmul`, the reductions and the scan: in a mode that is one they write vd, each element as its rule says (06 R142 to R145), and
collect the flags, or take ARITH. Integer conversions, minima, maxima and sums, wrapped or saturated at each node of the tree of 02 R61, are
written out, and so are minima and maxima of floating-point elements; a rounded value is that of the model. DYN with no mode in STM_FPCTL
takes ILLEGAL, where the instruction rounds (01 R25). What a lone NaN leaf gives is the reading of notes/assumptions/72.md. -/
def Obligations.WideElementResults : Prop := ∀ (s : State) (f : X3) (x : Instr) (m : Nat) (val : Nat → Nat × Fl),
  let w := tyWidth f.ty.toNat
  (x, val) ∈ wideElements s f m → x.wf →
  Issues s f.fp f.fo [] (if x = .vcmul f then [f.vd.toNat, f.va.toNat, f.vb.toNat] else [f.vd.toNat, f.va.toNat]) →
  NoLoopEnd s.now →
  (m = (if f.rm = 7 then field s.now.fpctl 0 3 else f.rm.toNat) → (wideRounds f x → m ≤ 4) →
    ∃ t r, exec x s = .next t ∧ Flagged s t (flagsOf (1024 / w) fun i => (val i).2) (fun s => s.setV f.vd.toNat r) 8 f.fp f.fo ∧
      ∀ i, i < 1024 / w → elemAt w r i = (val i).1 % 2 ^ w) ∧
  (wideRounds f x → f.rm = 7 → 4 < field s.now.fpctl 0 3 → s.now.tip = false →
    ∃ t, exec x s = .next t ∧ Trapped s t cILLEGAL (s.fetched.setWidth 64))

/-- The permutes and element moves, and `vext`, which reads element sb into a scalar register, 0 where it is disabled or does not exist
(06 R140, R146). -/
def Obligations.PermuteResults : Prop := ∀ (s : State) (f : X3),
  let w := tyWidth f.ty.toNat
  let g := guardPred s s.cur f.g
  let vd := elemAt w (s.vreg (coreOf s.cur) f.vd.toNat)
  NoLoopEnd s.now →
  (∀ x ss vs zero h, (x, ss, vs, zero, h) ∈ permutes s f → x.wf → Issues s f.fp f.fo ss vs →
    ∃ t r, exec x s = .next t ∧ Retired (s.setV f.vd.toNat r) t (s.now.pc + 8) f.fp f.fo ∧
      ∀ i, i < 1024 / w → elemAt w r i = merge g zero vd (h w) i) ∧
  (∀ n x, (Instr.vext f).wf → Issues s f.fp f.fo [f.vd.toNat, f.vb.toNat] [f.va.toNat] → n = (s.sreg s.cur f.vb.toNat).toNat →
    x = elemAt w (s.vreg (coreOf s.cur) f.va.toNat) n →
    ∃ t, exec (.vext f) s = .next t ∧
      Retired (s.setS f.vd.toNat (if n < 1024 / w ∧ g.getLsbD n = true then BitVec.ofInt 64 (intOf w (f.ty.toNat ≤ 3) x) else 0)) t
        (s.now.pc + 8) f.fp f.fo)

/-- The predicate instructions (06 R147): a predicate bit by bit, disabled bits 0; `ppopc` counts the enabled ones and `pany` says
whether there is one. -/
def Obligations.PredicateResults : Prop := ∀ (s : State) (f : X3),
  let g := guardPred s s.cur f.g
  let p := s.preg s.cur f.va.toNat
  NoLoopEnd s.now →
  (∀ x ss h, (x, ss, h) ∈ predicates s f g → x.wf → Issues s f.fp f.fo ss [] →
    ∃ t r, exec x s = .next t ∧ Retired (s.setP f.vd.toNat r) t (s.now.pc + 8) f.fp f.fo ∧ ∀ i, i < 128 → r.getLsbD i = h i) ∧
  (Issues s f.fp f.fo [f.vd.toNat] [] →
    (∃ t, exec (.ppopc f) s = .next t ∧ Retired (s.setS f.vd.toNat
      (BitVec.ofNat 64 ((List.range 128).countP fun i => g.getLsbD i && p.getLsbD i))) t (s.now.pc + 8) f.fp f.fo) ∧
    (∃ t, exec (.pany f) s = .next t ∧ Retired (s.setS f.vd.toNat
      (if (List.range 128).any (fun i => g.getLsbD i && p.getLsbD i) then 1 else 0)) t (s.now.pc + 8) f.fp f.fo))

/-- Every load whose checks pass leaves an access outstanding, and the stream goes on behind it; it retires, is counted and pushes its token
when its value is written (09 R211, 05 R114), which is the reading of notes/assumptions/10.md. A load that accesses nothing, all its lanes
disabled, retires at once with what it writes at issue. -/
def Obligations.LoadsIssue : Prop := ∀ (s : State) (m : FM) (l : FM96) (c : CL) (r : CR) (v : FX) (x : Instr) (a : Access9)
    (ps qs : List Piece) (touch : Option Nat),
  (x, a) ∈ loadForms s m l c r v → (x = .vgat v → tidOf (s.sreg s.cur v.sa.toNat) ≠ 3) → Accesses s a →
  checkAll s (s.ctx s.cur) a.want a.elems = .ok (ps, touch) → qs = a.kind.pieces ps →
  ∃ t, exec x s = .next t ∧
    (ps ≠ [] → IssuedLate (outstanding (bumped (latched s false touch) a) a qs) t
      ⟨a.fp, none, [s.nextId], none, none, [], true, none⟩ (BitVec.ofNat 64 a.len) a.fo) ∧
    (ps = [] → Retired (bumped s a) t (s.now.pc + BitVec.ofNat 64 a.len) a.fp a.fo)

/-- The same of every store, atomic and barrier arrival: it retires while the access is outstanding, unless a piece lies in a copy-on-write
or a MOVING tile, whose home performs or holds it before the instruction retires (09 R211); its FIFO push comes with it (05 R114), for an
atomic before its old value exists. -/
def Obligations.StoresIssue : Prop := ∀ (s : State) (m : FM) (l : FM96) (c : CT) (r : CR) (v : FX) (f : FA) (y : FY) (x : Instr) (a : Access9)
    (ps qs : List Piece) (touch : Option Nat),
  (x, a) ∈ storeForms s m l c r v f y → (x = .vsct v → tidOf (s.sreg s.cur v.sa.toNat) ≠ 3) → Accesses s a →
  checkAll s (s.ctx s.cur) a.want a.elems = .ok (ps, touch) → qs = a.kind.pieces ps → qs.any (slowPiece s) = false →
  ∃ t, exec x s = .next t ∧
    (ps ≠ [] → Retired (outstanding (bumped (latched s true touch) a) a qs) t (s.now.pc + BitVec.ofNat 64 a.len) a.fp a.fo) ∧
    (ps = [] → Retired (bumped s a) t (s.now.pc + BitVec.ofNat 64 a.len) a.fp a.fo)

/-- A load or store whose checks find a trap takes it, with the address in TVAL as the instruction computed it, and leaves no access and
no register behind; `vld.ff` retires instead with the code in sn (09 R210, R216). So an access to a tensor at an address that is no
multiple of its size takes ALIGN (08 R186, 09 R214). The lane slices (id 3): a gather or scatter reaches, for each enabled element, the
slices of its own lanes (09 R219). -/
def Obligations.AccessChecks : Prop :=
  (∀ (s : State) (m : FM) (l : FM96) (c : CL) (d : CT) (r : CR) (v : FX) (f : FA) (y : FY) (x : Instr)
    (a : Access9) (code : Byte) (w0 ea : Word),
  ((x, a) ∈ loadForms s m l c r v ∨ (x, a) ∈ storeForms s m l d r v f y) →
  ((x = .vgat v ∨ x = .vsct v) → tidOf (s.sreg s.cur v.sa.toNat) ≠ 3) → Accesses s a → AllLocal s a →
  checkAll s (s.ctx s.cur) a.want a.elems = .error (.trap code w0, ea) →
  ((x = .vldFf m ∨ x = .vldFfX96 l) → code = cTILE_PROT ∨ code = cTILE_ABSENT ∨ code = cTAG_MISMATCH → ∃ t,
    exec x s = .next t ∧ Retired (bumped s { a with bump := a.bump ++ [(if x = .vldFf m then m.sb.toNat else l.sb.toNat, code.setWidth 64)] }) t
      (s.now.pc + BitVec.ofNat 64 a.len) a.fp a.fo) ∧
  (x ≠ .vldFf m → x ≠ .vldFfX96 l → s.now.tip = false → ∃ t, exec x s = .next t ∧ Trapped s t code ea)) ∧
  (∀ (s : State) (m : FM) (n : Nat) (x : Instr),
  (x, n) ∈ ([(.ldH m, 2), (.ldW m, 4), (.ldD m, 8), (.stH m, 2), (.stW m, 4), (.stD m, 8)] : List (Instr × Nat)) →
  Executes s m.g m.fp m.fo [m.vd.toNat % 64, m.sa.toNat] [] → ownRemote s = none → s.now.tip = false →
  (∀ e ∈ accessesOf s s.cur, e.2.kind.isTag = false) → 256 ≤ tidOf (memEa m.form s n) → offOf (memEa m.form s n) % n ≠ 0 →
  ∃ t, exec x s = .next t ∧ Trapped s t cALIGN (memEa m.form s n)) ∧
  (∀ (s : State) (v : FX) (x : Instr) (a : Access9) (ps : List Piece),
  (x, a) ∈ [(Instr.vgat v, indexedForm s v 0x0A0 (.loadV v.vd.toNat (tyWidth v.ty.toNat) (guardPred s s.cur v.g) false) false),
    (.vsct v, indexedForm s v 0x0A1 .scatter false)] →
  tidOf (s.sreg s.cur v.sa.toNat) = 3 → Accesses s a → laneAccesses v (!a.kind.isLoad) s = .ok ps → ps ≠ [] →
  (∃ t, exec x s = .next t ∧
    (x = .vgat v → IssuedLate (outstanding s a ps) t ⟨a.fp, none, [s.nextId], none, none, [], true, none⟩ 8 a.fo) ∧
    (x = .vsct v → Retired (outstanding s a ps) t (s.now.pc + 8) a.fp a.fo)) ∧
  ∀ p ∈ ps, ∃ off, off + 4 ≤ 8192 ∧
    (p.spot = .key (keyLane (coreOf s.cur) p.elem off) ∧ p.len = 4 ∨
     p.spot = .pair (.key (keyLane (coreOf s.cur) (2 * p.elem) off)) (.key (keyLane (coreOf s.cur) (2 * p.elem + 1) off)) ∧ p.len = 8))

/-- A piece of a load returns (09 R211): with the last one the register takes the bytes read, extended as the instruction says (09 R214) or
merged under the guard, the access is gone, and the load retires: it is counted and its token enters its FIFO (05 R114); one that pushes
does so in its turn, when the stream's earlier instructions have retired (05 R109). That a load retires with its value, in whatever order, is
the reading of notes/assumptions/10.md. -/
def Obligations.LoadsReturn : Prop := ∀ (s : State) (n j : Nat) (a : Access) (p : Piece),
  s.access n = some a → a.kind.isLoad = true → a.remote = false → a.pieces[j]? = some p → inOrder s n a = true →
  ∃ t, exec (.loadReturn n j) s = .next t ∧ t.mem = s.mem ∧
    (a.pieces = [p] → t.access n = none ∧
      (∀ sd z, sd < 64 → a.kind = .loadS sd z → ∀ i m, m < 64 → t.sreg i m = if m ≠ 0 ∧ i = a.k ∧ m = sd then
        loadedWord z (a.got ++ [(p.elem, p.pos, loadBytes s n a p)]) else s.sreg i m) ∧
      (∀ vd w mask note, vd < 1024 → a.kind = .loadV vd w mask note → ∀ i m, m < 1024 → t.vreg i m = if i = coreOf a.k ∧ m = vd then
        loadedVec (s.vreg (coreOf a.k) vd) w mask (a.got ++ [(p.elem, p.pos, loadBytes s n a p)]) else s.vreg i m) ∧
      (∀ i fp, (s.ctl a.k).late[i]? = some ⟨fp, none, [n], none, none, [], true, none⟩ →
        (∀ h, h < i → ∀ l, (s.ctl a.k).late[h]? = some l → l.accs ≠ [n]) → (s.ctl a.k).run = .running →
        (i = 0 ∨ fp = 0 → (t.ctl a.k).late = (s.ctl a.k).late.eraseIdx i ∧ (t.ctl a.k).instret = (s.ctl a.k).instret + 1 ∧
          ∀ m, FMap.get 0 (t.core (coreOf a.k)).fifo m =
            FMap.get 0 (s.core (coreOf a.k)).fifo m + (if fp ≠ 0 ∧ m = fp.toNat - 1 then 1 else 0)) ∧
        (i ≠ 0 → fp ≠ 0 → (t.ctl a.k).late = (s.ctl a.k).late ∧ (t.ctl a.k).instret = (s.ctl a.k).instret ∧ t.cores = s.cores))) ∧
    (a.pieces ≠ [p] → (∃ b, t.access n = some b ∧ b.pieces = a.pieces.erase p ∧ b.got = a.got ++ [(p.elem, p.pos, loadBytes s n a p)]) ∧
      t.sregs = s.sregs ∧ t.vregs = s.vregs)

/-- A piece of a store performs at its home (08 R185, 09 R211): of a scalar or tensor store or a scatter exactly its bytes change, of a row
store those of the enabled lanes (09 R212); of a scatter's elements with a byte in common the highest comes last (09 R220). A piece may be the
two words of a doubleword. Places of class-zero, COW and MOVING tiles are left out; and no hamper page is in the way. -/
def Obligations.StoresPerform : Prop := ∀ (s : State) (n j : Nat) (a : Access) (p : Piece) (keys : List Nat),
  s.access n = some a → a.remote = false → a.pieces[j]? = some p → inOrder s n a = true → s.pkg.hbaseSet = false →
  LiesAt s p.spot p.data.length keys →
  (a.kind = .store ∨ (a.kind = .scatter ∧ ∀ q ∈ a.pieces.takeWhile (· != p), q.meets s p = false) →
    ∃ t, exec (.accessPerform n j) s = .next t ∧ Performed s t n a p ∧ t.sregs = s.sregs ∧ Stored s t keys p.data fun _ => true) ∧
  (∀ mask key, a.kind = .row mask → p.data.length = 128 → keys = List.range' key 128 →
    ∃ t, exec (.accessPerform n j) s = .next t ∧ Performed s t n a p ∧ t.sregs = s.sregs ∧
      Stored s t keys p.data fun i => mask.getLsbD (i / 4)) ∧
  (a.kind = .scatter → (∃ q ∈ a.pieces.takeWhile (· != p), q.meets s p = true) → exec (.accessPerform n j) s = .next s)

/-- The value that each atomic leaves for an old value `o`, with `w` bits, the operand `x` and `y` of sc; none where nothing is written.
`bar.arr` counts an arrival, and with the last of those expected starts the next generation (09 R223). A scalar atomic performs in one step: it
stores that value, or nothing, and its register, unless that is s0, takes the old value, sign-extended (09 R221); an element of a vector
atomic the same, without the old value (09 R219). Places are those of StoresPerform. -/
def Obligations.Atomics : Prop :=
  (∀ (w o x y : Nat), w = 32 ∨ w = 64 → o < 2 ^ w → x < 2 ^ w → y < 2 ^ w →
  amoNew .add w o x y = some ((o + x) % 2 ^ w) ∧ amoNew .swap w o x y = some x ∧ amoNew .and w o x y = some (o &&& x) ∧
  amoNew .or w o x y = some (o ||| x) ∧ amoNew .xor w o x y = some (o ^^^ x) ∧
  amoNew .min w o x y = some (if intOf w true o ≤ intOf w true x then o else x) ∧
  amoNew .max w o x y = some (if intOf w true o ≤ intOf w true x then x else o) ∧
  amoNew .minu w o x y = some (if o ≤ x then o else x) ∧ amoNew .maxu w o x y = some (if o ≤ x then x else o) ∧
  amoNew .cas w o x y = (if o = x then some y else none) ∧
  (w = 64 → amoNew .arrive w o x y = some (if o / 2 ^ 16 % 2 ^ 16 + 1 < max (o / 2 ^ 32 % 2 ^ 16) 1 then o + 2 ^ 16
    else (o / 2 ^ 48 + 1) % 2 ^ 16 * 2 ^ 48 + o / 2 ^ 32 % 2 ^ 16 * 2 ^ 32 + o % 2 ^ 16))) ∧
  (∀ (s : State) (n j : Nat) (a : Access) (p : Piece) (keys : List Nat) (w old : Nat) (op : Amo),
  s.access n = some a → a.remote = false → a.pieces[j]? = some p → inOrder s n a = true → s.pkg.hbaseSet = false →
  LiesAt s p.spot (w / 8) keys → w = 32 ∨ w = 64 → old = bytesToNat (keys.map s.byte) →
  (∀ (x c : Word) (sd : Option Nat), (∀ d, sd = some d → d < 64) → a.kind = .amo op w x c sd →
    ∃ t, exec (.accessPerform n j) s = .next t ∧ Performed s t n a p ∧
      (∀ i m, m < 64 → t.sreg i m = if m ≠ 0 ∧ i = a.k ∧ sd = some m then BitVec.ofInt 64 (intOf w true old) else s.sreg i m) ∧
      (∀ v, amoNew op w old x.toNat c.toNat = some v → Stored s t keys (natToBytes (w / 8) v) fun _ => true) ∧
      (amoNew op w old x.toNat c.toNat = none → t.mem = s.mem)) ∧
  (a.kind = .vamo op w → ∃ t, exec (.accessPerform n j) s = .next t ∧ Performed s t n a p ∧ t.sregs = s.sregs ∧
    ∀ v, amoNew op w old (bytesToNat p.data) 0 = some v → Stored s t keys (natToBytes (w / 8) v) fun _ => true))

/-- Within a class a write performs after every earlier access of the stream, and a load after every earlier load and atomic: an access
that its order holds back changes nothing (01 R15, 10 R235), unless its tile is MOVING, whose home takes it in its order. Where one of the two
is an atomic of a narrower scope than the package, the order is for the agents of that scope (10 R244): if the later access goes first, it
leaves a debt, while which nothing happens there (notes/assumptions/8.md). -/
def Obligations.ClassOrder : Prop := ∀ (s : State) (n m j : Nat) (a b : Access),
  s.access n = some a → (m, some b) ∈ s.accs → m < n → b.k = a.k → b.remote = false → b.cls = a.cls →
  (a.kind.isLoad = false ∨ b.kind.isLoad = true ∨ b.kind.isAtomic = true) → (∀ p ∈ a.pieces, movingTile s p.spot = none) →
  ((a.kind.isAtomic = false ∨ 6 ≤ a.scope) → (b.kind.isAtomic = false ∨ 6 ≤ b.scope) →
    exec (.accessPerform n j) s = .next s ∧ exec (.loadReturn n j) s = .next s) ∧
  (∀ t, exec (.accessPerform n j) s = .next t ∨ exec (.loadReturn n j) s = .next t → t = s ∨
    ∃ sc, (m, a.k, sc) ∈ t.debts ∧ min b.reach a.reach ≤ sc ∧ sc < 6)

/-- `tag.get` of a local tile, `tag.set`, and the tensor loads and stores of a plain format, on a tensor of this package: `tag.get` answers
the tag and the valid bit at once, unless an access or a fence of its class stands before it (10 R235, R237); the others leave an access
outstanding (09 R217, R222). Writes to COW and MOVING tiles, which their home settles before they retire, are left out, and so is what
`tag.set` does to class-zero COW tiles (notes/assumptions/23.md). -/
def Obligations.TensorInstructions : Prop := ∀ (s : State) (f : FM) (tn : Tensor),
  NoLoopEnd s.now → ownRemote s = none → tn.remote = false →
  (guardTrue s s.cur f.g = true → Issues s f.fp f.fo [f.vd.toNat % 64, f.sa.toNat] [] → tidOf (s.sreg s.cur f.sa.toNat) ≠ 3 →
    tagPlace s (s.sreg s.cur f.sa.toNat) false = .ok (.tensor tn) →
    (∀ e ∈ accessesOf s s.cur, e.2.cls = f.cls.toNat → e.2.kind.isStore = true) →
    (∀ l ∈ s.now.late, ∀ x, l.fence = some x → x.mask.getLsbD f.cls.toNat = false) →
    ∃ t, exec (.tagGet f) s = .next t ∧ Retired (s.setS (f.vd.toNat % 64)
      (tagWord (readTile s tn (offOf (s.sreg s.cur f.sa.toNat) / tn.tbytes)) ((s.ctx s.cur).froz.contains tn.tid))) t (s.now.pc + 8)
      f.fp f.fo) ∧
  (guardTrue s s.cur f.g = true → Issues s f.fp f.fo [f.sa.toNat, f.sb.toNat] [] →
    (∀ e ∈ accessesOf s s.cur, e.2.kind.isTag = false) → tagPlace s (s.sreg s.cur f.sa.toNat) true = .ok (.tensor tn) → malformed ((s.sreg s.cur f.sb.toNat).toNat % 2 ^ 16) = false →
    (readTile s tn (offOf (s.sreg s.cur f.sa.toNat) / tn.tbytes)).cow = false →
    (readTile s tn (offOf (s.sreg s.cur f.sa.toNat) / tn.tbytes)).moving = false →
    ∃ t a, exec (.tagSet f) s = .next t ∧ t.access s.nextId = some a ∧ a.k = s.cur ∧ a.cls = f.cls.toNat ∧
      a.kind = .tag ((s.sreg s.cur f.sb.toNat).setWidth 16) ∧
      a.pieces.map (·.spot) = [.tile (s.ctx s.cur).asid tn.tid (offOf (s.sreg s.cur f.sa.toNat))] ∧
      (t.ctl s.cur).pc = s.now.pc + 8 ∧ t.mem = s.mem ∧ t.sregs = s.sregs) ∧
  (∀ n tag idx fr l, Issues s f.fp f.fo [f.sa.toNat, f.sb.toNat] [f.vd.toNat] → (∀ e ∈ accessesOf s s.cur, e.2.kind.isTag = false) →
    tensorOf s (s.ctx s.cur) (s.sreg s.cur f.sa.toNat) = some tn → formatOf tag ≤ 12 →
    (firstTile s true (s.ctx s.cur) tn .load ((guardPred s s.cur f.g).getLsbD 0) (coords (s.sreg s.cur f.sb.toNat)) = .at n tag idx fr →
      findElems s true (s.ctx s.cur) tn .load (guardPred s s.cur f.g) (coords (s.sreg s.cur f.sb.toNat)) (formatOf tag)
        (tensorCount (formatOf tag)) = .ok l → (∃ i, i < tensorCount (formatOf tag) ∧ (guardPred s s.cur f.g).getLsbD i = true) →
      ∃ t a, exec (.vldT f) s = .next t ∧ t.access s.nextId = some a ∧ a.k = s.cur ∧
        a.kind = .loadV f.vd.toNat (tensorWidth (formatOf tag)) (guardPred s s.cur f.g) false ∧
        a.pieces.map (·.elem) = (List.range (tensorCount (formatOf tag))).filter (guardPred s s.cur f.g).getLsbD ∧
        (t.ctl s.cur).pc = s.now.pc + 8 ∧ t.mem = s.mem ∧ t.vregs = s.vregs) ∧
    (firstTile s true (s.ctx s.cur) tn .tensor ((guardPred s s.cur f.g).getLsbD 0) (coords (s.sreg s.cur f.sb.toNat)) = .at n tag idx fr →
      findElems s true (s.ctx s.cur) tn .tensor (guardPred s s.cur f.g) (coords (s.sreg s.cur f.sb.toNat)) (formatOf tag)
        (tensorCount (formatOf tag)) = .ok l → l ≠ [] → (∀ m, (readTile s tn m).cow = false ∧ (readTile s tn m).moving = false) →
      ∃ t a, exec (.vstT f) s = .next t ∧ t.access s.nextId = some a ∧ a.k = s.cur ∧ a.kind = .store ∧
        a.pieces.map (·.elem) = l.map (·.1) ∧ (t.ctl s.cur).pc = s.now.pc + 8 ∧ t.mem = s.mem ∧ t.vregs = s.vregs))

/-- `ctl.rd`: the register that the index names, as it was (04 R101), whatever chapter describes it; STM_CYCLE counts by
notes/assumptions/62.md, and STM_INSTRET is read once the stream's earlier instructions are counted (71.md). Which registers there are, and
which of them user level may read, is what their tables say (01 R22, R23, 04 R104). -/
def Obligations.ControlReads : Prop :=
  (∀ (s : State) (f : FY),
  Executes s f.g f.fp f.fo [f.sd.toNat, f.sa.toNat] [] → s.now.prv = true ∨ userReads f.k.toNat = true →
  uncounted s f.k.toNat = false →
  (∀ v, (f.k.toNat, v) ∈ streamRegisters s.time s.now ++ coreRegisters (s.core (coreOf s.cur)) ++ packageRegisters s.pkg →
    ∃ t, exec (.ctlRd f) s = .next t ∧ Retired (s.setS f.sd.toNat v) t (s.now.pc + 8) f.fp f.fo) ∧
  (∃ t, exec (.ctlRd f) s = .next t ∧ Retired (s.setS f.sd.toNat (creg s s.cur f.k.toNat)) t (s.now.pc + 8) f.fp f.fo)) ∧
  (∀ ix, ctlExists ix = decide (ix ∈ userBoth ++ userOnlyRead ++ supervisorRegisters)) ∧
  (∀ ix, ctlExists ix = true → userReads ix = decide (ix ∈ userBoth ++ userOnlyRead))

/-- `ctl.wr`, `ctl.set` and `ctl.clr` of a stream, core or package register whose write has no action of its own leave the merged
value in it (04 R101, R103): an RW bit is written, set or cleared; a W1C bit is cleared by a 1 in `ctl.wr` and `ctl.clr` and not touched
by `ctl.set`; every other bit keeps its value. Which bits are RW and W1C, and which registers user level may write, is what their tables say.
That a write of STM_INSTRET precedes the count of its own instruction is the choice of notes/assumptions/71.md, how STM_CYCLE counts 62.md. -/
def Obligations.ControlWrites : Prop :=
  (∀ (s : State) (f : FY) (i : Instr) (m : WMode),
  (i, m) ∈ ctlWrites f → Executes s f.g f.fp f.fo [f.sd.toNat, f.sa.toNat] [] →
  s.now.prv = true ∨ userWrites f.k.toNat = true → plainRegister f.k.toNat → uncounted s f.k.toNat = false →
  ∃ t, exec i s = .next t ∧
    Retired (withRegister s f.k.toNat (merged m f.k.toNat (creg s s.cur f.k.toNat) (s.sreg s.cur f.sa.toNat))) t (s.now.pc + 8) f.fp f.fo) ∧
  (∀ (m : WMode) (ix : Nat) (old v : Word) (b : Nat), b < 64 →
  (merged m ix old v).getLsbD b =
    if inFields (rwFields ix) b then
      (match m with | .wr => v.getLsbD b | .set => old.getLsbD b || v.getLsbD b | .clr => old.getLsbD b && !v.getLsbD b)
    else if inFields (w1cFields ix) b && m != .set then old.getLsbD b && !v.getLsbD b
    else old.getLsbD b) ∧
  (∀ ix, ctlExists ix = true → userWrites ix = decide (ix ∈ userBoth))

/-- User level: a control register that it may not read or write raises PRIV with the index (04 R104), and an instruction of the
supervisor raises PRIV with the instruction's bits 31 to 0, both whatever the guard holds (01 R17, R28). -/
def Obligations.Privilege : Prop := ∀ (s : State) (f : FY),
  s.now.legal = true → s.now.prv = false → s.now.tip = false →
  (userReads f.k.toNat = false → ∃ t, exec (.ctlRd f) s = .next t ∧ Trapped s t cPRIV (BitVec.ofNat 64 f.k.toNat)) ∧
  (∀ i m, (i, m) ∈ ctlWrites f → userWrites f.k.toNat = false →
    ∃ t, exec i s = .next t ∧ Trapped s t cPRIV (BitVec.ofNat 64 f.k.toNat)) ∧
  (∀ i ∈ supervisorOnly f, ∃ t, exec i s = .next t ∧ Trapped s t cPRIV (s.fetched.setWidth 64))

/-- A write of a queue's format issues once the core's earlier instructions have retired, and waits to retire; it then discards what the queue held, raises the drop flag if it held an element, and the
stream goes on (05 R119). That the write stands apart from its retiring is how the model shows 05 R119 (notes/assumptions/64.md). -/
def Obligations.QueueFormats : Prop := ∀ (s : State),
  (∀ (f : FY) i m, (i, m) ∈ ctlWrites f → 0x208 ≤ f.k.toNat → f.k.toNat ≤ 0x217 →
    Executes s f.g f.fp f.fo [f.sd.toNat, f.sa.toNat] [] → (s.core (coreOf s.cur)).qfmt = none →
    (∀ j, j < 3 → (s.ctl (3 * coreOf s.cur + j)).late = []) →
    ∃ t, exec i s = .next t ∧ (t.ctl s.cur).run = .atFormat ∧ (t.ctl s.cur).pc = s.now.pc ∧ t.vregs = s.vregs ∧ t.mem = s.mem ∧
      (t.core (coreOf s.cur)).qfmt =
        some ⟨s.cur, f.k.toNat, merged m f.k.toNat (creg s s.cur f.k.toNat) (s.sreg s.cur f.sa.toNat), f.fp⟩ ∧
      (t.core (coreOf s.cur)).dq = (s.core (coreOf s.cur)).dq) ∧
  (∀ c q, (s.core c).qfmt = some q → coreOf q.k = c → 0x208 ≤ q.ix → q.ix ≤ 0x217 → (s.ctl q.k).run = .atFormat →
    (s.ctl q.k).legal = true → NoLoopEnd (s.ctl q.k) → (s.ctl q.k).prv = true ∨ (s.ctl q.k).step = false →
    ∃ t, exec (.coreQformatWrite c) s = .next t ∧ (t.ctl q.k).run = .running ∧ (t.ctl q.k).pc = (s.ctl q.k).pc + 8 ∧
      (t.core c).qfmt = none ∧ ((t.core c).queue (q.ix % 8)) = ⟨[], 0⟩ ∧ (∀ n, n ≠ q.ix % 8 → (t.core c).queue n = (s.core c).queue n) ∧
      (∀ n, n < 8 → (t.core c).src n = if q.ix = 0x208 + n then q.value else (s.core c).src n) ∧
      (∀ n, n < 8 → (t.core c).snk n = if q.ix = 0x210 + n then q.value else (s.core c).snk n) ∧
      (∀ b, b < 64 → (t.core c).qflags.getLsbD b = ((s.core c).qflags.getLsbD b ||
        (decide (b = 8 * (q.ix % 8) + 7) && decide (0 < heldElems ((s.core c).queue (q.ix % 8)) ((s.core c).src (q.ix % 8)))))))

/-- `q.push` appends a row in which the disabled elements are zero; `q.pop` takes a register of elements in the sink format from the
front, converts the enabled ones and keeps the old disabled ones; what it takes leaves the queue in order (05 R117, R118, 06 R148). -/
def Obligations.DataQueues : Prop := ∀ (s : State) (f : X3),
  let c := s.core (coreOf s.cur)
  let g := guardPred s s.cur f.g
  NoLoopEnd s.now → s.now.open = false →
  (∀ n w, n = f.vd.toNat % 8 → w = tyWidth (qTy (c.src n)) → Issues s f.fp f.fo [] [f.va.toNat] → badFormats (c.src n) (c.snk n) = false →
    formatPending c n = false → (c.queue n).rows.length < 16 →
    ∃ t row, exec (.qPush f) s = .next t ∧
      Retired (onOwnCore s fun c => { c with dq := FMap.set .reset c.dq n { c.queue n with rows := (c.queue n).rows ++ [row] } }) t
        (s.now.pc + 8) f.fp f.fo ∧
      ∀ i, i < 1024 / w → elemAt w row i = if g.getLsbD i then elemAt w (s.vreg (coreOf s.cur) f.va.toNat) i else 0) ∧
  (∀ n w q, n = f.va.toNat % 8 → w = tyWidth (qTy (c.snk n)) → q = c.queue n → Issues s f.fp f.fo [] [f.vd.toNat] →
    badFormats (c.src n) (c.snk n) = false → formatPending c n = false → 1024 / w ≤ heldElems q (c.src n) →
    ∃ (t : State) (v : Vec) (q1 : DQ) (fl : Fl), exec (.qPop f) s = .next t ∧
      Retired ((onOwnCore s fun c => { c with dq := FMap.set .reset c.dq n q1, qflags := c.qflags ||| (fl.setWidth 64 <<< (8 * n)) }).setV
        f.vd.toNat v) t (s.now.pc + 8) f.fp f.fo ∧
      (∀ i, i < 1024 / w → elemAt w v i =
        if g.getLsbD i then (queueConvert (c.src n) (c.snk n) (queueElem q (c.src n) i)).1 % 2 ^ w
        else elemAt w (s.vreg (coreOf s.cur) f.vd.toNat) i) ∧
      fl = flagsOf (1024 / w) (fun i => if g.getLsbD i then (queueConvert (c.src n) (c.snk n) (queueElem q (c.src n) i)).2 else 0) ∧
      heldElems q1 (c.src n) = heldElems q (c.src n) - 1024 / w ∧
      ∀ i, queueElem q1 (c.src n) i = queueElem q (c.src n) (1024 / w + i))

/-- `bq.push` appends an outcome, which is 1 if its guard holds and sa is not 0, at once or, while an earlier instruction of the stream has
still to retire, a load among them, when that is over (05 R109, R114, 10 R241); `bq.br` takes the oldest and is taken if its guard holds
and the outcome is 1 (06 R149, R150). -/
def Obligations.OutcomeQueues : Prop := ∀ (s : State) (f : FB),
  let c := s.core (coreOf s.cur)
  NoLoopEnd s.now → s.now.open = false →
  (∀ out, out = (guardTrue s s.cur f.g && decide (s.sreg s.cur f.sa.toNat ≠ 0)) →
    Issues s f.fp f.fo [f.sa.toNat] [] → producer f.sb.toNat = kindOf s.cur →
    (c.outcomes f.sb.toNat).length + lateOutcomes s.now f.sb.toNat < 64 →
    ∃ t, exec (.bqPush f) s = .next t ∧
      (s.now.late = [] → Retired (withOutcomes s f.sb.toNat (c.outcomes f.sb.toNat ++ [out])) t (s.now.pc + 8) f.fp f.fo) ∧
      (s.now.late ≠ [] →
        Retired (s.setCtl { s.now with late := s.now.late ++ [⟨0, some (f.sb.toNat, out), [], none, none, [], false, none⟩] }) t
          (s.now.pc + 8) f.fp f.fo)) ∧
  (∀ o rest, Issues s f.fp f.fo [] [] → consumer f.sb.toNat = kindOf s.cur → c.outcomes f.sb.toNat = o :: rest →
    ∃ t, exec (.bqBr f) s = .next t ∧
      (guardTrue s s.cur f.g = true ∧ o = true →
        Retired ((withOutcomes s f.sb.toNat rest).setCtl { s.now with spin := none }) t
          (s.now.pc + 4 * f.off.signExtend 64) f.fp f.fo) ∧
      (¬(guardTrue s s.cur f.g = true ∧ o = true) →
        Retired (withOutcomes s f.sb.toNat rest) t (s.now.pc + 8) f.fp f.fo)) ∧
  (∀ (l : FB96) o rest, Issues s l.fp l.fo [] [] → consumer l.sb.toNat = kindOf s.cur → c.outcomes l.sb.toNat = o :: rest →
    ∃ t, exec (.bqBrX96 l) s = .next t ∧
      (guardTrue s s.cur l.g = true ∧ o = true →
        Retired ((withOutcomes s l.sb.toNat rest).setCtl { s.now with spin := none }) t
          (s.now.pc + 4 * l.lit.signExtend 64) l.fp l.fo) ∧
      (¬(guardTrue s s.cur l.g = true ∧ o = true) →
        Retired (withOutcomes s l.sb.toNat rest) t (s.now.pc + 12) l.fp l.fo))

/-- The node instructions (07 R175 to R179): `nd.arg` and `wid` read an item of the share; `done` finishes the stream, its pc left where it
is, which is the reading of notes/assumptions/44.md; `gr.sig` sets event bits, and the nodes that wait for no others become ready. -/
def Obligations.NodeInstructions : Prop := ∀ (s : State) (f : FY) (tm : Team),
  s.ownTeam = some tm → s.now.open = false →
  (Executes s f.g f.fp f.fo [f.sd.toNat] [] →
    (∃ t, exec (.ndArg f) s = .next t ∧ Retired (s.setS f.sd.toNat (argItem s tm f.k.toNat)) t (s.now.pc + 8) f.fp f.fo) ∧
    (∃ t, exec (.wid f) s = .next t ∧ Retired (s.setS f.sd.toNat (if f.k.toNat = 6 then tm.base else if f.k.toNat = 7 then
      BitVec.ofNat 64 tm.shares else widItem s tm f.k.toNat)) t (s.now.pc + 8) f.fp f.fo)) ∧
  (Executes s f.g f.fp f.fo [] [] → streamOps s s.cur = [] → accessesOf s s.cur = [] → s.now.late = [] →
    nextRecord (s.core (coreOf s.cur)) s.cur (fun _ => true) = none → bitOf s.now.glatch 63 = false →
    ∃ t, exec (.doneI f) s = .next t ∧ (t.ctl s.cur).run = .finished ∧ (t.ctl s.cur).pc = s.now.pc ∧
      (t.ctl s.cur).instret = s.now.instret + 1 ∧ t.sregs = s.sregs ∧ t.vregs = s.vregs ∧ t.mem = s.mem) ∧
  (∀ i, Executes s f.g f.fp f.fo [f.sa.toNat] [] → accessesOf s s.cur = [] → s.now.late = [] → s.inst tm.inst = some i → i.cancelled = false →
    ∃ t j, exec (.grSig f) s = .next t ∧ (t.ctl s.cur).pc = s.now.pc + 8 ∧ t.inst tm.inst = some j ∧ t.mem = s.mem ∧ t.sregs = s.sregs ∧
      j.events = i.events ||| (s.sreg s.cur f.sa.toNat).setWidth 16 ∧
      (∀ n, n < i.nodes.length → (i.node n).state = .due → (j.node n).state = if j.events &&& i.waitev n = i.waitev n then .ready else .due) ∧
      (∀ n, (i.node n).state ≠ .due → j.node n = i.node n) ∧ (∀ l, l ≠ tm.inst → t.inst l = s.inst l))

/-- `bar.wt`: it retires when the barrier's phase has passed and waits otherwise; a stream that waits reads the word again (09 R224).
`tbar`: while a stream of the team has still to arrive the stream waits; with the last arrival every stream that waits retires its
`tbar` (09 R225). -/
def Obligations.Barriers : Prop :=
  (∀ (s : State) (f : FY) (touch : Option Nat) (w : Nat),
  (Barred s f touch w → ∃ t, exec (.barWt f) s = .next t ∧ Waited s t f touch w) ∧
  (∀ k, (s.ctl k).run = .atBar f → Barred (woken s k) f touch w →
    ∃ t, exec (.barrierReread k) s = .next t ∧ Waited (woken s k) t f touch w)) ∧
  (∀ (s : State) (f : FY) (n : Nat) (tm : Team),
  (s.core (coreOf s.cur)).team = some n → s.team n = some tm → s.cur ∈ teamStreams tm → Executes s f.g f.fp f.fo [] [] →
  s.now.open = false → accessesOf s s.cur = [] → s.now.late = [] → bitOf s.now.glatch 63 = false →
  ((∃ k ∈ teamStreams tm, k ≠ s.cur ∧ arrivedAt (s.ctl k).run = false) → ∃ t, exec (.tbar f) s = .next t ∧
    t.ctl s.cur = { s.now with run := .atTbar f, tbars := s.now.tbars + 1 } ∧ ∀ k, k ≠ s.cur → t.ctl k = s.ctl k) ∧
  ((∀ k ∈ teamStreams tm, k ≠ s.cur → arrivedAt (s.ctl k).run = true) →
    (∀ k ∈ teamStreams tm, (s.ctl k).legal = true ∧ NoLoopEnd (s.ctl k) ∧ ((s.ctl k).prv = true ∨ (s.ctl k).step = false)) →
    ∃ t, exec (.tbar f) s = .next t ∧ ∀ k ∈ teamStreams tm, (k = s.cur ∨ ∃ g, (s.ctl k).run = .atTbar g) →
      (t.ctl k).run = .running ∧ (t.ctl k).pc = (s.ctl k).pc + 8 ∧ (t.ctl k).instret = (s.ctl k).instret + 1))

/-- `fence.cls` and `xfence` (09 R227, R228): with nothing outstanding that they name, and for `xfence` at scope `.st`, they retire; otherwise
the stream goes on, the fence retires when those accesses are over, and until then no later access of a class of MASK performs before an earlier
one of MASK (for every agent of the package, where SC is `.pk` or wider). An instruction that has issued retires when what it waits for is over,
one that pushes in its turn: its vector registers take the bits that it writes, it is counted, and it pushes (05 R108, R109, R114). `wait` and
`waitc` (09 R229, 12 R277): a completed token retires it, or delivers the oldest record of a fault as a trap; a cancelled one raises TOKEN; the
stream is blocked by one that is not complete, or by more outstanding than `waitc` allows. When a fence retires is the reading of
notes/assumptions/83.md, in which order instructions that have issued do is that of 80.md, and which record `waitc` delivers that of 36.md. -/
def Obligations.Waits : Prop :=
  (∀ (s : State) (f : FY) (named : List Nat), Executes s f.g f.fp f.fo [] [] →
  (named = ((accessesOf s s.cur).filter fun e => f.k.getLsbD e.2.cls).map (·.1) →
    ∃ t, exec (.fenceCls f) s = .next t ∧ (named = [] → Retired s t (s.now.pc + 8) f.fp f.fo) ∧
      (named ≠ [] → IssuedLate s t (lateFence s f named false) 8 f.fo)) ∧
  (named = (if f.k.toNat / 2 ^ 16 % 8 = 0 then [] else ((accessesOf s s.cur).filter fun e => !e.2.kind.isLoad).map (·.1)) →
    ∃ t, exec (.xfence f) s = .next t ∧ (named = [] → Retired s t (s.now.pc + 8) f.fp f.fo) ∧
      (named ≠ [] → IssuedLate s t (lateFence s f named true) 8 f.fo))) ∧
  (∀ (s : State) (k i : Nat) (l : Late) (t : State), (s.ctl k).late[i]? = some l → (s.ctl k).legal = true →
    (s.ctl k).run = .running → l.tiles = none → t = s.applyAll (retireLate k i s) →
    let ready := (i = 0 ∨ (l.fp = 0 ∧ l.outcome = none)) ∧ (∀ a ∈ l.accs, s.access a = none) ∧ ∀ o, l.op = some o → s.op o = none
    (ready → t.mem = s.mem ∧ t.sregs = s.sregs ∧
      t.ctl k = { s.ctl k with late := (s.ctl k).late.eraseIdx i, instret := (s.ctl k).instret + (if l.counts = true then 1 else 0) } ∧
      (∀ n, FMap.get 0 (t.core (coreOf k)).fifo n =
        FMap.get 0 (s.core (coreOf k)).fifo n + (if l.fp ≠ 0 ∧ n = l.fp.toNat - 1 then 1 else 0)) ∧
      (∀ n, (t.core (coreOf k)).outcomes n = (s.core (coreOf k)).outcomes n ++
        (match l.outcome with | some (q, b) => if q = n then [b] else [] | none => [])) ∧
      (∀ n, n < 1024 → (∀ w ∈ l.writes, w.1 ≠ n) → t.vreg (coreOf k) n = s.vreg (coreOf k) n) ∧
      (∀ n m v, n < 1024 → l.writes = [(n, m, v)] → t.vreg (coreOf k) n = (s.vreg (coreOf k) n &&& ~~~m) ||| (v &&& m))) ∧
    (¬ready → t = s)) ∧
  (∀ (s : State) (n m j : Nat) (a b : Access) (l : Late) (f : Fence), s.access n = some a → (m, some b) ∈ s.accs → b.k = a.k →
    b.remote = false → l ∈ (s.ctl a.k).late → l.fence = some f → m < f.num → f.num ≤ n → f.mask.getLsbD b.cls = true →
    f.mask.getLsbD a.cls = true → 6 ≤ f.scope → (∀ p ∈ a.pieces, movingTile s p.spot = none) →
    exec (.accessPerform n j) s = .next s ∧ exec (.loadReturn n j) s = .next s) ∧
  (∀ (s : State) (f : FY),
  let c := s.core (coreOf s.cur)
  let n := f.k.toNat % 64
  let o := outCounts s s.cur
  let fewEnough := o.1 ≤ f.k.toNat % 64 ∧ o.2.1 ≤ f.k.toNat / 2 ^ 6 % 64 ∧ o.2.2.1 ≤ f.k.toNat / 2 ^ 12 % 64 ∧
    o.2.2.2 ≤ f.k.toNat / 2 ^ 18 % 64
  let waited (r : FaultRec) : Bool := if isTileOp r.op9 then f.k.toNat / 2 ^ 18 % 64 ≤ o.2.2.2 else f.k.toNat / 2 ^ 12 % 64 ≤ o.2.2.1
  let gone (r : FaultRec) : State := onOwnCore s fun c => { c with faults := c.faults.erase r }
  Executes s f.g f.fp f.fo [] [] →
  (c.tok n = .complete → n = 0 ∨ nextRecord c s.cur (fun r => r.kp == n) = none →
    ∃ t, exec (.wait f) s = .next t ∧ Retired s t (s.now.pc + 8) f.fp f.fo) ∧
  (∀ r, c.tok n = .complete → n ≠ 0 → nextRecord c s.cur (fun r => r.kp == n) = some r → s.now.tip = false →
    ∃ t, exec (.wait f) s = .next t ∧ Trapped (gone r) t r.code r.tval) ∧
  (c.tok n = .cancelled → s.now.tip = false → ∃ t, exec (.wait f) s = .next t ∧ Trapped s t cTOKEN (BitVec.ofNat 64 n)) ∧
  (c.tok n = .incomplete → exec (.wait f) s = .next (s.setCtl { s.now with blocked := some (.token n) })) ∧
  (fewEnough → nextRecord c s.cur waited = none → ∃ t, exec (.waitc f) s = .next t ∧ Retired s t (s.now.pc + 8) f.fp f.fo) ∧
  (∀ r, fewEnough → nextRecord c s.cur waited = some r → s.now.tip = false →
    ∃ t, exec (.waitc f) s = .next t ∧ Trapped (gone r) t r.code r.tval) ∧
  (¬fewEnough → ∃ t, exec (.waitc f) s = .next t ∧ (t.ctl s.cur).blocked.isSome = true ∧ (t.ctl s.cur).pc = s.now.pc))

/-- `park` (09 R230, 05 R126): the stream retires it and parks on the 128-byte rows of the address, unless parking is off or such a row has been
written since the stream's last load of it, which of a row of another package is a free value; a write to a row, wherever it lies now, the limit
or any other moment lets it go on. The limit and an early resumption are events of the model (notes/assumptions/43.md, 66.md). -/
def Obligations.Parking : Prop := ∀ (s : State),
  (∀ (f : FY) ps touch rows, let ea := s.sreg s.cur f.sa.toNat
    let seen := ∃ l r, s.now.lastLoad = some l ∧ r ∈ rows ∧ r ∈ l.rows ∧ (r ∈ l.written ∨ (2 ^ 80 ≤ r ∧ Config.farWritten s.clock = true))
    let off := (s.core (coreOf s.cur)).parklim.toNat % 2 ^ 32 = 0
    let u := s.apply (.clock (s.clock + 1))
    Executes s f.g f.fp f.fo [f.sa.toNat] [] → checkAll s (s.ctx s.cur) .load [⟨0, ea, .ok [(offOf ea, 1)], []⟩] = .ok (ps, touch) →
    rows = ps.flatMap (fun p => rowsOfSpot p.spot) → rows ≠ [] →
    ∃ t, exec (.park f) s = .next t ∧ (seen ∨ off → Retired u t (s.now.pc + 8) f.fp f.fo) ∧
      (¬(seen ∨ off) → Retired (u.setCtl { s.now with run := .parked rows }) t (s.now.pc + 8) f.fp f.fo)) ∧
  (∀ k rows i, (s.ctl k).run = .parked rows → (s.ctl k).legal = true → i ∈ ([.parkLimitExpiry k, .parkEarlyResume k] : List Instr) →
    exec i s = .next (s.apply (.ctl k { s.ctl k with run := .running }))) ∧
  (∀ k rows row a bs, FMap.canon Ctl.reset 0 s.ctls = true → (s.ctl k).run = .parked rows → row ∈ rows → a < 128 * s.rowNow row + 128 →
    128 * s.rowNow row < a + bs.length → bs ≠ [] → ((s.write a bs).ctl k).run = .running)

/-- Taking a trap (01 R35). With no trap in progress the registers of the trap are written and the stream goes on at the trap entry; with
one in progress DBL is set and the stream stops. -/
def Obligations.TrapEntry : Prop := ∀ (s : State) (k : Nat) (code : Byte) (imp : Bool) (val : Word) (flt : Flt) (t : State),
  (s.ctl k).legal = true → t = s.applyAll (takeTrap k code imp val flt s) →
  ((s.ctl k).tip = false → (t.ctl k).epc = (s.ctl k).pc ∧
    (t.ctl k).cause = BitVec.ofNat 64 ((if imp then 256 else 0) + code.toNat) ∧ (t.ctl k).tval = val ∧
    bitOf (t.ctl k).status 5 = (s.ctl k).prv ∧ (t.ctl k).prv = true ∧ (t.ctl k).tip = true ∧ (t.ctl k).pc = (s.ctl k).tvec ∧
    (∀ b, b ≠ 4 → b ≠ 5 → b ≠ 6 → (t.ctl k).status.getLsbD b = (s.ctl k).status.getLsbD b)) ∧
  ((s.ctl k).tip = true → (t.ctl k).run = .stopped ∧ (t.ctl k).pc = (s.ctl k).pc ∧ (t.ctl k).epc = (s.ctl k).epc ∧
    (t.ctl k).cause = (s.ctl k).cause ∧ (t.ctl k).tval = (s.ctl k).tval ∧
    (∀ b, b < 64 → (t.ctl k).status.getLsbD b = ((s.ctl k).status.getLsbD b || decide (b = 7)))) ∧
  (∀ j, j ≠ k → t.ctl j = s.ctl j) ∧ t.sregs = s.sregs ∧ t.pregs = s.pregs ∧ t.vregs = s.vregs ∧ t.mem = s.mem

/-- `rte` (01 R36): the pc, the level and TIP in one step, and nothing else. -/
def Obligations.TrapReturn : Prop := ∀ (s : State) (f : FY),
  Executes s f.g f.fp f.fo [] [] → s.now.prv = true →
  ∃ t st, exec (.rte f) s = .next t ∧ Retired (s.setCtl { s.now with status := st, spin := none }) t s.now.epc f.fp f.fo ∧
    (∀ b, b < 64 → st.getLsbD b = if b = 4 then s.now.status.getLsbD 5 else if b = 6 then false else s.now.status.getLsbD b)

/-- The system instructions (14 R313, R314, R331 to R334): `svc` and `brk` trap with their numbers, `svc` closing an open region; `flt.rd`
reads an item of the fault or 0; `rgn` opens a region, after closing one that is open, and takes its snapshot, or closes one, after which no
operation of the stream is in an open region; `halt` stops the team after it, to be fault-swapped with sa's cause, at once if a slot is free and
nothing of the team is under way, and otherwise as soon as one is; or ends the share. -/
def Obligations.SystemInstructions : Prop := ∀ (s : State) (f : FY),
  let u := s.applyAll (closeRegion s.cur s)
  let base := if s.now.open = true then u else s
  let sa := s.sreg s.cur f.sa.toNat
  let sb := s.sreg s.cur f.sb.toNat
  (Executes s f.g f.fp f.fo [] [] → s.now.tip = false →
    (∃ t, exec (.svc f) s = .next t ∧ Trapped u t cSVC (BitVec.ofNat 64 f.k.toNat)) ∧
    (∃ t, exec (.brk f) s = .next t ∧ Trapped s t cBREAK (BitVec.ofNat 64 (0x10000 + f.k.toNat)))) ∧
  (Executes s f.g f.fp f.fo [f.sd.toNat] [] → s.now.prv = true → f.k.toNat < 4 →
    ∃ t, exec (.fltRd f) s = .next t ∧ Retired (s.setS f.sd.toNat (if s.now.tip = true then
      [s.now.flt.i0, s.now.flt.i1, s.now.flt.i2, s.now.flt.i3].getD f.k.toNat 0 else 0)) t (s.now.pc + 8) f.fp f.fo) ∧
  (Executes s f.g f.fp f.fo [f.sa.toNat, f.sb.toNat] [] →
    ∀ c, c = { s.now with
      rgn := BitVec.ofNat 64 (2 ^ 63 + f.k.toNat % 2 ^ 21), rgnpc := s.now.pc, rgns := sa &&& ~~~1, rgnp := sb &&& 0xFFFE } →
    ∃ t, exec (.rgnOpen f) s = .next t ∧ Retired (base.setCtl { c with snap := some (snapOf c) }) t (s.now.pc + 8) f.fp f.fo) ∧
  (Executes s f.g f.fp f.fo [] [] →
    ∃ t, exec (.rgnClose f) s = .next t ∧ Retired base t (s.now.pc + 8) f.fp f.fo) ∧
  (s.now.legal = true → FMap.canon none 0 s.ops = true → u.now = { s.now with rgn := s.now.rgn &&& 0x7FFFFFFFFFFFFFFF } ∧
    (∀ j, j ≠ s.cur → u.ctl j = s.ctl j) ∧ { u with ctls := s.ctls, ops := s.ops } = s ∧
    ∀ n, u.op n = (s.op n).map fun o => { o with region := o.region && decide (o.k ≠ s.cur) }) ∧
  (∀ n tm, Executes s f.g f.fp f.fo [f.sa.toNat] [] → s.now.prv = true → s.now.late = [] →
    (s.core (coreOf s.cur)).team = some n → s.team n = some tm →
    (bitOf sa 8 = false → freeSlotOf s tm.asid = none → ∃ t, exec (.halt f) s = .next t ∧ (t.ctl s.cur).pc = s.now.pc + 8 ∧
      t.team n = some { tm with state := .halting sa } ∧ t.sregs = s.sregs ∧ t.mem = s.mem) ∧
    (∀ slot, bitOf sa 8 = false → freeSlotOf s tm.asid = some slot → Quiet s n tm → ∃ t v, exec (.halt f) s = .next t ∧
      Retired base v (s.now.pc + 8) f.fp f.fo ∧
      Swaps s (stopped (v.apply (.team n (some { tm with state := .halting sa }))) n tm 1 true slot) t n tm 1 true (sa.toNat % 256) slot) ∧
    (bitOf sa 8 = true → ∃ t, exec (.halt f) s = .next t ∧ t.team n = none))

/-- Every engine instruction whose operands pass its checks at issue retires at once and leaves its operation, with the operands as they
were, the tokens it waits for resolved and its own token incomplete; `mtx.ldt` writes its row of the shadow table instead, and waits for
its tokens, and `mtx.rd` retires when its operation is over (12 R257, R258, R270, R271, R275, 13 R281). An earlier `xfence`, and with `.rel`
a write of the stream that is out, keeps each of them back (09 R228; notes/assumptions/83.md). The destination of `drn.go` is checked at issue
for id 3 alone, and otherwise when the operation takes effect, which is the reading of notes/assumptions/97.md. -/
def Obligations.EngineIssue : Prop := ∀ (s : State) (f : FE),
  (∀ i e, (i, e) ∈ engineForms s f → e.passes → engineFree s f → Executes s f.g 0 0 [f.a1.toNat, f.a2.toNat, f.a3.toNat] [] →
    (e.closes = true → s.now.open = false) →
    (keptBack s f → exec i s = .next s) ∧
    (¬keptBack s f → ∃ t, exec i s = .next t ∧ Retired (withOperation s (e.record (newOp s e.op9 f))) t (s.now.pc + 8) 0 0)) ∧
  (∀ vd, vd = f.a1.toNat + f.a2.toNat % 16 * 64 → Executes s f.g 0 0 [f.a3.toNat] [vd] →
    (∀ n ∈ feWaits f, (s.core (coreOf s.cur)).tok n ≠ .cancelled) → (s.core (coreOf s.cur)).tok f.kp.toNat ≠ .incomplete →
    (keptBack s f → exec (.mtxRd f) s = .next s) ∧ (¬keptBack s f →
    ∃ t, exec (.mtxRd f) s = .next t ∧ IssuedLate (withOperation s { newOp s 0x0D4 f with a1 := s.sreg s.cur f.a3.toNat, vd := vd }) t
      ⟨0, none, [], none, some s.nextId, [], true, none⟩ 8 0)) ∧
  (∀ lo hi row, lo = s.sreg s.cur f.a1.toNat → hi = s.sreg s.cur f.a2.toNat → row = (s.sreg s.cur f.a3.toNat).toNat % 8 → row ≠ 7 →
    (if row = 0 then headOk lo hi else levelOk hi) = true → Executes s f.g 0 0 [f.a1.toNat, f.a2.toNat, f.a3.toNat] [] →
    (∀ n ∈ f.kp.toNat :: feWaits f, (s.core (coreOf s.cur)).tok n = .complete) →
    (keptBack s f → exec (.mtxLdt f) s = .next s) ∧ (¬keptBack s f → ∃ t, exec (.mtxLdt f) s = .next t ∧ Retired (onOwnCore s fun c => { c with
      shadow := (c.shadow.set (2 * row) lo).set (2 * row + 1) hi, toks := FMap.set .complete c.toks f.kp.toNat .complete }) t
      (s.now.pc + 8) 0 0)) ∧
  (∀ i e n, (i, e) ∈ engineForms s f → Executes s f.g 0 0 [f.a1.toNat, f.a2.toNat, f.a3.toNat] [] →
    (e.closes = true → s.now.open = false) → (feWaits f).find? (fun n => (s.core (coreOf s.cur)).tok n == .cancelled) = some n →
    s.now.tip = false → ∃ t, exec i s = .next t ∧ Trapped s t cTOKEN (BitVec.ofNat 64 n))

/-- The steps of an operation. `mtx.clr` and `mtx.rd` take effect on the accumulator store (12 R270, R274); an operation of which nothing is
left, and a chain whose entries are all over, completes its token, adds the flags to their registers and leaves the faults as records (12 R277,
13 R282, 18 R383), whose item word is the reading of notes/assumptions/37.md; an entry of a chain leaves them to its chain. A write that waited is
tried again; a piece performs at its home and is counted, or another package acknowledges it (13 R304, R305). Which rows an operation has read
before the step in which it starts is free (notes/assumptions/11.md). -/
def Obligations.OperationSteps : Prop := ∀ (s : State) (n : Nat) (o : Op), s.op n = some o →
  (mayStart s n o = true → o.op9 = 0x0D3 → ∃ t, exec (.engineOpStart n) s = .next t ∧
    (∀ c w, w < 2 ^ 18 → t.acc c w = if c = o.core ∧ (w + 2 ^ 18 - o.a1.toNat % 2 ^ 18) % 2 ^ 18 < o.a2.toNat then 0 else s.acc c w) ∧
    t.op n = some (started o 0) ∧ t.mem = s.mem ∧ t.vregs = s.vregs ∧ t.sregs = s.sregs) ∧
  (mayStart s n o = true → o.op9 = 0x0D4 → o.kp ≠ 0 → o.parent = none → o.vd < 1024 → ∃ t, exec (.engineOpStart n) s = .next t ∧
    (∀ j, j < 32 → elemAt 32 (t.vreg o.core o.vd) j = (s.acc o.core (o.a1.toNat % 2 ^ 18 + j)).toNat) ∧ t.op n = none ∧
    (t.core o.core).tok o.kp = .complete ∧ t.accw = s.accw ∧ t.mem = s.mem) ∧
  (∀ own spent, own = o.fault.map (fun x => (⟨o.order, some o.k, o.kp, o.op9, x.1, x.2.1,
      BitVec.ofNat 64 ((if x.2.2 then 2 ^ 63 else 0) + o.sc * 2 ^ 56), o.far⟩ : FaultRec)) → spent = o.ended ++ [(o.op9, o.flags, own)] →
    (o.state = .ready ∧ o.adds = [] ∧ o.op9 ≠ 0x0E5) ∨ (o.state = .fired ∧ ∀ e ∈ s.ops, ∀ x, e.2 = some x → x.parent ≠ some n) →
    (o.op9 = 0x0E2 ∨ o.state = .fired → (s.core o.core).team = some o.team) →
    (o.parent = none → ∃ t, exec (.engineOpComplete n) s = .next t ∧ t.op n = none ∧
      (∀ j, j < 64 → (t.core o.core).tok j = if j = o.kp ∧ j ≠ 0 then .complete else (s.core o.core).tok j) ∧
      (t.core o.core).faults = (s.core o.core).faults ++ spent.filterMap (·.2.2) ∧
      (t.core o.core).mtxFlags = spent.foldl (fun w x => if x.1 < 0x0D8 then w ||| x.2.1 else w) (s.core o.core).mtxFlags ∧
      (t.core o.core).przCflags = spent.foldl (fun w x => if x.1 = 0x0DC then w ||| x.2.1 else w) (s.core o.core).przCflags ∧
      (t.core o.core).lnkCflags = spent.foldl (fun w x => if x.1 = 0x0E1 then w ||| x.2.1 else w) (s.core o.core).lnkCflags ∧
      t.mem = s.mem ∧ t.sregs = s.sregs) ∧
    (∀ c q, o.parent = some c → c ≠ n → s.op c = some q → ∃ t, exec (.engineOpComplete n) s = .next t ∧ t.op n = none ∧
      t.op c = some { q with ended := q.ended ++ [(o.op9, o.flags, own)] } ∧ t.cores = s.cores ∧ t.mem = s.mem)) ∧
  (∀ asid key bs fmts, o.state = .writing → o.pieces = [] → o.units = [⟨asid, 0, 0, [(key, bs)], none, fmts⟩] → s.pkg.hbaseSet = false →
    ∃ t, exec (.engineWriteResume n) s = .next t ∧ t.op n = some { o with units := [], state := .ready } ∧
      ∀ b, t.byte b = afterRuns s [(key, bs)] b) ∧
  (∀ j p, o.pieces[j]? = some p → p.kind = 1 → o.state = .writing → o.units = [] →
    (p.tag ≠ none → o.op9 ≠ 0x0E5 → ∃ t r, exec (.mirrorChunkArrive n j) s = .next t ∧ t.op n = some r ∧ r.pieces = o.pieces.erase p ∧
      r.state = (if o.pieces.length = 1 then .ready else .writing) ∧ r.fault = o.fault ∧ t.mem = s.mem) ∧
    (∀ asid key bs fmts, p.tag = none → p.thru = none → p.pkg = ownPackage s → p.ctrs = [] → o.op9 ≠ 0x0E5 → s.pkg.hbaseSet = false →
      p.units = [⟨asid, 0, 0, [(key, bs)], none, fmts⟩] → ∃ t, exec (.mirrorChunkArrive n j) s = .next t ∧
        t.op n = some { o with pieces := o.pieces.erase p, state := if o.pieces.length = 1 then .ready else .writing } ∧
        ∀ b, t.byte b = afterRuns s [(key, bs)] b) ∧
    (∀ h k off key, o.pieces = [p] → p.tag = none → p.thru = none → p.units = [] → p.ctrs = [(h, k)] → o.op9 = 0x0E5 → tidOf h = 2 →
      off = offOf h / 8 * 8 → key = window2 s o off → off + 8 ≤ (opCtx s o).w2len → s.pkg.hbaseSet = false →
      ∃ t, exec (.mirrorChunkArrive n j) s = .next t ∧ t.op n = some { o with pieces := [], state := .ready } ∧
        ∀ b, t.byte b = afterRuns s [(key, natToBytes 8 (s.word key + BitVec.ofNat 64 k).toNat)] b))

/-- What a matrix or Prism operation computes and writes when it takes its effects (12 R261 to R276, 13 R283 to R296), for operands in window
2 or in one raw tile and results in window 2. `mtx.wb`: the panel's record and its bytes, or TAG_MISMATCH. `mtx.go`: every micro-op of the six
nested loops, over the words of its group; eight-bit products are added exactly and clamped. `mtx.st`: every row, converted, and the words
that it clears. `prz.cfg`: the plan, valid or not. `prz.fft` and `prz.sht` of one member with unit strides: every point of the result, and
ILLEGAL with the plan's handle where the plan cannot be used. What a workspace holds afterwards is open (notes/assumptions/27.md). -/
def Obligations.EngineResults : Prop := ∀ (s : State) (n : Nat) (o : Op),
  (∀ tn e slot, Begins s n o 0x0D1 → readTensor s o.asid (tidOf o.a1) = some tn → e = readTile s tn (offOf o.a1 / tn.tbytes) →
    tidOf o.a1 ∉ (opCtx s o).froz → slot = o.a2.toNat % 128 → slot * 4096 + tn.tbytes ≤ 2 ^ 19 → 0 < tn.tbytes →
    (panelBad tn e.tag = true → ∃ t, exec (.engineOpStart n) s = .next t ∧
      t.op n = some (failed o (cTAG_MISMATCH, handleOf (tidOf o.a1) (offOf o.a1 / tn.tbytes * tn.tbytes), false)) ∧ t.wbuf = s.wbuf) ∧
    (panelBad tn e.tag = false → e.valid = true ∨ classOf e.tag = 1 → ∃ t, exec (.engineOpStart n) s = .next t ∧ t.op n = some (started o 0) ∧
      FMap.get .empty (t.core o.core).slots slot = .panel (BitVec.ofNat 16 e.tag) (tn.shape.getD 0 1) (tn.shape.getD 1 1) tn.tbytes o.a1 ∧
      (classOf e.tag = 1 → t.wbuf = s.wbuf) ∧
      (classOf e.tag ≠ 1 → readCells t.wbuf (o.core * 2 ^ 19 + slot * 4096) tn.tbytes = s.bytes (frameKey (tidOf o.a1) e.frame 0) tn.tbytes) ∧
      t.mem = s.mem)) ∧
  (∀ mode k w slot us (row : Int × Int × Int × Int → List Byte), Begins s n o 0x0D2 → mode = (o.table.getD 0 0).toNat % 16 → k = (o.table.getD 0 0).toNat / 16 % 256 + 1 →
    w = (o.table.getD 0 0).toNat / 4096 % 256 + 1 → slot = o.a2.toNat / 2 ^ 18 % 128 →
    us = nest (fun j => levelOf (o.table.getD (2 * j + 2) 0) (o.table.getD (2 * j + 3) 0)) → us ≠ [] →
    (slotOk s o.core slot mode = false → ∃ t, exec (.engineOpStart n) s = .next t ∧ t.op n = some (failed o (cTAG_MISMATCH, 0, false)) ∧
      t.accw = s.accw) ∧
    (slotOk s o.core slot mode = true → (∀ u ∈ us, (row u).length = rowBytes mode k ∧ 0 ≤ (offOf o.a1 : Int) + u.1 ∧
        Reads s o (tidOf o.a1) ((offOf o.a1 : Int) + u.1).toNat (row u)) →
      ∃ t fl, exec (.engineOpStart n) s = .next t ∧ t.op n = some (started o fl) ∧ t.mem = s.mem ∧ t.wbuf = s.wbuf ∧
      ∀ c i, t.acc c i = if c ≠ o.core then s.acc c i else us.foldl (fun x u =>
        let j : Int := ((i : Int) - (o.a2.toNat % 2 ^ 18 : Nat) - u.2.2.2) % 2 ^ 18
        if j < w then (accWord mode (fun q => product (elemValue (modeTy mode) (row u) q) (bElem s o.core slot mode (u.2.1 + q) (u.2.2.1 + j))) k x).1
        else x) (s.acc c i))) ∧
  (∀ (a b : Nat → Byte) (k : Nat) (x : BitVec 32), k ≤ 32 →
    (accWord 5 (fun q => product (elemValue 0 [a q] 0) (elemValue 0 [b q] 0, 0)) k x).1 =
      BitVec.ofInt 32 (max (-2 ^ 31) (Min.min (2 ^ 31 - 1) (x.toInt + ((List.range k).map fun q => (a q).toInt * (b q).toInt).sum)))) ∧
  (∀ core slot tag s0 s1 tb h k j, FMap.get .empty (s.core core).slots slot = .panel tag s0 s1 tb h → classOf tag.toNat = 0 →
    layoutOf tag.toNat = 0 → k < s1 → j < s0 →
    bElem s core slot 5 k j = (elemValue 0 (readCells s.wbuf (core * 2 ^ 19 + (slot * 4096 + (j + s0 * k)) % 2 ^ 19) 1) 0, 0)) ∧
  (∀ base (rows cols : Nat) clr (out : Nat → List Byte), Begins s n o 0x0D5 → tidOf o.a1 = 2 → base = o.a2.toNat % 2 ^ 18 → rows = o.a3.toNat / 2 ^ 16 % 2 ^ 16 →
    cols = o.a3.toNat % 2 ^ 16 → rows ≠ 0 → cols ≠ 0 → clr = bitOf o.a3 41 → clr = false ∨ rows = 1 →
    (∀ r, out r = (convertRow (o.a3.toNat / 2 ^ 32 % 16) (o.a3.toNat / 2 ^ 36 % 8) (bitOf o.a3 40) (bitOf o.a3 39)
      ((List.range cols).map fun j => s.acc o.core (base + r * (o.a2.toNat / 2 ^ 18 % 2 ^ 18) + j))).1) →
    ∃ t fl, exec (.engineOpStart n) s = .next t ∧ t.op n = some (started o fl) ∧
      (∀ c i, t.acc c i = if clr = true ∧ c = o.core ∧ (i + 2 ^ 18 - base) % 2 ^ 18 < cols then 0 else s.acc c i) ∧
      ∀ b, t.byte b = afterRuns s ((List.range rows).map fun (r : Nat) =>
        (window2 s o ((offOf o.a1 : Int) + r * intVal 28 true (o.a2.toNat / 2 ^ 36)).toNat, out r)) b) ∧
  (∀ ty sat ws, ty ≤ 2 → (convertRow ty 0 true sat ws).1 = ws.flatMap fun x =>
    natToBytes (tyWidth ty / 8) (fit (tyWidth ty) true sat x.toInt)) ∧
  (∀ bs, Begins s n o 0x0D8 → bs.length = 64 → Reads s o (tidOf o.a1) (offOf o.a1) bs →
    ∃ (t : State) (p : Plan), exec (.engineOpStart n) s = .next t ∧ (t.core o.core).plan = some { p with valid := p.ok } ∧ p.handle = o.a1 ∧ p.words.length = 8 ∧
      (∀ i, i < 8 → p.words.getD i 0 = BitVec.ofNat 64 (bytesToNat ((bs.drop (8 * i)).take 8))) ∧
      t.op n = some (started o (if p.ok then 0 else 32)) ∧ t.mem = s.mem) ∧
  (∀ op9 kind, (op9, kind) ∈ [(0x0D9, 0), (0x0DA, 1)] → Begins s n o op9 → o.a3.toNat % 2 ^ 32 ≠ 0 →
    ((s.core o.core).plan = none → ∃ t, exec (.engineOpStart n) s = .next t ∧ t.op n = some (failed o (cILLEGAL, 0, false)) ∧ t.mem = s.mem) ∧
    (∀ p, (s.core o.core).plan = some p → p.valid = false ∨ p.kind ≠ kind → ∃ t, exec (.engineOpStart n) s = .next t ∧
      t.op n = some (failed o (cILLEGAL, p.handle, false)) ∧ t.mem = s.mem) ∧
    (∀ p bs ls work, (s.core o.core).plan = some p → p.valid = true → p.kind = kind → o.a3.toNat % 2 ^ 32 = 1 → p.istride = 1 → p.ostride = 1 →
      0 < pointsIn p → 0 < pointsOut p →
      bs.length = p.pointBytes * pointsIn p → Reads s o (tidOf o.a2) (offOf o.a2) bs → tidOf o.a1 = 2 →
      offOf o.a1 + p.pointBytes * pointsOut p ≤ (opCtx s o).w2len →
      (tidOf o.a2 = 2 → offOf o.a2 + bs.length ≤ offOf o.a1 ∨ offOf o.a1 + p.pointBytes * pointsOut p ≤ offOf o.a2) →
      (kind = 1 → ls.length = 32 * p.nlat ∧ Reads s o (tidOf p.lat) (offOf p.lat) ls) → (kind = 0 → ls = []) →
      work.length = p.pointBytes * p.workPoints → (work ≠ [] → tidOf p.work = 2 ∧ offOf p.work + work.length ≤ (opCtx s o).w2len) →
      (∀ i, i < work.length → work.getD i 0 = Config.workspaceByte o.order i) →
      ∃ t fl, exec (.engineOpStart n) s = .next t ∧ t.op n = some (started o fl) ∧
        ∀ b, t.byte b = afterRuns s ((window2 s o (offOf p.work), work) ::
          ((List.range (pointsOut p)).map fun i => window2 s o (offOf o.a1 + p.pointBytes * i)).zip
            ((transformed p (pointsOf p.pointBytes (pointsIn p) bs) ls).1.map (pointBytes p.pointBytes))) b)) ∧
  (∀ (f : Fmt) inv (x y : Pt), (fft f inv [2] [x, y]).1 =
    [((fadd f 0 x.1 y.1).1, (fadd f 0 x.2 y.2).1), ((fsub f 0 x.1 y.1).1, (fsub f 0 x.2 y.2).1)])

/-- What a copy, a gather, a transposition and the checkpoint operations do when they take their effects, for operands in window 2 or in one raw
tile. `cpy`: the bytes; `cpy.cvt`: the elements, integers exactly (13 R297, R298); `cpy.g`: the rows of its list, in ascending order (13 R299);
`mir.go` between participants of this package: the pieces of each target slab (13 R302 to R304). `cow.mark` freezes the tensor, and one that is
frozen stays as it is; `drn.go` sets out its tiles in ascending order, each with its count, and at its end releases the tensor's frozen version
(08 R197, 18 R385, R386); notes/assumptions/33.md says when it does. -/
def Obligations.CopySteps : Prop := ∀ (s : State) (n : Nat) (o : Op),
  (∀ bs key, Begins s n o 0x0DB → o.a3.toNat = bs.length → Reads s o (tidOf o.a2) (offOf o.a2) bs →
    GoesTo s o (tidOf o.a1) (offOf o.a1) bs.length key →
    ∃ t, exec (.engineOpStart n) s = .next t ∧ t.op n = some (started o 0) ∧ ∀ b, t.byte b = afterRuns s [(key, bs)] b) ∧
  (∀ ts td m bs key, Begins s n o 0x0DC → ts = o.a3.toNat / 2 ^ 32 % 16 → td = o.a3.toNat / 2 ^ 28 % 16 → m = o.a3.toNat % 2 ^ 28 → m ≠ 0 →
    ts ≤ 11 → td ≤ 11 → bs.length = m * (tyWidth ts / 8) → Reads s o (tidOf o.a2) (offOf o.a2) bs →
    GoesTo s o (tidOf o.a1) (offOf o.a1) (m * (tyWidth td / 8)) key →
    ∃ t fl, exec (.engineOpStart n) s = .next t ∧ t.op n = some (started o fl) ∧ ∀ b, t.byte b = afterRuns s
      [(key, (convertRun ts td (o.a3.toNat / 2 ^ 36 % 8) (bitOf o.a3 39) m bs).1)] b) ∧
  (∀ ts td sat m bs, ts ≤ 7 → td ≤ 7 → convertRun ts td 0 sat m bs = ((List.range m).flatMap fun i => natToBytes (tyWidth td / 8)
    (fit (tyWidth td) (td ≤ 3) sat (intOf (tyWidth ts) (ts ≤ 3) (bytesToNat ((bs.drop (i * (tyWidth ts / 8))).take (tyWidth ts / 8))))), 0)) ∧
  (∀ row hd ls (idx : List Nat), Begins s n o 0x0DD → row = (match o.fn with | 0 => 128 | 1 => 256 | 2 => 1024 | _ => 4096) →
    hd.length = 8 → Reads s o (tidOf o.a3) (offOf o.a3) hd → bytesToNat hd = idx.length → 0 < idx.length → idx.length < 2 ^ 32 →
    ls.length = 4 * idx.length → Reads s o (tidOf o.a3) (offOf o.a3 + 8) ls →
    (∀ j, j < idx.length → idx.getD j 0 = bytesToNat ((ls.drop (4 * j)).take 4)) → tidOf o.a2 = 2 → tidOf o.a1 = 2 →
    offOf o.a1 + row * idx.length ≤ (opCtx s o).w2len → (∀ i ∈ idx, offOf o.a2 + row * i + row ≤ (opCtx s o).w2len ∧
      (offOf o.a2 + row * i + row ≤ offOf o.a1 ∨ offOf o.a1 + row * idx.length ≤ offOf o.a2 + row * i)) →
    ∃ t, exec (.engineOpStart n) s = .next t ∧ t.op n = some (started o 0) ∧ ∀ b, t.byte b = afterRuns s
      (idx.zipIdx.map fun x => (window2 s o (offOf o.a1 + row * x.2), s.bytes (window2 s o (offOf o.a2 + row * x.1)) row)) b) ∧
  (∀ m bs data, Begins s n o 0x0DE → o.table = [] → bs.length = 256 → Reads s o (tidOf o.a1) (offOf o.a1) bs → m = Mpb.mk (wordsOf bs) →
    m.ok = true → m.p ≤ 12 → o.a2.toNat < m.p → joinCheck s o m.map = none → mirrorChecks s o m = none →
    (∀ q, q < m.p → partValid (mapEntry s m.map q) = true ∧ partPkg (mapEntry s m.map q) = ownPackage s) →
    engRead s (partCtx o (mapEntry s m.map o.a2.toNat)) (tagIn (m.ty + 1)) (tidOf (m.slab o.a2.toNat 0)) (offOf (m.slab o.a2.toNat 0))
      m.srcLen = .bytes data none →
    ∃ t ps, ps = ((List.range m.p).flatMap fun q => mirrorPieces s o m q (m.runsFor o.a2.toNat q data)) ∧
      exec (.engineOpStart n) s = .next t ∧
      t.op n = some { started o 0 with pieces := ps, state := if ps = [] then .ready else .writing } ∧ t.mem = s.mem) ∧
  (∀ (m : Mpb) (rank x y : Nat), m.ok = true → m.sax = 0 → m.tax = 1 → m.rank = 2 → x < m.extent 0 → y < m.extent 1 / m.p → rank < m.p →
    m.target rank (x + m.extent 0 * y) = (x / (m.extent 0 / m.p), x % (m.extent 0 / m.p) + m.extent 0 / m.p * (y + rank * (m.extent 1 / m.p)))) ∧
  (∀ tn, Begins s n o 0x0E4 → o.fn = 0 → readTensor s o.asid (tidOf o.a1) = some tn → tn.remote = false → tn.wr = true → offOf o.a1 < tn.bytes →
    (∀ i, i < tn.ntiles → tileAddr tn i + 16 ≤ tn.addr ∨ tn.addr + 64 ≤ tileAddr tn i) →
    (tn.frozen = true → ∃ t, exec (.engineOpStart n) s = .next t ∧ t.op n = some (started o 0) ∧ t.mem = s.mem) ∧
    (tn.frozen = false → ∃ t, exec (.engineOpStart n) s = .next t ∧ t.op n = some (started o 0) ∧
      (∀ c, ∀ e ∈ (t.core c).tlb, e.asid = o.asid → e.tid ≠ tn.tid) ∧
      ∀ b, t.byte b = afterRuns s (((List.range tn.ntiles).map fun i => (tileAddr tn i,
          natToBytes 8 ((readTile s tn i).w0 ||| 0x40000000).toNat ++ natToBytes 8 ((readTile s tn i).w1 &&& 0x7FFFFFFFFFFFFFFF).toNat)) ++
        [(tn.addr, natToBytes 8 (s.word tn.addr ||| 0x0800000000000000).toNat),
          (tn.addr + 40, natToBytes 8 ((tn.version + 1) % 2 ^ 32 * 2 ^ 32 + tn.version))]) b)) ∧
  (∀ tn, Begins s n o 0x0E5 → readTensor s o.asid (tidOf o.a1) = some tn → tn.remote = false → tn.rd = true → offOf o.a1 < tn.bytes →
    (tn.frozen = false → ∃ t, exec (.engineOpStart n) s = .next t ∧ t.op n = some (started o 0) ∧ t.mem = s.mem) ∧
    (∀ (data : Nat → List Byte), tn.frozen = true → o.fn = 2 → tidOf o.a2 = 2 → tidOf o.a3 = 2 → offOf o.a3 + 8 ≤ (opCtx s o).w2len →
      0 < tn.ntiles → offOf o.a2 + tn.ntiles * tn.tbytes ≤ (opCtx s o).w2len →
      (∀ i, i < tn.ntiles → malformed (frozenTag s tn i) = false ∧ frozenBytes s tn i = some (data i)) →
      ∃ t, exec (.engineOpStart n) s = .next t ∧ t.mem = s.mem ∧ t.op n = some { started o 0 with
        state := .writing, table := [1]
        pieces := (List.range tn.ntiles).flatMap (fun i =>
          (cutUnit 128 ⟨o.asid, 0, 0, [(window2 s o (offOf o.a2 + i * tn.tbytes), data i)], none, []⟩).map (fun u =>
            { rank := i, pkg := ownPackage s, units := [u], thru := none, ctrs := [(o.a3, tn.tbytes)], tag := none, lost := 0, kind := 1, log := 0
              words := [] })) })) ∧
  (∀ tn, s.op n = some o → o.op9 = 0x0E5 → o.state = .ready → o.adds = [] → o.table = [1] → o.fault = none → o.parent = none →
    s.pkg.hbaseSet = false → readTensor s o.asid (tidOf o.a1) = some tn →
    (frozenUsers s o.asid tn.tid = true → ∃ t, exec (.engineOpComplete n) s = .next t ∧ t.op n = some o ∧ t.mem = s.mem) ∧
    (frozenUsers s o.asid tn.tid = false → (∀ i, i < tn.ntiles → (readTile s tn i).fvalid = false) →
      (∀ i, i < tn.ntiles → tileAddr tn i + 16 ≤ tn.addr ∨ tn.addr + 8 ≤ tileAddr tn i) →
      ∃ t, exec (.engineOpComplete n) s = .next t ∧ t.op n = none ∧ (o.kp ≠ 0 → (t.core o.core).tok o.kp = .complete) ∧
        ∀ b, t.byte b = afterRuns s (((List.range tn.ntiles).map fun i => (tileAddr tn i,
          natToBytes 8 ((readTile s tn i).w0 &&& 0xFFFFFFFFBFFFFFFF).toNat ++ natToBytes 8 (readTile s tn i).w1.toNat)) ++
          [(tn.addr, natToBytes 8 (s.word tn.addr &&& 0xF7FFFFFFFFFFFFFF).toNat)]) b))

/-- Collectives, counters and chains. `col.wr` in its own package sets out the chunks of its destination, and the counter's 1 at the end (18
R377, R381); `col.red` contributes, and writes the result in the same way once it is known (18 R371, R382), which of two siblings is their
elements combined (18 R373); the root's slot that has every input emits the result (18 R376); a collective whose time is up ends each of its
operations here with COLL_ABORT, but what RESID has still to take (18 R375, R378). `col.ctr` adds and reports the old value (18 R384). `col.arm`
arms its chain while the unit of the die has room for it; a chain fires when its counter has reached the threshold, or at once if it has none,
and not before, and its entries are then operations of their own (18 R383). Time limits are events of the model (notes/assumptions/66.md); a
map that does not name the issuer's address space is refused, which is notes/assumptions/95.md; chunks are those of 96.md. -/
def Obligations.CollectiveSteps : Prop := ∀ (s : State) (n : Nat),
  (∀ o bs data cb e ps, Begins s n o 0x0E0 → bs.length = 64 → Reads s o (tidOf o.a1) (offOf o.a1) bs → cb = Cb.mk (wordsOf bs) →
    cbCheck s o cb true = none → e = mapEntry s cb.map (o.a2.toNat % 2 ^ 12) → partPkg e = ownPackage s → data.length = cb.bytes →
    Reads s o (tidOf cb.src) (offOf cb.src) data → dstChecks s (partCtx o e) (cb.dst + o.a3) cb.bytes cb.ctr = none →
    ps = dstPieces s (partCtx o e) (o.a2.toNat % 2 ^ 12) cb.ty (cb.dst + o.a3) data →
    ∃ t, exec (.engineOpStart n) s = .next t ∧ t.mem = s.mem ∧ t.op n = some { started o 0 with
      state := if ps.1 = [] then .ready else .writing, pieces := ps.1, fault := ps.2
      adds := if cb.ctr = 0 ∨ ps.2.isSome then [] else [(some (partAsid e), cb.ctr, 1)] }) ∧
  (∀ o bs data cb key c leaf x, Begins s n o 0x0E1 → bs.length = 64 → Reads s o (tidOf o.a1) (offOf o.a1) bs → cb = Cb.mk (wordsOf bs) →
    cbCheck s o cb false = none → leafBlock cb o.a3 = some leaf → cb.comp = 0 → data.length = cb.bytes →
    Reads s o (tidOf cb.src) (offOf cb.src) data →
    (partPkg (mapEntry s cb.map (o.a2.toNat % 2 ^ 12)) = ownPackage s →
      dstChecks s (partCtx o (mapEntry s cb.map (o.a2.toNat % 2 ^ 12))) cb.dst cb.bytes cb.ctr = none) →
    otherPackages s cb.map cb.p = [] → otherPackages s c.map c.parts = [] → wantedSlot s cb = none → key = collKey cb.map cb.seq → s.coll key = none ∨ s.coll key = some c →
    (s.coll key = none → c = blankColl key cb.p s) → c.over = false ∨ s.coll key = none → c.aborted = none → c.slot = none →
    x = { rank := o.a2.toNat % 2 ^ 12, ranks := [o.a2.toNat % 2 ^ 12], flags := 0, op := some n, port := none, lfirst := leaf.1
          llog2 := leaf.2, words := wordsOf bs, data := data } →
    (∀ y ∈ c.contribs, x.rank ∉ y.ranks ∧ Cb.agreed ⟨y.words⟩ = cb.agreed ∧ (cb.arrival = true ∨ overlaps x y = false)) →
    x.rank ∉ c.told → ∃ t, exec (.engineOpStart n) s = .next t ∧ t.mem = s.mem ∧
      t.coll key = some { c with contribs := c.contribs ++ [x] } ∧ t.op n = some { o with
        state := .contributed, flags := 0, table := wordsOf bs, units := [], pieces := [] }) ∧
  (∀ o cb c data fl e ps, s.op n = some o → o.state = .contributed → o.units = [] → o.pieces = [] → cb = Cb.mk o.table →
    s.coll (collKey cb.map cb.seq) = some c → collAnswer s c = some (data, fl) → e = mapEntry s cb.map (o.a2.toNat % 2 ^ 12) →
    ps = dstPieces s (partCtx o e) (o.a2.toNat % 2 ^ 12) cb.ty cb.dst data →
    (cb.destination (o.a2.toNat % 2 ^ 12) = false → ∃ t, exec (.engineOpComplete n) s = .next t ∧
      t.op n = some { o with state := .ready } ∧ t.mem = s.mem) ∧
    (cb.destination (o.a2.toNat % 2 ^ 12) = true → partPkg e = ownPackage s → o.fault = none → ∃ t, exec (.engineOpComplete n) s = .next t ∧
      t.mem = s.mem ∧ t.op n = some { o with
        state := if ps.1 = [] then .ready else .writing, flags := o.flags ||| fl.setWidth 64, pieces := ps.1, fault := ps.2
        adds := if cb.ctr = 0 ∨ ps.2.isSome then [] else [(some (partAsid e), cb.ctr, 1)] })) ∧
  (∀ (c : Coll) x y w, c.contribs = [x, y] → x.words = y.words → Cb.red ⟨x.words⟩ = 0 → Cb.arrival ⟨x.words⟩ = false → Cb.ty ⟨x.words⟩ ≤ 7 →
    Cb.lroot ⟨x.words⟩ = 1 → x.llog2 = 0 → y.llog2 = 0 → x.lfirst = 0 → y.lfirst = 1 → w = tyWidth (Cb.ty ⟨x.words⟩) / 8 →
    (collResult c).1 = (List.zipWith (fun a b => (a + b) % 2 ^ (8 * w)) (x.elems w) (y.elems w)).flatMap (natToBytes w)) ∧
  (∀ key c x l, FMap.get none s.slots n = some key → s.coll key = some c → c.contribs = x :: l → c.emitted = false → c.aborted = none →
    treeValid (FMap.get 0 s.trees (Cb.group ⟨x.words⟩)) = true → field (FMap.get 0 s.trees (Cb.group ⟨x.words⟩)) 58 5 = 16 →
    (∀ i, i < 16 → bitOf (FMap.get 0 s.trees (Cb.group ⟨x.words⟩)) i = true → ∃ y ∈ c.contribs, y.port = some i) →
    (bitOf (FMap.get 0 s.trees (Cb.group ⟨x.words⟩)) 16 = true →
      ∀ r ∈ localRanks s (Cb.map ⟨x.words⟩) (Cb.p ⟨x.words⟩), ∃ y ∈ c.contribs, r ∈ y.ranks ∧ y.port = none) →
    c.parts ≤ (c.contribs.map (·.ranks.length)).sum →
    ∃ t d, exec (.slotEmit n) s = .next t ∧ t.coll key = some d ∧ d.emitted = true ∧ d.result = some (collResult c) ∧
      d.contribs = c.contribs) ∧
  (∀ c, s.coll n = some c → c.contribs ≠ [] → c.aborted = none →
    ∃ t, exec (.collTimeout n) s = .next t ∧ ∀ x ∈ c.contribs, ∀ m o, x.op = some m → s.op m = some o → ∃ r, t.op m = some r ∧
      r.fault = some (cCOLL_ABORT, 0xFFFFFFFF, false) ∧ r.adds = [] ∧
      (o.state = .contributed → r.units = o.units ∧ r.pieces = o.pieces ∧ r.state = if o.units = [] ∧ o.pieces = [] then .ready else .writing) ∧
      (o.state ≠ .contributed → r.units = [] ∧ r.pieces = [] ∧ r.state = .ready)) ∧
  (∀ o off old, Begins s n o 0x0E3 → o.data = [] → tidOf o.a1 = 2 → off = offOf o.a1 / 8 * 8 → off + 8 ≤ (opCtx s o).w2len →
    old = s.word (window2 s o off) →
    (o.fn = 0 → ∃ t, exec (.engineOpStart n) s = .next t ∧ t.op n = some (started o 0) ∧
      ∀ b, t.byte b = afterRuns s [(window2 s o off, natToBytes 8 (old + o.a2).toNat)] b) ∧
    (o.fn = 2 → tidOf o.a3 = 2 → offOf o.a3 + 8 ≤ (opCtx s o).w2len → ∃ t, exec (.engineOpStart n) s = .next t ∧ t.op n = some (started o 0) ∧
      ∀ b, t.byte b = afterRuns s [(window2 s o off, natToBytes 8 (old + o.a2).toNat),
        (window2 s o (offOf o.a3), natToBytes 8 old.toNat)] b)) ∧
  (∀ o, s.op n = some o → mayStart s n o = true → o.op9 = 0x0E2 →
    (chainsOf s o.vd < 256 → ∃ t, exec (.engineOpStart n) s = .next t ∧ t.op n = some { o with state := .armed } ∧ t.mem = s.mem) ∧
    (256 ≤ chainsOf s o.vd → exec (.engineOpStart n) s = .next s)) ∧
  (∀ o ws g, s.op n = some o → o.state = .armed → o.pieces = [] → o.a2 ≠ 0 → readBlock s (opCtx s o) o.a1 1 = .words ws g →
    ((ws.getD 0 0).toNat < o.a2.toNat → ∃ t, exec (.chainFire n) s = .next t ∧ t.op n = some { o with cache := [] } ∧ t.mem = s.mem) ∧
    (∀ es x, o.a2.toNat ≤ (ws.getD 0 0).toNat → chainEntries n o 256 o.a3 none (s.applyAll (touchFx o false g s)) = .issued es x →
      ∃ t, exec (.chainFire n) s = .next t ∧ t.op n = some { o with state := .fired, fault := x, cache := [] })) ∧
  (∀ o bs w c, s.op n = some o → o.state = .armed → o.pieces = [] → o.seen = [] → o.a2 = 0 → o.a3 ≠ 0 → n ≠ s.nextId → bs.length = 64 →
    Reads s o (tidOf o.a3) (offOf o.a3) bs → w = wordsOf bs → entryOk w = true → w.getD 4 0 = 0 →
    c = { o with
      op9 := (w.getD 0 0).toNat / 2 ^ 50 % 2 ^ 9, sc := (w.getD 0 0).toNat / 2 ^ 59 % 8, rel := bitOf (w.getD 0 0) 62
      fn := if (w.getD 0 0).toNat / 2 ^ 50 % 2 ^ 9 = 0x0E3 ∧ w.getD 3 0 ≠ 0 then 2 else 0, a1 := w.getD 1 0, a2 := w.getD 2 0, a3 := w.getD 3 0
      kws := [], order := s.nextId, table := [], cache := [], data := [], ended := [], state := .issued, region := false, parent := some n
      wprev := none } →
    entryCheck s c = none → ∃ t, exec (.chainFire n) s = .next t ∧ t.op s.nextId = some c ∧
      t.op n = some { o with state := .fired, fault := none, cache := [] } ∧ t.mem = s.mem)

/-- `tinv`, `pin` and `unpin` (14 R326 to R329): the tiles change, ISEQ advances and the caches forget them, and sd takes 0; `tinv` retires
when every access translated through one of them has performed. A pinned tile refuses unmap with 1, an absent or zero one `pin` and the
beginning of a move with 2, one that does not move the end of a move with 2; the beginning of a move waits for a pinned one. The order of its
checks is the reading of notes/assumptions/34.md and 35.md. -/
def Obligations.TileInstructions : Prop := ∀ (s : State) (f : FY),
  let asid := f.k.toNat / 2 ^ 12
  let status (v : Word) : Fx := fun _ => [.sreg s.cur f.sd.toNat v]
  let keys (r : TRange) : List (Nat × Nat) := r.tiles.map fun n => (asid * 2 ^ 20 + r.t.tid, n)
  let all (a _ _ : Nat) : Bool := a == asid
  let refuse (i : Instr) (v : Word) : Prop := ∃ t, exec i s = .next t ∧ Retired (s.setS f.sd.toNat v) t (s.now.pc + 8) f.fp f.fo
  TileIssue s f →
  (∀ i r ok act e, (i, some r, ok, act) ∈ tileForms s f → writesOut s s.cur = false → r.count ≠ 0 → ok r →
    e = ((act r).andThen (shootdown asid r.hit)).andThen (status 0) →
    ∃ t, exec i s = .next t ∧ (stale s r.set = [] → RetiredWith s t e f.fp f.fo) ∧
      (stale s r.set ≠ [] → IssuedWith s t e (stale s r.set) r.set f.fp f.fo)) ∧
  (∀ e, writesOut s s.cur = false → asValid s asid = true → e = (Fx.none.andThen (shootdown asid all)).andThen (status 0) →
    ∃ t, exec (.tinvInvalidateAsid f) s = .next t ∧ (stale s (asid, none) = [] → RetiredWith s t e f.fp f.fo) ∧
      (stale s (asid, none) ≠ [] → IssuedWith s t e (stale s (asid, none)) (asid, none) f.fp f.fo)) ∧
  (∀ r, rangeOf s asid (s.sreg s.cur f.sa.toNat) ((s.sreg s.cur f.sb.toNat).toNat / 2 ^ 32) = some r → writesOut s s.cur = false →
    let some' (p : Tile → Prop) : Prop := ∃ n ∈ r.tiles, p (readTile s r.t n)
    let gone (e : Tile) : Prop := e.valid = false ∨ classOf e.tag = 1
    (some' (fun e => e.pin = true) → refuse (.tinvUnmap f) 1) ∧ (some' gone → refuse (.tinvMoveBegin f) 2) ∧
    (¬some' gone → some' (fun e => e.pin = true) → exec (.tinvMoveBegin f) s = .next s) ∧
    (some' (fun e => e.moving = false) → refuse (.tinvMoveCommit f) 2 ∧ refuse (.tinvMoveAbort f) 2)) ∧
  (∀ r, rangeOf s asid (s.sreg s.cur f.sa.toNat) ((s.sreg s.cur f.sb.toNat).toNat % 2 ^ 32) = some r →
    (∀ pins, pins = s.pins ++ (keys r).filter (fun p => !s.pins.contains p) → (∀ n ∈ r.tiles, (readTile s r.t n).moving = false) →
      ((∃ n ∈ r.tiles, (readTile s r.t n).valid = false ∨ classOf (readTile s r.t n).tag = 1) → refuse (.pin f) 2) ∧
      ((∀ n ∈ r.tiles, (readTile s r.t n).valid = true ∧ classOf (readTile s r.t n).tag ≠ 1) →
        ((∃ d, d < 8 ∧ 24 * 2 ^ 20 < lockedBytes s pins d) → refuse (.pin f) 1) ∧
        ((∀ d, d < 8 → lockedBytes s pins d ≤ 24 * 2 ^ 20) →
          ∃ t, exec (.pin f) s = .next t ∧ RetiredWith s t ((eachTile r fun _ e => { e with w0 := setField e.w0 29 1 1 }).andThen
            (Fx.andThen (fun _ => [.pins pins]) (status 0))) f.fp f.fo))) ∧
    (∃ t, exec (.unpin f) s = .next t ∧ RetiredWith s t ((eachTile r fun _ e => { e with w0 := setField e.w0 29 1 0 }).andThen
      (Fx.andThen (fun _ => [.pins (s.pins.filter fun p => !(keys r).contains p)]) (status 0))) f.fp f.fo))

/-- What ends the wait for another package or for a tile table (08 R200, R202, 14 R327, 18 R369): a reply is kept with its access and its
stream goes on; a lost transaction answers with LINK_LOST, to a stream or to an engine operation; a walk that is still current fills the cache
of its core, and one that is not reads again. What a lost transaction answers, and that the first fault of an operation stands, follows
notes/assumptions/31.md. -/
def Obligations.WaitsEnd : Prop := ∀ (s : State) (n : Nat),
  (∀ a code v, s.access n = some a → a.remote = true → (s.ctl a.k).run = .atRemote n → ∃ t, exec (.remoteReply n code v) s = .next t ∧
    t.access n = some { a with pieces := [], reply := some (code, v.toNat % 2 ^ 44, v) } ∧ (t.ctl a.k).run = .running ∧ t.mem = s.mem ∧
    t.sregs = s.sregs) ∧
  ((∀ e ∈ s.colls, ∀ c, e.2 = some c → ∀ x ∈ c.sent, x.1 ≠ n) →
    (∀ a p q, accessWith s n = some (a, p) → p.pieces = [q] → q.elem = n → p.got = [] →
      ∃ t, exec (.transactionLost (ownPackage s) n) s = .next t ∧ t.access a = some { p with
        pieces := [], got := [(q.len, cLINK_LOST.toNat, [])], reply := some (cLINK_LOST, q.len, 0) } ∧ t.mem = s.mem) ∧
    (∀ m o p, accessWith s n = none → pieceWith s n = some (m, o, p) → o.op9 ≠ 0x0E1 → ∃ t r, exec (.transactionLost (ownPackage s) n) s = .next t ∧
      t.op m = some r ∧ r.pieces = (if o.op9 = 0x0E5 ∧ p.kind = 1 then [] else o.pieces.erase p) ∧ t.mem = s.mem ∧
      (o.fault = none → r.fault = some (cLINK_LOST, p.lost, p.kind != 8 && p.kind != 12) ∧ r.far = p.pkg) ∧
      (o.fault ≠ none → r.fault = o.fault)) ∧
    (∀ m o p, accessWith s n = none → pieceWith s n = some (m, o, p) → o.op9 = 0x0E1 → redKey s o = none → s.op m = some o → o.fault = none →
      ∃ t, exec (.transactionLost (ownPackage s) n) s = .next t ∧ t.mem = s.mem ∧ t.op m = some { o with
        state := .ready, pieces := []
        fault := some (cCOLL_ABORT, if p.thru.isSome then BitVec.ofNat 64 (o.a2.toNat % 2 ^ 12) else p.lost, false) })) ∧
  (∀ w tn, FMap.get none s.walks n = some w → readTensor s w.asid w.tid = some tn →
    ((iseqOf s w.asid = w.iseq ∧ (readTile s tn w.n).w0 = w.w0 ∧ (readTile s tn w.n).w1 = w.w1) →
      ∃ t, exec (.walkReturn n) s = .next t ∧ FMap.get none t.walks n = none ∧
        ⟨w.asid, w.tid, w.n, w.w0, w.w1⟩ ∈ (t.core w.core).tlb ∧ (t.core w.core).tlb.length ≤ 256) ∧
    (¬(iseqOf s w.asid = w.iseq ∧ (readTile s tn w.n).w0 = w.w0 ∧ (readTile s tn w.n).w1 = w.w1) →
      exec (.walkReturn n) s = .next (s.apply (.walk n (some { w with
        iseq := iseqOf s w.asid, w0 := (readTile s tn w.n).w0, w1 := (readTile s tn w.n).w1 })))))

/-- The start of a share (01 R29, 05 R116, R127): the team takes its cores and its cluster memory; on each of them the core's own state and
its streams' registers are at their reset values, but for TVEC; a stream without entry point stays idle. Which share is placed where is the
choice of notes/assumptions/38.md, and that the scratchpads, the lane slices and the cluster memory hold 0 is that of 79.md. -/
def Obligations.ShareStarts : Prop := ∀ (s : State) (p : Nat) (x : PoolE) (i : Inst) (run : RunRec) (c g : Nat),
  FMap.get none s.pool p = some x → x.team = none → x.conv = none → s.inst x.inst = some i → (i.node x.node).runs[x.run]? = some run →
  placeable s x = some (c, g) → poolTurn s x = true →
  ∃ t tm, exec (.placeShare p) s = .next t ∧ t.team s.nextId = some tm ∧ tm.state = .placed ∧ tm.w2 = g ∧ tm.w1 = 0 ∧
    tm.cores = (List.range (teamSize (run.entry.getD 6 0))).map (c + ·) ∧ tm.method6 = run.entry.getD 6 0 ∧ tm.shares = run.shares ∧
    tm.base = BitVec.ofNat 64 (shareBase (if taxOf (i.nodes.getD x.node []) then some (run.first, run.len) else none)
      (headerOf (i.nodes.getD x.node [])) run.placed) ∧
    ∀ r, r < teamSize (run.entry.getD 6 0) →
      (t.core (c + r)).team = some s.nextId ∧ (t.core (c + r)).fifo = [] ∧ (t.core (c + r)).toks = [] ∧ (t.core (c + r)).dq = [] ∧
      (t.core (c + r)).teamInfo = BitVec.ofNat 64 (teamSize (run.entry.getD 6 0) * 16 + r) ∧ (∀ n, t.vreg (c + r) n = 0 ∨ 1024 ≤ n) ∧
      (∀ w, t.acc (c + r) w = 0) ∧ (∀ b, b < 2 ^ 22 → t.byte (keyPad (c + r) 0 + b) = 0) ∧
      (∀ b, b < 2 ^ 18 → t.byte (keyLane (c + r) 0 0 + b) = 0) ∧
      (∀ b, b < cmemOf (run.entry.getD 6 0) * 4096 → t.byte (keyCluster (dieOf c * 4 + clusterOf c % 4) (g * 4096) + b) = 0) ∧
      ∀ j, j < 3 → (∀ n, t.sreg (3 * (c + r) + j) n = 0 ∨ 64 ≤ n) ∧
        t.ctl (3 * (c + r) + j) = ({ Ctl.reset with
          cycle := 0 - s.time, tvec := (s.ctl (3 * (c + r) + j)).tvec, pc := run.entry.getD (3 + j) 0
          run := if run.entry.getD (3 + j) 0 = 0 then .idle else .running } : Ctl).norm

/-- The moves of a team, each of which completes: shareEnd, teamSwap, preemptRequest, preemptStop, preemptDeferExpiry and teamResume. A share
that is over leaves its cores (05 R129); a team of which every stream is blocked, or that is pre-empted, in its regions or when its time is up,
stops, is saved to its frame and leaves them, or, when its frame is too small for it, ends; and it resumes on the cores that it is given (05
R131, 14 R316 to R319, R322, R323). When a team swaps is the choice of notes/assumptions/40.md, time limits are events (66.md), and when the
writing or reading of a frame fails is free (84.md). -/
def Obligations.TeamMoves : Prop := ∀ (s : State) (n : Nat) (tm : Team), s.team n = some tm →
  (shareOver s n tm = true → ∃ t, exec (.shareEnd n) s = .next t ∧ t.team n = none ∧ (∀ c ∈ tm.cores, (t.core c).team = none) ∧
    (∀ k ∈ teamStreams tm, (t.ctl k).run = .idle) ∧
    ∀ i run, tm.conv = none → s.inst tm.inst = some i → (i.node tm.node).runs[tm.run]? = some run →
      run.placed ≠ run.shares ∨ 1 < run.live →
      ∃ j, t.inst tm.inst = some j ∧ ((j.node tm.node).runs[tm.run]?).map (·.live) = some (run.live - 1)) ∧
  (∀ slot u, teamBlocked s tm = true → Quiet s n tm → freeSlotOf s tm.asid = some slot → u = stopped s n tm 0 true slot →
    ∃ t, exec (.teamSwap n) s = .next t ∧ Swaps s u t n tm 0 true 0 slot) ∧
  (preemptVictim s = some n → preemptor s tm = true →
    exec (.preemptRequest n) s = .next (s.apply (.team n (some { tm with request := true })))) ∧
  (∀ slot u, tm.request = true → preemptor s tm = true → regionReady s tm = true → Quiet s n tm → freeSlotOf s tm.asid = some slot →
    u = stopped s n tm 2 false slot → ∃ t, exec (.preemptStop n) s = .next t ∧ Swaps s u t n tm 2 false 0 slot) ∧
  (∀ slot u, tm.request = true → regionReady s tm = false → Quiet s n tm → freeSlotOf s tm.asid = some slot →
    u = stopped s n tm 2 true slot → ∃ t, exec (.preemptDeferExpiry n) s = .next t ∧ Swaps s u t n tm 2 true 0 slot) ∧
  (tm.request = true → tm.state = .placed → atBoundary s tm = true → ∀ u, u = s.apply (.team n (some { tm with request := false })) →
    (regionReady s tm = true → preemptor s tm = false ∨ freeSlotOf s tm.asid = none → exec (.preemptStop n) s = .next u) ∧
    (regionReady s tm = false → freeSlotOf s tm.asid = none → exec (.preemptDeferExpiry n) s = .next u)) ∧
  (∀ slot reason p q c g size a, tm.state = .swapped reason slot → size = teamSize tm.method6 → a = slotKey s tm.asid slot + 128 →
    (s.pool.find? fun e => match e.2 with | some p => p.team == some n | none => false) = some (q, some p) → p.rooted = false →
    clusterRun s (dieOf c) (clusterOf c % 4) (cmemOf tm.method6) = some g → c < 192 → c % 6 % size = 0 → setFree s c size = true →
    reservedFor s p (dieOf c) (clusterOf c % 4) size = false → poolTurn s p = true → asValid s tm.asid = true → 0 < size →
    (Config.frameFails s.nextId = true → ∃ t, exec (.teamResume n c) s = .next t ∧ t.team n = none) ∧
    (Config.frameFails s.nextId = false →
      ∃ t u, exec (.teamResume n c) s = .next t ∧ t.team n = some u ∧ u.state = .placed ∧ u.cores = (List.range size).map (c + ·) ∧ u.w2 = g ∧
        (∀ r, r < size → (t.core (c + r)).team = some n) ∧ FMap.get none t.pool q = none ∧
        (∀ j m, j < 3 → m < 63 → t.sreg (3 * c + j) (m + 1) = s.word (a + 18432 + 1024 * j + 8 + 8 * m)) ∧
        (∀ j, j < 3 → (t.ctl (3 * c + j)).pc = s.word (a + 18432 + 1024 * j) &&& ~~~3)))

/-- Doorbells, fetches and cancels (07 R156, R157, R171 to R174): a doorbell of one of the 131,072 queues moves TAIL forward or sets ERR; the
record at HEAD is checked, and its launch starts with its first nodes due, or is refused with the detail in its completion record, 1 for a
record that is malformed itself; a launch that is cancelled stops and its record says so, one whose record is not fetched yet when it is. The
order of the sequencer is the choice of notes/assumptions/38.md; which detail an image that is not held gets is 78.md. -/
def Obligations.Launches : Prop := ∀ (s : State) (q : Nat),
  let d := s.queue q
  (∀ v ahead, ahead = (v.setWidth 32 - d.head).toNat → exec (.doorbell q v) s = .next (
    if 131072 ≤ q then s
    else if 2 ^ 32 ≤ v.toNat ∨ 2 ^ d.log2n < ahead then s.apply (.queue q { d with err := true })
    else if ahead ≤ (d.tail - d.head).toNat then s
    else s.apply (.queue q { d with tail := v.setWidth 32 }))) ∧
  (∀ ws hd nodes succ, d.en = true → d.err = false → 6 ≤ d.log2n → d.log2n ≤ 16 → d.head ≠ d.tail → d.head ∉ d.marks →
    ws = hostWords s (d.ring.toNat / 64 * 64 + 64 * (d.head.toNat % 2 ^ d.log2n)) 8 → launchRecordOk ws = true →
    checkLaunch s d.asid (ws.getD 0 0) = .ok hd nodes succ →
    ∃ t i, exec (.launchFetch q) s = .next t ∧ (t.queue q).head = d.head + 1 ∧ t.inst s.nextId = some i ∧ i.queue = q ∧ i.number = d.head ∧
      i.nodes = nodes ∧ i.succ = succ ∧ i.arena = hd.getD 2 0 ∧ i.cancelled = false ∧
      ∀ n, n < nodes.length → (i.node n).state = if field ((nodes.getD n []).getD 0 0) 24 16 ≠ 0 ∨ innermost nodes n ≠ none then .waiting
        else if i.events &&& i.waitev n = i.waitev n then .ready else .due) ∧
  (∀ ws i u v, d.en = true → d.err = false → 6 ≤ d.log2n → d.log2n ≤ 16 → d.head ≠ d.tail →
    ws = hostWords s (d.ring.toNat / 64 * 64 + 64 * (d.head.toNat % 2 ^ d.log2n)) 8 → i = blankInst q d ws →
    u = (s.apply (.queue q { d with head := d.head + 1, marks := d.marks.filter (· != d.head) })).apply .fresh →
    (d.head ∈ d.marks ∧ v = (3, 0)) ∨ (d.head ∉ d.marks ∧ launchRecordOk ws = false ∧ v = (2, 1)) ∨
      (d.head ∉ d.marks ∧ launchRecordOk ws = true ∧ ∃ detail, checkLaunch s d.asid (ws.getD 0 0) = .refused detail ∧ v = (2, detail)) →
    ∀ e, offOf i.compl % 16 = 0 → seqWrite u i.asid i.compl [BitVec.ofNat 64 (i.cookie.toNat * 2 ^ 32 + v.1 * 2 ^ 24), timeWord u v.2] =
      some (.ok e) →
    exec (.launchFetch q) s = .next ((u.applyAll (e ++ interrupt u i)).apply (.inst s.nextId none))) ∧
  (∀ m, (s.insts.find? fun e => match e.2 with | some j => j.queue == q && j.number == m | none => false) = none →
    (q < 131072 → (m - d.head).toNat < 2 ^ d.log2n → m ∉ d.marks →
      exec (.canone q m) s = .next (s.apply (.queue q { d with marks := d.marks ++ [m] }))) ∧
    (131072 ≤ q ∨ 2 ^ d.log2n ≤ (m - d.head).toNat → exec (.canone q m) s = .next s)) ∧
  (∀ l i x, Running s l i → i.record = none → teamsOf s l none = [] →
    (x = .canone q i.number ∧ (s.insts.find? fun e => match e.2 with | some j => j.queue == q && j.number == i.number | none => false) =
      some (l, some i)) ∨
    (x = .canall q ∧ (s.insts.filterMap fun e => match e.2 with | some j => if j.queue = q then some e.1 else none | none => none) = [l]) →
    ∃ t, exec x s = .next t ∧ (∃ m, t.inst l = some { i with cancelled := true, cancelNode := m }) ∧
      ∀ e ∈ t.pool, ∀ p, e.2 = some p → p.inst ≠ l) ∧
  (∀ l i e, s.inst l = some i → i.cancelled = true → i.record = none → teamsOf s l none = [] → offOf i.compl % 16 = 0 →
    seqWrite s i.asid i.compl [recordWord i 3 0 i.cancelNode, timeWord s 0] = some (.ok e) →
    exec (.cancelComplete l) s = .next ((s.applyAll (e ++ interrupt s i)).apply (.inst l none))) ∧
  (∀ v asid, asid = v.toNat % 2 ^ 12 → ∃ t, exec (.trsMflush v) s = .next t ∧
    (∀ m, FMap.get none t.methods m = if m / 65536 = asid then none else FMap.get none s.methods m))

/-- Dispatch and the pools (07 R162 to R169, 14 R333): a ready kernel node becomes running with its runs and their entries in the pools, or
waits at the root while a pool is full or while one that stands before it waits; a run's conversions take their arena tiles and join their
pools, or wait at the root behind those that stand before them; when they are over its shares can be placed; nodes and swapped teams rise, a
node reserves a cluster of its entry's shard, and teams come back. The order of the sequencer is the choice of notes/assumptions/38.md, the wait
for room for all runs of a node that of 86.md, the order of an entry and the one reservation of a node that of 87.md; SKIP runs are 85.md, an
entry for each run is 105.md, ranges taken together 103.md, and a rise at any moment 66.md. -/
def Obligations.Dispatches : Prop := ∀ (s : State) (l n : Nat) (i : Inst), Running s l i →
  let with' (x : NodeSt) : Inst := i.setNode n x
  (∀ runs res es ws j, ws = i.nodes.getD n [] → n < i.nodes.length → i.kind n = 0 → (i.node n).state = .ready → ws.getD 5 0 = 0 →
    runs = runsFrom 0 ((List.range (axisOf ws)).map (tupleAt s i.asid ws)) → runs.length ≤ 16 →
    allSome (runs.map fun r => (resolve s i.asid i.arena (methodTable s i.asid) ws r.2.2).map fun x => (r, x)) = some res →
    (∀ r ∈ newRuns i n res, (r.convs.map (·.tiles)).foldl (· + ·) 0 ≤ ((readTensor s i.asid (tidOf i.arena)).map Tensor.ntiles).getD 0) →
    j = with' { i.node n with state := .running, rooted := [], runs := newRuns i n res, args := List.replicate 16 0 } →
    es = (newRuns i n res).zipIdx.filterMap (fun r => if r.1.state = .ended then none else
      some (newEntry (entryOrder s j n r.1 none) l n r.2 none (i.node n).stamp)) →
    (es ≠ [] → roomFor s es = true → rootBefore s (es.map (·.shard)) (nodePrio i n, (i.node n).stamp) = false →
      ∃ t, exec (.dispatch l n) s = .next t ∧ t.inst l = some j ∧ ∀ m, m < es.length → FMap.get none t.pool (s.nextId + m) = es[m]?) ∧
    (roomFor s es = false ∨ rootBefore s (es.map (·.shard)) (nodePrio i n, (i.node n).stamp) = true →
      exec (.dispatch l n) s = .next (s.apply (.inst l (some (with' { i.node n with rooted := (es.map (·.shard)).eraseDups })))))) ∧
  (∀ r run tn fs cur, (i.node n).runs[r]? = some run → run.state = .arena → readTensor s i.asid (tidOf i.arena) = some tn →
    takeRanges tn.ntiles (run.convs.map (·.tiles)) ((s.busy.filter (·.1 == arenaKey i)).map (·.2)) (FMap.get 0 s.arenas (arenaKey i)) =
      some (fs, cur) → isSkip run.entry = false →
    ∃ t j u, exec (.arenaRangeTaken l n r) s = .next t ∧ t.inst l = some j ∧ (j.node n).runs[r]? = some u ∧ u.state = .converting ∧
      u.convs.map (·.first) = fs.map some ∧ FMap.get 0 t.arenas (arenaKey i) = cur ∧ t.mem = s.mem ∧
      ∀ m, m < run.convs.length → ∃ p, FMap.get none t.pool (s.nextId + m) = some p ∧ p.inst = l ∧ p.node = n ∧ p.run = r ∧ p.conv = some m) ∧
  (∀ r run, (i.node n).runs[r]? = some run → run.state = .converting → (∀ c ∈ run.convs, c.placed = c.tiles ∧ c.live = 0) →
    exec (.makeShares l n r) s = .next (s.apply (.inst l (some (with' { i.node n with
      runs := (i.node n).runs.set r { run with state := .ready } }))))) ∧
  (∀ u, nodePrio i n < 7 → u = s.apply (.inst l (some (with' { i.node n with rise := (i.node n).rise + 1 }))) →
    (∀ p x, FMap.get none s.pool p = some x → x.inst = l → x.node = n → x.team = none → exec (.priorityRise p) s = .next u) ∧
    (n < 2 ^ 16 → FMap.get none s.pool (rootNumber l n) = none → exec (.priorityRise (rootNumber l n)) s = .next u)) ∧
  (∀ p x, FMap.get none s.pool p = some x → x.inst = l →
    (∀ m, x.team = some m → entryPrio s x < 7 →
      exec (.priorityRise p) s = .next (s.apply (.pool p (some { x with rise := x.rise + 1 })))) ∧
    ((∀ e ∈ s.pool, ∀ y, e.2 = some y → y.id = x.id → y.resv = none) → x.rooted = false →
      (∀ c, FMap.get none s.reserved c = none) →
      ∃ t c free, exec (.reservation p) s = .next t ∧ c < 4 ∧
        free = (fun c => ((List.range 6).filter fun j => (s.core (x.shard * 24 + c * 6 + j)).team.isNone).length) ∧
        (∀ b, b < 4 → free b ≤ free c) ∧ FMap.get none t.reserved (x.shard * 4 + c) = some p ∧
        FMap.get none t.pool p = some { x with resv := some (x.shard, c) })) ∧
  (∀ m tm asid v, (s.teams.find? fun e => match e.2 with
      | some tm => tm.asid == asid && tm.state == .swapped 1 (v.toNat % 2 ^ 16) | none => false) = some (m, some tm) →
    (∀ e ∈ s.pool, ∀ p, e.2 = some p → p.team ≠ some m) →
    ∃ t x, exec (.trsResume asid v) s = .next t ∧ FMap.get none t.pool s.nextId = some x ∧ x.team = some m ∧ x.inst = tm.inst)

/-- Control and event nodes (07 R157, R160, R161), each of which completes: conditionalNode, switchNode, loopNode, eventNode, eventReread and
eventTimeout. A node ends with the successor set that the word it reads chooses; a loop starts its first iteration or, with a count of 0,
completes; an event node watches its words until QUORUM of them are met or its time is up, and is then decided: RESULT takes the mask and the
node completes, at once or, if that write has to wait, when it can be made. A word whose tile is absent is waited for. Time limits are events of
the model (notes/assumptions/66.md), and the first reads of all words are one step (100.md). -/
def Obligations.ControlNodes : Prop := ∀ (s : State) (l n : Nat) (i : Inst) (w : Word) (g : Option Nat),
  let ended (i : Inst) (k : Nat) : Inst := endNode s.nextId n .completed (some k) i
  let met (m : List Bool) : Inst := i.setNode n { i.node n with state := .running, met := m }
  let decided (m : List Bool) : Inst := i.setNode n { i.node n with state := .running, met := m, latched := true }
  let quorum := field (i.word n 7) 32 8
  let mask (m : List Bool) : Word := BitVec.ofNat 64 ((m.zipIdx.map fun x => if x.1 then 2 ^ x.2 else 0).foldl (· + ·) 0)
  Running s l i → n < i.nodes.length →
  ((i.node n).state = .ready → seqRead s i.asid (i.word n 5) 1 = .words [w] g →
    (∀ k, i.kind n = 1 → (k = 0 ∧ holds (field (i.word n 8) 0 3) (w &&& i.word n 7) (i.word n 6)) ∨
        (k = 2 ∧ ¬holds (field (i.word n 8) 0 3) (w &&& i.word n 7) (i.word n 6)) →
      ∃ t, exec (.conditionalNode l n) s = .next t ∧ Went s t l (ended i k)) ∧
    (∀ k, i.kind n = 3 → k = (if w.toNat < field (i.word n 6) 0 5 then 3 + w.toNat else 0) →
      ∃ t, exec (.switchNode l n) s = .next t ∧ Went s t l (ended i k)) ∧
    (i.kind n = 2 → w.toNat % 2 ^ 32 = 0 → ∃ t, exec (.loopNode l n) s = .next t ∧ Went s t l (ended i 0)) ∧
    (i.kind n = 2 → w.toNat % 2 ^ 32 ≠ 0 →
      ∃ t, exec (.loopNode l n) s = .next t ∧ Went s t l (iterate s.nextId n 0 (w.toNat % 2 ^ 32) i))) ∧
  (∀ a, (i.node n).state = .ready → seqRead s i.asid (i.word n 5) 1 = .absent a →
    exec (.conditionalNode l n) s = .next s ∧ exec (.switchNode l n) s = .next s ∧ exec (.loopNode l n) s = .next s) ∧
  (i.kind n = 4 → ∀ m, let u := s.apply (.inst l (some (met m)))
    let complete (v : State) (x : Instr) : Prop := ∃ t, exec x s = .next t ∧ Went v t l (ended (met m) 0)
    (∀ x, x = .eventNode l n ∧ (i.node n).state = .ready ∧
        (∀ j, j < eventWords i n → ∀ code, eventRead s i n j ≠ some (.error code)) ∧
        m = ((List.range (eventWords i n)).map fun j => match eventRead s i n j with | some (.ok b) => b | _ => false) ∨
      (∃ j b, x = .eventReread l n j ∧ (i.node n).state = .running ∧ (i.node n).latched = false ∧ j < eventWords i n ∧
        eventRead s i n j = some (.ok b) ∧ m = (i.node n).met.set j b) →
      ((m.filter id).length < quorum → exec x s = .next u) ∧
      (quorum ≤ (m.filter id).length → i.word n 8 = 0 → complete u x) ∧
      (∀ e, quorum ≤ (m.filter id).length → i.word n 8 ≠ 0 → seqWrite u i.asid (i.word n 8) [mask m] = some (.ok e) →
        complete (u.applyAll e) x) ∧
      (quorum ≤ (m.filter id).length → i.word n 8 ≠ 0 → seqWrite u i.asid (i.word n 8) [mask m] = none →
        exec x s = .next (u.apply (.inst l (some (decided m))))))) ∧
  (i.kind n = 4 → (i.node n).state = .running → (i.node n).latched = false → field (i.word n 7) 0 32 ≠ 0 →
    (i.word n 8 = 0 → ∃ t, exec (.eventTimeout l n) s = .next t ∧ Went s t l (ended i 0)) ∧
    (∀ e, i.word n 8 ≠ 0 → seqWrite s i.asid (i.word n 8) [mask (i.node n).met] = some (.ok e) →
      ∃ t, exec (.eventTimeout l n) s = .next t ∧ Went (s.applyAll e) t l (ended i 0)) ∧
    (i.word n 8 ≠ 0 → seqWrite s i.asid (i.word n 8) [mask (i.node n).met] = none →
      exec (.eventTimeout l n) s = .next (s.apply (.inst l (some (decided (i.node n).met)))))) ∧
  (∀ j, i.kind n = 4 → (i.node n).state = .running → j < eventWords i n →
    ((i.node n).latched = false → eventRead s i n j = none → exec (.eventReread l n j) s = .next s) ∧
    (∀ e, (i.node n).latched = true → i.word n 8 ≠ 0 → seqWrite s i.asid (i.word n 8) [mask (i.node n).met] = some (.ok e) →
      ∃ t, exec (.eventReread l n j) s = .next t ∧ Went (s.applyAll e) t l (ended i 0)) ∧
    ((i.node n).latched = true → i.word n 8 ≠ 0 → seqWrite s i.asid (i.word n 8) [mask (i.node n).met] = none →
      exec (.eventReread l n j) s = .next (s.apply (.inst l (some (decided (i.node n).met))))))

/-- Registers written and read by the host (16 R342, R344, 17 R360, 18 R388, 07 R171, 00 R9), the budget arbiter's window (00 R3, 16 R343)
and a thermal hold (16 R345), which a window may find due. A register read by the host as an access of kind 23 is the reading of
notes/assumptions/60.md, and the number 4096 + 4q + w of word w of queue q that of 65.md. The arithmetic of a window is the reading of
52.md, and what is measured is free within the domains' maxima (6.md). -/
def Obligations.PackageEvents : Prop := ∀ (s : State) (v : Word),
  (∀ ix, ix ∈ [0xA11, 0xA12, 0xB04] → exec (.registerWrite ix v) s =
    .next (s.apply (.pkg (plainPackage ix (merged .wr ix (pkgValue s none ix) v) s.pkg)))) ∧
  (∃ t, exec (.registerWrite 0x800 v) s = .next t ∧
    field t.pkg.pwrCfg 16 5 = (if 12 ≤ field v 16 5 ∧ field v 16 5 ≤ 24 then field v 16 5 else field s.pkg.pwrCfg 16 5) ∧
    field t.pkg.pwrCfg 0 12 = (if 600 ≤ field v 0 12 ∧ field v 0 12 ≤ 2400 then field v 0 12 else field s.pkg.pwrCfg 0 12)) ∧
  (∀ q, q < 131072 →
    exec (.registerWrite (4096 + 4 * q) v) s = .next (s.apply (.queue q { s.queue q with ring := v &&& ~~~63 })) ∧
    exec (.registerWrite (4096 + 4 * q + 1) v) s = .next (s.apply (.queue q { s.queue q with
      asid := field v 52 12, en := bitOf v 51, log2n := field v 46 5, err := (s.queue q).err && !bitOf v 45 })) ∧
    exec (.registerWrite (4096 + 4 * q + 2) v) s = .next (s.apply (.queue q { s.queue q with vec := field v 0 11 })) ∧
    (bitOf v 63 = true → exec (.registerWrite (4096 + 4 * q + 3) v) s = exec (.canall q) s) ∧
    (bitOf v 63 = false → bitOf v 62 = true → exec (.registerWrite (4096 + 4 * q + 3) v) s = exec (.canone q (v.setWidth 32)) s)) ∧
  (∀ (r : Req) q ix w d, r.kind = 23 → q < 131072 → d = s.queue q →
    (ix, w) ∈ [(4096 + 4 * q, d.ring), (4096 + 4 * q + 2, BitVec.ofNat 64 d.vec), (4096 + 4 * q + 3, 0), (4096 + 4 * q + 1,
        BitVec.ofNat 64 (d.asid * 2 ^ 52 + (if d.en then 2 ^ 51 else 0) + d.log2n * 2 ^ 46 + (if d.err then 2 ^ 45 else 0) + d.head.toNat)),
      (0x800, s.pkg.pwrCfg), (0x802, s.pkg.energy), (0x904, s.pkg.tfuse), (0x3FF, 0), (0xFFF, 0)] → r.handle = BitVec.ofNat 64 ix →
    exec (.hostAccess r) s = .next (s.apply (.out (.host (w.setWidth 1024))))) ∧
  (∃ t, exec .arbiterWindow s = .next t ∧
    let tj := Config.junction s.clock
    let hot := decide (105 ≤ tj) || (s.pkg.hot && decide (100 ≤ tj))
    let avail := field s.pkg.pwrCfg 0 12 - min (Config.staticW s.clock) 700 - (if hot then 200 else 0)
    let cap := if hot then 20 else field s.pkg.pwrCfg 16 5
    let used := [min (Config.demandW s.clock 0) 100, min (Config.demandW s.clock 1) 770, min (Config.demandW s.clock 2) 260,
      min (Config.demandW s.clock 3) 130]
    let fits (c : Nat) (x : Nat × Nat) : Prop :=
      min (Config.coreW s.clock c x.1 x.2) 4114 * (activeCores s).length ≤ (avail - used.sum) * 1000
    t.pkg.hot = hot ∧ t.pkg.dom.map (·.2) = used ∧ t.pkg.pkgW ≤ 2750 ∧
    t.pkg.energy = s.pkg.energy + BitVec.ofNat 64 (min (Config.energyMj s.clock).toNat 6) ∧ (tj < 115 → t.pkg.phase = s.pkg.phase ∧ t.out = s.out) ∧
    (115 ≤ tj → t.pkg.phase = .held ∧ t.pkg.thermal = true ∧ bitOf t.pkg.tamper 2 = true) ∧
    (∀ d, d < 4 → (t.pkg.dom.map (·.1))[d]? = some (min (used.getD d 0) (avail - (used.take d).sum))) ∧
    (∀ c, c < 192 → c ∉ activeCores s → ((t.core c).freq, (t.core c).gate) = (12, 0)) ∧
    (∀ c ∈ activeCores s, (∀ x ∈ ladder cap, ¬fits c x) → ((t.core c).freq, (t.core c).gate) = (12, 7) ∧ t.pkg.overBudget = true) ∧
    (∀ c ∈ activeCores s, ∀ a x b, ladder cap = a ++ x :: b → (∀ y ∈ a, ¬fits c y) → fits c x →
      ((t.core c).freq, (t.core c).gate) = x) ∧
    t.mem = s.mem ∧ t.sregs = s.sregs ∧ t.ctls = s.ctls) ∧
  (∃ t, exec .thermalHold s = .next t ∧ t.pkg.phase = .held ∧ t.pkg.thermal = true ∧ bitOf t.pkg.tamper 2 = true ∧ t.mem = s.mem)

/-- Starts and tamper events (16 R345 to R348): what a start resets and keeps, how it ends, what follows one that fails, and what a tamper
event of each level does outside a start, or one of level 1 in a start. A start trains its ports, and those that train come up joined to
their peers (18 R365, R367). What a start keeps and what a level does rests in part on notes/assumptions/50.md and 51.md; whether a port
trains is free (6.md). -/
def Obligations.Starts : Prop := ∀ (s : State),
  (∀ x ∈ ([.coldStart, .secResetCold, .i3cWrite 0x902 2] : List Instr), x = .coldStart ∨ s.pkg.recovFailed = false →
    ∃ t, exec x s = .next t ∧ Begun s t .cold ∧ t.pkg.energy = 0 ∧ t.pkg.hbaseSet = false ∧ t.pkg.recov = false ∧
      ∀ p, p < 16 → t.port p = { Port.reset with state := 1 }) ∧
  (∀ x ∈ ([.warmStart, .secResetWarm, .i3cWrite 0x902 1] : List Instr), x = .warmStart ∨ s.pkg.recovFailed = false →
    (s.pkg.phase = .held → exec x s = .next s) ∧
    (s.pkg.phase ≠ .held → Memory.wf s.mem = true →
      ∃ t, exec x s = .next t ∧ Begun s t .warm ∧ t.pkg.energy = s.pkg.energy ∧ t.pkg.hbase = s.pkg.hbase ∧ t.pkg.recov = s.pkg.recov ∧
        (∀ p x, p < 16 → x = { s.port p with lreq := 0, lmask := 0xF } → t.port p = if x.lit = 0 then { x with state := 1 } else x) ∧
        ∀ a, a < 2 ^ 39 → t.byte a = s.byte a)) ∧
  (s.pkg.recovFailed = true → exec .secResetCold s = .next s ∧ exec .secResetWarm s = .next s) ∧
  (∀ ver, starting s.pkg.phase = true → ∃ t, exec (.startEnd 0 ver) s = .next t ∧ t.pkg.phase = .up ∧ t.pkg.wfail = 0 ∧ t.pkg.cfail = 0 ∧
    t.pkg.secBoot.toNat = (if s.pkg.thermal then 9 else 0) * 2 ^ 24 + (if s.pkg.phase = .warm then 2 ^ 14 else 0) + ver.toNat ∧
    t.pkg.thermal = false ∧ t.pkg.measured.isSome = true ∧ t.mem = s.mem ∧ t.sregs = s.sregs ∧
    (s.pkg.phase = .warm → t.pkg.lnkId = s.pkg.lnkId &&& 0x3FF) ∧
    ∀ p x n, p < 16 → x = s.port p → x.state = 1 → n = t.pkg.lnkId.toNat → n < 732 →
      (Config.training s.clock p = false → (t.port p).state = 0) ∧
      (Config.training s.clock p = true → (t.port p).state = 2 ∧ (t.port p).active = x.lmask ∧ (t.port p).lit = x.lmask ∧
        (p < 11 → (t.port p).peerPkg.toNat = n / 12 * 12 + (n % 12 + 1 + p) % 12 ∧ (t.port p).peerPort.toNat = 10 - p) ∧
        (∀ k m j, 11 ≤ p → k = 5 * (n % 12) + (p - 11) + 1 → 5 * m + j + 1 = 61 - k → j < 5 →
          (t.port p).peerPkg.toNat = (n / 12 + k) % 61 * 12 + m ∧ (t.port p).peerPort.toNat = 11 + j))) ∧
  (∀ (x : Instr) (reason : Nat),
    (x, reason) ∈ (Instr.startTimeout, 7) :: ([1, 2, 3, 5, 6, 8, 10, 11].map fun r => (Instr.startEnd (BitVec.ofNat 8 r) 0, r)) →
    starting s.pkg.phase = true → ¬(s.pkg.phase = .warm ∧ (reason = 1 ∨ reason = 10)) →
    ((reason = 6 ∨ reason = 10) → tamperLevel s.pkg 5 ≠ 3) →
    ∃ t, exec x s = .next t ∧ (t.pkg.phase, t.pkg.wfail, t.pkg.cfail) = nextStart s.pkg ∧
      field t.pkg.secBoot 24 8 = (if s.pkg.thermal = true then 9 else reason) ∧ t.pkg.recovFailed = decide (s.pkg.phase = .recovery)) ∧
  (∀ e : BitVec 3, starting s.pkg.phase = false ∨ tamperLevel s.pkg e.toNat = 1 →
    ∃ t, exec (.tamperEvent e) s = .next t ∧ Tampered s t e.toNat ∧ (e = 2 → t.pkg.thermal = true) ∧
      (tamperLevel s.pkg e.toNat = 3 → t.pkg.measured = none))

/-- Attestation (16 R349) and the management ports (16 R347, R350). The values that the manual leaves to the part are free
(notes/assumptions/6.md, 53.md). -/
def Obligations.Management : Prop := ∀ (s : State) (v : Word),
  (s.pkg.attestDone = true → field v 0 12 = 0 →
    exec (.attestReport v) s = .next (s.apply (.pkg { s.pkg with attestDone := false, attestReq := some (setField v 62 2 1) })) ∧
    exec (.attestCertificate v) s = .next (s.apply (.pkg { s.pkg with attestDone := false, attestReq := some (setField v 62 2 2) }))) ∧
  (∀ a, s.pkg.attestReq = some v → s.pkg.hbaseSet = false → a = field v 0 39 →
    ∃ t, exec .attestDone s = .next t ∧ t.pkg.attestDone = true ∧ t.pkg.attestErr = false ∧ t.pkg.attestReq = none ∧
      (field v 62 2 = 1 → t.bytes (a + 64) 192 = reportBody s.pkg ∧ (∀ i, i < 132 → t.byte (a + 256 + i) =
          Config.signature (s.bytes a 64 ++ reportBody s.pkg) i) ∧
        ∀ b, b < a + 64 ∨ a + 388 ≤ b → t.byte b = s.byte b) ∧
      (field v 62 2 ≠ 1 → t.word a = BitVec.ofNat 64 (min Config.certLength.toNat 4088) ∧
        (∀ i, i < min Config.certLength.toNat 4088 → t.byte (a + 8 + i) = Config.certByte i) ∧
        ∀ b, b < a ∨ a + 4096 ≤ b → t.byte b = s.byte b)) ∧
  (s.pkg.attestReq = some v → (s.headerAt (field v 0 39)).isSome = true →
    ∃ t, exec .attestDone s = .next t ∧ t.pkg.attestDone = true ∧ t.pkg.attestErr = true ∧ t.pkg.attestReq = none ∧ t.mem = s.mem) ∧
  (∀ (ix : BitVec 16) w, s.pkg.recovFailed = false →
    (ix.toNat, w) ∈ [(0x800, s.pkg.pwrCfg), (0x802, s.pkg.energy), (0x900, 0x6600A1FF46404000), (0x901, secBootWord s.pkg),
      (0x903, s.pkg.tamper), (0x904, s.pkg.tfuse)] → exec (.i3cRead ix) s = .next (s.apply (.out (.i3c w)))) ∧
  (s.pkg.recovFailed = true → exec (.i3cRead 0x800) s = .next s ∧ exec (.i3cRead 0x904) s = .next s ∧
    exec (.i3cRead 0x900) s = .next (s.apply (.out (.i3c 0x6600A1FF46404000))) ∧
    exec (.i3cRead 0x901) s = .next (s.apply (.out (.i3c (secBootWord s.pkg)))) ∧
    exec (.i3cRead 0x903) s = .next (s.apply (.out (.i3c s.pkg.tamper)))) ∧
  (∃ t, exec (.i3cWrite 0x903 v) s = .next t ∧ field t.pkg.tamper 0 8 = (s.pkg.tamper &&& ~~~v).toNat % 256 ∧
    field t.pkg.tamper 16 2 = (if field t.pkg.tamper 0 8 = 0 ∧ field s.pkg.tamper 0 8 ≠ 0 then 0 else field s.pkg.tamper 16 2) ∧
    t.mem = s.mem) ∧
  (∀ ix : BitVec 16, ix ≠ 0x902 → ix ≠ 0x903 → starting s.pkg.phase = false ∨ tamperLevel s.pkg 7 = 1 →
    ∃ t, exec (.i3cWrite ix v) s = .next t ∧ Tampered s t 7) ∧
  (∀ x n w, (x, n, w) ∈ ([(.jtagIdcode, 0, [.jtag 0x16600D6B]), (.jtagBypass, 1, []), (.jtagSamplePreload, 2, []),
    (.jtagExtest, 3, [])] : List (Instr × Nat × List Out)) →
    ∃ t, exec x s = .next t ∧ t.pkg = { s.pkg with jtag := n } ∧ t.out = s.out ++ w ∧ { t with pkg := s.pkg, out := s.out } = s) ∧
  (exec (.jtagDebugUnlock true) s = .next (s.apply (.pkg { s.pkg with unlocked := true }))) ∧
  (starting s.pkg.phase = false ∨ tamperLevel s.pkg 4 = 1 → ∃ t, exec (.jtagDebugUnlock false) s = .next t ∧ Tampered s t 4)

/-- Episodes (17 R352, R355, R358, R359): a new hamper base clears every header; CMP_START starts an episode, or says in CMP_ERR why not;
and what closes one leaves the reason in the header and the camp core idle. An access traps behind those before it. The corners of the Campground are the readings of
notes/assumptions/45.md, 46.md and 49.md. -/
def Obligations.Episodes : Prop := ∀ (s : State) (v : Word),
  (cmpBusy s = 0 → ∃ t, exec (.cmpHbase v) s = .next t ∧ t.pkg.hbaseSet = true ∧ t.pkg.hbase.toNat = field v 12 27 * 4096 ∧
    (∀ h i, h < 4096 → i < 512 → t.hamper h i = 0) ∧ t.sregs = s.sregs ∧ t.cores = s.cores) ∧
  (cmpBusy s ≠ 0 → exec (.cmpHbase v) s = .next s) ∧
  (∀ c d h, c = field v 40 6 → d = (List.range 32).map (fun i => s.word (keyHbm (field v 8 31 * 256 + 8 * i))) → h = field (d.getD 0 0) 52 12 →
    s.pkg.hbaseSet = true →
    (descOk d = true → (s.camp c).ep = none → stateOf s h ≠ 1 → (reach d (BitVec.ofNat 64 (field (d.getD 1 0) 0 35)) 1 (·.x)).isSome = true →
      ∃ t, exec (.cmpStart v) s = .next t ∧ (t.camp c).ep = some ⟨h, field (d.getD 0 0) 40 12, d⟩ ∧
        (t.camp c).pc = BitVec.ofNat 64 (field (d.getD 1 0) 0 35) ∧ (t.camp c).x = [] ∧ (t.camp c).f = [] ∧ (t.camp c).resv = none ∧
        stateOf t h = 1 ∧ field (t.hamper h 4) 0 56 = 0 ∧ (t.hamper h 3).toNat = field (s.hamper h 2) 0 32 ∧
        field (t.hamper h 6) 0 32 = field (d.getD 0 0) 0 32 ∧ t.sregs = s.sregs) ∧
    (descOk d = false ∨ (s.camp c).ep ≠ none ∨ stateOf s h = 1 → ∃ t, exec (.cmpStart v) s = .next t ∧
      (descOk d = false → bitOf t.pkg.cmpErr 1 = true) ∧ ((s.camp c).ep ≠ none ∨ stateOf s h = 1 → bitOf t.pkg.cmpErr 0 = true) ∧
      t.camps = s.camps ∧ t.mem = s.mem)) ∧
  (∀ c h ep cause r x ok st cs w, OnEpisode s c h ep → (x, ok, st, cs, w) ∈ episodeEnds s c h ep v cause r → ok →
    ∃ t, exec x s = .next t ∧ Closes s t c h st cs w)

/-- The step protocol (17 R353, R354, R356): actions and posts, the other words that a header takes, and the accesses of an episode. The
corners of the Campground are the readings of notes/assumptions/45.md to 49.md. -/
def Obligations.HamperProtocol : Prop := ∀ (s : State) (c h : Nat) (ep : Episode) (v : Word),
  OnEpisode s c h ep → field s.pkg.hbase 0 12 = 0 →
  (∃ t, exec (.aseqWrite h v) s = .next t ∧ t.hamper h 1 = s.hamper h 1 ∧
    (s.hamper h 0 = s.hamper h 1 ∧ v = s.hamper h 1 + 1 → t.hamper h 0 = v ∧ t.hamper h 4 = s.hamper h 4) ∧
    (¬(s.hamper h 0 = s.hamper h 1 ∧ v = s.hamper h 1 + 1) → t.hamper h 0 = s.hamper h 0 ∧ bitOf (t.hamper h 4) 44 = true)) ∧
  (pending s h = true → v = s.hamper h 0 →
    let steps := (field (s.hamper h 4) 0 32 + 1) % 2 ^ 32
    let lag := (field (s.hamper h 3) 32 16 + 1) % 2 ^ 16
    let leash := field (ep.desc.getD 3 0) 16 16
    let moved : Prop := field (s.hamper h 2) 0 32 ≠ field (s.hamper h 3) 0 32
    let rebind : Prop := moved ∧ leash ≠ 0xFFFF ∧ leash ≤ lag
    ∃ t, exec (.post h v) s = .next t ∧ t.hamper h 1 = v ∧ field (t.hamper h 4) 0 32 = steps ∧
      (rebind → field (t.hamper h 3) 0 32 = field (s.hamper h 2) 0 32 ∧ field (t.hamper h 3) 32 16 = 0 ∧ bitOf (t.hamper h 4) 45 = true) ∧
      (¬rebind → field (t.hamper h 3) 0 32 = field (s.hamper h 3) 0 32 ∧ bitOf (t.hamper h 4) 45 = false) ∧
      (moved → ¬rebind → field (t.hamper h 3) 32 16 = lag) ∧ (¬moved → field (t.hamper h 3) 32 16 = 0) ∧
      (stateOf t h = 3 ↔ field (ep.desc.getD 2 0) 0 32 ≠ 0 ∧ steps = field (ep.desc.getD 2 0) 0 32)) ∧
  (pending s h = false ∨ v ≠ s.hamper h 0 →
    ∃ t, exec (.post h v) s = .next t ∧ t.hamper h 1 = s.hamper h 1 ∧ bitOf (t.hamper h 4) 44 = true ∧ stateOf t h = 1) ∧
  (∀ bs, bs.length = 4 → ∃ t, exec (.hamperHeaderWrite false h 16 bs) s = .next t ∧ field (t.hamper h 2) 0 32 = bytesToNat bs ∧
    field (t.hamper h 2) 32 32 = field (s.hamper h 2) 32 32 ∧ t.hamper h 0 = s.hamper h 0 ∧ t.hamper h 4 = s.hamper h 4) ∧
  (∀ bs, bs.length = 2 → ∃ t, exec (.hamperHeaderWrite true h 44 bs) s = .next t ∧ field (t.hamper h 5) 32 13 = bytesToNat bs % 2 ^ 13 ∧
    field (t.hamper h 5) 0 32 = field (s.hamper h 5) 0 32 ∧ t.hamper h 4 = s.hamper h 4) ∧
  (∀ bs, bs.length = 8 → ∃ t, exec (.hamperHeaderWrite true h 0 bs) s = .next t ∧ Closes s t c h 4 7 0) ∧
  (∀ r a, r.bytes ∈ [1, 2, 4, 8] → r.handle.toNat % r.bytes = 0 → (s.camp c).ops = [] → campPlace s ep r.handle r.bytes r.kind = .at (.key a) →
    (r.kind = 0 → ∃ t, exec (.campAccess c r) s = .next t ∧ t.mem = s.mem ∧ t.camp c = s.camp c ∧
      t.out = s.out ++ [.camp c (BitVec.ofNat 64 (bytesToNat (s.bytes a r.bytes)))]) ∧
    (r.kind = 1 → ∃ t, exec (.campAccess c r) s = .next t ∧ t.mem = (s.store a (natToBytes r.bytes r.value.toNat)).mem ∧
      (t.camp c).ops = [] ∧ t.out = s.out ++ [.camp c 0]) ∧
    (r.kind = 2 → r.bytes ∈ [4, 8] → ∃ t, exec (.campAccess c r) s = .next t ∧ (t.camp c).ops = [] ∧
      t.mem = (s.store a (natToBytes r.bytes (bytesToNat (s.bytes a r.bytes) + r.value.toNat))).mem))

/-- Flits (18 R361, R362): one that is received in order advances ACK's SEQ, and the transaction that it completes arrives here, once, or goes
on to its destination; one that was received before changes nothing but what it acknowledges; a damaged one is answered by a NAK, and one
behind a gap acknowledges and is answered by a NAK. A NAK, and a time without ACK, send what is held again. An arrival of one access performs
and is answered (08 R202). And the host's accesses (10 R246), which wait for its earlier ones (notes/assumptions/60.md). A flit's payload is
15.md, what stands for a transaction performed before 57.md, when a replay happens 56.md and 66.md. -/
def Obligations.LinkTransfers : Prop := ∀ (s : State) (p : Nat) (x : Port) (f : Flit), p < 16 → x = s.port p → x.state = 2 →
  (f.bad = true → x.active ≠ 0 → x.buffer.length < 512 → ∀ g, g = mkFlit (x.txSeq + 1) x.rxSeq 2 .none →
    ∃ t, exec (.flitReceive p f) s = .next t ∧ (t.port p).rxSeq = x.rxSeq ∧ (t.port p).buffer = x.buffer ++ [g] ∧
      t.out = s.out ++ [.flit p (x.wave g.seq) g] ∧ t.mem = s.mem) ∧
  (∀ w, f.bad = false → f.seq = x.rxSeq + 1 → x.waiting = [] →
    (f.typ ≠ 1 ∧ f.typ ≠ 2 ∨ f.typ = 1 ∧ f.txn = none ∨
      f.typ = 1 ∧ f.txn = some w ∧ w.dst = ownPackage s ∧ w.kind ≠ 5 ∧ (w.src, w.tag) ∈ s.done) →
    ∃ t, exec (.flitReceive p f) s = .next t ∧ (t.port p).rxSeq = f.seq ∧
      (t.port p).buffer = x.buffer.filter (fun g => !notAfter g.seq f.ack) ∧ t.mem = s.mem ∧ t.out = s.out) ∧
  (∀ w, f.bad = false → f.seq = x.rxSeq + 1 → f.typ = 1 → f.txn = some w →
    (w.dst = ownPackage s → w.kind ∉ [2, 3, 4, 5] → (w.src, w.tag) ∉ s.done → ∃ t, exec (.flitReceive p f) s = .next t ∧
      (t.port p).rxSeq = f.seq ∧ t.inbox = s.inbox ++ [newArrival w] ∧ t.done = ((w.src, w.tag) :: s.done).take (2 ^ 19) ∧ t.mem = s.mem) ∧
    (w.dst ≠ ownPackage s → x.waiting = [] → (∀ g ∈ x.buffer, notAfter g.seq f.ack = false) → exec (.flitReceive p f) s =
      .next ((s.apply (.port p { x with rxSeq := f.seq })).apply (.send { w with hops := w.hops + (if 11 ≤ p then 1 else 0) })))) ∧
  (∀ j w i r, s.inbox[j]? = some (newArrival w) → w.kind = 0 → w.reqs = [(i, r)] →
    (∀ fl v e u, homeOne s r = .did fl v e → u = (s.applyAll e).apply (.inbox ((s.applyAll e).inbox.eraseIdx j)) →
      agentStep (.serve j 0) s = .next (u.apply (.send { newTxn u w.src w.tag 5 with
        first := fl.toNat, rank := 0, runs := [(i, v)], words := [], req := { w.req with handle := 0 } }))) ∧
    (∀ code at0 u, homeOne s r = .trap code at0 → u = s.apply (.inbox (s.inbox.eraseIdx j)) →
      agentStep (.serve j 0) s = .next (u.apply (.send { newTxn u w.src w.tag 5 with
        first := code.toNat, rank := (if r.kind ∈ [15, 16, 24, 25] then at0 else i), runs := [], words := [], req := { w.req with handle := 0 } }))) ∧
    (homeOne s r = .wait → agentStep (.serve j 0) s = .next s) ∧
    (∀ asid tid n slice, homeOne s r = .moving asid tid n slice →
      (takeHeld s asid tid n slice (.elem w i) = none → agentStep (.serve j 0) s = .next s) ∧
      (∀ e, takeHeld s asid tid n slice (.elem w i) = some e → agentStep (.serve j 0) s =
        .next ((s.apply (.inbox (s.inbox.set j { newArrival w with left := some [(i, r)] }))).applyAll e)))) ∧
  (f.bad = false → f.seq ≠ x.rxSeq + 1 → notAfter f.seq x.rxSeq = true → x.waiting = [] → ∃ t, exec (.flitReceive p f) s = .next t ∧
    (t.port p).rxSeq = x.rxSeq ∧ (t.port p).buffer = x.buffer.filter (fun g => !notAfter g.seq f.ack) ∧ t.mem = s.mem ∧ t.out = s.out) ∧
  (∀ g l, f.bad = false → f.seq ≠ x.rxSeq + 1 → notAfter f.seq x.rxSeq = false → x.waiting = [] → x.active ≠ 0 →
    l = x.buffer.filter (fun g => !notAfter g.seq f.ack) → l.length < 512 → g = mkFlit (x.txSeq + 1) x.rxSeq 2 .none →
    ∃ t, exec (.flitReceive p f) s = .next t ∧ (t.port p).rxSeq = x.rxSeq ∧ (t.port p).buffer = l ++ [g] ∧
      t.out = s.out ++ [.flit p (x.wave g.seq) g] ∧ t.mem = s.mem) ∧
  (∀ q l, x.waiting = [] → l = x.buffer.filter (fun g => !notAfter g.seq (q - 1)) → ∃ t, exec (.nakReceive p q) s = .next t ∧
    (t.port p).buffer = l ∧ t.out = s.out ++ resent p x q l ∧ t.mem = s.mem) ∧
  (∀ g l, x.buffer = g :: l → ∃ t, exec (.replayTimeout p) s = .next t ∧ (t.port p).buffer = x.buffer ∧
    t.out = s.out ++ resent p x g.seq x.buffer ∧ (t.port p).replays = (if x.replays = 0x7FFF then x.replays else x.replays + 1) ∧
    t.mem = s.mem) ∧
  (∀ (r : Req) u ps pl l, r.kind ≤ 1 → 0 < r.bytes → r.bytes ≤ 128 → (∀ a ∈ s.inbox, a.txn.kind ≠ 9) →
    u = s.apply (.inbox (s.inbox ++ [newArrival { newTxn s 0 0 9 with req := { r with user := true } }])) →
    homeReach u { r with user := true } true = .ok ps →
    placeCheck u (agentCtx r.asid true) (tidOf r.handle) (ps.headD (0, 0)).1 r.bytes (r.kind != 0) = .ok pl →
    homeSpots u (agentCtx r.asid true) pl (tidOf r.handle) (if r.kind = 0 then .load else .row) ps = .ok l →
    (r.kind = 0 → ∃ t, exec (.hostAccess r) s = .next t ∧ t.mem = s.mem ∧ t.inbox = s.inbox ∧
      t.out = s.out ++ [.host (BitVec.ofNat 1024 (bytesToNat (l.flatMap fun y => spotRead s y.1 y.2)))]) ∧
    (∀ e, r.kind = 1 → homeWrites (overSpots l (natToBytes r.bytes r.value.toNat)) u = .ok e →
      ∃ t, exec (.hostAccess r) s = .next t ∧ t.mem = (u.applyAll e).mem)) ∧
  (∀ (r : Req), r.kind ≤ 1 → 0 < r.bytes → r.bytes ≤ 128 → (∃ a ∈ s.inbox, a.txn.kind = 9) → ∃ t, exec (.hostAccess r) s = .next t ∧
    t.inbox = s.inbox ++ [newArrival { newTxn s 0 0 9 with req := { r with user := true } }] ∧ t.mem = s.mem ∧ t.out = s.out)

/-- Narrowing, widening, laser states, failures and health of a port (18 R363 to R366); each completes: lmaskWrite, lreqWrite, restripeStart,
restripeDrained, restripeMarkerAck, laserStateReached, laserWake, wavelengthFail and healthUpdate. Ports are 0 to 15 (00 R2). A failed wavelength leaves the
masks and what was not acknowledged goes on the others; outside a change it starts one (notes/assumptions/58.md). -/
def Obligations.LinkStates : Prop := ∀ (s : State) (p : Nat) (x : Port), x = s.port p →
  (∀ m, exec (.lmaskWrite p m) s = .next (if m = 0 ∨ 16 ≤ p then s else s.apply (.port p { x with lmask := m }))) ∧
  (∀ r, exec (.lreqWrite p r) s = .next (if r = 3 ∨ 16 ≤ p then s else s.apply (.port p { x with lreq := r }))) ∧
  (x.state = 2 →
    (x.nstep = 0 → x.lstate = 0 → x.lreq = 0 → x.lmask ≠ x.active → x.lmask &&& ~~~x.lit = 0 →
      exec (.restripeStart p) s = .next (s.apply (.port p { x with target := x.lmask, nstep := 2 }))) ∧
    (x.nstep = 0 → x.lstate = 0 → x.lreq ≠ 0 → x.active ≠ lowest x.lmask → lowest x.lmask &&& ~~~x.lit = 0 →
      exec (.restripeStart p) s = .next (s.apply (.port p { x with target := lowest x.lmask, nstep := 2 }))) ∧
    (x.nstep = 0 → x.lstate = 1 → x.lreq ≠ 2 → x.active ≠ lowest x.lmask → lowest x.lmask &&& ~~~x.lit = 0 →
      exec (.restripeStart p) s = .next (s.apply (.port p { x with target := lowest x.lmask, nstep := 2 }))) ∧
    (x.nstep = 0 → x.lstate = 1 → x.lreq = 2 → x.waiting = [] →
      exec (.restripeStart p) s = .next (s.apply (.port p { x with target := 0, nstep := 2 }))) ∧
    (x.nstep = 2 → x.buffer = [] → ∀ f, f = mkFlit (x.txSeq + 1) x.rxSeq (if x.target = 0 then 4 else 3) (.marker x.target) →
      ∃ t, exec (.restripeDrained p) s = .next t ∧
        t.port p = { x with nstep := 3, mseq := x.txSeq + 1, txSeq := x.txSeq + 1, buffer := [f] } ∧
        t.out = s.out ++ ((List.range 4).filter (if x.target = 0 then x.active else x.target).getLsbD).map fun w => .flit p w f) ∧
    (x.nstep = 3 → x.target ≠ 0 → (∀ f ∈ x.buffer, f.seq ≠ x.mseq) → x.waiting = [] → ∃ t, exec (.restripeMarkerAck p) s = .next t ∧
      PortOnly s t p { x with active := x.target, mark := x.mseq, nstep := 0 }) ∧
    (x.nstep = 0 → x.lstate ≠ 2 → x.lreq = 0 ∨ x.lstate = 0 →
      exec (.laserStateReached p 0) s = .next (s.apply (.port p { x with lstate := 0, lit := x.lmask ||| x.active }))) ∧
    (x.lstate = 0 → x.lreq ≠ 0 → x.nstep = 0 → x.active = lowest x.lmask →
      exec (.laserStateReached p 1) s = .next (s.apply (.port p { x with lstate := 1, lit := x.active }))) ∧
    (x.lstate = 2 → x.lreq ≠ 2 ∨ x.waking = true → x.waiting = [] → ∃ t, exec (.laserStateReached p 1) s = .next t ∧
      PortOnly s t p { x with lstate := 1, lit := lowest x.lmask, active := lowest x.lmask, mark := 0, waking := false }) ∧
    (x.lstate = 1 → x.nstep = 0 →
      exec (.laserStateReached p 1) s = .next (s.apply (.port p { x with lit := x.active ||| lowest x.lmask }))) ∧
    (x.lstate = 1 → x.nstep = 3 → x.target = 0 → (∀ f ∈ x.buffer, f.seq ≠ x.mseq) →
      exec (.laserStateReached p 2) s = .next (s.apply (.port p { x with lstate := 2, lit := 0, active := 0, nstep := 0 }))) ∧
    (x.lstate = 2 → x.waiting ≠ [] → exec (.laserWake p) s = .next (s.apply (.port p { x with waking := true }))) ∧
    (∀ w gone rest, w < 4 → 16 ≤ FMap.get 0 x.resends w → gone = BitVec.ofNat 4 (2 ^ w) → rest = x.active &&& ~~~gone →
      (rest ≠ 0 → ∃ t y, exec (.wavelengthFail p w) s = .next t ∧ y = t.port p ∧ y.active = rest ∧ y.lit = x.lit &&& ~~~gone ∧
        y.state = 2 ∧ y.buffer = x.buffer ∧ y.nstep = (if x.nstep = 0 then 2 else x.nstep) ∧
        y.lmask = (if x.lmask &&& ~~~gone = 0 then rest else x.lmask &&& ~~~gone) ∧
        (x.nstep ≠ 0 → x.target = 0 → y.target = 0) ∧ (x.nstep = 0 ∨ x.target ≠ 0 ∧ x.target &&& ~~~gone = 0 → y.target = rest) ∧
        (x.nstep ≠ 0 → x.target &&& ~~~gone ≠ 0 → y.target = x.target &&& ~~~gone) ∧
        t.out = s.out ++ x.buffer.flatMap fun f => (wavesOf y f).map fun w => .flit p w f) ∧
      (rest = 0 → ∃ t, exec (.wavelengthFail p w) s = .next t ∧ (t.port p).state = 3 ∧ (t.port p).active = 0 ∧ (t.port p).lit = 0 ∧
        (t.port p).buffer = []))) ∧
  (∀ w opt ber corr unc, p < 16 → w < 4 → ∃ t, exec (.healthUpdate p w opt ber corr unc) s = .next t ∧
    PortOnly s t p { x with health := (t.port p).health } ∧
    (∀ i, i ≠ w → FMap.get .reset (t.port p).health i = FMap.get .reset x.health i) ∧
    (x.lit.getLsbD w = true → FMap.get .reset (t.port p).health w = ⟨opt &&& 0xFFFFFFFFFFFFFF00, ber &&& 0x1FFF, corr, unc⟩) ∧
    (x.lit.getLsbD w = false → (FMap.get .reset (t.port p).health w).corr = (FMap.get .reset x.health w).corr ∧
      (FMap.get .reset (t.port p).health w).unc = (FMap.get .reset x.health w).unc))

/-- s0 and p0 read as constants and writes to them are discarded; every other register holds what was last written to it (01 R14). -/
def Obligations.ZeroRegisters : Prop := ∀ (s : State) (k n : Nat),
  (s.sreg k 0 = 0 ∧ s.preg k 0 = BitVec.allOnes 128) ∧
  (∀ v, s.apply (.sreg k 0 v) = s) ∧ (∀ v, s.apply (.preg k 0 v) = s) ∧
  (∀ v j m, n ≠ 0 → n < 64 → m < 64 → (s.apply (.sreg k n v)).sreg j m = if j = k ∧ m = n then v else s.sreg j m) ∧
  (∀ v j m, n ≠ 0 → n < 16 → m < 16 → (s.apply (.preg k n v)).preg j m = if j = k ∧ m = n then v else s.preg j m) ∧
  (∀ v j m, n < 1024 → m < 1024 → (s.apply (.vreg k n v)).vreg j m = if j = k ∧ m = n then v else s.vreg j m)

/-- The frame of the scalar and the element instructions, whatever becomes of them (they retire, trap or wait): no register but the
destination, no control register that they do not name, no other stream and no byte of memory changes. -/
def Obligations.Frame : Prop := ∀ (s t : State) (x : Instr) (d : Nat), exec x s = .next t →
  (ScalarForm x d → Framed s t false ∧ t.vregs = s.vregs ∧
    ∀ k n, n < 64 → k ≠ s.cur ∨ n ≠ d → t.sreg k n = s.sreg k n) ∧
  (VectorForm x d → Framed s t true ∧ t.sregs = s.sregs ∧
    ∀ c n, n < 1024 → c ≠ coreOf s.cur ∨ n ≠ d → t.vreg c n = s.vreg c n)

/-- A step runs the decoded instruction: for a stream that the schedule names, what the word at its pc decodes to (what stands there, or what
another package has returned for it), or the trap of a fetch or of a word that does not decode; for one that is to issue ahead of its
retirement, the same; for an instruction that has issued, its retirement; for an event, the event. A trap waits for the vector instructions
before it. What ends the step follows (notes/assumptions/1.md, 80.md). -/
def Obligations.StepRuns : Prop := ∀ (s u : State) (a : Agent), pick s = some a → u = chosen s a →
  (∀ k bs i rest t, a = .stream k → u.wordAt k = .bytes bs → decode bs = .ok (i, rest) →
    exec i (u.begin k (BitVec.ofNat 32 (bytesToNat bs))) = .next t →
    (writesLate u k = false ∨ ((t.ctl k).tip = (u.ctl k).tip ∧ (t.ctl k).run ≠ .stopped) → step s = .next (finishStep t)) ∧
    (writesLate u k = true → (t.ctl k).run = .stopped ∨ (t.ctl k).tip ≠ (u.ctl k).tip → step s = .next (finishStep u))) ∧
  (∀ k code h w0, a = .stream k → writesLate u k = false → u.wordAt k = .trap code h w0 →
    step s = .next (finishStep (u.applyAll (takeTrap k code false h { Flt.reset with i3 := w0 } u)))) ∧
  (∀ k bs e, a = .stream k → writesLate u k = false → u.wordAt k = .bytes bs → decode bs = .error e →
    step s = .next (finishStep (u.applyAll (takeTrap k cILLEGAL false (BitVec.ofNat 64 (bytesToNat bs % 2 ^ 32))
      (fltOf (op9Of (bytesToNat bs))) u)))) ∧
  (∀ k bs i rest t v, a = .early k → v = u.applyAll (onCtl k (fun c => { c with status := setField c.status 3 1 0 }) u) →
    v.wordAt k = .bytes bs → decode bs = .ok (i, rest) → exec i (v.begin k (BitVec.ofNat 32 (bytesToNat bs))) = .next t →
    holdable v t k = true → t.wrote.isSome = true → step s = .next (finishStep (hold v t k (u.ctl k).step))) ∧
  (∀ k i, a = .retire k i → step s = .next (finishStep (u.applyAll (retireLate k i u)))) ∧
  (∀ i t, a = .due i → exec i u = .next t → step s = .next (finishStep t)) ∧
  (∀ i t, a = .input i → accepted u.pkg.phase i = true → exec i u = .next t → step s = .next (finishStep t))

/-- After reset the invariant holds, every stream is idle and every register of R14 but p0 reads zero (01 R29, R30). The values of memory
and of the pc at reset are the choices of notes/assumptions/2.md and 5.md. -/
def Obligations.InvReset : Prop :=
  State.reset.Inv ∧ ∀ k n, (State.reset.ctl k).run = .idle ∧ State.reset.sreg k n = 0 ∧ State.reset.vreg k n = 0 ∧ (n ≠ 0 → State.reset.preg k n = 0)

/-- Every step from a state in which the invariant holds leads to a state in which it holds: memory keeps its canonical form, and no
register of a stream ever holds a bit that the hardware does not have (01 R13, R23). No step stops the machine. -/
def Obligations.InvStep : Prop := ∀ s : State, s.Inv → ∃ t, step s = .next t ∧ t.Inv

/-- Words written out from the tables of 03 R68, R71 and R72 and of chapters 04 and 05 decode to the instructions they stand for. -/
def Obligations.DecodeWords : Prop :=
  decodeTableWord 64 0x00004302AA68100A =
    some (.sub { g := ⟨0, 2⟩, sd := 40, sa := 41, sb := 42, sc := 0, fp := 3, fo := 0, fn := 1 }) ∧
  decodeTableWord 32 0xFFC06305 = some (.addiX32 { sd := 3, sa := 3, imm := -1 }) ∧
  decodeTableWord 32 0xFFA4E501 = some (.bneX32 { sa := 5, sb := 7, off := -3 }) ∧
  decodeTableWord 64 0x00000040008100DE = some (.jalr { g := ⟨0, 0⟩, sd := 1, sa := 2, imm := 16, fp := 0, fo := 0 }) ∧
  decodeTableWord 64 0x00000200000400F2 = some (.ctlRd { g := ⟨0, 0⟩, sd := 4, sa := 0, sb := 0, k := 2, fp := 0, fo := 0 }) ∧
  decodeTableWord 32 0x0D000000 = some .nopX32

/-- Decoding gives back what was encoded, with every operand, and leaves the bytes that follow (03 R62, R63, R68, R71, R72, R75). -/
def Obligations.DecodeEncode : Prop := ∀ (i : Instr) (n w : Nat) (rest : List Byte),
  i.wf → encode i = some (n, w) → (n = 4 ∨ n = 8 ∨ n = 12) ∧ decode (natToBytes n w ++ rest) = .ok (i, rest)

/-- Guards and FIFO fields (03 R65, R66, 05 R114). A scalar instruction whose guard is false retires with its FIFO fields and no other
effect; one that names a FIFO of another stream takes QUEUE with its number, whatever its guard holds; one that takes from a FIFO of its own
in which there is no token waits for it. That FO's number is reported where FP is misdirected too is the choice of notes/assumptions/70.md. -/
def Obligations.GuardsAndFifos : Prop := ∀ (s : State) (fs : FS) (fi : FI) (fl : FI96) (fb : FB) (fm : FB96) (y : GuardedForm),
  y ∈ guardedForms fs fi fl fb fm →
  (Issues s y.fp y.fo y.sregs [] → NoLoopEnd s.now → guardTrue s s.cur y.g = false →
    ∃ t, exec y.x s = .next t ∧ Retired s t (s.now.pc + y.len) y.fp y.fo) ∧
  (s.now.legal = true → s.now.tip = false → y.fo ≠ 0 → consumer (y.fo.toNat - 1) ≠ kindOf s.cur →
    ∃ t, exec y.x s = .next t ∧ Trapped s t cQUEUE (BitVec.ofNat 64 (y.fo.toNat - 1))) ∧
  (s.now.legal = true → s.now.tip = false → (y.fo ≠ 0 → consumer (y.fo.toNat - 1) = kindOf s.cur) → y.fp ≠ 0 →
    producer (y.fp.toNat - 1) ≠ kindOf s.cur → ∃ t, exec y.x s = .next t ∧ Trapped s t cQUEUE (BitVec.ofNat 64 (y.fp.toNat - 1))) ∧
  (y.fo ≠ 0 → consumer (y.fo.toNat - 1) = kindOf s.cur → s.tokens (y.fo.toNat - 1) = 0 →
    (y.fp ≠ 0 → producer (y.fp.toNat - 1) = kindOf s.cur) → (∀ n ∈ y.sregs, n = 0 ∨ n ∉ pendingS s s.cur) →
    exec y.x s = .next (s.setCtl { s.now with blocked := some (.pop (y.fo.toNat - 1)) }))

end
end

