-- ==== Sys2Proof/Laws/Fields.lean ====
section
/-!
SUPPORT. Bit fields of words: what is read of a field that was set, and of the bits beside it.
-/
namespace Sys2Proof

theorem bitOf_eq_getLsbD (w : Word) (i : Nat) : bitOf w i = w.getLsbD i := by
  rw [← BitVec.testBit_toNat, Nat.testBit_eq_decide_div_mod_eq]
  rfl

/-- A mask of `len` ones from bit `lo` up. -/
theorem getLsbD_mask (lo len i : Nat) :
    (BitVec.ofNat 64 ((2 ^ len - 1) * 2 ^ lo)).getLsbD i = decide (i < 64 ∧ lo ≤ i ∧ i < lo + len) := by
  rw [BitVec.getLsbD_ofNat]
  by_cases h : lo ≤ i
  · rw [Nat.testBit_mul_two_pow]
    simp only [h, decide_true, Bool.true_and, Nat.testBit_two_pow_sub_one, true_and]
    rw [← Bool.decide_and, decide_eq_decide]
    omega
  · rw [Nat.testBit_mul_two_pow]
    simp [h]

/-- A bit of a word with a field replaced. -/
theorem getLsbD_setField (w : Word) (lo len v i : Nat) (hi : i < 64) :
    (setField w lo len v).getLsbD i = if lo ≤ i ∧ i < lo + len then (v % 2 ^ len).testBit (i - lo) else w.getLsbD i := by
  unfold setField
  rw [BitVec.getLsbD_or, BitVec.getLsbD_and, BitVec.getLsbD_not, getLsbD_mask, BitVec.getLsbD_ofNat, Nat.testBit_mul_two_pow]
  by_cases h : lo ≤ i ∧ i < lo + len
  · simp [h, hi]
  · rw [if_neg h]
    by_cases h1 : lo ≤ i
    · have h2 : len ≤ i - lo := by omega
      have h3 : (v % 2 ^ len).testBit (i - lo) = false := by
        rw [Nat.testBit_mod_two_pow]; simp; omega
      have h4 : ¬ i < lo + len := by omega
      simp [hi, h3, h4]
    · simp [hi, h1]

/-- A field that was set reads back, cut to its width. -/
theorem bitOf_setField (w : Word) (lo v i : Nat) (hi : i < 64) :
    bitOf (setField w lo 1 v) i = if i = lo then decide (v % 2 = 1) else bitOf w i := by
  rw [bitOf_eq_getLsbD, bitOf_eq_getLsbD, getLsbD_setField w lo 1 v i hi]
  by_cases h : i = lo
  · subst h
    simp [Nat.testBit_zero]
  · rw [if_neg (by omega), if_neg h]

end Sys2Proof
end

