-- ==== Sys2Proof/Laws/Maps.lean ====
section
/-!
SUPPORT. Finite maps and memory: a read after a write, and the canonical form that every operation keeps.
-/
namespace Sys2Proof

section Maps
variable {α : Type} (d : α)

theorem FMap.get_del_self (m : FMap α) (n : Nat) : FMap.get d (FMap.del n m) n = d := by
  induction m with
  | nil => rfl
  | cons e t ih =>
    by_cases h : e.1 = n
    · simp [FMap.del, h, ih]
    · simp [FMap.del, FMap.get, h, ih]

theorem FMap.get_del_of_ne (m : FMap α) {n k : Nat} (h : k ≠ n) : FMap.get d (FMap.del n m) k = FMap.get d m k := by
  induction m with
  | nil => rfl
  | cons e t ih =>
    by_cases he : e.1 = n
    · simp [FMap.del, FMap.get, he, ih, Ne.symm h]
    · by_cases hk : e.1 = k
      · simp [FMap.del, FMap.get, hk, h]
      · simp [FMap.del, FMap.get, he, hk, ih]

theorem FMap.get_ins_of_ne (m : FMap α) (v : α) {n k : Nat} (h : k ≠ n) :
    FMap.get d (FMap.ins n v m) k = FMap.get d m k := by
  induction m with
  | nil => simp [FMap.ins, FMap.get, Ne.symm h]
  | cons e t ih =>
    by_cases he : n < e.1
    · simp [FMap.ins, FMap.get, he, Ne.symm h]
    · by_cases hk : e.1 = k
      · subst hk; simp [FMap.ins, FMap.get, he]
      · simp [FMap.ins, FMap.get, he, hk, ih]

theorem FMap.get_ins_del_self (m : FMap α) (v : α) (n : Nat) : FMap.get d (FMap.ins n v (FMap.del n m)) n = v := by
  induction m with
  | nil => simp [FMap.del, FMap.ins, FMap.get]
  | cons e t ih =>
    by_cases he : e.1 = n
    · simpa [FMap.del, he] using ih
    · by_cases hl : n < e.1 <;> simp [FMap.del, FMap.ins, FMap.get, he, hl, ih]

theorem FMap.del_ins_self (m : FMap α) (n : Nat) (v : α) : FMap.del n (FMap.ins n v (FMap.del n m)) = FMap.del n m := by
  induction m with
  | nil => simp [FMap.del, FMap.ins]
  | cons e t ih =>
    by_cases he : e.1 = n
    · simpa [FMap.del, he] using ih
    · by_cases hl : n < e.1
      · have hd : FMap.del n (FMap.del n t) = FMap.del n t := by
          clear ih
          induction t with
          | nil => rfl
          | cons a r ih => by_cases ha : a.1 = n <;> simp [FMap.del, ha, ih]
        simp [FMap.del, FMap.ins, he, hl, hd]
      · simp [FMap.del, FMap.ins, he, hl, ih]

theorem FMap.del_del_self (m : FMap α) (n : Nat) : FMap.del n (FMap.del n m) = FMap.del n m := by
  induction m with
  | nil => rfl
  | cons e t ih => by_cases he : e.1 = n <;> simp [FMap.del, he, ih]

variable [DecidableEq α]

/-- A read after a write to the same key. -/
@[simp] theorem FMap.get_set_self (m : FMap α) (n : Nat) (v : α) : FMap.get d (FMap.set d m n v) n = v := by
  unfold FMap.set
  split
  · next h => rw [FMap.get_del_self, h]
  · exact FMap.get_ins_del_self d m v n

/-- A write leaves every other key alone. -/
theorem FMap.get_set_of_ne (m : FMap α) (v : α) {n k : Nat} (h : k ≠ n) :
    FMap.get d (FMap.set d m n v) k = FMap.get d m k := by
  unfold FMap.set
  split
  · exact FMap.get_del_of_ne d m h
  · rw [FMap.get_ins_of_ne d _ v h, FMap.get_del_of_ne d m h]

/-- Both cases in one. -/
theorem FMap.get_set (m : FMap α) (n k : Nat) (v : α) :
    FMap.get d (FMap.set d m n v) k = if k = n then v else FMap.get d m k := by
  split
  · next h => rw [h, FMap.get_set_self]
  · next h => exact FMap.get_set_of_ne d m v h

/-- Of two writes to one key the later one counts. -/
@[simp] theorem FMap.set_set_self (m : FMap α) (n : Nat) (u v : α) :
    FMap.set d (FMap.set d m n u) n v = FMap.set d m n v := by
  unfold FMap.set
  split <;> split <;> simp [FMap.del_del_self, FMap.del_ins_self]

/-- What a write lists. -/
theorem FMap.mem_set {m : FMap α} {n : Nat} {v : α} {e : Nat × α} (h : e ∈ FMap.set d m n v) : e ∈ m ∨ e = (n, v) := by
  have hd : ∀ l : FMap α, e ∈ FMap.del n l → e ∈ l := by
    intro l
    induction l with
    | nil => exact fun h => h
    | cons a t ih =>
      intro h
      by_cases ha : a.1 = n
      · simp only [FMap.del, ha, if_true] at h
        exact List.mem_cons_of_mem a (ih h)
      · simp only [FMap.del, ha, if_false, List.mem_cons] at h ⊢
        exact h.imp id ih
  have hi : ∀ l : FMap α, e ∈ FMap.ins n v l → e ∈ l ∨ e = (n, v) := by
    intro l
    induction l with
    | nil => intro h; simp only [FMap.ins, List.mem_singleton] at h; exact Or.inr h
    | cons a t ih =>
      intro h
      by_cases ha : n < a.1
      · simp only [FMap.ins, ha, if_true, List.mem_cons] at h ⊢
        tauto
      · simp only [FMap.ins, ha, if_false, List.mem_cons] at h ⊢
        rcases h with h | h
        · exact Or.inl (Or.inl h)
        · rcases ih h with h | h
          · exact Or.inl (Or.inr h)
          · exact Or.inr h
  unfold FMap.set at h
  split at h
  · exact Or.inl (hd m h)
  · exact (hi _ h).imp (hd m) id

omit [DecidableEq α] in
/-- What is read is listed or the default value. -/
theorem FMap.get_mem (m : FMap α) (n : Nat) : (n, FMap.get d m n) ∈ m ∨ FMap.get d m n = d := by
  induction m with
  | nil => exact Or.inr rfl
  | cons e t ih =>
    by_cases h : e.1 = n
    · left; rw [FMap.get, if_pos h, ← h]; exact List.mem_cons_self
    · simp only [FMap.get, h, if_false, List.mem_cons]
      exact ih.imp Or.inr id

theorem FMap.canon_mono {m : FMap α} {b c : Nat} (h : FMap.canon d b m = true) (hc : c ≤ b) :
    FMap.canon d c m = true := by
  cases m with
  | nil => rfl
  | cons e t =>
    simp only [FMap.canon, Bool.and_eq_true, decide_eq_true_eq] at h ⊢
    exact ⟨⟨by omega, h.1.2⟩, h.2⟩

theorem FMap.canon_del {m : FMap α} {b : Nat} (n : Nat) (h : FMap.canon d b m = true) :
    FMap.canon d b (FMap.del n m) = true := by
  induction m generalizing b with
  | nil => rfl
  | cons e t ih =>
    simp only [FMap.canon, Bool.and_eq_true, decide_eq_true_eq] at h
    by_cases he : e.1 = n
    · simpa [FMap.del, he] using FMap.canon_mono d (ih h.2) (by omega)
    · simpa [FMap.del, he, FMap.canon] using ⟨⟨h.1.1, h.1.2⟩, ih h.2⟩

theorem FMap.canon_ins {m : FMap α} {b n : Nat} {v : α} (h : FMap.canon d b (FMap.del n m) = true) (hb : b ≤ n)
    (hv : v ≠ d) : FMap.canon d b (FMap.ins n v (FMap.del n m)) = true := by
  induction m generalizing b with
  | nil => simp [FMap.del, FMap.ins, FMap.canon, hb, hv]
  | cons e t ih =>
    by_cases he : e.1 = n
    · simp only [FMap.del, he, if_true] at h ⊢
      exact ih h hb
    · simp only [FMap.del, he, if_false, FMap.canon, Bool.and_eq_true, decide_eq_true_eq] at h ⊢
      by_cases hl : n < e.1
      · simp only [FMap.ins, hl, if_true, FMap.canon, Bool.and_eq_true, decide_eq_true_eq]
        exact ⟨⟨hb, hv⟩, ⟨by omega, h.1.2⟩, h.2⟩
      · simp only [FMap.ins, hl, if_false, FMap.canon, Bool.and_eq_true, decide_eq_true_eq]
        exact ⟨h.1, ih h.2 (by omega)⟩

/-- A write keeps the canonical form. -/
theorem FMap.canon_set {m : FMap α} {b n : Nat} (v : α) (h : FMap.canon d b m = true) (hb : b ≤ n) :
    FMap.canon d b (FMap.set d m n v) = true := by
  unfold FMap.set
  split
  · exact FMap.canon_del d n h
  · next hv => exact FMap.canon_ins d (FMap.canon_del d n h) hb hv

theorem FMap.canon_filter {m : FMap α} {b : Nat} (p : Nat × α → Bool) (h : FMap.canon d b m = true) :
    FMap.canon d b (m.filter p) = true := by
  induction m generalizing b with
  | nil => rfl
  | cons e t ih =>
    simp only [FMap.canon, Bool.and_eq_true, decide_eq_true_eq] at h
    by_cases hp : p e = true
    · simpa [hp, FMap.canon] using ⟨⟨h.1.1, h.1.2⟩, ih h.2⟩
    · simpa [hp] using FMap.canon_mono d (ih h.2) (by omega)

/-- A change of the values, some of which go, keeps the canonical form. -/
theorem FMap.canon_filterMap {m : FMap α} {b : Nat} (f : Nat × α → Option (Nat × α))
    (hf : ∀ e e', e.2 ≠ d → f e = some e' → e'.1 = e.1 ∧ e'.2 ≠ d) (h : FMap.canon d b m = true) :
    FMap.canon d b (m.filterMap f) = true := by
  induction m generalizing b with
  | nil => rfl
  | cons e t ih =>
    simp only [FMap.canon, Bool.and_eq_true, decide_eq_true_eq] at h
    cases hfe : f e with
    | none => simpa [hfe] using FMap.canon_mono d (ih h.2) (by omega)
    | some e' =>
      obtain ⟨h1, h2⟩ := hf e e' h.1.2 hfe
      have h3 := ih h.2
      rw [← h1] at h3
      simpa [hfe, FMap.canon] using ⟨⟨h1 ▸ h.1.1, h2⟩, h3⟩

/-- A canonical map lists nothing below its bound. -/
theorem FMap.get_of_lt {m : FMap α} {b n : Nat} (h : FMap.canon d b m = true) (hn : n < b) : FMap.get d m n = d := by
  induction m generalizing b with
  | nil => rfl
  | cons e t ih =>
    simp only [FMap.canon, Bool.and_eq_true, decide_eq_true_eq] at h
    have he : e.1 ≠ n := by omega
    simpa [FMap.get, he] using ih h.2 (by omega)

/-- Canonical maps that read alike are equal. -/
theorem FMap.eq_of_get {m m' : FMap α} {b : Nat} (h : FMap.canon d b m = true) (h' : FMap.canon d b m' = true)
    (e : ∀ n, FMap.get d m n = FMap.get d m' n) : m = m' := by
  have below : ∀ (k : Nat) (v : α) (t r : FMap α), FMap.canon d b ((k, v) :: t) = true → FMap.canon d (k + 1) r = true →
      ¬ ∀ n, FMap.get d ((k, v) :: t) n = FMap.get d r n := fun k v t r hc hr he => by
    simp only [FMap.canon, Bool.and_eq_true, decide_eq_true_eq] at hc
    have := he k
    rw [FMap.get_of_lt d hr (Nat.lt_succ_self k)] at this
    exact hc.1.2 (by simpa [FMap.get] using this)
  induction m generalizing m' b with
  | nil => cases m' with
    | nil => rfl
    | cons e' t' => exact absurd (fun n => (e n).symm) (below e'.1 e'.2 t' [] h' rfl)
  | cons x t ih => cases m' with
    | nil => exact absurd e (below x.1 x.2 t [] h rfl)
    | cons y t' =>
      have hx := h
      have hy := h'
      simp only [FMap.canon, Bool.and_eq_true, decide_eq_true_eq] at hx hy
      rcases Nat.lt_trichotomy x.1 y.1 with hl | hl | hl
      · exact absurd e (below x.1 x.2 t (y :: t') h (by
          simp only [FMap.canon, Bool.and_eq_true, decide_eq_true_eq]; exact ⟨⟨by omega, hy.1.2⟩, hy.2⟩))
      · have hv : x.2 = y.2 := by have := e x.1; simpa [FMap.get, hl] using this
        have ht : t = t' := ih (b := x.1 + 1) hx.2 (hl ▸ hy.2) (fun n => by
          by_cases hn : n = x.1
          · rw [hn, FMap.get_of_lt d hx.2 (by omega), FMap.get_of_lt d hy.2 (by omega)]
          · have := e n
            simpa [FMap.get, Ne.symm hn, ← hl] using this) (fun k v t r hc hr he => by
          simp only [FMap.canon, Bool.and_eq_true, decide_eq_true_eq] at hc
          have := he k
          rw [FMap.get_of_lt d hr (Nat.lt_succ_self k)] at this
          exact hc.1.2 (by simpa [FMap.get] using this))
        rw [ht, Prod.ext hl hv]
      · exact absurd (fun n => (e n).symm) (below y.1 y.2 t' (x :: t) h' (by
          simp only [FMap.canon, Bool.and_eq_true, decide_eq_true_eq]; exact ⟨⟨by omega, hx.1.2⟩, hx.2⟩))

end Maps

/-! ### Memory -/

/-- A write of bytes reads back, and leaves every other byte alone. -/
theorem get_writeCells (m : List Host.Cell) (a : Nat) (bs : List Byte) (n : Nat) :
    FMap.get (0 : Byte) (writeCells m a bs) n =
      if a ≤ n ∧ n < a + bs.length then bs.getD (n - a) 0 else FMap.get 0 m n := by
  induction bs generalizing m a with
  | nil => simp [writeCells]
  | cons b t ih =>
    rw [writeCells, ih]
    by_cases h : n = a
    · subst h; simp
    · by_cases h1 : a + 1 ≤ n ∧ n < a + 1 + t.length
      · have h2 : a ≤ n ∧ n < a + (b :: t).length := by simp; omega
        have h3 : n - a = (n - (a + 1)) + 1 := by omega
        rw [if_pos h1, if_pos h2, h3]; simp
      · have h2 : ¬(a ≤ n ∧ n < a + (b :: t).length) := by simp; omega
        rw [if_neg h1, if_neg h2, FMap.get_set_of_ne _ _ _ h]

theorem wf_writeCells {m : List Host.Cell} (a : Nat) (bs : List Byte) (h : Memory.wf m = true) :
    Memory.wf (writeCells m a bs) = true := by
  induction bs generalizing m a with
  | nil => exact h
  | cons b t ih => exact ih (a + 1) (FMap.canon_set (0 : Byte) b h (Nat.zero_le a))

theorem length_readCells (m : List Host.Cell) (a n : Nat) : (readCells m a n).length = n := by
  induction n generalizing a with
  | zero => rfl
  | succ n ih => simp [readCells, ih]

/-- Reading bytes depends on these bytes alone. -/
theorem readCells_congr {m m' : List Host.Cell} {a n : Nat}
    (h : ∀ x, a ≤ x → x < a + n → FMap.get (0 : Byte) m x = FMap.get 0 m' x) : readCells m a n = readCells m' a n := by
  induction n generalizing a with
  | zero => rfl
  | succ n ih =>
    rw [readCells, readCells, h a (by omega) (by omega), ih fun x h1 h2 => h x (by omega) (by omega)]

/-- Bytes written read back. -/
theorem readCells_writeCells (m : List Host.Cell) (a : Nat) (bs : List Byte) :
    readCells (writeCells m a bs) a bs.length = bs := by
  induction bs generalizing m a with
  | nil => rfl
  | cons b t ih =>
    rw [List.length_cons, readCells, writeCells, ih, get_writeCells]
    simp

end Sys2Proof
end

