-- ==== Sys2Proof/Laws/State.lean ====
section
/-!
SUPPORT. What each effect changes: for every field of the state one lemma that says which effects can change it, then the
accessors after each effect that writes what they read.
-/
namespace Sys2Proof.Machine

/-! ### Stores -/

theorem State.write_eq (s : State) (a : Nat) (bs : List Byte) :
    ∃ m c p, s.write a bs = { s with mem := m, ctls := c, camps := p } := by
  unfold State.write
  split
  · exact ⟨s.mem, s.ctls, s.camps, rfl⟩
  · exact ⟨_, _, _, rfl⟩

/-- A state that differs in memory, control records and camp cores alone. -/
def State.StoreOf (s t : State) : Prop := ∃ m c p, t = { s with mem := m, ctls := c, camps := p }

theorem State.StoreOf.refl (s : State) : s.StoreOf s := ⟨s.mem, s.ctls, s.camps, rfl⟩

theorem State.StoreOf.trans {s t u : State} (h : s.StoreOf t) (h' : t.StoreOf u) : s.StoreOf u := by
  obtain ⟨m, c, p, rfl⟩ := h
  obtain ⟨m', c', p', rfl⟩ := h'
  exact ⟨m', c', p', rfl⟩

theorem State.storeOf_write (s : State) (a : Nat) (bs : List Byte) : s.StoreOf (s.write a bs) := s.write_eq a bs

theorem State.storeOf_setHamper (s : State) (h i : Nat) (v : Word) : s.StoreOf (s.setHamper h i v) := s.write_eq _ _

theorem State.storeOf_aseq (s : State) (h : Nat) (v : Word) : s.StoreOf (s.aseq h v) := by
  unfold State.aseq
  split <;> exact s.storeOf_setHamper _ _ _

theorem State.storeOf_graphHeader (s : State) (h o : Nat) (bs : List Byte) : s.StoreOf (s.graphHeader h o bs) := by
  have h1 : s.StoreOf (if touches 0 0 8 o bs.length then s.aseq h (overWord (s.hamper h 0) 0 o bs) else s) := by
    split
    · exact s.storeOf_aseq _ _
    · exact .refl s
  unfold State.graphHeader
  simp only
  split
  · refine State.StoreOf.trans ?_ (State.storeOf_setHamper _ _ _ _)
    split
    · exact h1.trans (State.storeOf_setHamper _ _ _ _)
    · exact h1
  · split
    · exact h1.trans (State.storeOf_setHamper _ _ _ _)
    · exact h1

theorem State.storeOf_storePage (s : State) (a : Nat) (bs : List Byte) : s.StoreOf (s.storePage a bs) := by
  unfold State.storePage
  split
  · exact s.storeOf_graphHeader _ _ _
  · exact s.storeOf_write _ _

theorem State.storeOf_foldl {α : Type} (f : State → α → State) (hf : ∀ (s : State) x, s.StoreOf (f s x)) (l : List α) (s : State) :
    s.StoreOf (l.foldl f s) := by
  induction l generalizing s with
  | nil => exact .refl s
  | cons x t ih => exact (hf s x).trans (ih (f s x))

theorem State.storeOf_store (s : State) (a : Nat) (bs : List Byte) : s.StoreOf (s.store a bs) := by
  unfold State.store
  split
  · exact State.storeOf_foldl _ (fun s _ => s.storeOf_storePage _ _) _ s
  · exact s.storeOf_write _ _

/-- What sending changes. -/
theorem State.send_eq (s : State) (t : Txn) : ∃ p o i, s.send t = { s with ports := p, out := o, inbox := i } := by
  unfold State.send
  split
  · exact ⟨s.ports, s.out, _, rfl⟩
  · exact ⟨_, _, s.inbox, rfl⟩

/-! ### One lemma for each field -/

@[simp] theorem State.apply_sregs (s : State) (e : Eff) (h : match e with | .sreg .. | .clear .. | .restart .. => False | _ => True) :
    (s.apply e).sregs = s.sregs := by
  cases e with
  | sreg => exact h.elim
  | clear => exact h.elim
  | restart => exact h.elim
  | store a bs => obtain ⟨m, c, p, he⟩ := s.storeOf_store a bs; rw [State.apply, he]
  | unit a bs => obtain ⟨m, c, p, he⟩ := s.write_eq a bs; rw [State.apply, he]
  | send t => obtain ⟨p, o, i, he⟩ := s.send_eq t; rw [State.apply, he]
  | preg k n v => simp only [State.apply]; split <;> rfl
  | _ => rfl

@[simp] theorem State.apply_pregs (s : State) (e : Eff) (h : match e with | .preg .. | .clear .. | .restart .. => False | _ => True) :
    (s.apply e).pregs = s.pregs := by
  cases e with
  | preg => exact h.elim
  | clear => exact h.elim
  | restart => exact h.elim
  | store a bs => obtain ⟨m, c, p, he⟩ := s.storeOf_store a bs; rw [State.apply, he]
  | unit a bs => obtain ⟨m, c, p, he⟩ := s.write_eq a bs; rw [State.apply, he]
  | send t => obtain ⟨p, o, i, he⟩ := s.send_eq t; rw [State.apply, he]
  | sreg k n v => simp only [State.apply]; split <;> rfl
  | _ => rfl

@[simp] theorem State.apply_vregs (s : State) (e : Eff) (h : match e with | .vreg .. | .clear .. | .restart .. => False | _ => True) :
    (s.apply e).vregs = s.vregs := by
  cases e with
  | vreg => exact h.elim
  | clear => exact h.elim
  | restart => exact h.elim
  | store a bs => obtain ⟨m, c, p, he⟩ := s.storeOf_store a bs; rw [State.apply, he]
  | unit a bs => obtain ⟨m, c, p, he⟩ := s.write_eq a bs; rw [State.apply, he]
  | send t => obtain ⟨p, o, i, he⟩ := s.send_eq t; rw [State.apply, he]
  | sreg k n v => simp only [State.apply]; split <;> rfl
  | preg k n v => simp only [State.apply]; split <;> rfl
  | _ => rfl

@[simp] theorem State.apply_ctls (s : State) (e : Eff) (h : match e with | .ctl .. | .store .. | .unit .. | .headers .. | .restart .. => False | _ => True) :
    (s.apply e).ctls = s.ctls := by
  cases e with
  | ctl => exact h.elim
  | store => exact h.elim
  | unit => exact h.elim
  | headers => exact h.elim
  | restart => exact h.elim
  | send t => obtain ⟨p, o, i, he⟩ := s.send_eq t; rw [State.apply, he]
  | sreg k n v => simp only [State.apply]; split <;> rfl
  | preg k n v => simp only [State.apply]; split <;> rfl
  | _ => rfl

@[simp] theorem State.apply_cores (s : State) (e : Eff) (h : match e with | .core .. | .restart .. => False | _ => True) :
    (s.apply e).cores = s.cores := by
  cases e with
  | core => exact h.elim
  | restart => exact h.elim
  | store a bs => obtain ⟨m, c, p, he⟩ := s.storeOf_store a bs; rw [State.apply, he]
  | unit a bs => obtain ⟨m, c, p, he⟩ := s.write_eq a bs; rw [State.apply, he]
  | send t => obtain ⟨p, o, i, he⟩ := s.send_eq t; rw [State.apply, he]
  | sreg k n v => simp only [State.apply]; split <;> rfl
  | preg k n v => simp only [State.apply]; split <;> rfl
  | _ => rfl

@[simp] theorem State.apply_accw (s : State) (e : Eff) (h : match e with | .acc .. | .clear .. | .restart .. => False | _ => True) :
    (s.apply e).accw = s.accw := by
  cases e with
  | acc => exact h.elim
  | clear => exact h.elim
  | restart => exact h.elim
  | store a bs => obtain ⟨m, c, p, he⟩ := s.storeOf_store a bs; rw [State.apply, he]
  | unit a bs => obtain ⟨m, c, p, he⟩ := s.write_eq a bs; rw [State.apply, he]
  | send t => obtain ⟨p, o, i, he⟩ := s.send_eq t; rw [State.apply, he]
  | sreg k n v => simp only [State.apply]; split <;> rfl
  | preg k n v => simp only [State.apply]; split <;> rfl
  | _ => rfl

@[simp] theorem State.apply_wbuf (s : State) (e : Eff) (h : match e with | .wbuf .. | .clear .. | .restart .. => False | _ => True) :
    (s.apply e).wbuf = s.wbuf := by
  cases e with
  | wbuf => exact h.elim
  | clear => exact h.elim
  | restart => exact h.elim
  | store a bs => obtain ⟨m, c, p, he⟩ := s.storeOf_store a bs; rw [State.apply, he]
  | unit a bs => obtain ⟨m, c, p, he⟩ := s.write_eq a bs; rw [State.apply, he]
  | send t => obtain ⟨p, o, i, he⟩ := s.send_eq t; rw [State.apply, he]
  | sreg k n v => simp only [State.apply]; split <;> rfl
  | preg k n v => simp only [State.apply]; split <;> rfl
  | _ => rfl

@[simp] theorem State.apply_mem (s : State) (e : Eff) (h : match e with | .store .. | .unit .. | .headers .. | .wipe .. | .forget .. => False | _ => True) :
    (s.apply e).mem = s.mem := by
  cases e with
  | store => exact h.elim
  | unit => exact h.elim
  | headers => exact h.elim
  | wipe => exact h.elim
  | forget => exact h.elim
  | send t => obtain ⟨p, o, i, he⟩ := s.send_eq t; rw [State.apply, he]
  | sreg k n v => simp only [State.apply]; split <;> rfl
  | preg k n v => simp only [State.apply]; split <;> rfl
  | _ => rfl

@[simp] theorem State.apply_hostMem (s : State) (e : Eff) (h : match e with | .host .. => False | _ => True) :
    (s.apply e).hostMem = s.hostMem := by
  cases e with
  | host => exact h.elim
  | store a bs => obtain ⟨m, c, p, he⟩ := s.storeOf_store a bs; rw [State.apply, he]
  | unit a bs => obtain ⟨m, c, p, he⟩ := s.write_eq a bs; rw [State.apply, he]
  | send t => obtain ⟨p, o, i, he⟩ := s.send_eq t; rw [State.apply, he]
  | sreg k n v => simp only [State.apply]; split <;> rfl
  | preg k n v => simp only [State.apply]; split <;> rfl
  | _ => rfl

@[simp] theorem State.apply_accs (s : State) (e : Eff) (h : match e with | .access .. | .restart .. => False | _ => True) :
    (s.apply e).accs = s.accs := by
  cases e with
  | access => exact h.elim
  | restart => exact h.elim
  | store a bs => obtain ⟨m, c, p, he⟩ := s.storeOf_store a bs; rw [State.apply, he]
  | unit a bs => obtain ⟨m, c, p, he⟩ := s.write_eq a bs; rw [State.apply, he]
  | send t => obtain ⟨p, o, i, he⟩ := s.send_eq t; rw [State.apply, he]
  | sreg k n v => simp only [State.apply]; split <;> rfl
  | preg k n v => simp only [State.apply]; split <;> rfl
  | _ => rfl

@[simp] theorem State.apply_walks (s : State) (e : Eff) (h : match e with | .walk .. | .restart .. => False | _ => True) :
    (s.apply e).walks = s.walks := by
  cases e with
  | walk => exact h.elim
  | restart => exact h.elim
  | store a bs => obtain ⟨m, c, p, he⟩ := s.storeOf_store a bs; rw [State.apply, he]
  | unit a bs => obtain ⟨m, c, p, he⟩ := s.write_eq a bs; rw [State.apply, he]
  | send t => obtain ⟨p, o, i, he⟩ := s.send_eq t; rw [State.apply, he]
  | sreg k n v => simp only [State.apply]; split <;> rfl
  | preg k n v => simp only [State.apply]; split <;> rfl
  | _ => rfl

@[simp] theorem State.apply_held (s : State) (e : Eff) (h : match e with | .held .. | .restart .. => False | _ => True) :
    (s.apply e).held = s.held := by
  cases e with
  | held => exact h.elim
  | restart => exact h.elim
  | store a bs => obtain ⟨m, c, p, he⟩ := s.storeOf_store a bs; rw [State.apply, he]
  | unit a bs => obtain ⟨m, c, p, he⟩ := s.write_eq a bs; rw [State.apply, he]
  | send t => obtain ⟨p, o, i, he⟩ := s.send_eq t; rw [State.apply, he]
  | sreg k n v => simp only [State.apply]; split <;> rfl
  | preg k n v => simp only [State.apply]; split <;> rfl
  | _ => rfl

@[simp] theorem State.apply_ops (s : State) (e : Eff) (h : match e with | .op .. | .restart .. => False | _ => True) :
    (s.apply e).ops = s.ops := by
  cases e with
  | op => exact h.elim
  | restart => exact h.elim
  | store a bs => obtain ⟨m, c, p, he⟩ := s.storeOf_store a bs; rw [State.apply, he]
  | unit a bs => obtain ⟨m, c, p, he⟩ := s.write_eq a bs; rw [State.apply, he]
  | send t => obtain ⟨p, o, i, he⟩ := s.send_eq t; rw [State.apply, he]
  | sreg k n v => simp only [State.apply]; split <;> rfl
  | preg k n v => simp only [State.apply]; split <;> rfl
  | _ => rfl

@[simp] theorem State.apply_colls (s : State) (e : Eff) (h : match e with | .coll .. | .restart .. => False | _ => True) :
    (s.apply e).colls = s.colls := by
  cases e with
  | coll => exact h.elim
  | restart => exact h.elim
  | store a bs => obtain ⟨m, c, p, he⟩ := s.storeOf_store a bs; rw [State.apply, he]
  | unit a bs => obtain ⟨m, c, p, he⟩ := s.write_eq a bs; rw [State.apply, he]
  | send t => obtain ⟨p, o, i, he⟩ := s.send_eq t; rw [State.apply, he]
  | sreg k n v => simp only [State.apply]; split <;> rfl
  | preg k n v => simp only [State.apply]; split <;> rfl
  | _ => rfl

@[simp] theorem State.apply_slots (s : State) (e : Eff) (h : match e with | .slot .. | .restart .. => False | _ => True) :
    (s.apply e).slots = s.slots := by
  cases e with
  | slot => exact h.elim
  | restart => exact h.elim
  | store a bs => obtain ⟨m, c, p, he⟩ := s.storeOf_store a bs; rw [State.apply, he]
  | unit a bs => obtain ⟨m, c, p, he⟩ := s.write_eq a bs; rw [State.apply, he]
  | send t => obtain ⟨p, o, i, he⟩ := s.send_eq t; rw [State.apply, he]
  | sreg k n v => simp only [State.apply]; split <;> rfl
  | preg k n v => simp only [State.apply]; split <;> rfl
  | _ => rfl

@[simp] theorem State.apply_trees (s : State) (e : Eff) (h : match e with | .tree .. | .restart .. => False | _ => True) :
    (s.apply e).trees = s.trees := by
  cases e with
  | tree => exact h.elim
  | restart => exact h.elim
  | store a bs => obtain ⟨m, c, p, he⟩ := s.storeOf_store a bs; rw [State.apply, he]
  | unit a bs => obtain ⟨m, c, p, he⟩ := s.write_eq a bs; rw [State.apply, he]
  | send t => obtain ⟨p, o, i, he⟩ := s.send_eq t; rw [State.apply, he]
  | sreg k n v => simp only [State.apply]; split <;> rfl
  | preg k n v => simp only [State.apply]; split <;> rfl
  | _ => rfl

@[simp] theorem State.apply_teams (s : State) (e : Eff) (h : match e with | .team .. | .restart .. => False | _ => True) :
    (s.apply e).teams = s.teams := by
  cases e with
  | team => exact h.elim
  | restart => exact h.elim
  | store a bs => obtain ⟨m, c, p, he⟩ := s.storeOf_store a bs; rw [State.apply, he]
  | unit a bs => obtain ⟨m, c, p, he⟩ := s.write_eq a bs; rw [State.apply, he]
  | send t => obtain ⟨p, o, i, he⟩ := s.send_eq t; rw [State.apply, he]
  | sreg k n v => simp only [State.apply]; split <;> rfl
  | preg k n v => simp only [State.apply]; split <;> rfl
  | _ => rfl

@[simp] theorem State.apply_insts (s : State) (e : Eff) (h : match e with | .inst .. | .restart .. => False | _ => True) :
    (s.apply e).insts = s.insts := by
  cases e with
  | inst => exact h.elim
  | restart => exact h.elim
  | store a bs => obtain ⟨m, c, p, he⟩ := s.storeOf_store a bs; rw [State.apply, he]
  | unit a bs => obtain ⟨m, c, p, he⟩ := s.write_eq a bs; rw [State.apply, he]
  | send t => obtain ⟨p, o, i, he⟩ := s.send_eq t; rw [State.apply, he]
  | sreg k n v => simp only [State.apply]; split <;> rfl
  | preg k n v => simp only [State.apply]; split <;> rfl
  | _ => rfl

@[simp] theorem State.apply_pool (s : State) (e : Eff) (h : match e with | .pool .. | .restart .. => False | _ => True) :
    (s.apply e).pool = s.pool := by
  cases e with
  | pool => exact h.elim
  | restart => exact h.elim
  | store a bs => obtain ⟨m, c, p, he⟩ := s.storeOf_store a bs; rw [State.apply, he]
  | unit a bs => obtain ⟨m, c, p, he⟩ := s.write_eq a bs; rw [State.apply, he]
  | send t => obtain ⟨p, o, i, he⟩ := s.send_eq t; rw [State.apply, he]
  | sreg k n v => simp only [State.apply]; split <;> rfl
  | preg k n v => simp only [State.apply]; split <;> rfl
  | _ => rfl

@[simp] theorem State.apply_queues (s : State) (e : Eff) (h : match e with | .queue .. | .restart .. => False | _ => True) :
    (s.apply e).queues = s.queues := by
  cases e with
  | queue => exact h.elim
  | restart => exact h.elim
  | store a bs => obtain ⟨m, c, p, he⟩ := s.storeOf_store a bs; rw [State.apply, he]
  | unit a bs => obtain ⟨m, c, p, he⟩ := s.write_eq a bs; rw [State.apply, he]
  | send t => obtain ⟨p, o, i, he⟩ := s.send_eq t; rw [State.apply, he]
  | sreg k n v => simp only [State.apply]; split <;> rfl
  | preg k n v => simp only [State.apply]; split <;> rfl
  | _ => rfl

@[simp] theorem State.apply_methods (s : State) (e : Eff) (h : match e with | .method .. | .restart .. => False | _ => True) :
    (s.apply e).methods = s.methods := by
  cases e with
  | method => exact h.elim
  | restart => exact h.elim
  | store a bs => obtain ⟨m, c, p, he⟩ := s.storeOf_store a bs; rw [State.apply, he]
  | unit a bs => obtain ⟨m, c, p, he⟩ := s.write_eq a bs; rw [State.apply, he]
  | send t => obtain ⟨p, o, i, he⟩ := s.send_eq t; rw [State.apply, he]
  | sreg k n v => simp only [State.apply]; split <;> rfl
  | preg k n v => simp only [State.apply]; split <;> rfl
  | _ => rfl

@[simp] theorem State.apply_arenas (s : State) (e : Eff) (h : match e with | .arena .. | .restart .. => False | _ => True) :
    (s.apply e).arenas = s.arenas := by
  cases e with
  | arena => exact h.elim
  | restart => exact h.elim
  | store a bs => obtain ⟨m, c, p, he⟩ := s.storeOf_store a bs; rw [State.apply, he]
  | unit a bs => obtain ⟨m, c, p, he⟩ := s.write_eq a bs; rw [State.apply, he]
  | send t => obtain ⟨p, o, i, he⟩ := s.send_eq t; rw [State.apply, he]
  | sreg k n v => simp only [State.apply]; split <;> rfl
  | preg k n v => simp only [State.apply]; split <;> rfl
  | _ => rfl

@[simp] theorem State.apply_busy (s : State) (e : Eff) (h : match e with | .busy .. | .restart .. => False | _ => True) :
    (s.apply e).busy = s.busy := by
  cases e with
  | busy => exact h.elim
  | restart => exact h.elim
  | store a bs => obtain ⟨m, c, p, he⟩ := s.storeOf_store a bs; rw [State.apply, he]
  | unit a bs => obtain ⟨m, c, p, he⟩ := s.write_eq a bs; rw [State.apply, he]
  | send t => obtain ⟨p, o, i, he⟩ := s.send_eq t; rw [State.apply, he]
  | sreg k n v => simp only [State.apply]; split <;> rfl
  | preg k n v => simp only [State.apply]; split <;> rfl
  | _ => rfl

@[simp] theorem State.apply_pins (s : State) (e : Eff) (h : match e with | .pins .. | .restart .. => False | _ => True) :
    (s.apply e).pins = s.pins := by
  cases e with
  | pins => exact h.elim
  | restart => exact h.elim
  | store a bs => obtain ⟨m, c, p, he⟩ := s.storeOf_store a bs; rw [State.apply, he]
  | unit a bs => obtain ⟨m, c, p, he⟩ := s.write_eq a bs; rw [State.apply, he]
  | send t => obtain ⟨p, o, i, he⟩ := s.send_eq t; rw [State.apply, he]
  | sreg k n v => simp only [State.apply]; split <;> rfl
  | preg k n v => simp only [State.apply]; split <;> rfl
  | _ => rfl

@[simp] theorem State.apply_reserved (s : State) (e : Eff) (h : match e with | .reserve .. | .restart .. => False | _ => True) :
    (s.apply e).reserved = s.reserved := by
  cases e with
  | reserve => exact h.elim
  | restart => exact h.elim
  | store a bs => obtain ⟨m, c, p, he⟩ := s.storeOf_store a bs; rw [State.apply, he]
  | unit a bs => obtain ⟨m, c, p, he⟩ := s.write_eq a bs; rw [State.apply, he]
  | send t => obtain ⟨p, o, i, he⟩ := s.send_eq t; rw [State.apply, he]
  | sreg k n v => simp only [State.apply]; split <;> rfl
  | preg k n v => simp only [State.apply]; split <;> rfl
  | _ => rfl

@[simp] theorem State.apply_ports (s : State) (e : Eff) (h : match e with | .port .. | .send .. | .restart .. => False | _ => True) :
    (s.apply e).ports = s.ports := by
  cases e with
  | port => exact h.elim
  | send => exact h.elim
  | restart => exact h.elim
  | store a bs => obtain ⟨m, c, p, he⟩ := s.storeOf_store a bs; rw [State.apply, he]
  | unit a bs => obtain ⟨m, c, p, he⟩ := s.write_eq a bs; rw [State.apply, he]
  | sreg k n v => simp only [State.apply]; split <;> rfl
  | preg k n v => simp only [State.apply]; split <;> rfl
  | _ => rfl

@[simp] theorem State.apply_camps (s : State) (e : Eff) (h : match e with | .camp .. | .store .. | .unit .. | .headers .. | .restart .. => False | _ => True) :
    (s.apply e).camps = s.camps := by
  cases e with
  | camp => exact h.elim
  | store => exact h.elim
  | unit => exact h.elim
  | headers => exact h.elim
  | restart => exact h.elim
  | send t => obtain ⟨p, o, i, he⟩ := s.send_eq t; rw [State.apply, he]
  | sreg k n v => simp only [State.apply]; split <;> rfl
  | preg k n v => simp only [State.apply]; split <;> rfl
  | _ => rfl

@[simp] theorem State.apply_done (s : State) (e : Eff) (h : match e with | .done .. | .restart .. => False | _ => True) :
    (s.apply e).done = s.done := by
  cases e with
  | done => exact h.elim
  | restart => exact h.elim
  | store a bs => obtain ⟨m, c, p, he⟩ := s.storeOf_store a bs; rw [State.apply, he]
  | unit a bs => obtain ⟨m, c, p, he⟩ := s.write_eq a bs; rw [State.apply, he]
  | send t => obtain ⟨p, o, i, he⟩ := s.send_eq t; rw [State.apply, he]
  | sreg k n v => simp only [State.apply]; split <;> rfl
  | preg k n v => simp only [State.apply]; split <;> rfl
  | _ => rfl

@[simp] theorem State.apply_inbox (s : State) (e : Eff) (h : match e with | .inbox .. | .send .. | .restart .. => False | _ => True) :
    (s.apply e).inbox = s.inbox := by
  cases e with
  | inbox => exact h.elim
  | send => exact h.elim
  | restart => exact h.elim
  | store a bs => obtain ⟨m, c, p, he⟩ := s.storeOf_store a bs; rw [State.apply, he]
  | unit a bs => obtain ⟨m, c, p, he⟩ := s.write_eq a bs; rw [State.apply, he]
  | sreg k n v => simp only [State.apply]; split <;> rfl
  | preg k n v => simp only [State.apply]; split <;> rfl
  | _ => rfl

@[simp] theorem State.apply_pkg (s : State) (e : Eff) (h : match e with | .pkg .. | .restart .. => False | _ => True) :
    (s.apply e).pkg = s.pkg := by
  cases e with
  | pkg => exact h.elim
  | restart => exact h.elim
  | store a bs => obtain ⟨m, c, p, he⟩ := s.storeOf_store a bs; rw [State.apply, he]
  | unit a bs => obtain ⟨m, c, p, he⟩ := s.write_eq a bs; rw [State.apply, he]
  | send t => obtain ⟨p, o, i, he⟩ := s.send_eq t; rw [State.apply, he]
  | sreg k n v => simp only [State.apply]; split <;> rfl
  | preg k n v => simp only [State.apply]; split <;> rfl
  | _ => rfl

@[simp] theorem State.apply_out (s : State) (e : Eff) (h : match e with | .out .. | .send .. => False | _ => True) :
    (s.apply e).out = s.out := by
  cases e with
  | out => exact h.elim
  | send => exact h.elim
  | store a bs => obtain ⟨m, c, p, he⟩ := s.storeOf_store a bs; rw [State.apply, he]
  | unit a bs => obtain ⟨m, c, p, he⟩ := s.write_eq a bs; rw [State.apply, he]
  | sreg k n v => simp only [State.apply]; split <;> rfl
  | preg k n v => simp only [State.apply]; split <;> rfl
  | _ => rfl

@[simp] theorem State.apply_failing (s : State) (e : Eff) (h : match e with | .failing .. | .restart .. => False | _ => True) :
    (s.apply e).failing = s.failing := by
  cases e with
  | failing => exact h.elim
  | restart => exact h.elim
  | store a bs => obtain ⟨m, c, p, he⟩ := s.storeOf_store a bs; rw [State.apply, he]
  | unit a bs => obtain ⟨m, c, p, he⟩ := s.write_eq a bs; rw [State.apply, he]
  | send t => obtain ⟨p, o, i, he⟩ := s.send_eq t; rw [State.apply, he]
  | sreg k n v => simp only [State.apply]; split <;> rfl
  | preg k n v => simp only [State.apply]; split <;> rfl
  | _ => rfl

@[simp] theorem State.apply_cur (s : State) (e : Eff) (h : match e with | .cur .. | .restart .. => False | _ => True) :
    (s.apply e).cur = s.cur := by
  cases e with
  | cur => exact h.elim
  | restart => exact h.elim
  | store a bs => obtain ⟨m, c, p, he⟩ := s.storeOf_store a bs; rw [State.apply, he]
  | unit a bs => obtain ⟨m, c, p, he⟩ := s.write_eq a bs; rw [State.apply, he]
  | send t => obtain ⟨p, o, i, he⟩ := s.send_eq t; rw [State.apply, he]
  | sreg k n v => simp only [State.apply]; split <;> rfl
  | preg k n v => simp only [State.apply]; split <;> rfl
  | _ => rfl

@[simp] theorem State.apply_fetched (s : State) (e : Eff) (h : match e with | .fetched .. | .restart .. => False | _ => True) :
    (s.apply e).fetched = s.fetched := by
  cases e with
  | fetched => exact h.elim
  | restart => exact h.elim
  | store a bs => obtain ⟨m, c, p, he⟩ := s.storeOf_store a bs; rw [State.apply, he]
  | unit a bs => obtain ⟨m, c, p, he⟩ := s.write_eq a bs; rw [State.apply, he]
  | send t => obtain ⟨p, o, i, he⟩ := s.send_eq t; rw [State.apply, he]
  | sreg k n v => simp only [State.apply]; split <;> rfl
  | preg k n v => simp only [State.apply]; split <;> rfl
  | _ => rfl

@[simp] theorem State.apply_schedule (s : State) (e : Eff) (h : match e with | .schedule .. => False | _ => True) :
    (s.apply e).schedule = s.schedule := by
  cases e with
  | schedule => exact h.elim
  | store a bs => obtain ⟨m, c, p, he⟩ := s.storeOf_store a bs; rw [State.apply, he]
  | unit a bs => obtain ⟨m, c, p, he⟩ := s.write_eq a bs; rw [State.apply, he]
  | send t => obtain ⟨p, o, i, he⟩ := s.send_eq t; rw [State.apply, he]
  | sreg k n v => simp only [State.apply]; split <;> rfl
  | preg k n v => simp only [State.apply]; split <;> rfl
  | _ => rfl

@[simp] theorem State.apply_inputs (s : State) (e : Eff) (h : match e with | .inputs .. => False | _ => True) :
    (s.apply e).inputs = s.inputs := by
  cases e with
  | inputs => exact h.elim
  | store a bs => obtain ⟨m, c, p, he⟩ := s.storeOf_store a bs; rw [State.apply, he]
  | unit a bs => obtain ⟨m, c, p, he⟩ := s.write_eq a bs; rw [State.apply, he]
  | send t => obtain ⟨p, o, i, he⟩ := s.send_eq t; rw [State.apply, he]
  | sreg k n v => simp only [State.apply]; split <;> rfl
  | preg k n v => simp only [State.apply]; split <;> rfl
  | _ => rfl

@[simp] theorem State.apply_clock (s : State) (e : Eff) (h : match e with | .clock .. => False | _ => True) :
    (s.apply e).clock = s.clock := by
  cases e with
  | clock => exact h.elim
  | store a bs => obtain ⟨m, c, p, he⟩ := s.storeOf_store a bs; rw [State.apply, he]
  | unit a bs => obtain ⟨m, c, p, he⟩ := s.write_eq a bs; rw [State.apply, he]
  | send t => obtain ⟨p, o, i, he⟩ := s.send_eq t; rw [State.apply, he]
  | sreg k n v => simp only [State.apply]; split <;> rfl
  | preg k n v => simp only [State.apply]; split <;> rfl
  | _ => rfl

@[simp] theorem State.apply_nextId (s : State) (e : Eff) (h : match e with | .fresh .. => False | _ => True) :
    (s.apply e).nextId = s.nextId := by
  cases e with
  | fresh => exact h.elim
  | store a bs => obtain ⟨m, c, p, he⟩ := s.storeOf_store a bs; rw [State.apply, he]
  | unit a bs => obtain ⟨m, c, p, he⟩ := s.write_eq a bs; rw [State.apply, he]
  | send t => obtain ⟨p, o, i, he⟩ := s.send_eq t; rw [State.apply, he]
  | sreg k n v => simp only [State.apply]; split <;> rfl
  | preg k n v => simp only [State.apply]; split <;> rfl
  | _ => rfl

@[simp] theorem State.apply_time (s : State) (e : Eff) (h : match e with | .time .. | .restart .. => False | _ => True) :
    (s.apply e).time = s.time := by
  cases e with
  | time => exact h.elim
  | restart => exact h.elim
  | store a bs => obtain ⟨m, c, p, he⟩ := s.storeOf_store a bs; rw [State.apply, he]
  | unit a bs => obtain ⟨m, c, p, he⟩ := s.write_eq a bs; rw [State.apply, he]
  | send t => obtain ⟨p, o, i, he⟩ := s.send_eq t; rw [State.apply, he]
  | sreg k n v => simp only [State.apply]; split <;> rfl
  | preg k n v => simp only [State.apply]; split <;> rfl
  | _ => rfl

@[simp] theorem State.apply_debts (s : State) (e : Eff) (h : match e with | .debts .. | .restart .. => False | _ => True) :
    (s.apply e).debts = s.debts := by
  cases e with
  | debts => exact h.elim
  | restart => exact h.elim
  | store a bs => obtain ⟨m, c, p, he⟩ := s.storeOf_store a bs; rw [State.apply, he]
  | unit a bs => obtain ⟨m, c, p, he⟩ := s.write_eq a bs; rw [State.apply, he]
  | send t => obtain ⟨p, o, i, he⟩ := s.send_eq t; rw [State.apply, he]
  | sreg k n v => simp only [State.apply]; split <;> rfl
  | preg k n v => simp only [State.apply]; split <;> rfl
  | _ => rfl

@[simp] theorem State.apply_wrote (s : State) (e : Eff) (h : match e with | .wrote .. | .restart .. => False | _ => True) :
    (s.apply e).wrote = s.wrote := by
  cases e with
  | wrote => exact h.elim
  | restart => exact h.elim
  | store a bs => obtain ⟨m, c, p, he⟩ := s.storeOf_store a bs; rw [State.apply, he]
  | unit a bs => obtain ⟨m, c, p, he⟩ := s.write_eq a bs; rw [State.apply, he]
  | send t => obtain ⟨p, o, i, he⟩ := s.send_eq t; rw [State.apply, he]
  | sreg k n v => simp only [State.apply]; split <;> rfl
  | preg k n v => simp only [State.apply]; split <;> rfl
  | _ => rfl

/-! ### Accessors -/

@[simp] theorem State.sreg_apply (s : State) (e : Eff) (k n : Nat) (h : match e with | .sreg .. | .clear .. | .restart .. => False | _ => True) :
    (s.apply e).sreg k n = s.sreg k n := by
  simp only [State.sreg, State.apply_sregs s e h]

@[simp] theorem State.preg_apply (s : State) (e : Eff) (k n : Nat) (h : match e with | .preg .. | .clear .. | .restart .. => False | _ => True) :
    (s.apply e).preg k n = s.preg k n := by
  simp only [State.preg, State.apply_pregs s e h]

@[simp] theorem State.vreg_apply (s : State) (e : Eff) (c n : Nat) (h : match e with | .vreg .. | .clear .. | .restart .. => False | _ => True) :
    (s.apply e).vreg c n = s.vreg c n := by
  simp only [State.vreg, State.apply_vregs s e h]

@[simp] theorem State.ctl_apply (s : State) (e : Eff) (k : Nat) (h : match e with | .ctl .. | .store .. | .unit .. | .headers .. | .restart .. => False | _ => True) :
    (s.apply e).ctl k = s.ctl k := by
  simp only [State.ctl, State.apply_ctls s e h]

@[simp] theorem State.core_apply (s : State) (e : Eff) (c : Nat) (h : match e with | .core .. | .restart .. => False | _ => True) :
    (s.apply e).core c = s.core c := by
  simp only [State.core, State.apply_cores s e h]

@[simp] theorem State.acc_apply (s : State) (e : Eff) (c w : Nat) (h : match e with | .acc .. | .clear .. | .restart .. => False | _ => True) :
    (s.apply e).acc c w = s.acc c w := by
  simp only [State.acc, State.apply_accw s e h]

@[simp] theorem State.access_apply (s : State) (e : Eff) (a : Nat) (h : match e with | .access .. | .restart .. => False | _ => True) :
    (s.apply e).access a = s.access a := by
  simp only [State.access, State.apply_accs s e h]

@[simp] theorem State.op_apply (s : State) (e : Eff) (o : Nat) (h : match e with | .op .. | .restart .. => False | _ => True) :
    (s.apply e).op o = s.op o := by
  simp only [State.op, State.apply_ops s e h]

@[simp] theorem State.team_apply (s : State) (e : Eff) (t : Nat) (h : match e with | .team .. | .restart .. => False | _ => True) :
    (s.apply e).team t = s.team t := by
  simp only [State.team, State.apply_teams s e h]

@[simp] theorem State.inst_apply (s : State) (e : Eff) (i : Nat) (h : match e with | .inst .. | .restart .. => False | _ => True) :
    (s.apply e).inst i = s.inst i := by
  simp only [State.inst, State.apply_insts s e h]

@[simp] theorem State.queue_apply (s : State) (e : Eff) (q : Nat) (h : match e with | .queue .. | .restart .. => False | _ => True) :
    (s.apply e).queue q = s.queue q := by
  simp only [State.queue, State.apply_queues s e h]

@[simp] theorem State.port_apply (s : State) (e : Eff) (p : Nat) (h : match e with | .port .. | .send .. | .restart .. => False | _ => True) :
    (s.apply e).port p = s.port p := by
  simp only [State.port, State.apply_ports s e h]

@[simp] theorem State.camp_apply (s : State) (e : Eff) (c : Nat) (h : match e with | .camp .. | .store .. | .unit .. | .headers .. | .restart .. => False | _ => True) :
    (s.apply e).camp c = s.camp c := by
  simp only [State.camp, State.apply_camps s e h]

@[simp] theorem State.byte_apply (s : State) (e : Eff) (a : Nat) (h : match e with | .store .. | .unit .. | .headers .. | .wipe .. | .forget .. => False | _ => True) :
    (s.apply e).byte a = s.byte a := by
  simp only [State.byte, State.apply_mem s e h]

@[simp] theorem State.word_apply (s : State) (e : Eff) (a : Nat) (h : match e with | .store .. | .unit .. | .headers .. | .wipe .. | .forget .. => False | _ => True) :
    (s.apply e).word a = s.word a := by
  simp only [State.word, State.bytes, State.apply_mem s e h]

/-- s0 is hard-wired; any other register is the one written, or keeps its value. -/
@[simp] theorem State.sreg_apply_sreg (s : State) (k n : Nat) (v : Word) (j m : Nat) (hm : m < 64) :
    (s.apply (.sreg k n v)).sreg j m = if m ≠ 0 ∧ j = k ∧ m = n % 64 then v else s.sreg j m := by
  by_cases h0 : m = 0
  · simp [State.sreg, h0]
  by_cases hn : n % 64 = 0
  · have : ¬(j = k ∧ m = n % 64) := by omega
    simp [State.apply, hn]
    intro; omega
  · simp only [State.apply, hn, if_false, State.sreg, h0, FMap.get_set]
    have : (j * 64 + m = k * 64 + n % 64) ↔ (j = k ∧ m = n % 64) := by omega
    simp only [this, ne_eq, h0, not_false_eq_true, true_and]

@[simp] theorem State.preg_apply_preg (s : State) (k n : Nat) (v : Pred) (j m : Nat) (hm : m < 16) :
    (s.apply (.preg k n v)).preg j m = if m ≠ 0 ∧ j = k ∧ m = n % 16 then v else s.preg j m := by
  by_cases h0 : m = 0
  · simp [State.preg, h0]
  by_cases hn : n % 16 = 0
  · have : ¬(j = k ∧ m = n % 16) := by omega
    simp [State.apply, hn]
    intro; omega
  · simp only [State.apply, hn, if_false, State.preg, h0, FMap.get_set]
    have : (j * 16 + m = k * 16 + n % 16) ↔ (j = k ∧ m = n % 16) := by omega
    simp only [this, ne_eq, h0, not_false_eq_true, true_and]

@[simp] theorem State.vreg_apply_vreg (s : State) (c n : Nat) (v : Vec) (j m : Nat) (hm : m < 1024) :
    (s.apply (.vreg c n v)).vreg j m = if j = c ∧ m = n % 1024 then v else s.vreg j m := by
  simp only [State.apply, State.vreg, FMap.get_set]
  have : (j * 1024 + m = c * 1024 + n % 1024) ↔ (j = c ∧ m = n % 1024) := by omega
  simp only [this]

@[simp] theorem State.ctl_apply_ctl (s : State) (k : Nat) (c : Ctl) (j : Nat) :
    (s.apply (.ctl k c)).ctl j = if j = k then c.norm else s.ctl j := by
  simp only [State.apply, State.ctl, FMap.get_set]

@[simp] theorem State.core_apply_core (s : State) (c : Nat) (r : Core) (j : Nat) :
    (s.apply (.core c r)).core j = if j = c then r else s.core j := by
  simp only [State.apply, State.core, FMap.get_set]

@[simp] theorem State.access_apply_access (s : State) (a : Nat) (r : Option Access) (j : Nat) :
    (s.apply (.access a r)).access j = if j = a then r else s.access j := by
  simp only [State.apply, State.access, FMap.get_set]

@[simp] theorem State.op_apply_op (s : State) (o : Nat) (r : Option Op) (j : Nat) :
    (s.apply (.op o r)).op j = if j = o then r else s.op j := by
  simp only [State.apply, State.op, FMap.get_set]

@[simp] theorem State.team_apply_team (s : State) (t : Nat) (r : Option Team) (j : Nat) :
    (s.apply (.team t r)).team j = if j = t then r else s.team j := by
  simp only [State.apply, State.team, FMap.get_set]

@[simp] theorem State.inst_apply_inst (s : State) (i : Nat) (r : Option Inst) (j : Nat) :
    (s.apply (.inst i r)).inst j = if j = i then r else s.inst j := by
  simp only [State.apply, State.inst, FMap.get_set]

@[simp] theorem State.queue_apply_queue (s : State) (q : Nat) (r : LQ) (j : Nat) :
    (s.apply (.queue q r)).queue j = if j = q then r else s.queue j := by
  simp only [State.apply, State.queue, FMap.get_set]
  split <;> rename_i h
  · split <;> simp_all
  · rfl

@[simp] theorem State.port_apply_port (s : State) (p : Nat) (r : Port) (j : Nat) :
    (s.apply (.port p r)).port j = if j = p then r else s.port j := by
  simp only [State.apply, State.port, FMap.get_set]

@[simp] theorem State.camp_apply_camp (s : State) (c : Nat) (r : Camp) (j : Nat) :
    (s.apply (.camp c r)).camp j = if j = c then r else s.camp j := by
  simp only [State.apply, State.camp, FMap.get_set]

@[simp] theorem State.acc_apply_acc (s : State) (c w : Nat) (v : BitVec 32) (j x : Nat) :
    (s.apply (.acc c w v)).acc j x = if j = c ∧ x % 2 ^ 18 = w % 2 ^ 18 then v else s.acc j x := by
  simp only [State.apply, State.acc, FMap.get_set]
  have : (j * 2 ^ 18 + x % 2 ^ 18 = c * 2 ^ 18 + w % 2 ^ 18) ↔ (j = c ∧ x % 2 ^ 18 = w % 2 ^ 18) := by omega
  simp only [this]

@[simp] theorem State.apply_clock_clock (s : State) (n : Nat) : (s.apply (.clock n)).clock = n := rfl
@[simp] theorem State.apply_cur_cur (s : State) (n : Nat) : (s.apply (.cur n)).cur = n := rfl
@[simp] theorem State.apply_fetched_fetched (s : State) (w : BitVec 32) : (s.apply (.fetched w)).fetched = w := rfl
@[simp] theorem State.apply_fresh_nextId (s : State) : (s.apply .fresh).nextId = s.nextId + 1 := rfl
@[simp] theorem State.apply_pkg_pkg (s : State) (p : Pkg) : (s.apply (.pkg p)).pkg = p := rfl
@[simp] theorem State.apply_out_out (s : State) (o : Out) : (s.apply (.out o)).out = s.out ++ [o] := rfl
@[simp] theorem State.apply_time_time (s : State) (n : Word) : (s.apply (.time n)).time = n := rfl
@[simp] theorem State.apply_debts_debts (s : State) (l : List (Nat × Nat × Nat)) : (s.apply (.debts l)).debts = l := rfl
@[simp] theorem State.apply_wrote_wrote (s : State) (w : Option (Nat × Vec)) : (s.apply (.wrote w)).wrote = w := rfl
@[simp] theorem State.apply_failing_failing (s : State) (l : List (Nat × Byte)) : (s.apply (.failing l)).failing = l := rfl

/-- Bytes stored by a plain write read back, and leave every other byte alone. -/
theorem State.byte_write (s : State) (a : Nat) (bs : List Byte) (n : Nat) :
    (s.write a bs).byte n = if a ≤ n ∧ n < a + bs.length then bs.getD (n - a) 0 else s.byte n := by
  unfold State.write State.byte
  split
  · next h => subst h; rw [if_neg (by simp)]
  · exact get_writeCells s.mem a bs n

/-- With no hamper page set up a store is a plain write. -/
theorem State.store_of_not_hbaseSet {s : State} (h : s.pkg.hbaseSet = false) (a : Nat) (bs : List Byte) :
    s.store a bs = s.write a bs := by
  simp [State.store, h]

/-! ### Lists of effects -/

@[simp] theorem State.applyAll_nil (s : State) : s.applyAll [] = s := rfl
@[simp] theorem State.applyAll_cons (s : State) (e : Eff) (l : List Eff) : s.applyAll (e :: l) = (s.apply e).applyAll l := rfl

theorem State.applyAll_append (s : State) (l r : List Eff) : s.applyAll (l ++ r) = (s.applyAll l).applyAll r := by
  induction l generalizing s with
  | nil => rfl
  | cons e t ih => exact ih (s.apply e)

/-- One part after another. -/
@[simp] theorem State.applyAll_andThen (s : State) (p q : Fx) :
    s.applyAll ((p.andThen q) s) = (s.applyAll (p s)).applyAll (q (s.applyAll (p s))) := by
  simp only [Fx.andThen, State.applyAll_append]

@[simp] theorem State.applyAll_none (s : State) : s.applyAll (Fx.none s) = s := rfl

/-- A property that every effect keeps is kept by a list of effects. -/
theorem State.applyAll_keeps {P : State → Prop} (h : ∀ s e, P s → P (s.apply e)) (l : List Eff) (s : State) (hs : P s) :
    P (s.applyAll l) := by
  induction l generalizing s with
  | nil => exact hs
  | cons e t ih => exact ih _ (h s e hs)

end Sys2Proof.Machine
end

