-- ==== Sys2Proof/Laws/Invariant.lean ====
section
/-!
SUPPORT. Every meaning answers a next state that a list of effects makes, and every effect keeps the invariant.
-/
namespace Sys2Proof.Machine

/-! ### What a meaning answers -/

theorem ctlIssue_answers (f : FY) (op9 : Nat) (p : Nat → Bool) (s : State) (b : State → Act) :
    ∃ l, ctlIssue f op9 p s b = .next (s.applyAll l) := by
  unfold ctlIssue
  simp only
  split <;> exact ⟨_, rfl⟩

theorem barrierReread_answers (k : Nat) (s : State) : ∃ l, execBarrierReread k s = .next (s.applyAll l) := by
  unfold execBarrierReread
  split
  · exact ⟨_, congrArg Host.Outcome.next (State.applyAll_append s _ _).symm⟩
  · exact ⟨[], rfl⟩

/-- Every meaning answers a next state made by a list of effects. -/
theorem exec_answers (i : Instr) (s : State) : ∃ l, exec i s = .next (s.applyAll l) := by
  cases i with
  | barrierReread k => exact barrierReread_answers k s
  | ctlRd f => exact ctlIssue_answers _ _ _ _ _
  | ctlWr f => exact ctlIssue_answers _ _ _ _ _
  | ctlSet f => exact ctlIssue_answers _ _ _ _ _
  | ctlClr f => exact ctlIssue_answers _ _ _ _ _
  | _ => exact ⟨_, rfl⟩

/-! ### What keeps the invariant -/

theorem Ctl.norm_norm (c : Ctl) : c.norm.norm = c.norm := by
  simp only [Ctl.norm, BitVec.and_assoc, BitVec.and_self]

theorem Ctl.legal_norm (c : Ctl) : c.norm.legal = true := by
  simp [Ctl.legal, Ctl.norm_norm]

theorem legal_reset : Ctl.reset.legal = true := by decide

theorem Ctl.legal_touch (hit : Nat → Bool) {c : Ctl} (h : c.legal = true) : (c.touch hit).legal = true := by
  have hc := Ctl.legal.eq_1 c ▸ h
  simp only [Ctl.legal, beq_iff_eq] at *
  rw [← hc]
  cases c
  simp only [Ctl.norm, Ctl.touch, BitVec.and_assoc, BitVec.and_self]

/-- Every listed record is legal. -/
def Legal (m : FMap Ctl) : Prop := ∀ e ∈ m, e.2.legal = true

theorem Legal.set {m : FMap Ctl} (h : Legal m) (k : Nat) {c : Ctl} (hc : c.legal = true) :
    Legal (FMap.set .reset m k c) := fun _ he => by
  rcases FMap.mem_set _ he with he | he
  · exact h _ he
  · subst he; exact hc

theorem Legal.touchAll (hit : Nat → Bool) {l m : FMap Ctl} (hl : Legal l) (hm : Legal m) :
    Legal (Machine.touchAll hit l m) := by
  induction l generalizing m with
  | nil => exact hm
  | cons e t ih =>
    refine ih (fun x hx => hl x (by simp [hx])) ?_
    split
    · exact hm
    · exact hm.set e.1 (Ctl.legal_touch hit (hl e (by simp)))

/-- Every record read is legal. -/
theorem State.Inv.ctl_legal {s : State} (h : s.Inv) (k : Nat) : (s.ctl k).legal = true := by
  rcases FMap.get_mem Ctl.reset s.ctls k with hk | hk
  · exact h.ctls _ hk
  · rw [State.ctl, hk]; exact legal_reset

theorem State.Inv.write {s : State} (h : s.Inv) (a : Nat) (bs : List Byte) : (s.write a bs).Inv := by
  unfold State.write
  split
  · exact h
  · exact ⟨wf_writeCells a bs h.mem, h.hostMem, h.wbuf, Legal.touchAll _ h.ctls h.ctls⟩

theorem State.Inv.setHamper {s : State} (hs : s.Inv) (h i : Nat) (v : Word) : (s.setHamper h i v).Inv := hs.write _ _

theorem State.Inv.aseq {s : State} (hs : s.Inv) (h : Nat) (v : Word) : (s.aseq h v).Inv := by
  unfold State.aseq
  split <;> exact hs.setHamper _ _ _

theorem State.Inv.graphHeader {s : State} (hs : s.Inv) (h o : Nat) (bs : List Byte) : (s.graphHeader h o bs).Inv := by
  have h1 : (if touches 0 0 8 o bs.length then s.aseq h (overWord (s.hamper h 0) 0 o bs) else s).Inv := by
    split
    · exact hs.aseq _ _
    · exact hs
  unfold State.graphHeader
  simp only
  split
  · refine State.Inv.setHamper ?_ _ _ _
    split
    · exact h1.setHamper _ _ _
    · exact h1
  · split
    · exact h1.setHamper _ _ _
    · exact h1

theorem State.Inv.storePage {s : State} (h : s.Inv) (a : Nat) (bs : List Byte) : (s.storePage a bs).Inv := by
  unfold State.storePage
  split
  · exact h.graphHeader _ _ _
  · exact h.write _ _

theorem State.Inv.foldl {α : Type} (f : State → α → State) (hf : ∀ (s : State) x, s.Inv → (f s x).Inv) (l : List α)
    {s : State} (h : s.Inv) : (l.foldl f s).Inv := by
  induction l generalizing s with
  | nil => exact h
  | cons x t ih => exact ih (hf s x h)

theorem State.Inv.store {s : State} (h : s.Inv) (a : Nat) (bs : List Byte) : (s.store a bs).Inv := by
  unfold State.store
  split
  · exact State.Inv.foldl _ (fun s _ hs => hs.storePage _ _) _ h
  · exact h.write _ _

/-- A change outside memory and control records. -/
theorem State.Inv.of_eq {s t : State} (h : s.Inv) (hm : t.mem = s.mem) (hh : t.hostMem = s.hostMem)
    (hw : t.wbuf = s.wbuf) (hc : t.ctls = s.ctls) : t.Inv :=
  ⟨hm ▸ h.mem, hh ▸ h.hostMem, hw ▸ h.wbuf, hc ▸ h.ctls⟩

/-- Every effect keeps the invariant. -/
theorem State.Inv.apply {s : State} (h : s.Inv) (e : Eff) : (s.apply e).Inv := by
  cases e with
  | ctl k c => exact ⟨h.mem, h.hostMem, h.wbuf, Legal.set h.ctls k (Ctl.legal_norm c)⟩
  | clear c => exact ⟨h.mem, h.hostMem, FMap.canon_filter _ _ h.wbuf, h.ctls⟩
  | wbuf a bs => exact ⟨h.mem, h.hostMem, wf_writeCells a bs h.wbuf, h.ctls⟩
  | store a bs => exact h.store a bs
  | unit a bs => exact h.write a bs
  | headers b => exact ⟨FMap.canon_filter _ _ h.mem, h.hostMem, h.wbuf, Legal.touchAll _ h.ctls h.ctls⟩
  | wipe a n => exact ⟨FMap.canon_filter _ _ h.mem, h.hostMem, h.wbuf, h.ctls⟩
  | forget n hbm =>
    refine ⟨FMap.canon_filterMap _ _ (fun e e' he hf => ?_) h.mem, h.hostMem, h.wbuf, h.ctls⟩
    unfold forgetCell at hf
    simp only at hf
    split at hf
    · cases hf; exact ⟨rfl, he⟩
    · split at hf
      · cases hf
      · next hb => cases hf; exact ⟨rfl, hb⟩
  | host a bs => exact ⟨h.mem, wf_writeCells a bs h.hostMem, h.wbuf, h.ctls⟩
  | restart p ports dn => exact ⟨h.mem, h.hostMem, rfl, fun e he => by cases he⟩
  | _ => exact h.of_eq (s.apply_mem _ trivial) (s.apply_hostMem _ trivial) (s.apply_wbuf _ trivial) (s.apply_ctls _ trivial)

theorem State.Inv.applyAll {s : State} (h : s.Inv) (l : List Eff) : (s.applyAll l).Inv :=
  State.applyAll_keeps (fun _ e hs => hs.apply e) l s h

end Sys2Proof.Machine
end

