-- ==== Sys2Proof/Laws/Issue.lean ====
section
/-!
SUPPORT. The issue wrapper: what it answers for an instruction that issues and retires in sequence or jumps, and for one that traps.
-/
namespace Sys2Proof

/-! ### Words whose two low bits are 0 -/

theorem and_not_three (x : Word) : x &&& ~~~3#64 = (x >>> 2) <<< 2 := by
  have h : ∀ i, i < 64 → (~~~3#64).getLsbD i = decide (2 ≤ i) := by decide
  apply BitVec.eq_of_getLsbD_eq
  intro i hi
  rw [BitVec.getLsbD_and, h i hi, BitVec.getLsbD_shiftLeft, BitVec.getLsbD_ushiftRight]
  by_cases h2 : 2 ≤ i
  · have e : 2 + (i - 2) = i := by omega
    simp [h2, hi, e]; omega
  · simp [h2]; omega

theorem toNat_and_not_three (x : Word) : (x &&& ~~~3#64).toNat = x.toNat / 4 * 4 := by
  have := x.isLt
  rw [and_not_three, BitVec.toNat_shiftLeft, BitVec.toNat_ushiftRight, Nat.shiftLeft_eq, Nat.shiftRight_eq_div_pow]
  omega

theorem aligned_iff (x : Word) : x &&& ~~~3#64 = x ↔ x.toNat % 4 = 0 := by
  rw [← BitVec.toNat_inj, toNat_and_not_three]
  omega

theorem aligned_add {x y : Word} (hx : x &&& ~~~3#64 = x) (hy : y.toNat % 4 = 0) : (x + y) &&& ~~~3#64 = x + y := by
  rw [aligned_iff] at *
  rw [BitVec.toNat_add]
  omega

/-- Four times a word is such a word. -/
theorem four_mul_toNat (x : Word) : (4 * x).toNat % 4 = 0 := by
  rw [BitVec.toNat_mul, show (4 : Word).toNat = 4 from rfl]
  omega

namespace Machine

/-! ### Control records -/

theorem Ctl.norm_of_legal {c : Ctl} (h : c.legal = true) : c.norm = c := by
  simpa [Ctl.legal] using h

theorem Ctl.pc_of_legal {c : Ctl} (h : c.legal = true) : c.pc &&& ~~~3#64 = c.pc :=
  congrArg Ctl.pc (Ctl.norm_of_legal h)

/-- A change of the fields that have no reserved bits keeps a record legal. -/
theorem Ctl.legal_retired {c : Ctl} {pc n : Word} {b : Option Wait} (h : c.legal = true) (hp : pc &&& ~~~3#64 = pc) :
    ({ c with pc := pc, instret := n, blocked := b, walked := [], code := none } : Ctl).norm =
      { c with pc := pc, instret := n, blocked := b, walked := [], code := none } := by
  have hc := Ctl.norm_of_legal h
  cases c
  simp only [Ctl.norm, Ctl.mk.injEq] at hc ⊢
  tauto

/-- No loop ends at the instruction: the pc goes to the next one. -/
theorem loopEnd_of_noLoopEnd {c : Ctl} (h : NoLoopEnd c) (len : Nat) :
    loopEnd c.pc len 4 c = { c with pc := c.pc + BitVec.ofNat 64 len } := by
  have step : ∀ n, n ≤ 4 → loopEnd c.pc len n c = { c with pc := c.pc + BitVec.ofNat 64 len } := by
    intro n
    induction n with
    | zero => intro _; rfl
    | succ n ih =>
      intro hn
      have hl := h n (by omega)
      have : ¬((c.loop n).lc ≠ 0 ∧ (c.loop n).le = c.pc) := by tauto
      simp only [loopEnd]
      rw [if_neg this, ih (by omega)]
  exact step 4 (Nat.le_refl 4)

/-! ### FIFO counts -/

@[simp] theorem popFifo_zero (c : Nat) (s : State) : popFifo c 0 s = [] := rfl
@[simp] theorem pushFifo_zero (c : Nat) (s : State) : pushFifo c 0 s = [] := rfl

/-- The state in which the acting stream has taken a token from `fo`, or given one to `fp`. -/
def State.popped (s : State) (fo : BitVec 3) : State := s.applyAll (popFifo (coreOf s.cur) fo s)
def State.pushed (s : State) (fp : BitVec 3) : State := s.applyAll (pushFifo (coreOf s.cur) fp s)

/-- `w` is `v` but for the FIFO counts of core `c`, which are `cnt`. -/
structure FifoStep (v w : State) (c : Nat) (cnt : Nat → Nat) : Prop where
  rest : w = { v with cores := w.cores }
  others : ∀ x, x ≠ c → w.core x = v.core x
  core : { w.core c with fifo := (v.core c).fifo } = v.core c
  counts : ∀ n, FMap.get 0 (w.core c).fifo n = cnt n

theorem FifoStep.refl (s : State) (c : Nat) : FifoStep s s c (fun n => FMap.get 0 (s.core c).fifo n) :=
  ⟨rfl, fun _ _ => rfl, rfl, fun _ => rfl⟩

theorem FifoStep.trans {u v w : State} {c : Nat} {f g : Nat → Nat} (h : FifoStep u v c f) (h' : FifoStep v w c g) :
    FifoStep u w c g where
  rest := by rw [h'.rest, h.rest]
  others x hx := (h'.others x hx).trans (h.others x hx)
  core := by rw [← h.core, ← h'.core]
  counts := h'.counts

theorem fifoStep_core (s : State) (c : Nat) (f : FMap Nat) :
    FifoStep s (s.apply (.core c { s.core c with fifo := f })) c (FMap.get 0 f) where
  rest := rfl
  others x hx := by rw [State.core_apply_core, if_neg hx]
  core := by rw [State.core_apply_core, if_pos rfl]
  counts n := by rw [State.core_apply_core, if_pos rfl]

theorem fifoStep_popped (s : State) (fo : BitVec 3) : FifoStep s (s.popped fo) (coreOf s.cur)
    (fun n => s.tokens n - (if fo ≠ 0 ∧ n = fo.toNat - 1 then 1 else 0)) := by
  unfold State.popped popFifo
  split
  · next h => simpa [h, State.tokens] using FifoStep.refl s (coreOf s.cur)
  · next h =>
    have := fifoStep_core s (coreOf s.cur) (FMap.set 0 (s.core (coreOf s.cur)).fifo (fo.toNat - 1)
      (FMap.get 0 (s.core (coreOf s.cur)).fifo (fo.toNat - 1) - 1))
    refine ⟨this.rest, this.others, this.core, fun n => ?_⟩
    refine (this.counts n).trans ?_
    rw [FMap.get_set]
    by_cases hn : n = fo.toNat - 1
    · rw [if_pos hn, if_pos ⟨h, hn⟩, hn]; rfl
    · rw [if_neg hn, if_neg fun hx => hn hx.2]; rfl

theorem fifoStep_pushed (s : State) (fp : BitVec 3) : FifoStep s (s.pushed fp) (coreOf s.cur)
    (fun n => s.tokens n + (if fp ≠ 0 ∧ n = fp.toNat - 1 then 1 else 0)) := by
  unfold State.pushed pushFifo
  split
  · next h => simpa [h, State.tokens] using FifoStep.refl s (coreOf s.cur)
  · next h =>
    have := fifoStep_core s (coreOf s.cur) (FMap.set 0 (s.core (coreOf s.cur)).fifo (fp.toNat - 1)
      (FMap.get 0 (s.core (coreOf s.cur)).fifo (fp.toNat - 1) + 1))
    refine ⟨this.rest, this.others, this.core, fun n => ?_⟩
    refine (this.counts n).trans ?_
    rw [FMap.get_set]
    by_cases hn : n = fp.toNat - 1
    · rw [if_pos hn, if_pos ⟨h, hn⟩, hn]; rfl
    · rw [if_neg hn, if_neg fun hx => hn hx.2]; rfl

/-- The effects that neither read nor write the records of cores and do not replace the whole state. -/
def Eff.light : Eff → Bool
  | .core .. | .store .. | .unit .. | .headers .. | .send .. | .restart .. | .cur .. => false
  | _ => true

theorem State.apply_light (s : State) (x : FMap Core) (e : Eff) (h : e.light = true) :
    ({ s with cores := x } : State).apply e = { s.apply e with cores := x } := by
  cases e with
  | sreg k n v => simp only [State.apply]; split <;> rfl
  | preg k n v => simp only [State.apply]; split <;> rfl
  | core | store | unit | headers | send | restart | cur => exact absurd h (by simp [Eff.light])
  | _ => rfl

theorem State.applyAll_light (s : State) (x : FMap Core) (l : List Eff) (h : ∀ e ∈ l, e.light = true) :
    ({ s with cores := x } : State).applyAll l = { s.applyAll l with cores := x } := by
  induction l generalizing s with
  | nil => rfl
  | cons e t ih =>
    rw [State.applyAll_cons, s.apply_light x e (h e (by simp)), ih _ fun x hx => h x (by simp [hx])]
    rfl

theorem Eff.light_cur {e : Eff} (h : e.light = true) (s : State) : (s.apply e).cur = s.cur :=
  s.apply_cur e (by cases e <;> simp_all [Eff.light])

theorem Eff.light_cores {e : Eff} (h : e.light = true) (s : State) : (s.apply e).cores = s.cores :=
  s.apply_cores e (by cases e <;> simp_all [Eff.light])

theorem applyAll_light_cur {l : List Eff} (h : ∀ e ∈ l, e.light = true) (s : State) : (s.applyAll l).cur = s.cur := by
  induction l generalizing s with
  | nil => rfl
  | cons e t ih => rw [State.applyAll_cons, ih (fun x hx => h x (by simp [hx])), Eff.light_cur (h e (by simp))]

theorem applyAll_light_cores {l : List Eff} (h : ∀ e ∈ l, e.light = true) (s : State) : (s.applyAll l).cores = s.cores := by
  induction l generalizing s with
  | nil => rfl
  | cons e t ih => rw [State.applyAll_cons, ih (fun x hx => h x (by simp [hx])), Eff.light_cores (h e (by simp))]

/-- Light effects do not see a change of FIFO counts. -/
theorem FifoStep.applyAll {v w : State} {c : Nat} {f : Nat → Nat} (h : FifoStep v w c f) {l : List Eff}
    (hl : ∀ e ∈ l, e.light = true) : FifoStep (v.applyAll l) (w.applyAll l) c f := by
  have hw : (w.applyAll l).cores = w.cores := applyAll_light_cores hl w
  have hv : (v.applyAll l).cores = v.cores := applyAll_light_cores hl v
  have cw : ∀ x, (w.applyAll l).core x = w.core x := fun x => by simp only [State.core, hw]
  have cv : ∀ x, (v.applyAll l).core x = v.core x := fun x => by simp only [State.core, hv]
  refine ⟨?_, fun x hx => ?_, ?_, fun n => ?_⟩
  · rw [hw]
    conv_lhs => rw [h.rest]
    exact State.applyAll_light v w.cores l hl
  · rw [cw, cv, h.others x hx]
  · rw [cw, cv, h.core]
  · rw [cw, h.counts]

/-! ### The wrapper -/

/-- The checks and waits of the wrapper pass: the rest of the wrapper. -/
theorem issueFx_of_issues {s : State} {d : Desc} (body : State → Act) (h : Issues s d.fp d.fo d.sregs d.vregs)
    (hp : d.priv = true → s.now.prv = true) (hc : d.closes = true → s.now.open = false)
    (hq : ∀ n own, d.bq = some (n, own) → own = kindOf s.cur) :
    issueFx d body s =
      (let act := if d.elem || guardTrue s s.cur d.g then body s else .seq Fx.none
       let pre := popFifo (coreOf s.cur) d.fo
       match act with
       | .seq e => ((pre.andThen e).andThen (retireSeq s.cur d.len d.fp (!s.now.prv))) s
       | .slow e r => ((pre.andThen e).andThen (issueOnly s.cur d.len d.fp r)) s
       | .jump e pc => ((pre.andThen e).andThen (retireJump s.cur pc d.fp (!s.now.prv))) s
       | .trap code imp val flt => takeTrap s.cur code imp val flt s
       | .trapWith e code val flt => (e.andThen (takeTrap s.cur code false val (flt.getD (fltOf d.op9)))) s
       | .wait e => e s
       | .stop e => (pre.andThen e) s) := by
  have h1 : (d.priv && !s.now.prv) = false := by
    cases hd : d.priv with
    | false => rfl
    | true => simp [hp hd]
  have h2 : misdirected d (kindOf s.cur) = none := by
    unfold misdirected
    rw [if_neg fun hx => hx.2 (h.takes hx.1).1, if_neg fun hx => hx.2 (h.gives hx.1).1]
    cases hb : d.bq with
    | none => rfl
    | some x => simp [hq x.1 x.2 hb]
  have h4 : (d.sregs.any (fun n => n ≠ 0 && (pendingS s s.cur).contains n) || d.vregs.any (pendingV s s.cur).contains) =
      false := by
    rw [Bool.or_eq_false_iff]
    constructor
    · rw [List.any_eq_false]
      intro n hn
      have := h.scalars n hn
      simp only [Bool.and_eq_true, decide_eq_true_eq, List.contains_iff_mem]
      tauto
    · rw [List.any_eq_false]
      intro n hn
      simpa using h.vectors n hn
  have h5 : ¬(d.fo ≠ 0 ∧ FMap.get 0 (s.core (coreOf s.cur)).fifo (d.fo.toNat - 1) = 0) := fun hx => (h.takes hx.1).2 hx.2
  have h6 : ¬(d.fp ≠ 0 ∧ 64 ≤ FMap.get 0 (s.core (coreOf s.cur)).fifo (d.fp.toNat - 1) +
      pendingPush s (coreOf s.cur) d.fp) := fun hx => by
    have := (h.gives hx.1).2
    simp only [State.tokens] at this
    omega
  have h7 : (s.now.open && ((d.closes && (d.elem || guardTrue s s.cur d.g)) || d.fp ≠ 0 || d.fo ≠ 0)) = false := by
    cases ho : s.now.open with
    | false => rfl
    | true =>
      have := h.region ho
      have hd : d.closes = false := by
        cases hd : d.closes with
        | false => rfl
        | true => simp [hc hd] at ho
      simp [this.1, this.2, hd]
  unfold issueFx
  simp only [State.now] at h1 h7
  simp only [h1, h2, h4, h7, Bool.false_eq_true, if_false]
  rw [if_neg h5, if_neg h6]
  rfl

/-! ### Retirement -/

@[simp] theorem State.pushed_ctl (s : State) (fp : BitVec 3) (k : Nat) : (s.pushed fp).ctl k = s.ctl k := by
  rw [(fifoStep_pushed s fp).rest]; rfl

/-- An instruction with nothing outstanding before it pushes at once. -/
theorem retirePush_eq {s : State} {k : Nat} {fp : BitVec 3} (h : fp ≠ 0 → (s.ctl k).late = []) :
    retirePush k fp none s = pushFifo (coreOf k) fp s := by
  unfold retirePush
  by_cases hf : fp = 0
  · subst hf; rfl
  · rw [if_neg fun hx => hf hx.1, if_pos (h hf)]
    simp [Fx.andThen, pushOutcome]

/-- A retirement that leaves the pc at `pc`, where STEP takes no BREAK. -/
theorem retire_eq (u : State) (f : Ctl → Ctl) (fp : BitVec 3) (user : Bool)
    (hs : user = true → (f u.now).step = false) (hset : fp ≠ 0 → (f u.now).late = []) :
    u.applyAll ((((onCtl u.cur f).andThen (retirePush u.cur fp none)).andThen (stepBreak u.cur user)) u) =
      (u.setCtl (f u.now)).pushed fp := by
  have hb : ∀ w : State, w.ctl u.cur = (f u.now).norm → stepBreak u.cur user w = [] := by
    intro w hw
    unfold stepBreak
    rw [hw]
    cases hu : user with
    | false => rfl
    | true =>
      have : (f u.now).norm.step = false := by
        have h0 := hs hu
        unfold Ctl.step bitOf field Ctl.norm at *
        have e : ∀ x : Word, (x &&& 0xF8#64).toNat / 2 ^ 3 % 2 ^ 1 = x.toNat / 2 ^ 3 % 2 ^ 1 := by
          intro x
          rw [BitVec.toNat_and, ← Nat.shiftRight_eq_div_pow, ← Nat.shiftRight_eq_div_pow, Nat.shiftRight_and_distrib]
          have : (0xF8#64).toNat >>> 3 = 31 := rfl
          rw [this, show (31 : Nat) = 2 ^ 5 - 1 from rfl, Nat.and_two_pow_sub_one_eq_mod]
          omega
        simpa only [e] using h0
      simp [this]
  rw [State.applyAll_andThen, State.applyAll_andThen]
  have hw : u.applyAll (onCtl u.cur f u) = u.setCtl (f u.now) := rfl
  rw [hw, retirePush_eq (s := u.setCtl (f u.now)) (fun hf => by rw [State.setCtl, State.ctl_apply_ctl, if_pos rfl]; exact hset hf)]
  have hu : (u.setCtl (f u.now)).applyAll (pushFifo (coreOf u.cur) fp (u.setCtl (f u.now))) =
      (u.setCtl (f u.now)).pushed fp := rfl
  rw [hu, hb _ (by rw [State.pushed_ctl]; simp [State.setCtl]), State.applyAll_nil]

/-- What taking from `fo`, the effects `l` and giving to `fp` leave of the FIFO counts, and what they leave alone. -/
theorem retired_of_light {s : State} {l : List Eff} {fp fo : BitVec 3} {c : Ctl} {pc : Word}
    (hl : ∀ e ∈ l, e.light = true) (hfo : fo ≠ 0 → s.tokens (fo.toNat - 1) ≠ 0)
    (hc : c.norm = { (s.applyAll l).now with
      pc := pc, instret := (s.applyAll l).now.instret + 1, blocked := none, walked := [], code := none }) :
    Retired (s.applyAll l) ((((s.popped fo).applyAll l).setCtl c).pushed fp) pc fp fo := by
  have hcur := applyAll_light_cur hl s
  have hcore : ∀ x, (s.applyAll l).core x = s.core x := fun x => by
    simp only [State.core, applyAll_light_cores hl s]
  let w := ((s.popped fo).applyAll l).setCtl c
  have hp : FifoStep (s.applyAll l) ((s.popped fo).applyAll l) (coreOf s.cur)
      (fun n => s.tokens n - (if fo ≠ 0 ∧ n = fo.toNat - 1 then 1 else 0)) := (fifoStep_popped s fo).applyAll hl
  have hpc : ((s.popped fo).applyAll l).cur = s.cur := by rw [hp.rest]; exact hcur
  have hw : w.cur = s.cur := hpc
  have h1 : FifoStep ((s.applyAll l).setCtl c) w (coreOf s.cur)
      (fun n => s.tokens n - (if fo ≠ 0 ∧ n = fo.toNat - 1 then 1 else 0)) := by
    have := hp.applyAll (l := [.ctl s.cur c]) (by simp [Eff.light])
    simpa only [w, State.setCtl, hcur, hpc, State.applyAll_cons, State.applyAll_nil] using this
  have h2 := fifoStep_pushed w fp
  rw [hw] at h2
  have h3 := h1.trans h2
  have hctl : ∀ j, (w.pushed fp).ctl j = ((s.applyAll l).setCtl c).ctl j := fun j => by rw [h3.rest]; rfl
  have hcc : ∀ x, ((s.applyAll l).setCtl c).core x = (s.applyAll l).core x := fun x => rfl
  refine ⟨?_, fun j hj => ?_, fun n => ?_, fun x => ?_, fun x hx => ?_, ?_⟩
  · rw [hctl, State.setCtl, State.ctl_apply_ctl, if_pos rfl, hc]
  · rw [hctl, State.setCtl, State.ctl_apply_ctl, if_neg hj]
  · have e1 := h2.counts n
    have e2 := h1.counts n
    have e3 : w.tokens n = FMap.get 0 (w.core (coreOf s.cur)).fifo n := by rw [State.tokens, hw]
    have e4 : (s.applyAll l).tokens n = s.tokens n := by rw [State.tokens, hcur, hcore]; rfl
    rw [hcur, e1, e3, e2, e4]
    by_cases hx : fo ≠ 0 ∧ n = fo.toNat - 1
    · have := hfo hx.1
      rw [← hx.2] at this
      rw [if_pos hx]; omega
    · rw [if_neg hx]; omega
  · by_cases hx : x = coreOf s.cur
    · subst hx
      rw [← hcc]; exact h3.core
    · rw [h3.others x hx, hcc]
  · rw [hcur] at hx
    rw [h3.others x hx, hcc]
  · rw [h3.rest]; rfl

/-- What an instruction answers that issues, has the effects `l` and goes on in sequence. -/
theorem issue_seq {s : State} {d : Desc} {body : State → Act} {e : Fx} {l : List Eff}
    (h : Issues s d.fp d.fo d.sregs d.vregs) (hp : d.priv = true → s.now.prv = true)
    (hc : d.closes = true → s.now.open = false)
    (hq : ∀ n own, d.bq = some (n, own) → own = kindOf s.cur) (hg : d.elem = true ∨ guardTrue s s.cur d.g = true)
    (hb : body s = .seq e) (he : e (s.popped d.fo) = l) (hl : ∀ x ∈ l, x.light = true)
    (hn : (s.applyAll l).now.legal = true)
    (hset : d.fp ≠ 0 → (s.applyAll l).now.late = []) (hloop : NoLoopEnd (s.applyAll l).now)
    (hstep : s.now.prv = true ∨ (s.applyAll l).now.step = false) (hlen : d.len % 4 = 0) :
    ∃ t, issue s d body = .next t ∧
      Retired (s.applyAll l) t ((s.applyAll l).now.pc + BitVec.ofNat 64 d.len) d.fp d.fo := by
  have hg' : (d.elem || guardTrue s s.cur d.g) = true := by simpa using hg
  have hcur := applyAll_light_cur hl s
  have hp1 := (fifoStep_popped s d.fo).applyAll hl
  have hcurp : ((s.popped d.fo).applyAll l).cur = s.cur := by rw [hp1.rest]; exact hcur
  have hnow : ((s.popped d.fo).applyAll l).now = (s.applyAll l).now := by
    rw [hp1.rest]; rfl
  refine ⟨_, rfl, ?_⟩
  have hx : s.applyAll (issueFx d body s) = (((s.popped d.fo).applyAll l).setCtl
      (let c := loopEnd (s.applyAll l).now.pc d.len 4 (s.applyAll l).now
       { c.onward c.pc with instret := c.instret + 1 })).pushed d.fp := by
    rw [issueFx_of_issues body h hp hc hq]
    simp only [hg', if_true, hb]
    rw [State.applyAll_andThen, State.applyAll_andThen]
    have hpp : s.applyAll (popFifo (coreOf s.cur) d.fo s) = s.popped d.fo := rfl
    rw [hpp, he]
    have := retire_eq ((s.popped d.fo).applyAll l)
      (fun c => let c := loopEnd c.pc d.len 4 c; { c.onward c.pc with instret := c.instret + 1 }) d.fp (!s.now.prv)
      (hset := fun hf => by rw [hnow, loopEnd_of_noLoopEnd hloop]; exact hset hf) (by
        intro hu
        have hst : (s.applyAll l).now.step = false := by
          rcases hstep with hstep | hstep
          · rw [hstep] at hu; exact absurd hu (by decide)
          · exact hstep
        rw [hnow, loopEnd_of_noLoopEnd hloop]
        exact hst)
    rw [hcurp, hnow] at this
    exact this
  show Retired (s.applyAll l) (s.applyAll (issueFx d body s)) _ _ _
  rw [hx]
  refine retired_of_light hl (fun h0 => (h.takes h0).2) ?_
  rw [loopEnd_of_noLoopEnd hloop]
  refine Ctl.legal_retired (c := (s.applyAll l).now) hn (aligned_add (Ctl.pc_of_legal hn) ?_)
  rw [BitVec.toNat_ofNat]
  omega

/-- What an instruction answers that issues, has the effects `l` and goes to `pc`. -/
theorem issue_jump {s : State} {d : Desc} {body : State → Act} {e : Fx} {l : List Eff} {pc : Word}
    (h : Issues s d.fp d.fo d.sregs d.vregs) (hp : d.priv = true → s.now.prv = true)
    (hc : d.closes = true → s.now.open = false)
    (hq : ∀ n own, d.bq = some (n, own) → own = kindOf s.cur) (hg : d.elem = true ∨ guardTrue s s.cur d.g = true)
    (hb : body s = .jump e pc) (he : e (s.popped d.fo) = l) (hl : ∀ x ∈ l, x.light = true)
    (hn : (s.applyAll l).now.legal = true)
    (hset : d.fp ≠ 0 → (s.applyAll l).now.late = []) (hstep : s.now.prv = true ∨ (s.applyAll l).now.step = false)
    (hpc : pc.toNat % 4 = 0) :
    ∃ t, issue s d body = .next t ∧ Retired (s.applyAll l) t pc d.fp d.fo := by
  have hg' : (d.elem || guardTrue s s.cur d.g) = true := by simpa using hg
  have hcur := applyAll_light_cur hl s
  have hp1 := (fifoStep_popped s d.fo).applyAll hl
  have hcurp : ((s.popped d.fo).applyAll l).cur = s.cur := by rw [hp1.rest]; exact hcur
  have hnow : ((s.popped d.fo).applyAll l).now = (s.applyAll l).now := by
    rw [hp1.rest]; rfl
  refine ⟨_, rfl, ?_⟩
  have hx : s.applyAll (issueFx d body s) = (((s.popped d.fo).applyAll l).setCtl
      { (s.applyAll l).now with
        pc := pc, instret := (s.applyAll l).now.instret + 1, blocked := none, walked := [], code := none }).pushed d.fp := by
    rw [issueFx_of_issues body h hp hc hq]
    simp only [hg', if_true, hb]
    rw [State.applyAll_andThen, State.applyAll_andThen]
    have hpp : s.applyAll (popFifo (coreOf s.cur) d.fo s) = s.popped d.fo := rfl
    rw [hpp, he]
    have := retire_eq ((s.popped d.fo).applyAll l)
      (fun c => { c.onward pc with instret := c.instret + 1 }) d.fp (!s.now.prv)
      (hset := fun hf => by rw [hnow]; exact hset hf) (by
        intro hu
        have hst : (s.applyAll l).now.step = false := by
          rcases hstep with hstep | hstep
          · rw [hstep] at hu; exact absurd hu (by decide)
          · exact hstep
        rw [hnow]
        exact hst)
    rw [hcurp, hnow] at this
    exact this
  show Retired (s.applyAll l) (s.applyAll (issueFx d body s)) _ _ _
  rw [hx]
  exact retired_of_light hl (fun h0 => (h.takes h0).2) (Ctl.legal_retired (c := (s.applyAll l).now) hn ((aligned_iff pc).2 hpc))

/-- What the model notes of a step's writes is no part of what an instruction leaves. -/
theorem Retired.of_wrote {s t : State} {w : Option (Nat × Vec)} {pc : Word} {fp fo : BitVec 3}
    (h : Retired (s.apply (.wrote w)) t pc fp fo) : Retired s t pc fp fo :=
  ⟨h.ctl, h.ctls, h.fifos, h.core, h.cores, congrArg (fun u : State => { u with wrote := s.wrote }) h.rest⟩

/-- A light effect of a body that leaves the acting stream's control record alone. -/
theorem issue_plain {s : State} {d : Desc} {body : State → Act} {l : List Eff}
    (h : Executes s d.g d.fp d.fo d.sregs d.vregs) (hp : d.priv = false) (hc : d.closes = false) (hq : d.bq = none)
    (hb : body s = .seq fun _ => l) (hl : ∀ x ∈ l, x.light = true) (hn : (s.applyAll l).now = s.now)
    (hlen : d.len % 4 = 0) :
    ∃ t, issue s d body = .next t ∧ Retired (s.applyAll l) t (s.now.pc + BitVec.ofNat 64 d.len) d.fp d.fo := by
  have := issue_seq (e := fun _ => l) (l := l) h.toIssues (by simp [hp]) (by simp [hc]) (by simp [hq]) (Or.inr h.guard) hb rfl hl
    (hn ▸ h.legal) (fun hf => by rw [hn]; exact h.settled hf) (hn ▸ h.noLoop)
    (by rw [hn]; exact h.noStep) hlen
  rwa [hn] at this

/-- An instruction that writes one scalar register. -/
theorem issue_setS {s : State} {d : Desc} {body : State → Act} {n : Nat} {v : Word}
    (h : Executes s d.g d.fp d.fo d.sregs d.vregs) (hp : d.priv = false) (hc : d.closes = false) (hq : d.bq = none)
    (hb : body s = .seq fun _ => [.sreg s.cur n v]) (hlen : d.len % 4 = 0) :
    ∃ t, issue s d body = .next t ∧ Retired (s.setS n v) t (s.now.pc + BitVec.ofNat 64 d.len) d.fp d.fo :=
  issue_plain h hp hc hq hb (by simp [Eff.light]) (by simp [State.now]) hlen

/-- An instruction that writes one vector register. -/
theorem issue_setV {s : State} {d : Desc} {body : State → Act} {n : Nat} {m v : Vec}
    (h : Executes s d.g d.fp d.fo d.sregs d.vregs) (hp : d.priv = false) (hc : d.closes = false) (hq : d.bq = none)
    (hb : body s = .seq fun _ => putV (coreOf s.cur) n m v) (hlen : d.len % 4 = 0) :
    ∃ t, issue s d body = .next t ∧ Retired (s.setV n v) t (s.now.pc + BitVec.ofNat 64 d.len) d.fp d.fo := by
  obtain ⟨t, ht, hr⟩ := issue_plain h hp hc hq hb (by simp [putV, Eff.light]) (by simp [putV, State.now]) hlen
  exact ⟨t, ht, hr.of_wrote⟩

/-- What an instruction answers that traps. -/
theorem issue_trap {s : State} {d : Desc} {body : State → Act} {code : Byte} {imp : Bool} {val : Word} {flt : Flt}
    (h : Issues s d.fp d.fo d.sregs d.vregs) (hp : d.priv = true → s.now.prv = true)
    (hc : d.closes = true → s.now.open = false)
    (hq : ∀ n own, d.bq = some (n, own) → own = kindOf s.cur) (hg : d.elem = true ∨ guardTrue s s.cur d.g = true)
    (hb : body s = .trap code imp val flt) :
    issue s d body = .next (s.applyAll (takeTrap s.cur code imp val flt s)) := by
  have hg' : (d.elem || guardTrue s s.cur d.g) = true := by simpa using hg
  rw [issue, answer, issueFx_of_issues body h hp hc hq]
  simp only [hg', if_true, hb]

/-- What taking a trap leaves, with none in progress (01 R35). -/
theorem trapped_takeTrap {s : State} (hl : s.now.legal = true) (ht : s.now.tip = false) (code : Byte) (val : Word) (flt : Flt) :
    Trapped s (s.applyAll (takeTrap s.cur code false val flt s)) code val := by
  have hn := Ctl.norm_of_legal hl
  have hst : s.now.status &&& 0xF8#64 = s.now.status := congrArg Ctl.status hn
  have he : takeTrap s.cur code false val flt s = [.ctl s.cur { s.now with
      epc := s.now.pc
      cause := BitVec.ofNat 64 (0 + code.toNat)
      tval := val
      status := setField (setField (setField s.now.status 5 1 (field s.now.status 4 1)) 4 1 1) 6 1 1
      pc := s.now.tvec
      run := .running
      blocked := none
      spin := none
      walked := []
      code := none
      flt := flt }] := by
    unfold takeTrap
    simp only [State.now] at ht
    simp only [ht, Bool.false_eq_true, if_false]
    rfl
  rw [he, State.applyAll_cons, State.applyAll_nil]
  have hpc := Ctl.pc_of_legal hl
  have htv : s.now.tvec &&& ~~~3#64 = s.now.tvec := congrArg Ctl.tvec hn
  have hmask : ∀ b, (0xF8#64).getLsbD b = decide (3 ≤ b ∧ b < 8) := by
    intro b
    by_cases hb : b < 64
    · have : ∀ b, b < 64 → (0xF8#64).getLsbD b = decide (3 ≤ b ∧ b < 8) := by decide
      exact this b hb
    · have h8 : ¬(3 ≤ b ∧ b < 8) := by omega
      rw [BitVec.getLsbD_of_ge _ _ (by omega)]; simp [h8]
  have hbit : ∀ b, b < 8 → 3 ≤ b → bitOf (setField (setField (setField s.now.status 5 1 (field s.now.status 4 1)) 4 1 1) 6 1 1 &&&
      0xF8#64) b = (if b = 6 then true else if b = 4 then true else if b = 5 then bitOf s.now.status 4 else
        bitOf s.now.status b) := by
    intro b hb hb3
    rw [bitOf_eq_getLsbD, BitVec.getLsbD_and, hmask, ← bitOf_eq_getLsbD, bitOf_setField _ _ _ _ (by omega),
      bitOf_setField _ _ _ _ (by omega), bitOf_setField _ _ _ _ (by omega)]
    have h8 : 3 ≤ b ∧ b < 8 := ⟨hb3, hb⟩
    have hf : decide (field s.now.status 4 1 % 2 = 1) = bitOf s.now.status 4 := by
      unfold bitOf field
      simp only [Nat.pow_one, Nat.mod_mod]
      rfl
    simp only [h8, and_self, decide_true, Bool.and_true, hf]
  have hc : ∀ c j, (s.apply (.ctl s.cur c)).ctl j = if j = s.cur then c.norm else s.ctl j := fun c j =>
    State.ctl_apply_ctl s s.cur c j
  refine ⟨?_, ?_, ?_, ?_, ?_, ?_, ?_, ?_, ?_, ?_, fun j hj => ?_, rfl⟩
  · rw [hc, if_pos rfl]; exact htv
  · rw [hc, if_pos rfl]; exact hpc
  · rw [hc, if_pos rfl]
    apply BitVec.eq_of_toNat_eq
    have h1 : code.toNat < 256 := code.isLt
    show (BitVec.ofNat 64 (0 + code.toNat) &&& 0x1FF#64).toNat = _
    rw [BitVec.toNat_and, show (0x1FF#64).toNat = 2 ^ 9 - 1 from rfl, Nat.and_two_pow_sub_one_eq_mod, BitVec.toNat_ofNat,
      BitVec.toNat_setWidth]
    omega
  · rw [hc, if_pos rfl]; rfl
  · rw [hc, if_pos rfl]; exact hbit 4 (by omega) (by omega)
  · rw [hc, if_pos rfl]; exact hbit 5 (by omega) (by omega)
  · rw [hc, if_pos rfl]; exact hbit 6 (by omega) (by omega)
  · intro b h4 h5 h6
    rw [hc, if_pos rfl]
    by_cases hb : 3 ≤ b ∧ b < 8
    · have := hbit b hb.2 hb.1
      rw [if_neg h6, if_neg h4, if_neg h5] at this
      rw [← bitOf_eq_getLsbD, ← bitOf_eq_getLsbD]
      exact this
    · have hx : s.now.status.getLsbD b = false := by
        rw [← hst, BitVec.getLsbD_and, hmask]; simp [hb]
      rw [hx]
      show (_ &&& 0xF8#64).getLsbD b = false
      rw [BitVec.getLsbD_and, hmask]; simp [hb]
  · rw [hc, if_pos rfl]; rfl
  · intro c he
    rw [hc, if_pos rfl] at he
    subst he
    generalize s.now = n at hn
    cases n
    simp only [Ctl.norm, Ctl.mk.injEq] at hn ⊢
    tauto
  · rw [hc, if_neg hj]

end Machine
end Sys2Proof
end

