-- ==== Sys2Proof/Tests/Slice0.lean ====
section
/-!
SUPPORT. The model's own tests: a word of the manual's encoding for every instruction, a word for every refusal of the decoder, an
ill-formed term for every check, the manual's worked results, and for every obligation with hypotheses a witness that meets them.
-/
namespace Sys2Proof.Tests
set_option maxRecDepth 100000
set_option Elab.async false
open Sys2Proof.Machine Sys2Proof.Statements

/-! ### States for the tests -/

/-- A method word 6: a team of one core, two granules of window 1, one of window 2. -/
def word6 : Word := BitVec.ofNat 64 (2 * 2 ^ 50 + 2 ^ 38)
def team1 : Team := { fetchTeam with method6 := word6 }

/-- The control record of a stream that runs at supervisor level at the code of `withFetchWord`. -/
def ctl1 : Ctl := { Ctl.reset with pc := fetchHandle, status := 0x10, run := .running }

/-- The tile of tensor 256 in the translation cache of the core. -/
def tlb1 : Tlb := ⟨0, 256, 0, 0x0000030080000000, 0⟩

/-- Core 0 runs a team of one core, its stream M acts, with 5 in s1, 256's handle in s2 and 64 in s3. -/
def base : State :=
  { State.reset.withFetchWord 64 0 with
    cur := 1, teams := [(1, some team1)], cores := [(0, { Core.reset with team := some 1, tlb := [tlb1] })], ctls := [(1, ctl1)]
    sregs := [(65, 5), (66, fetchHandle), (67, 64)] }

/-- The same at user level. -/
def user : State := { base with ctls := [(1, { ctl1 with status := 0 })] }

/-- `base` with another record of its stream. -/
def onBase (f : Ctl → Ctl) : State := { base with ctls := [(1, f ctl1)] }

/-- `base` with another record of its core. -/
def onBaseCore (f : Core → Core) : State := { base with cores := [(0, f (base.core 0))] }

abbrev pass : Guard := unguarded
def fs0 : FS := ⟨pass, 4, 1, 3, 0, 0, 0, 0⟩
def fi0 : FI := ⟨pass, 4, 1, 0, 0, 16⟩
def fb0 : FB := ⟨pass, 1, 3, 0, 0, 2⟩
def fb96 : FB96 := ⟨pass, 1, 3, 0, 0, 2⟩
def fy0 : FY := ⟨pass, 0, 0, 0, 0, 0, 0⟩
def fm0 : FM := ⟨pass, 4, 2, 0, 0, 0, 0, 0, 0, 0⟩
def fe0 : FE := ⟨pass, 0, 0, 0, 0, 0, 0, 0, 0, 0, 0⟩
def x30 : X3 := ⟨pass, 3, 1, 2, 6, 0, 0, 0, 0, 0⟩

theorem issues_of {s : State} {fp fo : BitVec 3} {ss vs : List Nat}
    (h : s.now.legal = true ∧ (fo ≠ 0 → consumer (fo.toNat - 1) = kindOf s.cur ∧ s.tokens (fo.toNat - 1) ≠ 0) ∧
      (fp ≠ 0 → producer (fp.toNat - 1) = kindOf s.cur ∧ s.tokens (fp.toNat - 1) + pendingPush s (coreOf s.cur) fp < 64) ∧
      (∀ n ∈ ss, n = 0 ∨ n ∉ pendingS s s.cur) ∧ (∀ n ∈ vs, n ∉ pendingV s s.cur) ∧ (s.now.open = true → fp = 0 ∧ fo = 0) ∧
      (s.now.prv = true ∨ s.now.step = false) ∧ (fp = 0 ∨ s.now.late = [])) : Issues s fp fo ss vs :=
  ⟨h.1, h.2.1, h.2.2.1, h.2.2.2.1, h.2.2.2.2.1, h.2.2.2.2.2.1, h.2.2.2.2.2.2.1, fun e => h.2.2.2.2.2.2.2.resolve_left e⟩

theorem noLoop_of {c : Ctl} (h : ∀ n, n < 4 → (c.loop n).lc = 0 ∨ (c.loop n).le ≠ c.pc) : NoLoopEnd c := h

theorem executes_of {s : State} {g : Guard} {fp fo : BitVec 3} {ss vs : List Nat}
    (h : Issues s fp fo ss vs) (h2 : guardTrue s s.cur g = true ∧ ∀ n, n < 4 → (s.now.loop n).lc = 0 ∨ (s.now.loop n).le ≠ s.now.pc) :
    Executes s g fp fo ss vs := ⟨h, h2.1, h2.2⟩

theorem no_mem {α : Type} {l : List α} {a : α} (h : l = []) : a ∉ l := h ▸ List.not_mem_nil

/-- Streams of `base` issue whatever names only registers and no FIFO. -/
theorem base_issues (ss vs : List Nat) : Issues base 0 0 ss vs :=
  ⟨by decide +kernel, fun h => absurd rfl h, fun h => absurd rfl h, fun _ _ => Or.inr (no_mem (by decide +kernel)),
    fun _ _ => no_mem (by decide +kernel), by decide +kernel, by decide +kernel, fun h => absurd rfl h⟩

theorem base_executes (ss vs : List Nat) : Executes base pass 0 0 ss vs :=
  executes_of (base_issues ss vs) (by decide +kernel)

theorem user_executes (ss vs : List Nat) : Executes user pass 0 0 ss vs :=
  ⟨⟨by decide +kernel, fun h => absurd rfl h, fun h => absurd rfl h, fun _ _ => Or.inr (no_mem (by decide +kernel)),
    fun _ _ => no_mem (by decide +kernel), by decide +kernel, by decide +kernel,
    fun h => absurd rfl h⟩,
    by decide +kernel, by unfold NoLoopEnd; decide +kernel⟩

theorem ok_of {ε α : Type} {x : Except ε α} (h : x.isOk = true) : ∃ a, x = .ok a := by
  cases x with
  | ok a => exact ⟨a, rfl⟩
  | error e => cases h

def isBytes (x : FWord) : Bool := match x with | .bytes _ => true | _ => false
def isTrapped (x : FWord) : Bool := match x with | .trap _ _ _ => true | _ => false

theorem bytes_of {x : FWord} (h : isBytes x = true) : ∃ bs, x = .bytes bs := by
  cases x with
  | bytes bs => exact ⟨bs, rfl⟩
  | trap _ _ _ => cases h
  | remote _ _ => cases h

theorem trap_of {x : FWord} (h : isTrapped x = true) : ∃ a b c, x = .trap a b c := by
  cases x with
  | bytes _ => cases h
  | trap a b c => exact ⟨a, b, c, rfl⟩
  | remote _ _ => cases h

def okWith {ε α β : Type} (x : Except ε (α × β)) (p : α → β → Bool) : Bool := match x with | .ok r => p r.1 r.2 | .error _ => false

theorem ok_with {ε α β : Type} {x : Except ε (α × β)} {p : α → β → Bool} (h : okWith x p = true) :
    ∃ a b, x = .ok (a, b) ∧ p a b = true := by
  unfold okWith at h
  split at h
  · rename_i r
    exact ⟨r.1, r.2, rfl, h⟩
  · cases h

def trapWith (x : Except (Found × Word) (List Piece × Option Nat)) (p : Byte → Word → Bool) : Bool :=
  match x with | .error (.trap c _, ea) => p c ea | _ => false

theorem trap_with {x : Except (Found × Word) (List Piece × Option Nat)} {p : Byte → Word → Bool} (h : trapWith x p = true) :
    ∃ c w0 ea, x = .error (.trap c w0, ea) ∧ p c ea = true := by
  unfold trapWith at h
  split at h
  · exact ⟨_, _, _, rfl, h⟩
  · cases h

theorem base_accesses {a : Access9} (h1 : a.fp = 0) (h2 : a.fo = 0) (h3 : a.elem = true ∨ guardTrue base base.cur a.g = true) :
    Accesses base a :=
  ⟨h1 ▸ h2 ▸ base_issues _ _, h3, noLoop_of (by decide +kernel), fun _ => by decide +kernel, by decide +kernel, fun _ _ => rfl⟩

/-- A load of a doubleword of window 1 into s4 that is outstanding, and the same in two pieces. -/
def load1 : Access :=
  { k := 1, cls := 0, scope := 0, rel := false, kind := .loadS 4 true, pieces := [⟨.key (keyPad 0 8), 8, [], 0, 0⟩], got := []
    want := .load, rows := [], near := [], remote := false, probe := false, reply := none, handle := handleOf 1 8, pc := fetchHandle, op9 := 0x093 }
def load2 : Access := { load1 with pieces := [⟨.key (keyPad 0 4), 4, [], 0, 0⟩, ⟨.key (keyPad 0 8), 4, [], 0, 4⟩] }
def store1 : Access := { load1 with kind := .store, want := .scalar 8, pieces := [⟨.key (keyPad 0 8), 8, [1, 2, 3, 4, 5, 6, 7, 8], 0, 0⟩] }
def amo1 : Access := { load1 with kind := .amo .cas 32 0 1 (some 4), want := .scalar 4, pieces := [⟨.key (keyPad 0 8), 4, [], 0, 0⟩] }

/-- A load to retire when access `n` is over. -/
def lateOne (fp : BitVec 3) (n : Nat) : Late := ⟨fp, none, [n], none, none, [], true, none⟩

/-- Elements of a scatter, the second of which meets the first. -/
def elem0 : Piece := ⟨.key (keyPad 0 8), 4, [1, 2, 3, 4], 0, 0⟩
def elem1 : Piece := ⟨.key (keyPad 0 10), 4, [5, 6, 7, 8], 1, 0⟩
def scatter1 : Access := { store1 with kind := .scatter, want := .scalar 4, pieces := [elem0, elem1] }

/-! ### A formatted tensor -/

/-- `base` with tensor 257, one tile of 1,024 f32, and its handle in s2. -/
def formatted : State :=
  let m := writeCells base.mem (0x10000 + 64 * 257) ([0xE100580000001000, 1023, 1023, 4096, 0x20010, 0, 0, 0].flatMap fun x : Nat => natToBytes 8 x)
  { base with
    mem := writeCells m 0x20010 (natToBytes 8 0x0000031080005800)
    cores := [(0, { base.core 0 with tlb := [tlb1, ⟨0, 257, 0, 0x0000031080005800, 0⟩] })]
    sregs := [(66, handleOf 257 0), (67, 7)] }

def tensor257 : Tensor := (readTensor formatted 0 257).getD ⟨0, 0, false, false, false, false, 0, 0, 0, [], [], 0, 0, 0, false, 0, 0, 0⟩

def isTensor (x : Except Byte Place) (t : Tensor) : Bool := match x with | .ok (.tensor u) => decide (u = t) | _ => false

theorem tensor_of {x : Except Byte Place} {t : Tensor} (h : isTensor x t = true) : x = .ok (.tensor t) := by
  unfold isTensor at h
  split at h
  · simpa using h
  · cases h

def isAt (x : LFound) (p : Nat → Bool) : Bool := match x with | .at _ tag _ _ => p tag | _ => false

theorem at_of {x : LFound} {p : Nat → Bool} (h : isAt x p = true) : ∃ n tag idx fr, x = .at n tag idx fr ∧ p tag = true := by
  unfold isAt at h
  split at h
  · exact ⟨_, _, _, _, rfl, h⟩
  · cases h

theorem get_above {α : Type} (d : α) (b : Nat) : ∀ (m : FMap α), (∀ e ∈ m, e.1 < b) → ∀ n, b ≤ n → FMap.get d m n = d
  | [], _, _, _ => rfl
  | (k, v) :: t, h, n, hn => by
    have := h (k, v) List.mem_cons_self
    rw [FMap.get, if_neg (by simp only at this; omega)]
    exact get_above d b t (fun e he => h e (List.mem_cons_of_mem _ he)) n hn

theorem length_natToBytes : ∀ n w, (natToBytes n w).length = n
  | 0, _ => rfl
  | n + 1, w => by rw [natToBytes, List.length_cons, length_natToBytes n]

theorem length_readCells (m : List Host.Cell) : ∀ n a, (readCells m a n).length = n
  | 0, _ => rfl
  | n + 1, a => by rw [readCells, List.length_cons, length_readCells m n]

theorem readCells_above (b : Nat) (m : List Host.Cell) (h : ∀ e ∈ m, e.1 < b) : ∀ n a, b ≤ a → readCells m a n = List.replicate n 0
  | 0, _, _ => rfl
  | n + 1, a, ha => by
    rw [readCells, get_above 0 b m h a ha, readCells_above b m h n (a + 1) (by omega)]; rfl

theorem formatted_still (n : Nat) : (readTile formatted tensor257 n).cow = false ∧ (readTile formatted tensor257 n).moving = false := by
  by_cases h : n = 0
  · subst h; decide +kernel
  · have ha : 0x20018 ≤ 0x20010 + 16 * n := by omega
    have ht : tensor257.ttbase = 0x20010 := by decide +kernel
    have hm : ∀ e ∈ formatted.mem, e.1 < 0x20018 := by decide +kernel
    simp only [readTile, Tile.cow, Tile.moving, tileAddr, State.word, State.bytes, ht, readCells_above 0x20018 _ hm _ _ ha]
    decide

/-! ### A launch -/

def inst0 : Inst :=
  { queue := 0, number := 0, asid := 0, prio := 3, irq := false, cookie := 0, compl := 0, graph := 0, arena := 0, nodes := [], succ := []
    events := 0, nst := [], failed := none, cancelled := false, cancelNode := 0, record := none }

/-- `base` with the launch `i` and another handle in s2. -/
def withInst (i : Inst) (h : Word) : State := { base with insts := [(0, some i)], sregs := [(65, 5), (66, h), (67, 64)] }

/-- `base` with s2 the handle of a doubleword of window 1. -/
def win8 : State := { base with sregs := [(65, 5), (66, handleOf 1 8), (67, 64)] }

def x3T : X3 := { g := ⟨1, 5⟩, vd := 0x2bc, va := 2, vb := 0x3e8, ty := 10, rm := 1, fp := 2, fo := 5, md := 1, sat := 0 }
def fsT : FS := { g := ⟨1, 5⟩, sd := 33, sa := 22, sb := 51, sc := 44, fp := 3, fo := 6, fn := 0 }
def fiT : FI := { g := ⟨1, 5⟩, sd := 63, sa := 21, fp := 5, fo := 2, imm := 0x3ffffff1 }
def fkT : FK := { g := ⟨1, 5⟩, sd := 9, k32 := 0x80017000 }
def fbT : FB := { g := ⟨1, 5⟩, sa := 37, sb := 26, fp := 1, fo := 4, off := 0x3ffffffd }
def flT : FL := { g := ⟨1, 5⟩, ln := 2, immc := 1, sa := 0, cnt := 0x9001, fin := 0x400003 }
def fmT : FM := { g := ⟨1, 5⟩, vd := 45, sa := 19, sb := 0, cls := 11, fp := 4, fo := 1, pi := 1, z := 0, imm := 0x3ffe }
def fxT : FX := { g := ⟨1, 5⟩, vd := 0x201, vi := 0x302, sa := 35, cls := 9, sc := 0, ty := 6, fp := 6, fo := 3 }
def faT : FA := { g := ⟨1, 5⟩, sd := 5, sa := 38, sb := 23, sc := 0, cls := 2, scope := 5, fp := 2, fo := 4, wd := 1 }
def fyT : FY := { g := ⟨1, 5⟩, sd := 0, sa := 0, sb := 0, fp := 5, fo := 3, k := 0 }
def feT : FE := { g := ⟨1, 5⟩, kp := 33, kw1 := 18, kw2 := 52, kw3 := 7, a1 := 41, a2 := 22, a3 := 61, sc := 6, rel := 1, fn := 0 }
def csT : CS := { sd := 17, sa := 10, sb := 28 }
def cbT : CB := { sa := 21, sb := 14, off := 0x7fd }
def cjT : CJ := { sd := 1, off := 0x7fff0 }
def ciT : CI := { sd := 11, sa := 24, imm := 85 }
def clT : CL := { sd := 13, sa := 18, imm := 0x7fe }
def ctT : CT := { sv := 25, sa := 12, imm := 0x403 }
def cvT : CV := { vd := 33, va := 22, vb := 51, ty := 10 }
def crT : CR := { v := 42, sa := 21, imm := 0xff1 }
def fi96T : FI96 := { g := ⟨1, 5⟩, sd := 63, sa := 21, fp := 5, fo := 2, lit := 0x80000001 }
def fb96T : FB96 := { g := ⟨1, 5⟩, sa := 37, sb := 26, fp := 1, fo := 4, lit := 0xfffffffd }
def fm96T : FM96 := { g := ⟨1, 5⟩, vd := 45, sa := 19, sb := 0, cls := 11, fp := 4, fo := 1, pi := 1, z := 0, lit := 0x7ffffffe }
def fk96T : FK96 := { g := ⟨1, 5⟩, sd := 9, k32 := 0x17000, lit := 0x10c }

/-! ### Decoding -/

/-- Of each of the list (bits, word, instruction), the decoder reads the instruction from the word. -/
noncomputable def reads (l : List (Nat × Nat × Instr)) : Bool := l.all fun x => decodeTableWord x.1 x.2.1 == some x.2.2

theorem test_register_words : reads ([
   (64, 0x0000730335A1A806, .add { fsT with sc := 0, fn := 1 }),
   (64, 0x0000730335A1A80A, .sub { fsT with sc := 0, fn := 1 }),
   (64, 0x0000330335A1A80E, .and { fsT with sc := 0 }),
   (64, 0x0000330335A1A812, .or { fsT with sc := 0 }),
   (64, 0x0000330335A1A816, .xor { fsT with sc := 0 }),
   (64, 0x0000330335A1A81A, .sll { fsT with sc := 0 }),
   (64, 0x0000330335A1A81E, .srl { fsT with sc := 0 }),
   (64, 0x0000330335A1A822, .sra { fsT with sc := 0 }),
   (64, 0x0000330335A1A826, .slt { fsT with sc := 0 }),
   (64, 0x0000330335A1A82A, .sltu { fsT with sc := 0 }),
   (64, 0x0000330335A1A82E, .mul { fsT with sc := 0 }),
   (64, 0x0000330335A1A832, .mulh { fsT with sc := 0 }),
   (64, 0x0000330335A1A836, .mulhu { fsT with sc := 0 }),
   (64, 0x0000330335A1A83A, .div { fsT with sc := 0 }),
   (64, 0x0000330335A1A83E, .divu { fsT with sc := 0 }),
   (64, 0x0000330335A1A842, .rem { fsT with sc := 0 }),
   (64, 0x0000330335A1A846, .remu { fsT with sc := 0 }),
   (64, 0x0000330335A1A84A, .min { fsT with sc := 0 }),
   (64, 0x0000330335A1A84E, .max { fsT with sc := 0 }),
   (64, 0x0000330335A1A852, .minu { fsT with sc := 0 }),
   (64, 0x0000330335A1A856, .maxu { fsT with sc := 0 }),
   (64, 0x0000330005A1A85A, .clz { fsT with sb := 0, sc := 0 }),
   (64, 0x0000330005A1A85E, .ctz { fsT with sb := 0, sc := 0 }),
   (64, 0x0000330005A1A862, .popc { fsT with sb := 0, sc := 0 })] ++
  [
   (64, 0x000033B335A1A866, .sel fsT),
   (64, 0x000033000000A86A, .nop { fsT with sd := 0, sa := 0, sb := 0, sc := 0 })]) = true := by decide +kernel

theorem test_short_register_words : reads ([
   (32, 0x00F15100, .addX32 csT),
   (32, 0x01715100, .subX32 csT),
   (32, 0x01F15100, .andX32 csT),
   (32, 0x02715100, .orX32 csT),
   (32, 0x02F15100, .xorX32 csT),
   (32, 0x03715100, .sllX32 csT),
   (32, 0x03F15100, .srlX32 csT),
   (32, 0x04715100, .sraX32 csT),
   (32, 0x04F15100, .sltX32 csT),
   (32, 0x05715100, .sltuX32 csT),
   (32, 0x05F15100, .mulX32 csT),
   (32, 0x06715100, .mulhX32 csT),
   (32, 0x06F15100, .mulhuX32 csT),
   (32, 0x07715100, .divX32 csT),
   (32, 0x07F15100, .divuX32 csT),
   (32, 0x08715100, .remX32 csT),
   (32, 0x08F15100, .remuX32 csT),
   (32, 0x09715100, .minX32 csT),
   (32, 0x09F15100, .maxX32 csT),
   (32, 0x0A715100, .minuX32 csT),
   (32, 0x0AF15100, .maxuX32 csT),
   (32, 0x0B015100, .clzX32 { csT with sb := 0 }),
   (32, 0x0B815100, .ctzX32 { csT with sb := 0 }),
   (32, 0x0C015100, .popcX32 { csT with sb := 0 })] ++
  [
   (32, 0x0CF15100, .selX32 csT),
   (32, 0x0D000000, .nopX32)]) = true := by decide +kernel

theorem test_immediate_words : reads ([
   (64, 0xFFFFFFC5557FA882, .addi fiT),
   (64, 0xFFFFFFC5557FA886, .andi fiT),
   (64, 0xFFFFFFC5557FA88A, .ori fiT),
   (64, 0xFFFFFFC5557FA88E, .xori fiT),
   (64, 0x000001FD557FA892, .slli { fiT with imm := 0x7f }),
   (64, 0x000001FD557FA896, .srli { fiT with imm := 0x7f }),
   (64, 0x000001FD557FA89A, .srai { fiT with imm := 0x7f }),
   (64, 0xFFFFFFC5557FA89E, .slti fiT),
   (64, 0xFFFFFFC5557FA8A2, .sltiu fiT),
   (64, 0x00004C85557FA8A6, .extI { fiT with imm := 0x1321 }),
   (64, 0x800170000009A8AA, .li fkT),
   (96, 0x0000010C000170000009A8AB, .liX96 fk96T),
   (96, 0x8000000100000001557FA883, .addiX96 fi96T),
   (96, 0x8000000100000001557FA887, .andiX96 fi96T),
   (96, 0x8000000100000001557FA88B, .oriX96 fi96T),
   (96, 0x8000000100000001557FA88F, .xoriX96 fi96T),
   (96, 0x8000000100000001557FA89F, .sltiX96 fi96T),
   (96, 0x8000000100000001557FA8A3, .sltiuX96 fi96T),
   (32, 0x15430B05, .addiX32 ciT),
   (32, 0x15470B05, .andiX32 ciT),
   (32, 0x154B0B05, .oriX32 ciT),
   (32, 0x154F0B05, .xoriX32 ciT),
   (32, 0x15530B05, .slliX32 ciT),
   (32, 0x15570B05, .srliX32 ciT)] ++
  [
   (32, 0x155B0B05, .sraiX32 ciT),
   (32, 0x155F0B05, .sltiX32 ciT),
   (32, 0x15630B05, .sltiuX32 ciT)]) = true := by decide +kernel

theorem test_branch_words : reads ([
   (64, 0xFFFFFFF616A5A8C2, .beq fbT),
   (64, 0xFFFFFFF616A5A8C6, .bne fbT),
   (64, 0xFFFFFFF616A5A8CA, .blt fbT),
   (64, 0xFFFFFFF616A5A8CE, .bge fbT),
   (64, 0xFFFFFFF616A5A8D2, .bltu fbT),
   (64, 0xFFFFFFF616A5A8D6, .bgeu fbT),
   (64, 0xFFFFFFF61025A8DA, .jal { fbT with sb := 0 }),
   (64, 0xFFFFFFC5557FA8DE, .jalr fiT),
   (64, 0x800007200206A8E2, .loopI flT),
   (96, 0xFFFFFFFD0000000216A5A8C3, .beqX96 fb96T),
   (96, 0xFFFFFFFD0000000216A5A8C7, .bneX96 fb96T),
   (96, 0xFFFFFFFD0000000216A5A8CB, .bltX96 fb96T),
   (96, 0xFFFFFFFD0000000216A5A8CF, .bgeX96 fb96T),
   (96, 0xFFFFFFFD0000000216A5A8D3, .bltuX96 fb96T),
   (96, 0xFFFFFFFD0000000216A5A8D7, .bgeuX96 fb96T),
   (96, 0xFFFFFFFD000000021025A8DB, .jalX96 { fb96T with sb := 0 }),
   (96, 0x8000000100000001557FA8DF, .jalrX96 fi96T),
   (32, 0xFFA1D501, .beqX32 cbT),
   (32, 0xFFA5D501, .bneX32 cbT),
   (32, 0xFFA9D501, .bltX32 cbT),
   (32, 0xFFADD501, .bgeX32 cbT),
   (32, 0xFFB1D501, .bltuX32 cbT),
   (32, 0xFFB5D501, .bgeuX32 cbT),
   (32, 0xFFFE0104, .jalX32 cjT)] ++
  [
   (64, 0x000000021165A9EA, .bqPush { fbT with sb := 5, off := 0 }),
   (64, 0xFFFFFFF61140A9EE, .bqBr { fbT with sa := 0, sb := 5 }),
   (96, 0xFFFFFFFD000000021140A9EF, .bqBrX96 { fb96T with sa := 0, sb := 5 })]) = true := by decide +kernel

theorem test_control_words : reads ([
   (64, 0x000B0474003EA8F2, .ctlRd { fyT with sd := 62, k := 0xb04 }),
   (64, 0x00021C740F80A8F6, .ctlWr { fyT with sa := 62, k := 0x21c }),
   (64, 0x00021C740F80A8FA, .ctlSet { fyT with sa := 62, k := 0x21c }),
   (64, 0x00021C740F80A8FE, .ctlClr { fyT with sa := 62, k := 0x21c })]) = true := by decide +kernel

theorem test_vector_words : reads ([
   (64, 0x8D40FE800ABCA902, .vadd { x3T with ty := 3, rm := 0, sat := 1 }),
   (64, 0x8D40FE800ABCA906, .vsub { x3T with ty := 3, rm := 0, sat := 1 }),
   (64, 0x8D40FE800ABCA90A, .vmul { x3T with ty := 3, rm := 0, sat := 1 }),
   (64, 0x8D40FE800ABCA90E, .vfma { x3T with ty := 3, rm := 0, sat := 1 }),
   (64, 0x0D46BE800ABCA912, .vdiv x3T),
   (64, 0x0D4680000ABCA916, .vsqrt { x3T with vb := 0 }),
   (64, 0x0D4680000ABCA91A, .vrcp { x3T with vb := 0 }),
   (64, 0x0D4680000ABCA91E, .vrsq { x3T with vb := 0 }),
   (64, 0x0D4680000ABCA922, .vexp { x3T with vb := 0 }),
   (64, 0x0D4680000ABCA926, .vlog { x3T with vb := 0 }),
   (64, 0x0D4680000ABCA92A, .vexp2 { x3T with vb := 0 }),
   (64, 0x0D4680000ABCA92E, .vlog2 { x3T with vb := 0 }),
   (64, 0x0D4680000ABCA932, .vsin { x3T with vb := 0 }),
   (64, 0x0D4680000ABCA936, .vcos { x3T with vb := 0 }),
   (64, 0x0D42BE800ABCA93A, .vmin { x3T with rm := 0 }),
   (64, 0x0D42BE800ABCA93E, .vmax { x3T with rm := 0 }),
   (64, 0x8D40C0000ABCA942, .vabs { x3T with rm := 0, ty := 3, sat := 1, vb := 0 }),
   (64, 0x8D40C0000ABCA946, .vneg { x3T with rm := 0, ty := 3, sat := 1, vb := 0 }),
   (64, 0x0D4280000ABCA94A, .vclass { x3T with rm := 0, vb := 0 }),
   (64, 0x0D42BE800ABCA94E, .vand { x3T with rm := 0 }),
   (64, 0x0D42BE800ABCA952, .vor { x3T with rm := 0 }),
   (64, 0x0D42BE800ABCA956, .vxor { x3T with rm := 0 }),
   (64, 0x0D42BE800ABCA95A, .vandn { x3T with rm := 0 }),
   (64, 0x0D417E800ABCA95E, .vsll { x3T with ty := 5, rm := 0 })] ++
  [
   (64, 0x0D417E800ABCA962, .vsrl { x3T with ty := 5, rm := 0 }),
   (64, 0x0D417E800ABCA966, .vsra { x3T with ty := 5, rm := 0 }),
   (64, 0x0D40FE800ABCA96A, .vmulh { x3T with ty := 3, rm := 0 }),
   (64, 0x0D41FE800ABCA96E, .vmulhu { x3T with ty := 7, rm := 0 }),
   (64, 0x3542BE80080DA972, .vcmp { x3T with vd := 13, rm := 0, md := 6 }),
   (64, 0x6D42BE800ABCA976, .vsel { x3T with rm := 0, md := 13 }),
   (64, 0x4D4680100ABCA97A, .vcvt { x3T with md := 9, vb := 1 })]) = true := by decide +kernel

theorem test_reduction_and_predicate_words : reads ([
   (64, 0x0D46BE800ABCA97E, .vcmul x3T),
   (64, 0x054680000ABCA982, .vredAdd { x3T with md := 0, vb := 0 }),
   (64, 0x054280000ABCA986, .vredMin { x3T with md := 0, rm := 0, vb := 0 }),
   (64, 0x054280000ABCA98A, .vredMax { x3T with md := 0, rm := 0, vb := 0 }),
   (64, 0x054680000ABCA98E, .vscanAdd { x3T with md := 0, vb := 0 }),
   (64, 0x0D42BE800ABCA992, .vperm { x3T with rm := 0 }),
   (64, 0x7542BE800ABCA996, .vslide { x3T with rm := 0, md := 14 }),
   (64, 0x7542BE800ABCA99A, .vrotm { x3T with rm := 0, md := 14 }),
   (64, 0x0D428000FABCA99E, .vbcast { x3T with rm := 0, va := 62, vb := 0 }),
   (64, 0x0D4280000ABCA9A2, .vmov { x3T with rm := 0, vb := 0 }),
   (64, 0x05428290FABCA9A6, .vins { x3T with rm := 0, md := 0, va := 62, vb := 41 }),
   (64, 0x0542829FA03EA9AA, .vext { x3T with rm := 0, md := 0, vd := 62, va := 0x3e8, vb := 41 }),
   (64, 0x0D41C0000ABCA9AE, .vpopc { x3T with ty := 7, rm := 0, vb := 0 }),
   (64, 0x0D41C0000ABCA9B2, .vclz { x3T with ty := 7, rm := 0, vb := 0 }),
   (64, 0x05428000F80DA9C2, .pcnt { x3T with rm := 0, md := 0, vd := 13, va := 62, vb := 0 }),
   (64, 0x054000B0380DA9C6, .pand { x3T with ty := 0, rm := 0, md := 0, vd := 13, va := 14, vb := 11 }),
   (64, 0x054000B0380DA9CA, .por { x3T with ty := 0, rm := 0, md := 0, vd := 13, va := 14, vb := 11 }),
   (64, 0x054000B0380DA9CE, .pxor { x3T with ty := 0, rm := 0, md := 0, vd := 13, va := 14, vb := 11 }),
   (64, 0x05400000380DA9D2, .pnot { x3T with ty := 0, rm := 0, md := 0, vd := 13, va := 14, vb := 0 }),
   (64, 0x05400000380DA9D6, .pfirst { x3T with ty := 0, rm := 0, md := 0, vd := 13, va := 14, vb := 0 }),
   (64, 0x05400000383EA9DA, .ppopc { x3T with ty := 0, rm := 0, md := 0, vd := 62, va := 14, vb := 0 }),
   (64, 0x05400000383EA9DE, .pany { x3T with ty := 0, rm := 0, md := 0, vd := 62, va := 14, vb := 0 }),
   (64, 0x0540000FA007A9E2, .qPush { x3T with ty := 0, rm := 0, md := 0, vd := 7, va := 0x3e8, vb := 0 }),
   (64, 0x054000001FE8A9E6, .qPop { x3T with ty := 0, rm := 0, md := 0, vd := 0x3e8, va := 7, vb := 0 })] ++
  [
   (32, 0x2B35A10C, .vaddX32 cvT),
   (32, 0x6B35A10C, .vsubX32 cvT),
   (32, 0xAB35A10C, .vmulX32 cvT),
   (32, 0xEB35A10C, .vfmaX32 cvT),
   (32, 0x2B35A10D, .vminX32 cvT),
   (32, 0x6B35A10D, .vmaxX32 cvT),
   (32, 0xAB35A10D, .vandX32 cvT),
   (32, 0xEB35A10D, .vorX32 cvT)]) = true := by decide +kernel

theorem test_memory_words : reads ([
   (64, 0xFFFB32C04C2DAA42, .ldB { fmT with z := 1 }),
   (64, 0xFFFB32C04C2DAA46, .ldH { fmT with z := 1 }),
   (64, 0xFFFB32C04C2DAA4A, .ldW { fmT with z := 1 }),
   (64, 0xFFF932C04C2DAA4E, .ldD fmT),
   (64, 0xFFF932C04C2DAA52, .stB fmT),
   (64, 0xFFF932C04C2DAA56, .stH fmT),
   (64, 0xFFF932C04C2DAA5A, .stW fmT),
   (64, 0xFFF932C04C2DAA5E, .stD fmT),
   (64, 0xFFF932C04FE9AA62, .vldRow { fmT with vd := 0x3e9 }),
   (64, 0xFFF932C04FE9AA66, .vstRow { fmT with vd := 0x3e9 }),
   (64, 0x000032F24FE9AA6A, .vldT { fmT with vd := 0x3e9, sb := 50, pi := 0, imm := 0 }),
   (64, 0x000032F24FE9AA6E, .vstT { fmT with vd := 0x3e9, sb := 50, pi := 0, imm := 0 }),
   (64, 0xFFF932F24FE9AA72, .vldFf { fmT with vd := 0x3e9, sb := 50 }),
   (64, 0x000032C04C2DAA76, .tagGet { fmT with pi := 0, imm := 0 }),
   (64, 0x000032F24C00AA7A, .tagSet { fmT with vd := 0, sb := 50, pi := 0, imm := 0 }),
   (96, 0x7FFFFFFE000332C04C2DAA43, .ldBX96 { fm96T with z := 1 }),
   (96, 0x7FFFFFFE000332C04C2DAA47, .ldHX96 { fm96T with z := 1 }),
   (96, 0x7FFFFFFE000332C04C2DAA4B, .ldWX96 { fm96T with z := 1 }),
   (96, 0x7FFFFFFE000132C04C2DAA4F, .ldDX96 fm96T),
   (96, 0x7FFFFFFE000132C04C2DAA53, .stBX96 fm96T),
   (96, 0x7FFFFFFE000132C04C2DAA57, .stHX96 fm96T),
   (96, 0x7FFFFFFE000132C04C2DAA5B, .stWX96 fm96T),
   (96, 0x7FFFFFFE000132C04C2DAA5F, .stDX96 fm96T),
   (96, 0x7FFFFFFE000132C04FE9AA63, .vldRowX96 { fm96T with vd := 0x3e9 })] ++
  [
   (96, 0x7FFFFFFE000132C04FE9AA67, .vstRowX96 { fm96T with vd := 0x3e9 }),
   (96, 0x7FFFFFFE000132F24FE9AA73, .vldFfX96 { fm96T with vd := 0x3e9, sb := 50 }),
   (32, 0xFFC24D08, .ldBX32 clT),
   (32, 0xFFC64D08, .ldHX32 clT),
   (32, 0xFFCA4D08, .ldWX32 clT),
   (32, 0xFFCE4D08, .ldDX32 clT),
   (32, 0xFFD24D08, .ldBZX32 clT),
   (32, 0xFFD64D08, .ldHZX32 clT),
   (32, 0xFFDA4D08, .ldWZX32 clT),
   (32, 0x80619909, .stBX32 ctT),
   (32, 0x80659909, .stHX32 ctT),
   (32, 0x80699909, .stWX32 ctT),
   (32, 0x806D9909, .stDX32 ctT),
   (32, 0xFF156A10, .vldRowX32 crT),
   (32, 0xFF1D6A10, .vstRowX32 crT)]) = true := by decide +kernel

theorem test_atomic_and_barrier_words : reads ([
   (64, 0x03CC263C0A01AA82, .vgat fxT),
   (64, 0x03CC263C0A01AA86, .vsct fxT),
   (64, 0x03CDA63C0A01AA8A, .vamoOr { fxT with sc := 6 }),
   (64, 0x03CDA63C0A01AA8E, .vamoAdd { fxT with sc := 6 }),
   (64, 0x03CDA63C0A01AA92, .vamoMax { fxT with sc := 6 }),
   (64, 0x003152017985AAA2, .amoAdd faT),
   (64, 0x003152017985AAA6, .amoSwap faT),
   (64, 0x003152017985AAAA, .amoAnd faT),
   (64, 0x003152017985AAAE, .amoOr faT),
   (64, 0x003152017985AAB2, .amoXor faT),
   (64, 0x003152017985AAB6, .amoMin faT),
   (64, 0x003152017985AABA, .amoMax faT),
   (64, 0x003152017985AABE, .amoMinu faT),
   (64, 0x003152017985AAC2, .amoMaxu faT),
   (64, 0x003152B17985AAC6, .amoCas { faT with sc := 44 }),
   (64, 0x000006769F80AAE2, .barInit { fyT with sa := 62, sb := 41, k := 6 }),
   (64, 0x000005740F80AAE6, .barArr { fyT with sa := 62, k := 5 }),
   (64, 0x000006769F80AAEA, .barWt { fyT with sa := 62, sb := 41, k := 6 }),
   (64, 0x000000740000AAEE, .tbar fyT),
   (64, 0x06ABCD740000AAF2, .fenceCls { fyT with k := 0x6abcd }),
   (64, 0x060000740000AAF6, .xfence { fyT with k := 0x60000 }),
   (64, 0x00003E740000AAFA, .wait { fyT with k := 62 }),
   (64, 0xFEDCBA740000AAFE, .waitc { fyT with k := 0xfedcba }),
   (64, 0x000000740F80AB02, .park { fyT with sa := 62 })] ++
  [
   (64, 0x00002F74003EAA02, .ndArg { fyT with sd := 62, k := 47 }),
   (64, 0x00000774003EAA06, .wid { fyT with sd := 62, k := 7 }),
   (64, 0x000000740000AA0A, .doneI fyT),
   (64, 0x000000740F80AA0E, .grSig { fyT with sa := 62 })]) = true := by decide +kernel

theorem test_engine_and_system_words : reads ([
   (64, 0x1BD5A91F44A1AB42, .mtxLdt { feT with rel := 0 }),
   (64, 0x3805A91F44A1AB46, .mtxWb { feT with a3 := 0 }),
   (64, 0x3805A91F44A1AB4A, .mtxGo { feT with a3 := 0 }),
   (64, 0x1805A91F44A1AB4E, .mtxClr { feT with a3 := 0, rel := 0 }),
   (64, 0x1BD3E91F44A1AB52, .mtxRd { feT with a2 := 15, rel := 0 }),
   (64, 0x3BD5A91F44A1AB56, .mtxSt feT),
   (64, 0x3800291F44A1AB62, .przCfg { feT with a2 := 0, a3 := 0 }),
   (64, 0x3BD5A91F44A1AB66, .przFft feT),
   (64, 0x3BD5A91F44A1AB6A, .przSht feT),
   (64, 0x3BD5A91F44A1AB6E, .cpy feT),
   (64, 0x3BD5A91F44A1AB72, .cpyCvt feT),
   (64, 0xBBD5A91F44A1AB76, .cpyG { feT with fn := 2 }),
   (64, 0x3805A91F44A1AB7A, .mirGo { feT with a3 := 0 }),
   (64, 0x3BD5A91F44A1AB82, .colWr feT),
   (64, 0x3BD5A91F44A1AB86, .colRed feT),
   (64, 0x3BD5A91F44A1AB8A, .colArm feT),
   (64, 0x3BD5A91F44A1AB8E, .colCtr feT),
   (64, 0x3805A91F44A1AB92, .cowMark { feT with a3 := 0 }),
   (64, 0x3BD5A91F44A1AB96, .drnGo feT),
   (64, 0x008025740000ABC2, .svc { fyT with k := 0x8025 }),
   (64, 0x00000000000003C6, .rte { fyT with g := ⟨0, 0⟩, fp := 0, fo := 0 }),
   (64, 0x008001740000ABCA, .brk { fyT with k := 0x8001 }),
   (64, 0x000000740F80ABCE, .halt { fyT with sa := 62 }),
   (64, 0x0AF12C029F80ABD2, .rgnOpen { fyT with sa := 62, sb := 41, fp := 0, fo := 0, k := 0xaf12c })] ++
  [
   (64, 0x200000000000ABD2, .rgnClose { fyT with fp := 0, fo := 0, k := 0x200000 }),
   (64, 0x5A3000769F83ABD6, .tinvInvalidate { fyT with sd := 3, sa := 62, sb := 41, k := 0x5a3000 }),
   (64, 0x5A3001769F83ABD6, .tinvInvalidateTensor { fyT with sd := 3, sa := 62, sb := 41, k := 0x5a3001 }),
   (64, 0x5A3002769F83ABD6, .tinvInvalidateAsid { fyT with sd := 3, sa := 62, sb := 41, k := 0x5a3002 }),
   (64, 0x5A3003769F83ABD6, .tinvUnmap { fyT with sd := 3, sa := 62, sb := 41, k := 0x5a3003 }),
   (64, 0x5A3004769F83ABD6, .tinvMoveBegin { fyT with sd := 3, sa := 62, sb := 41, k := 0x5a3004 }),
   (64, 0x5A3005769F83ABD6, .tinvMoveCommit { fyT with sd := 3, sa := 62, sb := 41, k := 0x5a3005 }),
   (64, 0x5A3006769F83ABD6, .tinvMoveAbort { fyT with sd := 3, sa := 62, sb := 41, k := 0x5a3006 }),
   (64, 0x5A3000769F83ABDA, .pin { fyT with sd := 3, sa := 62, sb := 41, k := 0x5a3000 }),
   (64, 0x5A3000769F83ABDE, .unpin { fyT with sd := 3, sa := 62, sb := 41, k := 0x5a3000 }),
   (64, 0x00000374003EABE2, .fltRd { fyT with sd := 62, k := 3 })]) = true := by decide +kernel

/-- The decoder answers this refusal for the `n` bytes of `w`. -/
noncomputable def refuses (l : List (Nat × Nat × Reject)) : Bool := l.all fun x => match decode (natToBytes x.1 x.2.1) with | .error e => e == x.2.2 | .ok _ => false

/-- A word for each refusal (03 R63, R64, R66 to R75): one byte of a 64-bit word; major opcode 0x11; OP9 0x01B; OP9 0; CND 6 of a branch; mode 7 of tinv; bit 63 of F-S; the 30-bit immediate that the literal replaces; add in a 96-bit word; (~p0); FP 7; FO 7; SC 7; sc of add; TY 12; RM 5; SAT of a floating-point sum; MOD 2; a shift by 128; control register 0x00A. -/
theorem test_refused_words : refuses [
   (1, 0x02, .truncated),
   (4, 0x00000011, .majorUnallocated),
   (8, 0x000000000000006E, .opcodeUnallocated),
   (8, 0x0000000000000002, .opcodeUnallocated),
   (4, 0x00180001, .selUnallocated),
   (8, 0x5A3007769F83ABD6, .selUnallocated),
   (8, 0x8000330335A1A806, .reservedNonzero),
   (12, 0x8000000100000005557FA883, .replacedNonzero),
   (12, 0x000000000000330335A1A807, .noLiteralForm),
   (8, 0x0000330335A18006, .guardNeverTrue),
   (8, 0x0000370335A1A806, .fifoSeven),
   (8, 0x00003B0335A1A806, .fifoSeven),
   (8, 0x3FD5A91F44A1AB6E, .scopeSeven),
   (8, 0x0000330735A1A806, .unusedNonzero),
   (8, 0x0D473E800ABCA902, .typeRefused),
   (8, 0x0D56BE800ABCA902, .roundingRefused),
   (8, 0x8D46BE800ABCA902, .satRefused),
   (8, 0x1546BE800ABCA902, .modRefused),
   (8, 0x00000201557FA892, .immediateRefused),
   (8, 0x00000A74003EA8F2, .noSuchRegister)] = true := by decide +kernel

/-- The words the manual writes out, with the instructions it says they are (03 "Worked encodings" and the examples of
chapters 04, 07, 09, 12 to 15 and 18). -/
theorem test_manual_words : reads ([
   (32, 0x009CC500, .addX32 ⟨5, 6, 7⟩),
   (64, 0x0046BE800ABC9902, .vadd ⟨⟨1, 3⟩, 700, 2, 1000, 10, 1, 2, 0, 0, 0⟩),
   (96, 0x0000010C00017000000900AB, .liX96 ⟨unguarded, 9, 0x17000, 0x10C⟩),
   (32, 0xFFC06305, .addiX32 ⟨3, 3, 0x3FF⟩),
   (32, 0xFFA4E501, .bneX32 ⟨5, 7, 0x7FD⟩),
   (64, 0x00000040008100DE, .jalr ⟨unguarded, 1, 2, 0, 0, 16⟩),
   (32, 0x00C00B05, .addiX32 ⟨11, 0, 3⟩),
   (64, 0x00000A00005800E2, .loopI ⟨unguarded, 0, 0, 11, 0, 5⟩),
   (64, 0x00000600040500E2, .loopI ⟨unguarded, 1, 1, 0, 2, 3⟩),
   (32, 0x00414A05, .addiX32 ⟨10, 10, 1⟩),
   (32, 0x00A98C00, .addX32 ⟨12, 12, 10⟩),
   (64, 0x000000000000020A, .doneI ⟨unguarded, 0, 0, 0, 0, 0, 0⟩),
   (64, 0x0000210000090202, .ndArg ⟨unguarded, 9, 0, 0, 0, 0, 33⟩),
   (64, 0x0000020000070206, .wid ⟨unguarded, 7, 0, 0, 0, 0, 2⟩),
   (64, 0x000000100000020A, .doneI ⟨unguarded, 0, 0, 0, 4, 0, 0⟩),
   (64, 0x000000000100020E, .grSig ⟨unguarded, 0, 4, 0, 0, 0, 0⟩),
   (32, 0x00688708, .ldWX32 ⟨7, 4, 3⟩),
   (64, 0x00205200718502A2, .amoAdd ⟨unguarded, 5, 6, 7, 0, 2, 5, 0, 0, 1⟩)] ++ [
   (64, 0x00000600510002EA, .barWt ⟨unguarded, 0, 4, 5, 0, 0, 6⟩),
   (64, 0x18C2CA0000000342, .mtxLdt ⟨unguarded, 0, 0, 0, 0, 10, 11, 12, 6, 0, 0⟩),
   (64, 0x380491000003034A, .mtxGo ⟨unguarded, 3, 0, 0, 0, 17, 18, 0, 6, 1, 0⟩),
   (64, 0x1860C80000000352, .mtxRd ⟨unguarded, 0, 0, 0, 0, 8, 3, 6, 6, 0, 0⟩),
   (64, 0x18000A0000000362, .przCfg ⟨unguarded, 0, 0, 0, 0, 10, 0, 0, 6, 0, 0⟩),
   (64, 0x18D30B0000420366, .przFft ⟨unguarded, 2, 1, 0, 0, 11, 12, 13, 6, 0, 0⟩),
   (64, 0x5965540000050376, .cpyG ⟨unguarded, 5, 0, 0, 0, 20, 21, 22, 6, 0, 1⟩),
   (64, 0x3407DE000007037A, .mirGo ⟨unguarded, 7, 0, 0, 0, 30, 31, 0, 5, 1, 0⟩),
   (64, 0x18928B0000010372, .cpyCvt ⟨unguarded, 1, 0, 0, 0, 11, 10, 9, 6, 0, 0⟩),
   (64, 0x34C2CA0000050386, .colRed ⟨unguarded, 5, 0, 0, 0, 10, 11, 12, 5, 1, 0⟩),
   (64, 0x195014000000038E, .colCtr ⟨unguarded, 0, 0, 0, 0, 20, 0, 21, 6, 0, 0⟩),
   (64, 0x1801440000020392, .cowMark ⟨unguarded, 2, 0, 0, 0, 4, 5, 0, 6, 0, 0⟩),
   (64, 0x00606400614003D2, .rgnOpen ⟨unguarded, 0, 5, 6, 0, 0, 0x6064⟩),
   (64, 0x00C00500510303D6, .tinvMoveCommit ⟨unguarded, 3, 4, 5, 0, 0, 0xC005⟩),
   (64, 0x00002500000003C2, .svc ⟨unguarded, 0, 0, 0, 0, 0, 0x25⟩),
   (64, 0x00000100000003CA, .brk ⟨unguarded, 0, 0, 0, 0, 0, 1⟩),
   (64, 0x00000000024003CE, .halt ⟨unguarded, 0, 9, 0, 0, 0, 0⟩),
   (64, 0x00000100000403E2, .fltRd ⟨unguarded, 4, 0, 0, 0, 0, 1⟩)]) = true := by decide +kernel

/-- What `Instr.check` answers for ill-formed terms, one for each reason that a term can give (03 R66 to R71). -/
theorem test_ill_formed_terms :
    [(Instr.add { fs0 with g := ⟨1, 0⟩ }).check, (Instr.add { fs0 with fp := 7 }).check, (Instr.cpy { fe0 with sc := 7 }).check,
     (Instr.add { fs0 with sc := 1 }).check, (Instr.vadd { x30 with ty := 12 }).check, (Instr.vadd { x30 with ty := 10, rm := 5 }).check,
     (Instr.vadd { x30 with ty := 10, sat := 1 }).check, (Instr.vadd { x30 with ty := 10, md := 2 }).check, (Instr.slli { fi0 with imm := 128 }).check,
     (Instr.ctlRd { fy0 with k := 0xA }).check]
    = [some .guardNeverTrue, some .fifoSeven, some .scopeSeven, some .unusedNonzero, some .typeRefused, some .roundingRefused,
       some .satRefused, some .modRefused, some .immediateRefused, some .noSuchRegister] := by decide +kernel

/-! ### The manual's worked results -/

/-- 02: `srai` of 0xFFFF_FFFF_8000_0000 by 64, `srl` by 100, and the arithmetic right shift of a .i8 element 0x90 by 9. -/
theorem test_shifts : sar7 0xFFFFFFFF80000000 64 = 0xFFFFFFFFFFFFFFFF ∧ shr7 0xFFFFFFFF80000000 100 = 0 ∧
    (eSra 0 0 false 0x90 9 0).1 = 0xFF := by decide +kernel

/-- 04: `ext s5, s6, 60, 4` and `ext.z` of 0x9000_0000_0000_0000. -/
theorem test_ext : extField 0x9000000000000000 60 4 false = 0xFFFFFFFFFFFFFFF9 ∧ extField 0x9000000000000000 60 4 true = 9 := by
  decide +kernel

/-- 06: the conversions of 1.0, 3.0 and -2.0 from .f32 to .bf16. -/
theorem test_narrowing : [0x3F800000, 0x40400000, 0xC0000000].map (fun x => (convertElem 10 9 0 false x).1) = [0x3F80, 0x4040, 0xC000] := by
  decide +kernel

/-- 13: the forward transform of (1, 2, 3, 4) is (10, -2 + 2i, -2, -2 - 2i), with no flag, by one radix 4 as by (2, 2). -/
theorem test_transform : fft f32 false (codeFactors 2) [(0x3F800000, 0), (0x40000000, 0), (0x40400000, 0), (0x40800000, 0)]
    = ([(0x41200000, 0), (0xC0000000, 0x40000000), (0xC0000000, 0), (0xC0000000, 0xC0000000)], 0) := by decide +kernel

/-- 13: with LMAX 2 and MMAX 1 the coefficients run (0,0), (1,0), (2,0), (1,1), (2,1), (1,-1), (2,-1). -/
theorem test_coefficients : shtCount ⟨[0, 0, 0, 0, 0x20001, 0, 0, 0], true, 0⟩ = 7 ∧ shtBase 3 0 = 0 ∧ shtBase 3 1 = 3 ∧ shtBase 3 (-1) = 5 := by
  decide +kernel

/-- 16: of 1,200 W the domains are granted 100, 770, 260 and 70 W, and nothing is left for the cores. -/
theorem test_grants : grants [100, 770, 260, 130] 1200 = ([100, 770, 260, 70], 0) := by decide +kernel

/-! ### Witnesses of the obligations -/

/-! ### Each statement's hypotheses hold somewhere -/

theorem test_witness_ScalarResults :
    (∃ s f i r, (i, r) ∈ registerResults f (s.sreg s.cur f.sa.toNat) (s.sreg s.cur f.sb.toNat) (s.sreg s.cur f.sc.toNat) ∧
      Executes s f.g f.fp f.fo [f.sd.toNat, f.sa.toNat, f.sb.toNat, f.sc.toNat] [] ∧ Executes s f.g f.fp f.fo [] []) ∧
    (∃ s f i r, (i, r) ∈ shortResults f (s.sreg s.cur f.sa.toNat) (s.sreg s.cur f.sb.toNat) ∧
      Executes s unguarded 0 0 [f.sd.toNat, f.sa.toNat, f.sb.toNat, 0] [] ∧ Executes s unguarded 0 0 [] []) ∧
    (∃ s f i r, (i, r) ∈ immediateResults f (s.sreg s.cur f.sa.toNat) ∧ Executes s f.g f.fp f.fo [f.sd.toNat, f.sa.toNat] []) ∧
    (∃ s f i r, (i, r) ∈ shortImmediates f (s.sreg s.cur f.sa.toNat) ∧ Executes s unguarded 0 0 [f.sd.toNat, f.sa.toNat] []) ∧
    (∃ s f i r, (i, r) ∈ longImmediates f (s.sreg s.cur f.sa.toNat) ∧ Executes s f.g f.fp f.fo [f.sd.toNat, f.sa.toNat] []) ∧
    (∃ s, ∃ f : FK, Executes s f.g 0 0 [f.sd.toNat] []) ∧ ∃ s, ∃ f : FK96, Executes s f.g 0 0 [f.sd.toNat] [] :=
  ⟨⟨base, fs0, _, _, List.mem_cons_self, base_executes _ _, base_executes _ _⟩,
    ⟨base, csT, _, _, List.mem_cons_self, base_executes _ _, base_executes _ _⟩,
    ⟨base, fi0, _, _, List.mem_cons_self, base_executes _ _⟩, ⟨base, ciT, _, _, List.mem_cons_self, base_executes _ _⟩,
    ⟨base, ⟨pass, 4, 1, 0, 0, 16⟩, _, _, List.mem_cons_self, base_executes _ _⟩, ⟨base, ⟨pass, 4, 7⟩, base_executes _ _⟩,
    base, ⟨pass, 4, 7, 8⟩, base_executes _ _⟩

/-- `base` after fifteen takings of the branch at the pc with the load that it repeats. -/
def spun : State :=
  { onBase fun c => { c with lastLoad := some ⟨[5], 7, []⟩, spin := some ⟨fetchHandle, 15, (List.range 63).map fun i => base.sreg 1 (i + 1), some ([5], 7)⟩ } with
    cores := [(0, { base.core 0 with parklim := 9 })] }

/-- One branch of each word is taken and one is not; and the sixteenth taking of one that goes back. -/
theorem test_witness_BranchResults :
    (∃ s f i c, (i, c) ∈ branches f (s.sreg s.cur f.sa.toNat) (s.sreg s.cur f.sb.toNat) ∧
      Executes s f.g f.fp f.fo [f.sa.toNat, f.sb.toNat] [] ∧ c = false) ∧
    (∃ s f i c, (i, c) ∈ branches f (s.sreg s.cur f.sa.toNat) (s.sreg s.cur f.sb.toNat) ∧
      Executes s f.g f.fp f.fo [f.sa.toNat, f.sb.toNat] [] ∧ c = true ∧ s.now.pc ≤ s.now.pc + BitVec.ofInt 64 (4 * f.off.toInt)) ∧
    (∃ s f i c, (i, c) ∈ branches f (s.sreg s.cur f.sa.toNat) (s.sreg s.cur f.sb.toNat) ∧
      Executes s f.g f.fp f.fo [f.sa.toNat, f.sb.toNat] [] ∧ c = true ∧ s.now.pc + BitVec.ofInt 64 (4 * f.off.toInt) < s.now.pc) ∧
    (∃ s f i c, (i, c) ∈ shortBranches f (s.sreg s.cur f.sa.toNat) (s.sreg s.cur f.sb.toNat) ∧
      Executes s unguarded 0 0 [f.sa.toNat, f.sb.toNat] [] ∧ c = true) ∧
    (∃ s f i c, (i, c) ∈ longBranches f (s.sreg s.cur f.sa.toNat) (s.sreg s.cur f.sb.toNat) ∧
      Executes s f.g f.fp f.fo [f.sa.toNat, f.sb.toNat] [] ∧ c = true) ∧
    (∃ s f i c, (i, c) ∈ branches f (s.sreg s.cur f.sa.toNat) (s.sreg s.cur f.sb.toNat) ∧
      Executes s f.g f.fp f.fo [f.sa.toNat, f.sb.toNat] [] ∧ c = true ∧
      (taking s (s.now.pc + BitVec.ofInt 64 (4 * f.off.toInt))).run = .parked [5]) :=
  ⟨⟨base, fb0, _, _, List.mem_cons_self, base_executes _ _, by decide +kernel⟩,
    ⟨base, fb0, _, _, List.mem_cons_of_mem _ List.mem_cons_self, base_executes _ _, by decide +kernel⟩,
    ⟨base, { fb0 with off := -1 }, _, _, List.mem_cons_of_mem _ List.mem_cons_self, base_executes _ _, by decide +kernel⟩,
    ⟨base, ⟨1, 3, 5⟩, _, _, List.mem_cons_of_mem _ List.mem_cons_self, base_executes _ _, by decide +kernel⟩,
    ⟨base, fb96, _, _, List.mem_cons_of_mem _ List.mem_cons_self, base_executes _ _, by decide +kernel⟩,
    spun, { fb0 with off := -1 }, _, _, List.mem_cons_of_mem _ List.mem_cons_self,
    executes_of (issues_of (by decide +kernel)) (by decide +kernel), by decide +kernel, by decide +kernel⟩

/-- `jal` in its words; an aligned target of `jalr` in both words, and a misaligned one. -/
theorem test_witness_JumpResults :
    (∃ s, ∃ f : FB, ∃ c : CJ, ∃ m : FB96, Executes s f.g f.fp f.fo [f.sa.toNat] [] ∧ Executes s unguarded 0 0 [c.sd.toNat] [] ∧
      Executes s m.g m.fp m.fo [m.sa.toNat] []) ∧
    ∀ b : Bool, (∃ s, ∃ f : FI, Executes s f.g f.fp f.fo [f.sd.toNat, f.sa.toNat] [] ∧ s.now.tip = false ∧
      decide ((s.sreg s.cur f.sa.toNat + f.imm.signExtend 64).toNat % 4 = 0) = b) ∧
      ∃ s, ∃ f : FI96, Executes s f.g f.fp f.fo [f.sd.toNat, f.sa.toNat] [] ∧ s.now.tip = false ∧
      decide ((s.sreg s.cur f.sa.toNat + f.lit.signExtend 64).toNat % 4 = 0) = b := by
  refine ⟨⟨base, fb0, cjT, fb96, base_executes _ _, base_executes _ _, base_executes _ _⟩, fun b =>
    ⟨⟨base, { fi0 with imm := if b then 3 else 0 }, base_executes _ _, by decide +kernel, ?_⟩,
      base, ⟨pass, 4, 1, 0, 0, if b then -1 else 0⟩, base_executes _ _, by decide +kernel, ?_⟩⟩ <;> revert b <;> decide +kernel

/-- A count from the word and one from a register; a count of 0 with a body end that can be fetched and with one that cannot. -/
theorem test_witness_LoopSetup :
    (∃ s f, (Instr.loopI f).wf ∧ Executes s f.g 0 0 [f.sa.toNat] [] ∧ f.immc = 1 ∧ f.cnt ≠ 0) ∧
    (∃ s f, (Instr.loopI f).wf ∧ Executes s f.g 0 0 [f.sa.toNat] [] ∧ f.immc = 0 ∧
      BitVec.ofNat 32 (s.sreg s.cur f.sa.toNat).toNat ≠ 0) ∧
    (∃ s f, (Instr.loopI f).wf ∧ Executes s f.g 0 0 [f.sa.toNat] [] ∧ s.now.tip = false ∧
      (s.sreg s.cur f.sa.toNat).toNat % 2 ^ 32 = 0 ∧ f.immc = 0 ∧
      ∃ bs, fetchBytes s (s.codeCtx s.cur) true 4 (s.now.pc + BitVec.ofNat 64 (4 * f.fin.toNat)) = .bytes bs) ∧
    (∃ s f, (Instr.loopI f).wf ∧ Executes s f.g 0 0 [f.sa.toNat] [] ∧ s.now.tip = false ∧ f.cnt.toNat = 0 ∧ f.immc = 1 ∧
      ∃ code h w0, fetchBytes s (s.codeCtx s.cur) true 4 (s.now.pc + BitVec.ofNat 64 (4 * f.fin.toNat)) = .trap code h w0) :=
  ⟨⟨base, ⟨pass, 3, 1, 0, 1, 2⟩, by decide +kernel, base_executes _ _, by decide +kernel⟩,
    ⟨base, ⟨pass, 0, 0, 1, 0, 2⟩, by decide +kernel, base_executes _ _, by decide +kernel⟩,
    ⟨base, ⟨pass, 0, 0, 0, 0, 2⟩, by decide +kernel, base_executes _ _, by decide +kernel, by decide +kernel, rfl, bytes_of (by decide +kernel)⟩,
    base, ⟨pass, 0, 1, 0, 0, 1024⟩, by decide +kernel, base_executes _ _, by decide +kernel, by decide +kernel, rfl,
    trap_of (by decide +kernel)⟩

/-- Levels 1 and 3 end at the instruction: level 3 has one pass left, level 1 two. -/
def looping : State := onBase fun c => { c with l1 := ⟨2, 8, fetchHandle⟩, l3 := ⟨1, 4, fetchHandle⟩ }

/-- Each form at the end of those levels, and at the end of one that is finished with it. -/
theorem test_witness_LoopEnd :
    (∃ (s : State) (fs : FS), Issues s fs.fp fs.fo [] [] ∧ ends s.now 1 ∧ 1 < (s.now.loop 1).lc.toNat ∧ ends s.now 3 ∧
      (∀ m, m < 4 → 1 < m → ends s.now m → (s.now.loop m).lc = 1)) ∧
    (∃ (s : State) (fs : FS), Issues s fs.fp fs.fo [] [] ∧ ends s.now 3 ∧ ∀ m, m < 4 → ends s.now m → (s.now.loop m).lc = 1) ∧
    (∃ (s : State) (fs : FS) (fi : FI) (fl : FI96) (fb : FB) (fm : FB96) (y : GuardedForm), y ∈ guardedForms fs fi fl fb fm ∧
      Issues s y.fp y.fo y.sregs [] ∧ guardTrue s s.cur y.g = false ∧ ends s.now 1) ∧
    (∃ (s : State) (fb : FB) (x : Instr), (x, false) ∈ branches fb (s.sreg s.cur fb.sa.toNat) (s.sreg s.cur fb.sb.toNat) ∧
      Issues s fb.fp fb.fo [fb.sa.toNat, fb.sb.toNat] [] ∧ ends s.now 1) ∧
    (∃ (s : State) (fs : FS) (x : Instr) (r : Word),
      (x, r) ∈ registerResults fs (s.sreg s.cur fs.sa.toNat) (s.sreg s.cur fs.sb.toNat) (s.sreg s.cur fs.sc.toNat) ∧
      Issues s fs.fp fs.fo [fs.sd.toNat, fs.sa.toNat, fs.sb.toNat, fs.sc.toNat] [] ∧ guardTrue s s.cur fs.g = true ∧ ends s.now 1) := by
  have e1 : ends looping.now 1 := by unfold ends; decide +kernel
  refine ⟨⟨looping, fs0, issues_of (by decide +kernel), e1, by decide +kernel, by unfold ends; decide +kernel, by unfold ends; decide +kernel⟩,
    ⟨onBase fun c => { c with l3 := ⟨1, 4, fetchHandle⟩ }, fs0, issues_of (by decide +kernel), by unfold ends; decide +kernel, by unfold ends; decide +kernel⟩,
    ⟨looping, { fs0 with g := ⟨0, 3⟩ }, fi0, fi96T, fb0, fb96, _, List.mem_append_left _ (List.mem_append_left _ (List.mem_append_left _
      (List.mem_append_left _ (List.mem_map_of_mem List.mem_cons_self)))), issues_of (by decide +kernel), by decide +kernel, e1⟩,
    ⟨looping, fb0, .beq fb0, ?_, issues_of (by decide +kernel), e1⟩,
    looping, fs0, _, _, List.mem_cons_self, issues_of (by decide +kernel), by decide +kernel, e1⟩
  rw [branches, show decide (looping.sreg looping.cur fb0.sa.toNat = looping.sreg looping.cur fb0.sb.toNat) = false by decide +kernel]
  exact List.mem_cons_self

/-- Signed and unsigned types, and a guard with disabled elements. -/
theorem test_witness_IntegerElementResults : ∃ s f f' x y, ∃ val val' : Nat → Nat → Nat → Nat,
    x.wf ∧ f.ty.toNat ≤ 7 ∧ (∀ a b c, (x, val a b c) ∈ integerElements f a b c) ∧ Issues s f.fp f.fo [] [f.vd.toNat, f.va.toNat, f.vb.toNat] ∧
    y.wf ∧ 8 ≤ f'.ty.toNat ∧ (∀ a b c, (y, val' a b c) ∈ bitElements f' a b) ∧
    Issues s f'.fp f'.fo [] [f'.vd.toNat, f'.va.toNat, f'.vb.toNat] ∧ NoLoopEnd s.now ∧ guardPred s s.cur f'.g = 0 :=
  ⟨base, x30, { x30 with ty := 10, g := ⟨0, 3⟩ }, .vadd x30, .vand { x30 with ty := 10, g := ⟨0, 3⟩ }, _, _, by decide +kernel, by decide,
    fun _ _ _ => List.mem_cons_self, base_issues _ _, by decide +kernel, by decide, fun _ _ _ => List.mem_cons_self, base_issues _ _,
    noLoop_of (by decide +kernel), by decide +kernel⟩

theorem test_witness_ShortElementResults :
    (∃ s f x, ∃ val : Nat → Nat → Nat → Nat, f.ty.toNat ≤ 7 ∧ (∀ a b c, (x, val a b c) ∈ shortElements f a b c) ∧
      Issues s 0 0 [] [f.vd.toNat, f.va.toNat, f.vb.toNat] ∧ NoLoopEnd s.now) ∧
    (∃ s f, ∃ val : Nat → Nat → Nat → Nat, f.ty = 11 ∧ (∀ a b c, (Instr.vorX32 f, val a b c) ∈ shortElements f a b c) ∧
      Issues s 0 0 [] [f.vd.toNat, f.va.toNat, f.vb.toNat] ∧ NoLoopEnd s.now) :=
  ⟨⟨base, { cvT with ty := 2 }, _, _, by decide, fun _ _ _ => List.mem_cons_self, base_issues _ _, noLoop_of (by decide +kernel)⟩,
    base, { cvT with ty := 11 }, fun a b _ => a ||| b, rfl, fun _ _ _ => by simp [shortElements], base_issues _ _, noLoop_of (by decide +kernel)⟩

/-- A static mode, DYN with a mode, and DYN without one; and the sum of two infinities of opposite sign. -/
theorem test_witness_FloatElementResults :
    (∃ s f x rounds h, x.wf ∧ 8 ≤ f.ty.toNat ∧ (x, rounds, h) ∈ floatElements f ∧
      Issues s f.fp f.fo [] [f.vd.toNat, f.va.toNat, f.vb.toNat] ∧ NoLoopEnd s.now ∧ f.rm ≠ 7) ∧
    (∃ s f x h, x.wf ∧ 8 ≤ f.ty.toNat ∧ (x, true, h) ∈ floatElements f ∧
      Issues s f.fp f.fo [] [f.vd.toNat, f.va.toNat, f.vb.toNat] ∧ NoLoopEnd s.now ∧ f.rm = 7 ∧ field s.now.fpctl 0 3 ≤ 4) ∧
    (∃ s f x h, x.wf ∧ 8 ≤ f.ty.toNat ∧ (x, true, h) ∈ floatElements f ∧
      Issues s f.fp f.fo [] [f.vd.toNat, f.va.toNat, f.vb.toNat] ∧ NoLoopEnd s.now ∧ f.rm = 7 ∧ 4 < field s.now.fpctl 0 3 ∧
      s.now.tip = false) ∧
    (∃ f x rounds h a b c r, x.wf ∧ 8 ≤ f.ty.toNat ∧ (x, rounds, h) ∈ floatElements f ∧ a < 2 ^ tyWidth f.ty.toNat ∧
      b < 2 ^ tyWidth f.ty.toNat ∧ c < 2 ^ tyWidth f.ty.toNat ∧ (x, some r) ∈ specials f f.ty.toNat a b c ∧ r = (0x7FC00000, fNV)) :=
  ⟨⟨base, { x30 with ty := 8, rm := 4 }, _, _, _, by decide +kernel, by decide, List.mem_cons_self, base_issues _ _,
      noLoop_of (by decide +kernel), by decide⟩,
    ⟨base, { x30 with ty := 10, rm := 7 }, _, _, by decide +kernel, by decide, List.mem_cons_self, base_issues _ _,
      noLoop_of (by decide +kernel), by decide, by decide +kernel⟩,
    ⟨onBase fun c => { c with fpctl := 5 }, { x30 with ty := 11, rm := 7 }, _, _, by decide +kernel, by decide, List.mem_cons_self,
      issues_of (by decide +kernel), noLoop_of (by decide +kernel), by decide, by decide +kernel, by decide +kernel⟩,
    { x30 with ty := 10 }, .vadd { x30 with ty := 10 }, _, _, 0x7F800000, 0xFF800000, 0, (0x7FC00000, fNV), by decide +kernel, by decide,
    List.mem_cons_self, by decide, by decide, by decide, by simp [specials, isNaN, magnitude, infinity, isInfinite, tyWidth, sigBits, negative, canonicalNaN, x30], rfl⟩

theorem test_witness_CompareResults : ∃ s f, (Instr.vcmp f).wf ∧ Issues s f.fp f.fo [] [f.va.toNat, f.vb.toNat] ∧ NoLoopEnd s.now :=
  ⟨base, { x30 with ty := 10, md := 6 }, by decide +kernel, base_issues _ _, noLoop_of (by decide +kernel)⟩

/-- An integer sum, a complex product in the mode of the register, a scan with no enabled element, and a mode that is none. -/
theorem test_witness_WideElementResults :
    (∃ s f, ∃ val : Nat → Nat × Fl, (.vredAdd f, val) ∈ wideElements s f 0 ∧ (Instr.vredAdd f).wf ∧ Issues s f.fp f.fo [] [f.vd.toNat, f.va.toNat] ∧
      NoLoopEnd s.now ∧ f.ty.toNat ≤ 7 ∧ f.rm = 0) ∧
    (∃ s f m, ∃ val : Nat → Nat × Fl, (.vcmul f, val) ∈ wideElements s f m ∧ (Instr.vcmul f).wf ∧
      Issues s f.fp f.fo [] [f.vd.toNat, f.va.toNat, f.vb.toNat] ∧ NoLoopEnd s.now ∧ f.rm = 7 ∧ m = field s.now.fpctl 0 3 ∧ m ≤ 4) ∧
    (∃ s f, ∃ val : Nat → Nat × Fl, (.vscanAdd f, val) ∈ wideElements s f 0 ∧ (Instr.vscanAdd f).wf ∧ Issues s f.fp f.fo [] [f.vd.toNat, f.va.toNat] ∧
      NoLoopEnd s.now ∧ f.rm = 0 ∧ guardPred s s.cur f.g = 0) ∧
    (∃ s f, wideRounds f (.vredAdd f) ∧ (Instr.vredAdd f).wf ∧ Issues s f.fp f.fo [] [f.vd.toNat, f.va.toNat] ∧ NoLoopEnd s.now ∧ f.rm = 7 ∧
      4 < field s.now.fpctl 0 3 ∧ s.now.tip = false) :=
  ⟨⟨base, { x30 with vb := 0 }, _, List.mem_cons_of_mem _ (List.mem_cons_of_mem _ List.mem_cons_self), by decide +kernel, base_issues _ _,
      noLoop_of (by decide +kernel), by decide⟩,
    ⟨base, { x30 with ty := 10, rm := 7 }, 0, _, List.mem_cons_of_mem _ List.mem_cons_self, by decide +kernel, base_issues _ _,
      noLoop_of (by decide +kernel), by decide +kernel⟩,
    ⟨base, { x30 with vb := 0, g := ⟨0, 3⟩ }, _, List.mem_of_getLast? rfl, by decide +kernel, base_issues _ _, noLoop_of (by decide +kernel), by decide +kernel⟩,
    onBase fun c => { c with fpctl := 5 }, { x30 with ty := 10, rm := 7, vb := 0 }, Or.inr (Or.inr ⟨Or.inl rfl, by decide⟩), by decide +kernel,
    issues_of (by decide +kernel), noLoop_of (by decide +kernel), by decide +kernel⟩

theorem test_witness_PermuteResults :
    (∃ s f x ss vs zero h, (x, ss, vs, zero, h) ∈ permutes s f ∧ x.wf ∧ Issues s f.fp f.fo ss vs ∧ NoLoopEnd s.now) ∧
    (∃ s f, (Instr.vext f).wf ∧ Issues s f.fp f.fo [f.vd.toNat, f.vb.toNat] [f.va.toNat] ∧ NoLoopEnd s.now ∧
      (s.sreg s.cur f.vb.toNat).toNat < 1024 / tyWidth f.ty.toNat) ∧
    (∃ s f, (Instr.vext f).wf ∧ Issues s f.fp f.fo [f.vd.toNat, f.vb.toNat] [f.va.toNat] ∧ NoLoopEnd s.now ∧
      (s.sreg s.cur f.vb.toNat).toNat = 1024 / tyWidth f.ty.toNat) :=
  ⟨⟨base, x30, _, _, _, _, _, List.mem_cons_self, by decide +kernel, base_issues _ _, noLoop_of (by decide +kernel)⟩,
    ⟨base, { x30 with vb := 1 }, by decide +kernel, base_issues _ _, noLoop_of (by decide +kernel), by decide +kernel⟩,
    base, { x30 with vb := 3, ty := 1 }, by decide +kernel, base_issues _ _, noLoop_of (by decide +kernel), by decide +kernel⟩

theorem test_witness_PredicateResults : ∃ s f x ss h, (x, ss, h) ∈ predicates s f (guardPred s s.cur f.g) ∧ x.wf ∧
    Issues s f.fp f.fo ss [] ∧ Issues s f.fp f.fo [f.vd.toNat] [] ∧ NoLoopEnd s.now :=
  ⟨base, { x30 with ty := 0 }, _, _, _, List.mem_cons_self, by decide +kernel, base_issues _ _, base_issues _ _, noLoop_of (by decide +kernel)⟩

/-- A load that accesses memory, and a row load with all its lanes disabled. -/
theorem test_witness_LoadsIssue :
    (∃ s m l c r v x a ps touch, (x, a) ∈ loadForms s m l c r v ∧ (x = .vgat v → tidOf (s.sreg s.cur v.sa.toNat) ≠ 3) ∧ Accesses s a ∧
      checkAll s (s.ctx s.cur) a.want a.elems = .ok (ps, touch) ∧ decide (ps ≠ []) = true) ∧
    (∃ s m l c r v x a ps touch, (x, a) ∈ loadForms s m l c r v ∧ (x = .vgat v → tidOf (s.sreg s.cur v.sa.toNat) ≠ 3) ∧ Accesses s a ∧
      checkAll s (s.ctx s.cur) a.want a.elems = .ok (ps, touch) ∧ decide (ps = []) = true) := by
  refine ⟨⟨base, fm0, fm96T, clT, crT, fxT, .ldD fm0, scalarLoadForm base fm0.form 0x093 8, ?_⟩,
    base, { fm0 with g := ⟨0, 3⟩ }, fm96T, clT, crT, fxT, .vldRow { fm0 with g := ⟨0, 3⟩ },
    rowLoadForm base (FM.form { fm0 with g := ⟨0, 3⟩ }), ?_⟩
  · obtain ⟨ps, touch, h1, h2⟩ := ok_with (x := checkAll base (base.ctx base.cur) (scalarLoadForm base fm0.form 0x093 8).want
      (scalarLoadForm base fm0.form 0x093 8).elems) (p := fun ps _ => decide (ps ≠ [])) (by decide +kernel)
    exact ⟨ps, touch, by simp [loadForms], by simp, base_accesses rfl rfl (by decide +kernel), h1, h2⟩
  · obtain ⟨ps, touch, h1, h2⟩ := ok_with (x := checkAll base (base.ctx base.cur) (rowLoadForm base (FM.form { fm0 with g := ⟨0, 3⟩ })).want
      (rowLoadForm base (FM.form { fm0 with g := ⟨0, 3⟩ })).elems) (p := fun ps _ => decide (ps = [])) (by decide +kernel)
    exact ⟨ps, touch, by simp [loadForms], by simp, base_accesses rfl rfl (by decide +kernel), h1, h2⟩

/-- A store that accesses memory, a scatter with all its elements disabled, and an atomic with a token to give. -/
theorem test_witness_StoresIssue :
    (∃ s m l c r v f y x a ps touch, (x, a) ∈ storeForms s m l c r v f y ∧ (x = .vsct v → tidOf (s.sreg s.cur v.sa.toNat) ≠ 3) ∧
      Accesses s a ∧ checkAll s (s.ctx s.cur) a.want a.elems = .ok (ps, touch) ∧ (decide (ps ≠ []) && !(a.kind.pieces ps).any (slowPiece s)) = true) ∧
    (∃ s m l c r v f y x a ps touch, (x, a) ∈ storeForms s m l c r v f y ∧ (x = .vsct v → tidOf (s.sreg s.cur v.sa.toNat) ≠ 3) ∧
      Accesses s a ∧ checkAll s (s.ctx s.cur) a.want a.elems = .ok (ps, touch) ∧ (decide (ps = []) && !(a.kind.pieces ps).any (slowPiece s)) = true) ∧
    (∃ s m l c r v f y x a ps touch, (x, a) ∈ storeForms s m l c r v f y ∧ (x = .vsct v → tidOf (s.sreg s.cur v.sa.toNat) ≠ 3) ∧
      Accesses s a ∧ checkAll s (s.ctx s.cur) a.want a.elems = .ok (ps, touch) ∧ (decide (ps ≠ []) && !(a.kind.pieces ps).any (slowPiece s)) = true ∧
      a.fp ≠ 0 ∧ a.kind.isAtomic = true) := by
  refine ⟨⟨base, fm0, fm96T, ctT, crT, fxT, faT, fyT, .stD fm0, scalarStoreForm base fm0.form 0x097 8, ?_⟩,
    ⟨base, fm0, fm96T, ctT, crT, ⟨⟨0, 3⟩, 1, 2, 2, 0, 0, 2, 0, 0⟩, faT, fyT, .vsct ⟨⟨0, 3⟩, 1, 2, 2, 0, 0, 2, 0, 0⟩,
    indexedForm base ⟨⟨0, 3⟩, 1, 2, 2, 0, 0, 2, 0, 0⟩ 0x0A1 .scatter false, ?_⟩, base, fm0, fm96T, ctT, crT, fxT,
    ⟨pass, 4, 2, 1, 0, 1, 0, 3, 0, 0⟩, fyT, .amoAdd ⟨pass, 4, 2, 1, 0, 1, 0, 3, 0, 0⟩, atomicForm base ⟨pass, 4, 2, 1, 0, 1, 0, 3, 0, 0⟩ 0x0A8 .add, ?_⟩
  · obtain ⟨ps, touch, h1, h2⟩ := ok_with (x := checkAll base (base.ctx base.cur) (scalarStoreForm base fm0.form 0x097 8).want
      (scalarStoreForm base fm0.form 0x097 8).elems) (p := fun ps _ => decide (ps ≠ []) && !(AKind.store.pieces ps).any (slowPiece base)) (by decide +kernel)
    exact ⟨ps, touch, by simp [storeForms], by simp, base_accesses rfl rfl (by decide +kernel), h1, h2⟩
  · obtain ⟨ps, touch, h1, h2⟩ := ok_with (x := checkAll base (base.ctx base.cur)
        (indexedForm base ⟨⟨0, 3⟩, 1, 2, 2, 0, 0, 2, 0, 0⟩ 0x0A1 .scatter false).want
        (indexedForm base ⟨⟨0, 3⟩, 1, 2, 2, 0, 0, 2, 0, 0⟩ 0x0A1 .scatter false).elems)
      (p := fun ps _ => decide (ps = []) && !(AKind.scatter.pieces ps).any (slowPiece base)) (by decide +kernel)
    exact ⟨ps, touch, by simp [storeForms], fun _ => by decide +kernel, base_accesses rfl rfl (by decide +kernel), h1, h2⟩
  · obtain ⟨ps, touch, h1, h2⟩ := ok_with (x := checkAll base (base.ctx base.cur)
        (atomicForm base ⟨pass, 4, 2, 1, 0, 1, 0, 3, 0, 0⟩ 0x0A8 .add).want (atomicForm base ⟨pass, 4, 2, 1, 0, 1, 0, 3, 0, 0⟩ 0x0A8 .add).elems)
      (p := fun ps _ => decide (ps ≠ []) && !((atomicForm base ⟨pass, 4, 2, 1, 0, 1, 0, 3, 0, 0⟩ 0x0A8 .add).kind.pieces ps).any (slowPiece base)) (by decide +kernel)
    exact ⟨ps, touch, by simp [storeForms], by simp, ⟨issues_of (by decide +kernel), by decide +kernel, noLoop_of (by decide +kernel),
      fun _ => by decide +kernel, by decide +kernel, fun _ _ => rfl⟩, h1, h2, by decide +kernel, by decide +kernel⟩

/-- `base` with another value in s2. -/
def at2 (v : Word) : State := { base with sregs := [(65, 5), (66, v), (67, 64)] }

theorem allLocal_of {s : State} {a : Access9}
    (h : (a.elems.all fun e => match checkElem s (s.ctx s.cur) a.want e with | .remote _ => false | _ => true) = true) : AllLocal s a := by
  intro e he tn ht
  have := List.all_eq_true.mp h e he
  rw [ht] at this
  cases this

/-- A doubleword past window 1, by `ld.d` and by `vld.ff`; a misaligned one of a tensor; and a gather of the lane slices. -/
theorem test_witness_AccessChecks :
    (∃ s m l c d r v f y x a code w0 ea, ((x, a) ∈ loadForms s m l c r v ∨ (x, a) ∈ storeForms s m l d r v f y) ∧
      ((x = .vgat v ∨ x = .vsct v) → tidOf (s.sreg s.cur v.sa.toNat) ≠ 3) ∧ Accesses s a ∧ AllLocal s a ∧
      checkAll s (s.ctx s.cur) a.want a.elems = .error (.trap code w0, ea) ∧ x ≠ .vldFf m ∧ x ≠ .vldFfX96 l ∧ s.now.tip = false) ∧
    (∃ s m l c d r v f y x a code w0 ea, ((x, a) ∈ loadForms s m l c r v ∨ (x, a) ∈ storeForms s m l d r v f y) ∧
      ((x = .vgat v ∨ x = .vsct v) → tidOf (s.sreg s.cur v.sa.toNat) ≠ 3) ∧ Accesses s a ∧ AllLocal s a ∧
      checkAll s (s.ctx s.cur) a.want a.elems = .error (.trap code w0, ea) ∧ x = .vldFf m ∧
      (code = cTILE_PROT ∨ code = cTILE_ABSENT ∨ code = cTAG_MISMATCH)) ∧
    (∃ s m n x, (x, n) ∈ ([(.ldH m, 2), (.ldW m, 4), (.ldD m, 8), (.stH m, 2), (.stW m, 4), (.stD m, 8)] : List (Instr × Nat)) ∧
      Executes s m.g m.fp m.fo [m.vd.toNat % 64, m.sa.toNat] [] ∧ ownRemote s = none ∧ s.now.tip = false ∧
      (∀ e ∈ accessesOf s s.cur, e.2.kind.isTag = false) ∧ 256 ≤ tidOf (memEa m.form s n) ∧ offOf (memEa m.form s n) % n ≠ 0) ∧
    (∃ s v x a ps, (x, a) ∈ [(Instr.vgat v, indexedForm s v 0x0A0 (.loadV v.vd.toNat (tyWidth v.ty.toNat) (guardPred s s.cur v.g) false) false),
        (.vsct v, indexedForm s v 0x0A1 .scatter false)] ∧
      tidOf (s.sreg s.cur v.sa.toNat) = 3 ∧ Accesses s a ∧ laneAccesses v (!a.kind.isLoad) s = .ok ps ∧ decide (ps ≠ []) = true) := by
  have acc (a : Access9) (v : Word) (h1 : a.fp = 0) (h2 : a.fo = 0) (h3 : a.elem = true ∨ guardTrue (at2 v) (at2 v).cur a.g = true) :
      Accesses (at2 v) a :=
    ⟨by rw [h1, h2]
        exact ⟨by show base.now.legal = true; decide +kernel, fun h => absurd rfl h, fun h => absurd rfl h,
          fun _ _ => Or.inr (no_mem (by show pendingS base base.cur = []; decide +kernel)),
          fun _ _ => no_mem (by show pendingV base base.cur = []; decide +kernel), by show base.now.open = true → _; decide +kernel,
          Or.inl (by show base.now.prv = true; decide +kernel), fun h => absurd rfl h⟩, h3, by show NoLoopEnd base.now; exact noLoop_of (by decide +kernel),
      fun _ => by show base.now.open = false; decide +kernel, (by show ownRemote base = none; decide +kernel), fun _ _ => rfl⟩
  refine ⟨⟨at2 (handleOf 1 8192), fm0, fm96T, clT, ctT, crT, fxT, faT, fyT, .ldD fm0, scalarLoadForm (at2 (handleOf 1 8192)) fm0.form 0x093 8, ?_⟩,
    ⟨at2 (handleOf 1 8192), fm0, fm96T, clT, ctT, crT, fxT, faT, fyT, .vldFf fm0, firstLoadForm (at2 (handleOf 1 8192)) fm0.form, ?_⟩,
    ⟨at2 (handleOf 256 4), fm0, 8, .ldD fm0, by simp, ?_, by decide +kernel, by decide +kernel, by decide +kernel, by decide +kernel,
      by decide +kernel⟩,
    at2 (handleOf 3 8188), ⟨pass, 1, 2, 2, 0, 0, 2, 0, 0⟩, .vsct ⟨pass, 1, 2, 2, 0, 0, 2, 0, 0⟩,
      indexedForm (at2 (handleOf 3 8188)) ⟨pass, 1, 2, 2, 0, 0, 2, 0, 0⟩ 0x0A1 .scatter false, ?_⟩
  · obtain ⟨c, w0, ea, h, -⟩ := trap_with (x := checkAll (at2 (handleOf 1 8192)) ((at2 (handleOf 1 8192)).ctx 1) .load
      (scalarLoadForm (at2 (handleOf 1 8192)) fm0.form 0x093 8).elems) (p := fun _ _ => true) (by decide +kernel)
    exact ⟨c, w0, ea, Or.inl (by simp [loadForms]), by simp, acc _ _ rfl rfl (Or.inr (by decide +kernel)), allLocal_of (by decide +kernel), h, by simp, by simp,
      by decide +kernel⟩
  · obtain ⟨c, w0, ea, h, hc⟩ := trap_with (x := checkAll (at2 (handleOf 1 8192)) ((at2 (handleOf 1 8192)).ctx 1) .load
      (firstLoadForm (at2 (handleOf 1 8192)) fm0.form).elems) (p := fun c _ => c == cTILE_PROT) (by decide +kernel)
    exact ⟨c, w0, ea, Or.inl (by simp [loadForms]), by simp, acc _ _ rfl rfl (Or.inl rfl), allLocal_of (by decide +kernel), h, rfl,
      Or.inl (by simpa using hc)⟩
  · exact ⟨(acc (scalarLoadForm (at2 (handleOf 256 4)) fm0.form 0x093 8) _ rfl rfl (Or.inr (by decide +kernel))).1, by decide +kernel,
      noLoop_of (by decide +kernel)⟩
  · have h0 : (match laneAccesses ⟨pass, 1, 2, 2, 0, 0, 2, 0, 0⟩ true (at2 (handleOf 3 8188)) with
        | .ok ps => decide (ps ≠ []) | .error _ => false) = true := by decide +kernel
    split at h0
    · rename_i ps h
      exact ⟨ps, by simp, by decide +kernel, acc _ _ rfl rfl (Or.inl rfl), h, h0⟩
    · cases h0

/-- The last piece of a load, and one that is not the last; a load with a token to give that is the first, and one behind another. -/
theorem test_witness_LoadsReturn :
    (∃ (s : State) (n j : Nat) (a : Access) (p : Piece), s.access n = some a ∧ a.kind.isLoad = true ∧ a.remote = false ∧ a.pieces[j]? = some p ∧ inOrder s n a = true ∧
      a.pieces = [p]) ∧
    (∃ (s : State) (n j : Nat) (a : Access) (p : Piece), s.access n = some a ∧ a.kind.isLoad = true ∧ a.remote = false ∧ a.pieces[j]? = some p ∧ inOrder s n a = true ∧
      a.pieces ≠ [p]) ∧
    (∀ i ∈ [0, 1], ∃ (s : State) (n j : Nat) (a : Access) (p : Piece), s.access n = some a ∧ a.kind.isLoad = true ∧ a.remote = false ∧
      a.pieces[j]? = some p ∧ inOrder s n a = true ∧ a.pieces = [p] ∧ (s.ctl a.k).late[i]? = some (lateOne 3 n) ∧
      (∀ h, h < i → (s.ctl a.k).late.all (fun l => l.accs != [n] || l.fp == 3) = true) ∧ (s.ctl a.k).run = .running) :=
  ⟨⟨{ base with accs := [(7, some load1)] }, 7, 0, load1, ⟨.key (keyPad 0 8), 8, [], 0, 0⟩, by decide +kernel⟩,
    ⟨{ base with accs := [(7, some load2)] }, 7, 1, load2, ⟨.key (keyPad 0 8), 4, [], 0, 4⟩, by decide +kernel⟩, fun i hi =>
    ⟨{ onBase (fun c => { c with late := if i = 0 then [lateOne 3 7] else [lateOne 0 6, lateOne 3 7] }) with accs := [(7, some load1)] }, 7, 0, load1,
      ⟨.key (keyPad 0 8), 8, [], 0, 0⟩, by revert i; decide +kernel⟩⟩

/-- A store of a doubleword, a row store of four lanes, and of a scatter the second of two elements with a byte in common, and the first. -/
theorem test_witness_StoresPerform :
    (∀ k ∈ [AKind.store, .row 15], ∃ (s : State) (n j : Nat) (a : Access) (p : Piece) (key : Nat), s.access n = some a ∧ a.kind = k ∧
      a.remote = false ∧ a.pieces[j]? = some p ∧ inOrder s n a = true ∧ s.pkg.hbaseSet = false ∧ p.spot = .key key ∧
      p.data.length = (if k = .store then 8 else 128)) ∧
    (∀ j ∈ [0, 1], ∃ (s : State) (n : Nat) (a : Access) (p : Piece), s.access n = some a ∧ a.kind = .scatter ∧ a.remote = false ∧
      a.pieces[j]? = some p ∧ inOrder s n a = true ∧ s.pkg.hbaseSet = false ∧
      (a.pieces.takeWhile (· != p)).any (fun q => q.meets s p) = decide (j = 1)) ∧
    (∃ (s : State) (n j : Nat) (a : Access) (p : Piece) (asid tid off : Nat) (tn : Tensor), s.access n = some a ∧ a.kind = .store ∧
      a.remote = false ∧ a.pieces[j]? = some p ∧ inOrder s n a = true ∧ s.pkg.hbaseSet = false ∧ p.spot = .tile asid tid off ∧
      readTensor s asid tid = some tn ∧ (readTile s tn (off / tn.tbytes)).moving = false ∧ (readTile s tn (off / tn.tbytes)).cow = false ∧
      classOf (readTile s tn (off / tn.tbytes)).tag ≠ 1) := by
  refine ⟨fun k hk => ⟨{ base with accs := [(7, some { store1 with kind := k, pieces := [⟨.key (keyPad 0 8), 8, List.replicate (if k = .store then 8 else 128) 1, 0, 0⟩] })] },
      7, 0, { store1 with kind := k, pieces := [⟨.key (keyPad 0 8), 8, List.replicate (if k = .store then 8 else 128) 1, 0, 0⟩] },
      ⟨.key (keyPad 0 8), 8, List.replicate (if k = .store then 8 else 128) 1, 0, 0⟩, keyPad 0 8, by revert k; decide +kernel⟩,
    fun j hj => ⟨{ base with accs := [(7, some scatter1)] }, 7, scatter1, if j = 0 then elem0 else elem1, by revert j; decide +kernel⟩,
    { formatted with accs := [(7, some { store1 with pieces := [⟨.tile 0 257 4088, 8, [1, 2, 3, 4, 5, 6, 7, 8], 0, 0⟩] })] }, 7, 0,
    { store1 with pieces := [⟨.tile 0 257 4088, 8, [1, 2, 3, 4, 5, 6, 7, 8], 0, 0⟩] }, ⟨.tile 0 257 4088, 8, [1, 2, 3, 4, 5, 6, 7, 8], 0, 0⟩,
    0, 257, 4088, tensor257, by decide +kernel⟩

/-- A compare that succeeds, on memory that reads 0, with and without a register; and an element of a vector atomic. -/
theorem test_witness_Atomics :
    (∃ w o x y : Nat, (w = 32 ∨ w = 64) ∧ o < 2 ^ w ∧ x < 2 ^ w ∧ y < 2 ^ w) ∧
    (∀ sd ∈ [some 4, none], ∃ (s : State) (n j : Nat) (a : Access) (p : Piece) (key w : Nat) (op : Amo) (x c : Word), s.access n = some a ∧
      a.kind = .amo op w x c sd ∧ a.remote = false ∧ a.pieces[j]? = some p ∧ inOrder s n a = true ∧ p.spot = .key key ∧ s.pkg.hbaseSet = false ∧
      (w = 32 ∨ w = 64) ∧ amoNew op w (bytesToNat (s.bytes key (w / 8))) x.toNat c.toNat = some 1) ∧
    (∃ (s : State) (n j : Nat) (a : Access) (p : Piece) (key : Nat), s.access n = some a ∧ a.kind = .vamo .add 32 ∧ a.remote = false ∧
      a.pieces[j]? = some p ∧ inOrder s n a = true ∧ p.spot = .key key ∧ s.pkg.hbaseSet = false) := by
  refine ⟨⟨64, 2 ^ 64 - 1, 1, 0, by decide⟩, fun sd hd => ⟨{ base with accs := [(7, some { amo1 with kind := .amo .cas 32 0 1 sd })] }, 7, 0,
      { amo1 with kind := .amo .cas 32 0 1 sd }, ⟨.key (keyPad 0 8), 4, [], 0, 0⟩, keyPad 0 8, 32, .cas, 0, 1, by revert sd; decide +kernel⟩,
    { base with accs := [(7, some { amo1 with kind := .vamo .add 32 })] }, 7, 0, { amo1 with kind := .vamo .add 32 },
    ⟨.key (keyPad 0 8), 4, [], 0, 0⟩, keyPad 0 8, by decide +kernel⟩

/-- A store behind a load, a load behind an atomic, and a narrow atomic that passes a store and leaves a debt. -/
theorem test_witness_ClassOrder :
    (∀ q : AKind × AKind, q ∈ [(AKind.store, AKind.loadS 4 true), (.loadS 4 true, .amo .cas 32 0 1 (some 4))] →
      ∃ (s : State) (n m : Nat) (a b : Access), a.kind = q.1 ∧ b.kind = q.2 ∧ s.access n = some a ∧ (m, some b) ∈ s.accs ∧ m < n ∧ b.k = a.k ∧
        b.remote = false ∧ b.cls = a.cls ∧ (a.kind.isLoad = false ∨ b.kind.isLoad = true ∨ b.kind.isAtomic = true) ∧
        (∀ p ∈ a.pieces, movingTile s p.spot = none) ∧ (a.kind.isAtomic = false ∨ 6 ≤ a.scope) ∧ (b.kind.isAtomic = false ∨ 6 ≤ b.scope)) ∧
    (∃ (s : State) (n m j : Nat) (a b : Access), s.access n = some a ∧ (m, some b) ∈ s.accs ∧ m < n ∧ b.k = a.k ∧
      b.remote = false ∧ b.cls = a.cls ∧ a.kind.isLoad = false ∧ (∀ p ∈ a.pieces, movingTile s p.spot = none) ∧
      ∃ t, exec (.accessPerform n j) s = .next t ∧ (m, a.k, min b.reach a.reach) ∈ t.debts) :=
  ⟨fun q hq => ⟨{ base with accs := [(6, some { load1 with kind := q.2, scope := 6 }), (7, some { store1 with kind := q.1 })] }, 7, 6,
      { store1 with kind := q.1 }, { load1 with kind := q.2, scope := 6 }, by revert q; decide +kernel⟩,
    { base with accs := [(6, some { store1 with pieces := [⟨.key (keyPad 0 4096), 8, [], 0, 0⟩] }), (7, some amo1)] }, 7, 6, 0, amo1,
    { store1 with pieces := [⟨.key (keyPad 0 4096), 8, [], 0, 0⟩] }, by decide +kernel, by decide +kernel, by decide +kernel,
    by decide +kernel, by decide +kernel, by decide +kernel, by decide +kernel, by decide +kernel, _, rfl, by decide +kernel⟩

theorem test_witness_TensorInstructions :
    (∃ (s : State) (f : FM) (tn : Tensor), NoLoopEnd s.now ∧ ownRemote s = none ∧ tn.remote = false ∧ guardTrue s s.cur f.g = true ∧
      Issues s f.fp f.fo [f.vd.toNat % 64, f.sa.toNat] [] ∧ tidOf (s.sreg s.cur f.sa.toNat) ≠ 3 ∧
      tagPlace s (s.sreg s.cur f.sa.toNat) false = .ok (.tensor tn) ∧
      (∀ e ∈ accessesOf s s.cur, e.2.cls = f.cls.toNat → e.2.kind.isStore = true) ∧ s.now.late = []) ∧
    (∃ (s : State) (f : FM) (tn : Tensor), NoLoopEnd s.now ∧ ownRemote s = none ∧ tn.remote = false ∧ guardTrue s s.cur f.g = true ∧
      Issues s f.fp f.fo [f.sa.toNat, f.sb.toNat] [] ∧ (∀ e ∈ accessesOf s s.cur, e.2.kind.isTag = false) ∧ tagPlace s (s.sreg s.cur f.sa.toNat) true = .ok (.tensor tn) ∧
      malformed ((s.sreg s.cur f.sb.toNat).toNat % 2 ^ 16) = false ∧
      (readTile s tn (offOf (s.sreg s.cur f.sa.toNat) / tn.tbytes)).cow = false ∧
      (readTile s tn (offOf (s.sreg s.cur f.sa.toNat) / tn.tbytes)).moving = false) ∧
    (∃ (s : State) (f : FM) (tn : Tensor) (n tag idx : Nat) (fr : Option Nat) (l : List (Nat × LFound)), NoLoopEnd s.now ∧ ownRemote s = none ∧ tn.remote = false ∧
      Issues s f.fp f.fo [f.sa.toNat, f.sb.toNat] [f.vd.toNat] ∧ (∀ e ∈ accessesOf s s.cur, e.2.kind.isTag = false) ∧ tensorOf s (s.ctx s.cur) (s.sreg s.cur f.sa.toNat) = some tn ∧
      firstTile s true (s.ctx s.cur) tn .load ((guardPred s s.cur f.g).getLsbD 0) (coords (s.sreg s.cur f.sb.toNat)) = .at n tag idx fr ∧ formatOf tag ≤ 12 ∧
      findElems s true (s.ctx s.cur) tn .load (guardPred s s.cur f.g) (coords (s.sreg s.cur f.sb.toNat)) (formatOf tag)
        (tensorCount (formatOf tag)) = .ok l ∧ (guardPred s s.cur f.g).getLsbD 0 = true) ∧
    (∃ (s : State) (f : FM) (tn : Tensor) (n tag idx : Nat) (fr : Option Nat) (l : List (Nat × LFound)), NoLoopEnd s.now ∧ ownRemote s = none ∧ tn.remote = false ∧
      Issues s f.fp f.fo [f.sa.toNat, f.sb.toNat] [f.vd.toNat] ∧ (∀ e ∈ accessesOf s s.cur, e.2.kind.isTag = false) ∧ tensorOf s (s.ctx s.cur) (s.sreg s.cur f.sa.toNat) = some tn ∧
      firstTile s true (s.ctx s.cur) tn .tensor ((guardPred s s.cur f.g).getLsbD 0) (coords (s.sreg s.cur f.sb.toNat)) = .at n tag idx fr ∧ formatOf tag ≤ 12 ∧
      findElems s true (s.ctx s.cur) tn .tensor (guardPred s s.cur f.g) (coords (s.sreg s.cur f.sb.toNat)) (formatOf tag)
        (tensorCount (formatOf tag)) = .ok l ∧ decide (l.length = 32) = true ∧ ∀ m, (readTile s tn m).cow = false ∧ (readTile s tn m).moving = false) := by
  let f : FM := ⟨pass, 4, 2, 3, 0, 0, 0, 0, 0, 0⟩
  have hi (ss vs : List Nat) : Issues formatted 0 0 ss vs :=
    ⟨by decide +kernel, fun h => absurd rfl h, fun h => absurd rfl h, fun _ _ => Or.inr (no_mem (by decide +kernel)),
      fun _ _ => no_mem (by decide +kernel), by decide +kernel, by decide +kernel, fun h => absurd rfl h⟩
  have hl : NoLoopEnd formatted.now := noLoop_of (by decide +kernel)
  refine ⟨⟨formatted, f, tensor257, hl, by decide +kernel, by decide +kernel, by decide +kernel, hi _ _, by decide +kernel,
      tensor_of (by decide +kernel), by decide +kernel, by decide +kernel⟩,
    ⟨formatted, { f with sb := 0 }, tensor257, hl, by decide +kernel, by decide +kernel, by decide +kernel, hi _ _, by decide +kernel,
      tensor_of (by decide +kernel),
      by decide +kernel, by decide +kernel, by decide +kernel⟩, ?_, ?_⟩
  · obtain ⟨n, tag, idx, fr, h1, h2⟩ := at_of (x := firstTile formatted true (formatted.ctx 1) tensor257 .load ((guardPred formatted 1 pass).getLsbD 0)
      (coords (formatted.sreg 1 3))) (p := fun tag => decide (tag = 0x5800)) (by decide +kernel)
    simp only [decide_eq_true_eq] at h2
    subst h2
    obtain ⟨l, h3⟩ := ok_of (x := findElems formatted true (formatted.ctx 1) tensor257 .load (guardPred formatted 1 pass)
      (coords (formatted.sreg 1 3)) (formatOf 0x5800) (tensorCount (formatOf 0x5800))) (by decide +kernel)
    exact ⟨formatted, f, tensor257, n, 0x5800, idx, fr, l, hl, by decide +kernel, by decide +kernel, hi _ _, by decide +kernel, by decide +kernel, h1, by decide, h3,
      by decide +kernel⟩
  · obtain ⟨n, tag, idx, fr, h1, h2⟩ := at_of (x := firstTile formatted true (formatted.ctx 1) tensor257 .tensor ((guardPred formatted 1 pass).getLsbD 0)
      (coords (formatted.sreg 1 3))) (p := fun tag => decide (tag = 0x5800)) (by decide +kernel)
    simp only [decide_eq_true_eq] at h2
    subst h2
    have h4 : (match findElems formatted true (formatted.ctx 1) tensor257 .tensor (guardPred formatted 1 pass)
      (coords (formatted.sreg 1 3)) (formatOf 0x5800) (tensorCount (formatOf 0x5800)) with | .ok l => decide (l.length = 32) | .error _ => false) = true := by
      decide +kernel
    split at h4
    · rename_i l h3
      exact ⟨formatted, f, tensor257, n, 0x5800, idx, fr, l, hl, by decide +kernel, by decide +kernel, hi _ _, by decide +kernel, by decide +kernel, h1, by decide, h3,
        h4, formatted_still⟩
    · cases h4

/-- A register of the stream, one of the core and one of the package; and a read at user level. -/
theorem test_witness_ControlReads :
    (∃ (s : State) (f : FY) (v : Word), Executes s f.g f.fp f.fo [f.sd.toNat, f.sa.toNat] [] ∧ s.now.prv = true ∧ uncounted s f.k.toNat = false ∧ (f.k.toNat, v) ∈ streamRegisters s.time s.now) ∧
    (∃ (s : State) (f : FY) (v : Word), Executes s f.g f.fp f.fo [f.sd.toNat, f.sa.toNat] [] ∧ s.now.prv = true ∧ uncounted s f.k.toNat = false ∧ (f.k.toNat, v) ∈ coreRegisters (s.core (coreOf s.cur))) ∧
    (∃ (s : State) (f : FY) (v : Word), Executes s f.g f.fp f.fo [f.sd.toNat, f.sa.toNat] [] ∧ s.now.prv = true ∧ uncounted s f.k.toNat = false ∧ (f.k.toNat, v) ∈ packageRegisters s.pkg) ∧
    (∃ (s : State) (f : FY), Executes s f.g f.fp f.fo [f.sd.toNat, f.sa.toNat] [] ∧ s.now.prv = false ∧ userReads f.k.toNat = true ∧
      uncounted s f.k.toNat = false) ∧ ctlExists 0x502 = true :=
  ⟨⟨base, { fy0 with k := 0 }, _, base_executes _ _, by decide +kernel, by decide +kernel, List.mem_cons_self⟩,
    ⟨base, { fy0 with k := 0x208 }, _, base_executes _ _, by decide +kernel, by decide +kernel, List.mem_cons_self⟩,
    ⟨base, { fy0 with k := 0x400 }, _, base_executes _ _, by decide +kernel, by decide +kernel, List.mem_cons_self⟩,
    ⟨user, { fy0 with k := 2 }, user_executes _ _, by decide +kernel⟩, by decide +kernel⟩

/-- One register of each kind that `withRegister` tells apart, the first and the last of each range; and a write at user level. -/
theorem test_witness_ControlWrites :
    (∀ k ∈ [0x000, 0x01B, 0x104, 0x500, 0x502, 0x400, 0xB04, 0x218, 0xA14, 0x610, 0x61D], ∃ (s : State) (f : FY) (i : Instr) (m : WMode), f.k.toNat = k ∧ (i, m) ∈ ctlWrites f ∧
      Executes s f.g f.fp f.fo [f.sd.toNat, f.sa.toNat] [] ∧ s.now.prv = true ∧ plainRegister f.k.toNat ∧
      uncounted s f.k.toNat = false) ∧
    (∃ (s : State) (f : FY) (i : Instr) (m : WMode), (i, m) ∈ ctlWrites f ∧ Executes s f.g f.fp f.fo [f.sd.toNat, f.sa.toNat] [] ∧ s.now.prv = false ∧
      userWrites f.k.toNat = true ∧ plainRegister f.k.toNat ∧ uncounted s f.k.toNat = false) := by
  refine ⟨fun k hk => ?_, user, { fy0 with k := 2 }, _, _, List.mem_cons_self, user_executes _ _, by decide +kernel,
    by decide +kernel, Or.inl (by decide +kernel), by decide +kernel⟩
  refine ⟨base, { fy0 with k := BitVec.ofNat 24 k }, _, _, ?_, List.mem_cons_self, base_executes _ _, by decide +kernel, ?_, ?_⟩ <;>
    unfold plainRegister at * <;> revert k <;> decide +kernel

theorem test_witness_Privilege :
    (∃ (s : State) (f : FY), s.now.legal = true ∧ s.now.prv = false ∧ s.now.tip = false ∧ userReads f.k.toNat = false) ∧
    (∃ (s : State) (f : FY) (i : Instr) (m : WMode), s.now.legal = true ∧ s.now.prv = false ∧ s.now.tip = false ∧ (i, m) ∈ ctlWrites f ∧
      userWrites f.k.toNat = false) ∧
    (∃ (s : State) (f : FY) (i : Instr), s.now.legal = true ∧ s.now.prv = false ∧ s.now.tip = false ∧ i ∈ supervisorOnly f) :=
  ⟨⟨user, { fy0 with k := 0x100 }, by decide +kernel⟩,
    ⟨user, { fy0 with k := 0 }, _, _, by decide +kernel, by decide +kernel, by decide +kernel, List.mem_cons_self, by decide +kernel⟩,
    user, fy0, _, by decide +kernel, by decide +kernel, by decide +kernel, List.mem_cons_self⟩

/-- Writes of the first source format and of the last sink format; and one that retires, on a queue that holds a row. -/
theorem test_witness_QueueFormats :
    (∀ k ∈ [0x208, 0x217], ∃ (s : State) (f : FY) (i : Instr) (m : WMode), f.k.toNat = k ∧ (i, m) ∈ ctlWrites f ∧ 0x208 ≤ f.k.toNat ∧
      f.k.toNat ≤ 0x217 ∧ Executes s f.g f.fp f.fo [f.sd.toNat, f.sa.toNat] [] ∧ (s.core (coreOf s.cur)).qfmt = none ∧
      ∀ j, j < 3 → (s.ctl (3 * coreOf s.cur + j)).late = []) ∧
    (∃ (s : State) (c : Nat) (q : QFmt), (s.core c).qfmt = some q ∧ coreOf q.k = c ∧ 0x208 ≤ q.ix ∧ q.ix ≤ 0x217 ∧
      (s.ctl q.k).run = .atFormat ∧ (s.ctl q.k).legal = true ∧ NoLoopEnd (s.ctl q.k) ∧ (s.ctl q.k).prv = true ∧
      0 < heldElems ((s.core c).queue (q.ix % 8)) ((s.core c).src (q.ix % 8))) := by
  refine ⟨fun k hk => ?_, { onBaseCore fun c => { c with qfmt := some ⟨1, 0x209, 2, 0⟩, dq := [(1, ⟨[7], 3⟩)] } with
    ctls := [(1, { ctl1 with run := .atFormat })] }, 0, ⟨1, 0x209, 2, 0⟩, by decide +kernel, by decide, by decide, by decide,
    by decide +kernel, by decide +kernel, noLoop_of (by decide +kernel), by decide +kernel, by decide +kernel⟩
  refine ⟨base, { fy0 with k := BitVec.ofNat 24 k }, _, _, ?_, List.mem_cons_self, ?_, ?_, base_executes _ _, by decide +kernel, by decide +kernel⟩ <;>
    revert k <;> decide +kernel

/-- A push to a queue of 15 rows, and a pop of all that a queue holds. -/
theorem test_witness_DataQueues :
    (∃ (s : State) (f : X3), NoLoopEnd s.now ∧ s.now.open = false ∧ Issues s f.fp f.fo [] [f.va.toNat] ∧
      badFormats ((s.core (coreOf s.cur)).src (f.vd.toNat % 8)) ((s.core (coreOf s.cur)).snk (f.vd.toNat % 8)) = false ∧
      formatPending (s.core (coreOf s.cur)) (f.vd.toNat % 8) = false ∧
      ((s.core (coreOf s.cur)).queue (f.vd.toNat % 8)).rows.length = 15) ∧
    (∃ (s : State) (f : X3) (n : Nat) (c : Core), n = f.va.toNat % 8 ∧ c = s.core (coreOf s.cur) ∧ NoLoopEnd s.now ∧ s.now.open = false ∧
      Issues s f.fp f.fo [] [f.vd.toNat] ∧ badFormats (c.src n) (c.snk n) = false ∧ formatPending c n = false ∧
      1024 / tyWidth (qTy (c.snk n)) = heldElems (c.queue n) (c.src n)) := by
  refine ⟨⟨onBaseCore fun c => { c with dq := [(7, ⟨List.replicate 15 1, 0⟩)] }, { x30 with vd := 7 }, noLoop_of (by decide +kernel),
      by decide +kernel, issues_of (by decide +kernel), by decide +kernel⟩,
    onBaseCore fun c => { c with dq := [(2, ⟨[1], 0⟩)] }, { x30 with va := 2 }, 2, _, rfl, rfl, noLoop_of (by decide +kernel),
      by decide +kernel, issues_of (by decide +kernel), by decide +kernel⟩

/-- A push to b2 with 63 outcomes, which stream M produces, at once and behind a load; an outcome of b0, which it consumes, in both words. -/
theorem test_witness_OutcomeQueues :
    (∃ (s : State) (f : FB), NoLoopEnd s.now ∧ s.now.open = false ∧ Issues s f.fp f.fo [f.sa.toNat] [] ∧
      producer f.sb.toNat = kindOf s.cur ∧ ((s.core (coreOf s.cur)).outcomes f.sb.toNat).length = 63 ∧ lateOutcomes s.now f.sb.toNat = 0 ∧
      s.now.late = []) ∧
    (∃ (s : State) (f : FB), NoLoopEnd s.now ∧ s.now.open = false ∧ Issues s f.fp f.fo [f.sa.toNat] [] ∧
      producer f.sb.toNat = kindOf s.cur ∧ ((s.core (coreOf s.cur)).outcomes f.sb.toNat).length + lateOutcomes s.now f.sb.toNat < 64 ∧
      s.now.late ≠ []) ∧
    (∃ (s : State) (f : FB) (l : FB96) (o : Bool) (rest : List Bool), NoLoopEnd s.now ∧ s.now.open = false ∧ Issues s f.fp f.fo [] [] ∧
      consumer f.sb.toNat = kindOf s.cur ∧ (s.core (coreOf s.cur)).outcomes f.sb.toNat = o :: rest ∧ Issues s l.fp l.fo [] [] ∧
      consumer l.sb.toNat = kindOf s.cur ∧ (s.core (coreOf s.cur)).outcomes l.sb.toNat = o :: rest ∧ o = true) ∧
    (∃ (s : State) (f : FB) (o : Bool) (rest : List Bool), NoLoopEnd s.now ∧ s.now.open = false ∧ Issues s f.fp f.fo [] [] ∧
      consumer f.sb.toNat = kindOf s.cur ∧ (s.core (coreOf s.cur)).outcomes f.sb.toNat = o :: rest ∧ o = false) :=
  ⟨⟨onBaseCore fun c => { c with bq := [(2, List.replicate 63 true)] }, ⟨pass, 1, 2, 0, 0, 0⟩, noLoop_of (by decide +kernel), by decide +kernel,
      issues_of (by decide +kernel), by decide +kernel⟩,
    ⟨{ onBase (fun c => { c with late := [lateOne 0 0] }) with accs := [(0, some load1)] }, ⟨pass, 1, 2, 0, 0, 0⟩, noLoop_of (by decide +kernel), by decide +kernel,
      issues_of (by decide +kernel), by decide +kernel⟩,
    ⟨onBaseCore fun c => { c with bq := [(0, [true])] }, ⟨pass, 0, 0, 0, 0, 2⟩, ⟨pass, 0, 0, 0, 0, 2⟩, true, [], noLoop_of (by decide +kernel),
      by decide +kernel, issues_of (by decide +kernel), by decide +kernel, by decide +kernel, issues_of (by decide +kernel), by decide +kernel⟩,
    onBaseCore fun c => { c with bq := [(5, [false, true])] }, ⟨pass, 0, 5, 0, 0, 2⟩, false, [true], noLoop_of (by decide +kernel),
      by decide +kernel, issues_of (by decide +kernel), by decide +kernel⟩

/-- A node instruction of a share whose launch runs: with s2 an event mask that lets a due node go on. -/
theorem test_witness_NodeInstructions : ∃ (s : State) (f : FY) (tm : Team) (i : Inst), s.ownTeam = some tm ∧ s.now.open = false ∧
    Executes s f.g f.fp f.fo [f.sd.toNat] [] ∧ Executes s f.g f.fp f.fo [] [] ∧ streamOps s s.cur = [] ∧ accessesOf s s.cur = [] ∧
    s.now.late = [] ∧ nextRecord (s.core (coreOf s.cur)) s.cur (fun _ => true) = none ∧ bitOf s.now.glatch 63 = false ∧ Executes s f.g f.fp f.fo [f.sa.toNat] [] ∧
    s.inst tm.inst = some i ∧ i.cancelled = false :=
  ⟨withInst inst0 1, { fy0 with sa := 2, sd := 4 }, team1, inst0, by decide +kernel, by decide +kernel,
    executes_of (issues_of (by decide +kernel)) (by decide +kernel), executes_of (issues_of (by decide +kernel)) (by decide +kernel),
    by decide +kernel, by decide +kernel, by decide +kernel, by decide +kernel, by decide +kernel,
    executes_of (issues_of (by decide +kernel)) (by decide +kernel), by decide +kernel, by decide +kernel⟩

theorem barred_of {s : State} {f : FY} {w : Nat} (h1 : Executes s f.g f.fp f.fo [f.sa.toNat, f.sb.toNat] [])
    (h2 : ownRemote s = none ∧ (∀ e ∈ accessesOf s s.cur, e.2.kind.isTag = false) ∧ window1Out s s.cur = false ∧ bitOf s.now.glatch 63 = false)
    (h3 : okWith (checkAll s (s.ctx s.cur) (.scalar 8) [⟨0, s.sreg s.cur f.sa.toNat, scalarReach true (s.sreg s.cur f.sa.toNat) 8, []⟩])
      (fun ps touch => decide (touch = none) && inOrder s s.nextId (barrierRead s f ps) &&
        decide (w = bytesToNat (ps.flatMap (loadBytes s s.nextId (barrierRead s f ps))))) = true) : Barred s f none w := by
  obtain ⟨ps, touch, h4, h5⟩ := ok_with h3
  simp only [Bool.and_eq_true, decide_eq_true_eq] at h5
  obtain ⟨⟨rfl, h6⟩, h7⟩ := h5
  exact ⟨h1, h2.1, h2.2.1, h2.2.2.1, h2.2.2.2, ps, h4, h6, h7⟩

/-- A barrier word that reads 0: a stream waits for generation 0, which has passed, or with parity for 1, which has not; one that waits reads
again. A tbar before and after the other streams of the team. -/
theorem test_witness_Barriers :
    (∃ s f touch w, Barred s f touch w ∧ bitOf (s.sreg s.cur f.sb.toNat) 16 = false) ∧
    (∃ s f touch w, Barred s f touch w ∧ bitOf (s.sreg s.cur f.sb.toNat) 16 = true) ∧
    (∃ s f touch w k, (s.ctl k).run = .atBar f ∧ Barred (woken s k) f touch w) ∧
    (∃ (s : State) (f : FY) (n : Nat) (tm : Team), (s.core (coreOf s.cur)).team = some n ∧ s.team n = some tm ∧ s.cur ∈ teamStreams tm ∧
      Executes s f.g f.fp f.fo [] [] ∧ s.now.open = false ∧ accessesOf s s.cur = [] ∧ s.now.late = [] ∧ bitOf s.now.glatch 63 = false ∧
      ∃ k ∈ teamStreams tm, k ≠ s.cur ∧ arrivedAt (s.ctl k).run = false) ∧
    (∃ (s : State) (f : FY) (n : Nat) (tm : Team), (s.core (coreOf s.cur)).team = some n ∧ s.team n = some tm ∧ s.cur ∈ teamStreams tm ∧
      Executes s f.g f.fp f.fo [] [] ∧ s.now.open = false ∧ accessesOf s s.cur = [] ∧ s.now.late = [] ∧ bitOf s.now.glatch 63 = false ∧
      (∀ k ∈ teamStreams tm, k ≠ s.cur → arrivedAt (s.ctl k).run = true) ∧
      ∀ k ∈ teamStreams tm, (s.ctl k).legal = true ∧ NoLoopEnd (s.ctl k) ∧ ((s.ctl k).prv = true ∨ (s.ctl k).step = false)) := by
  refine ⟨⟨win8, { fy0 with sa := 2 }, none, 0, ?_, by decide +kernel⟩,
    ⟨{ win8 with sregs := [(66, handleOf 1 8), (67, 0x10001)] }, { fy0 with sa := 2, sb := 3 }, none, 0, ?_, by decide +kernel⟩,
    ⟨{ win8 with ctls := [(1, { ctl1 with run := .atBar { fy0 with sa := 2 } })], cur := 0 }, { fy0 with sa := 2 }, none, 0, 1, by decide +kernel, ?_⟩,
    ⟨{ base with ctls := [(0, ctl1), (1, ctl1)] }, fy0, 1, team1, by decide +kernel, by decide +kernel, by decide +kernel,
      executes_of (issues_of (by decide +kernel)) (by decide +kernel), by decide +kernel, by decide +kernel, by decide +kernel, by decide +kernel, 0,
      by decide +kernel⟩,
    { base with ctls := [(0, { ctl1 with run := .atTbar fy0 }), (1, ctl1)] }, fy0, 1, team1, by decide +kernel, by decide +kernel,
      by decide +kernel, executes_of (issues_of (by decide +kernel)) (by decide +kernel), by decide +kernel, by decide +kernel,
      by decide +kernel, by decide +kernel, by decide +kernel, ?_⟩
  · exact barred_of (executes_of (issues_of (by decide +kernel)) (by decide +kernel)) (by decide +kernel) (by decide +kernel)
  · exact barred_of (executes_of (issues_of (by decide +kernel)) (by decide +kernel)) (by decide +kernel) (by decide +kernel)
  · exact barred_of (executes_of (issues_of (by decide +kernel)) (by decide +kernel)) (by decide +kernel) (by decide +kernel)
  · intro k hk
    refine ⟨?_, noLoop_of ?_, ?_⟩ <;> revert k <;> decide +kernel

/-- A stream with a fence that has issued: it waits for access 6 and keeps the classes 0 and 1 in order for the package. -/
def fenced (accs : List (Nat × Option Access)) : State :=
  { onBase fun c => { c with late := [⟨3, none, [6], none, none, [], true, some ⟨7, 3, 6, false, false⟩⟩] } with accs := accs }

/-- An instruction of a vector register that has issued behind the fence. -/
def slow (fp : BitVec 3) : Late := ⟨fp, none, [], none, none, [(2, 0xFF, 0x11)], true, none⟩

/-- Nothing outstanding that a fence names, something, and writes that an xfence of scope `.st` does not; an instruction that retires first, one
that retires behind another, one that pushes and has to wait for it, and a fence that waits; an access that a fence keeps back. -/
theorem test_witness_Fences :
    (∃ (s : State) (f : FY), Executes s f.g f.fp f.fo [] [] ∧ ((accessesOf s s.cur).filter fun e => f.k.getLsbD e.2.cls) = [] ∧
      ((accessesOf s s.cur).filter fun e => !e.2.kind.isLoad) = [] ∧ accessesOf s s.cur ≠ []) ∧
    (∃ (s : State) (f : FY), Executes s f.g f.fp f.fo [] [] ∧ ((accessesOf s s.cur).filter fun e => f.k.getLsbD e.2.cls) ≠ [] ∧
      ((accessesOf s s.cur).filter fun e => !e.2.kind.isLoad) ≠ [] ∧ f.k.toNat / 2 ^ 16 % 8 = 6) ∧
    (∃ (s : State) (f : FY), Executes s f.g f.fp f.fo [] [] ∧ ((accessesOf s s.cur).filter fun e => !e.2.kind.isLoad) ≠ [] ∧
      f.k.toNat / 2 ^ 16 % 8 = 0) ∧
    (∀ x ∈ [(0, slow 3, true), (1, slow 0, true), (1, slow 3, false)], ∃ (s : State) (k : Nat), (s.ctl k).late[x.1]? = some x.2.1 ∧
      (s.ctl k).legal = true ∧ (s.ctl k).run = .running ∧ x.2.1.tiles = none ∧
      decide ((x.1 = 0 ∨ (x.2.1.fp = 0 ∧ x.2.1.outcome = none)) ∧ ∀ a ∈ x.2.1.accs, s.access a = none) = x.2.2) ∧
    (∃ (s : State) (k : Nat) (l : Late), (s.ctl k).late[0]? = some l ∧ (s.ctl k).legal = true ∧ (s.ctl k).run = .running ∧ l.tiles = none ∧
      ∃ a ∈ l.accs, s.access a ≠ none) ∧
    (∃ (s : State) (n m : Nat) (a b : Access) (l : Late) (f : Fence), s.access n = some a ∧ (m, some b) ∈ s.accs ∧ b.k = a.k ∧
      b.remote = false ∧ l ∈ (s.ctl a.k).late ∧ l.fence = some f ∧ m < f.num ∧ f.num ≤ n ∧ f.mask.getLsbD b.cls = true ∧
      f.mask.getLsbD a.cls = true ∧ 6 ≤ f.scope ∧ ∀ p ∈ a.pieces, movingTile s p.spot = none) :=
  ⟨⟨{ base with accs := [(7, some { load1 with cls := 1 })] }, { fy0 with k := 0x0FFFD }, executes_of (issues_of (by decide +kernel)) (by decide +kernel),
      by decide +kernel⟩,
    ⟨{ base with accs := [(7, some { store1 with cls := 15 })] }, { fy0 with k := 0x68000 }, executes_of (issues_of (by decide +kernel)) (by decide +kernel),
      by decide +kernel⟩,
    ⟨{ base with accs := [(7, some { store1 with cls := 15 })] }, { fy0 with k := 0 }, executes_of (issues_of (by decide +kernel)) (by decide +kernel),
      by decide +kernel⟩,
    fun x hx => ⟨onBase fun c => { c with late := if x.1 = 0 then [x.2.1] else [slow 0, x.2.1] }, 1, by revert x; decide +kernel⟩,
    ⟨fenced [(6, some load1)], 1, _, rfl, by decide +kernel, by decide +kernel, rfl, 6, by decide +kernel, by decide +kernel⟩,
    fenced [(6, some load1), (7, some { load1 with cls := 1 })], 7, 6, { load1 with cls := 1 }, load1, _, ⟨7, 3, 6, false, false⟩, by decide +kernel,
    by decide +kernel, by decide +kernel, by decide +kernel, List.mem_cons_self, rfl, by decide +kernel⟩

/-- A complete token with and without a record, a cancelled and an incomplete one; as many loads outstanding as waitc allows, without a record,
with one that it waits out and with one that it does not, and one more. -/
theorem test_witness_Waits :
    (∃ (s : State) (f : FY), Executes s f.g f.fp f.fo [] [] ∧ (s.core (coreOf s.cur)).tok (f.k.toNat % 64) = .complete ∧ f.k.toNat % 64 ≠ 0 ∧
      nextRecord (s.core (coreOf s.cur)) s.cur (fun r => r.kp == f.k.toNat % 64) = none) ∧
    (∃ (s : State) (f : FY) (r : FaultRec), Executes s f.g f.fp f.fo [] [] ∧ (s.core (coreOf s.cur)).tok (f.k.toNat % 64) = .complete ∧
      f.k.toNat % 64 ≠ 0 ∧ nextRecord (s.core (coreOf s.cur)) s.cur (fun r => r.kp == f.k.toNat % 64) = some r ∧ s.now.tip = false) ∧
    (∃ (s : State) (f : FY), Executes s f.g f.fp f.fo [] [] ∧ (s.core (coreOf s.cur)).tok (f.k.toNat % 64) = .cancelled ∧ s.now.tip = false) ∧
    (∃ (s : State) (f : FY), Executes s f.g f.fp f.fo [] [] ∧ (s.core (coreOf s.cur)).tok (f.k.toNat % 64) = .incomplete) ∧
    (∃ (s : State) (f : FY) (r : FaultRec), Executes s f.g f.fp f.fo [] [] ∧ outCounts s s.cur = (1, 0, 0, 0) ∧ f.k = 1 ∧
      nextRecord (s.core (coreOf s.cur)) s.cur (fun r => if isTileOp r.op9 then f.k.toNat / 2 ^ 18 % 64 ≤ 0 else f.k.toNat / 2 ^ 12 % 64 ≤ 0) =
        some r ∧ s.now.tip = false) ∧
    (∃ (s : State) (f : FY), Executes s f.g f.fp f.fo [] [] ∧ outCounts s s.cur = (1, 0, 0, 0) ∧ f.k = 0x3F001 ∧
      (s.core (coreOf s.cur)).faults ≠ [] ∧
      nextRecord (s.core (coreOf s.cur)) s.cur (fun r => if isTileOp r.op9 then f.k.toNat / 2 ^ 18 % 64 ≤ 0 else f.k.toNat / 2 ^ 12 % 64 ≤ 0) = none) ∧
    (∃ (s : State) (f : FY), Executes s f.g f.fp f.fo [] [] ∧ outCounts s s.cur = (1, 0, 0, 0) ∧ f.k = 0xFFFFC0) :=
  ⟨⟨base, { fy0 with k := 63 }, base_executes _ _, by decide +kernel⟩,
    ⟨onBaseCore fun c => { c with faults := [⟨9, some 1, 63, 0x0DB, 5, 0, 0, 0⟩, ⟨8, none, 63, 0x0DB, 6, 0, 0, 0⟩] }, { fy0 with k := 63 },
      ⟨8, none, 63, 0x0DB, 6, 0, 0, 0⟩, executes_of (issues_of (by decide +kernel)) (by decide +kernel), by decide +kernel⟩,
    ⟨onBaseCore fun c => { c with toks := [(1, .cancelled)] }, { fy0 with k := 1 }, executes_of (issues_of (by decide +kernel)) (by decide +kernel),
      by decide +kernel⟩,
    ⟨onBaseCore fun c => { c with toks := [(63, .incomplete)] }, { fy0 with k := 63 }, executes_of (issues_of (by decide +kernel)) (by decide +kernel),
      by decide +kernel⟩,
    ⟨{ onBaseCore fun c => { c with faults := [⟨9, some 1, 63, 0x0DB, 5, 0, 0, 0⟩] } with accs := [(7, some load1)] }, { fy0 with k := 1 },
      ⟨9, some 1, 63, 0x0DB, 5, 0, 0, 0⟩, executes_of (issues_of (by decide +kernel)) (by decide +kernel), by decide +kernel⟩,
    ⟨{ onBaseCore fun c => { c with faults := [⟨9, some 1, 63, 0x0DB, 5, 0, 0, 0⟩] } with accs := [(7, some load1)] }, { fy0 with k := 0x3F001 },
      executes_of (issues_of (by decide +kernel)) (by decide +kernel), by decide +kernel⟩,
    { base with accs := [(7, some load1)] }, { fy0 with k := 0xFFFFC0 }, executes_of (issues_of (by decide +kernel)) (by decide +kernel), by decide +kernel⟩

/-- The row of s2's address in `win8`. -/
abbrev rowAt : Nat := keyPad 0 8 / 128

/-- `win8` with a last load of the row of s2's address, which has been written since if its list says so, and a park limit. -/
def parkable (x : Option (List Nat) × Word) : State :=
  { win8 with
    ctls := [(1, { ctl1 with lastLoad := x.1.map fun l => ⟨[rowAt], 0, l⟩ })]
    cores := [(0, { win8.core 0 with parklim := x.2 })] }

def parkings : List (Option (List Nat) × Word) := [(none, 0x10000), (some [], 0x10000), (some [rowAt], 0x10000), (some [], 0)]

def parkCheck (s : State) : Bool :=
  okWith (checkAll s (s.ctx s.cur) .load [⟨0, s.sreg s.cur 2, .ok [(offOf (s.sreg s.cur 2), 1)], []⟩])
    fun ps _ => decide (ps.flatMap (fun p => rowsOfSpot p.spot) = [rowAt])

theorem parkable_of (x : Option (List Nat) × Word) (h : x ∈ parkings) :
    Executes (parkable x) pass 0 0 [2] [] ∧ parkCheck (parkable x) = true ∧ (parkable x).now.lastLoad.map (·.written) = x.1 ∧
    ((parkable x).core (coreOf (parkable x).cur)).parklim = x.2 ∧
    ((parkable x).now.lastLoad.map (·.rows) = some [rowAt] ∨ x.1 = none) := by
  simp only [parkings, List.mem_cons, List.not_mem_nil, or_false] at h
  rcases h with rfl | rfl | rfl | rfl <;>
    exact ⟨executes_of (issues_of (by decide +kernel)) (by decide +kernel), by decide +kernel, by decide +kernel, by decide +kernel, by decide +kernel⟩

/-- No load before, a row not written since its last load, one that was, and parking that is off; a stream that is parked; a write of the first
and of the last byte of its row. -/
theorem test_witness_Parking :
    (∀ x ∈ parkings, ∃ (s : State) (f : FY) (ps : List Piece) (touch : Option Nat) (rows : List Nat),
      s.now.lastLoad.map (·.written) = x.1 ∧ (s.core (coreOf s.cur)).parklim = x.2 ∧ Executes s f.g f.fp f.fo [f.sa.toNat] [] ∧
      checkAll s (s.ctx s.cur) .load [⟨0, s.sreg s.cur f.sa.toNat, .ok [(offOf (s.sreg s.cur f.sa.toNat), 1)], []⟩] = .ok (ps, touch) ∧
      rows = ps.flatMap (fun p => rowsOfSpot p.spot) ∧ rows ≠ [] ∧ (s.now.lastLoad.map (·.rows) = some rows ∨ x.1 = none)) ∧
    (∃ (s : State) (k : Nat) (rows : List Nat) (i : Instr), (s.ctl k).run = .parked rows ∧ (s.ctl k).legal = true ∧
      i ∈ ([.parkLimitExpiry k, .parkEarlyResume k] : List Instr)) ∧
    (∀ a ∈ [128 * 5, 128 * 5 + 127], ∃ (s : State) (k row : Nat) (rows : List Nat) (bs : List Byte), FMap.canon Ctl.reset 0 s.ctls = true ∧
      (s.ctl k).run = .parked rows ∧ row ∈ rows ∧ a < 128 * s.rowNow row + 128 ∧ 128 * s.rowNow row < a + bs.length ∧ bs ≠ []) := by
  refine ⟨fun x hx => ?_, ⟨onBase fun c => { c with run := .parked [5] }, 1, [5], _, by decide +kernel, by decide +kernel, List.mem_cons_self⟩, fun a ha =>
    ⟨onBase fun c => { c with run := .parked [4, 5] }, 1, 5, [4, 5], [0], by decide +kernel, by decide +kernel, by decide, ?_, ?_, by decide⟩⟩
  · obtain ⟨h, h1, h2, h3, h6⟩ := parkable_of x hx
    obtain ⟨ps, touch, h4, h5⟩ := ok_with h1
    have h5 := of_decide_eq_true h5
    exact ⟨parkable x, { fy0 with sa := 2 }, ps, touch, _, h2, h3, h, h4, rfl, by rw [h5]; decide, by rw [h5]; exact h6⟩
  · revert a; decide +kernel
  · revert a; decide +kernel

theorem test_witness_TrapEntry : (∃ (s : State) (k : Nat), (s.ctl k).legal = true ∧ (s.ctl k).tip = false) ∧
    ∃ (s : State) (k : Nat), (s.ctl k).legal = true ∧ (s.ctl k).tip = true :=
  ⟨⟨base, 1, by decide +kernel⟩, onBase fun c => { c with status := 0x70 }, 1, by decide +kernel⟩

theorem test_witness_TrapReturn : ∃ (s : State) (f : FY), Executes s f.g f.fp f.fo [] [] ∧ s.now.prv = true ∧ s.now.tip = true :=
  ⟨onBase fun c => { c with status := 0x50, epc := fetchHandle + 8 }, fy0, executes_of (issues_of (by decide +kernel)) (by decide +kernel), by decide +kernel⟩

/-- `base` with one frame slot of 16 MiB, which is free. -/
def slotted : State :=
  { base with mem := writeCells base.mem (asAddr base 0 + 40) ([0x1000000, 2 ^ 48 + 4096, 0x3F000].flatMap fun x : Nat => natToBytes 8 x) }

/-- Inside a region and outside, with a trap in progress and without, and a halt without a free slot, with one, and at the end of its share. -/
theorem test_witness_SystemInstructions :
    (∃ (s : State) (f : FY), Executes s f.g f.fp f.fo [] [] ∧ s.now.tip = false ∧ s.now.open = true) ∧
    (∃ (s : State) (f : FY), Executes s f.g f.fp f.fo [f.sd.toNat] [] ∧ s.now.prv = true ∧ f.k.toNat = 3 ∧ s.now.tip = true) ∧
    (∃ s : State, s.now.legal = true ∧ FMap.canon none 0 s.ops = true) ∧
    (∀ b : Bool, ∃ (s : State) (f : FY), Executes s f.g f.fp f.fo [f.sa.toNat, f.sb.toNat] [] ∧ s.now.open = b) ∧
    (∀ b : Bool, ∃ (s : State) (f : FY) (n : Nat) (tm : Team), Executes s f.g f.fp f.fo [f.sa.toNat] [] ∧ s.now.prv = true ∧ s.now.late = [] ∧
      (s.core (coreOf s.cur)).team = some n ∧ s.team n = some tm ∧ bitOf (s.sreg s.cur f.sa.toNat) 8 = false ∧
      freeSlotOf s tm.asid = (if b then some 0 else none) ∧ (b = true → Quiet s n tm)) ∧
    (∃ (s : State) (f : FY) (n : Nat) (tm : Team), Executes s f.g f.fp f.fo [f.sa.toNat] [] ∧ s.now.prv = true ∧ s.now.late = [] ∧
      (s.core (coreOf s.cur)).team = some n ∧ s.team n = some tm ∧ bitOf (s.sreg s.cur f.sa.toNat) 8 = true) :=
  ⟨⟨onBase fun c => { c with rgn := 2 ^ 63 }, fy0, executes_of (issues_of (by decide +kernel)) (by decide +kernel), by decide +kernel⟩,
    ⟨onBase fun c => { c with status := 0x50 }, { fy0 with k := 3, sd := 4 }, executes_of (issues_of (by decide +kernel)) (by decide +kernel), by decide +kernel⟩,
    ⟨base, by decide +kernel⟩,
    fun b => ⟨if b then onBase fun c => { c with rgn := 2 ^ 63 } else base, fy0,
      executes_of (issues_of (by revert b; decide +kernel)) (by revert b; decide +kernel), by revert b; decide +kernel⟩,
    fun b => ⟨if b then slotted else base, { fy0 with sa := 1 }, 1, team1, executes_of (issues_of (by revert b; decide +kernel)) (by revert b; decide +kernel),
      by revert b; decide +kernel, by revert b; decide +kernel, by cases b <;> decide +kernel, by revert b; decide +kernel, by revert b; decide +kernel,
      by revert b; decide +kernel, fun h => by subst h; unfold Quiet; decide +kernel⟩,
    withInst inst0 0x100, { fy0 with sa := 2 }, 1, team1, executes_of (issues_of (by decide +kernel)) (by decide +kernel), by decide +kernel⟩

theorem some_with {α : Type} {x : Option α} {p : α → Bool} (h : x.any p = true) : ∃ a, x = some a ∧ p a = true := by
  cases x with
  | none => cases h
  | some a => exact ⟨a, rfl, h⟩

/-- `base` with 256's handle in s2, 64 in s3, a handle of window 1 in s4, 16 in s5. -/
def eng : State := { base with sregs := [(66, fetchHandle), (67, 64), (68, handleOf 1 0), (69, 16)] }

theorem eng_executes (ss vs : List Nat) : Executes eng pass 0 0 ss vs :=
  executes_of ⟨by decide +kernel, fun h => absurd rfl h, fun h => absurd rfl h, fun _ _ => Or.inr (no_mem (by decide +kernel)),
    fun _ _ => no_mem (by decide +kernel), by decide +kernel, by decide +kernel, fun h => absurd rfl h⟩ (by decide +kernel)

/-- What the first clause of `EngineIssue` asks of one instruction, but for that the state executes it. -/
def EngineWitness (s : State) (f : FE) (op9 : Nat) : Prop :=
  ∃ i e, (i, e) ∈ engineForms s f ∧ e.op9 = op9 ∧ e.passes ∧ engineFree s f ∧ ¬keptBack s f ∧ (e.closes = true → s.now.open = false)

theorem engine_witness {s : State} {f : FE} {op9 n : Nat} {i : Instr} {closes : Bool} {passes : Prop} {rec : Op → Op}
    (h1 : (engineForms s f)[n]? = some (i, ⟨op9, closes, passes, rec⟩)) (h2 : passes) (h3 : engineFree s f)
    (h4 : s.now.open = false ∧ s.now.late = [] ∧ accessesOf s s.cur = []) :
    EngineWitness s f op9 :=
  ⟨i, _, List.mem_of_getElem? h1, rfl, h2, h3, fun h => h.elim (fun ⟨_, hl, _⟩ => no_mem h4.2.1 hl) fun ⟨_, _, _, he, _⟩ => no_mem h4.2.2 he, fun _ => h4.1⟩

theorem eng_free {s : State} {f : FE} (h : (∀ n ∈ feWaits f, (s.core (coreOf s.cur)).tok n ≠ .cancelled) ∧
    (s.core (coreOf s.cur)).tok f.kp.toNat ≠ .incomplete) : engineFree s f := h

/-- Every engine instruction on operands that pass, with a token to complete and one to wait for; and `.rel` with nothing written. -/
theorem test_witness_EngineForms :
    (∀ n f, (n, f) ∈ [(0x0D1, { fe0 with kp := 1, a1 := 2 }), (0x0D2, { fe0 with kp := 1, kw1 := 2, a1 := 2 }), (0x0D3, { fe0 with a1 := 5, a2 := 3 }),
        (0x0D5, { fe0 with a1 := 2 }), (0x0D8, { fe0 with kp := 63, a1 := 2 }), (0x0D9, { fe0 with a3 := 3 }), (0x0DA, { fe0 with a3 := 3 }),
        (0x0DB, { fe0 with a1 := 4, a2 := 2, a3 := 3, rel := 1 }), (0x0DC, { fe0 with a1 := 4, a2 := 2, a3 := 5 }), (0x0DD, fe0),
        (0x0DE, { fe0 with a2 := 3 }), (0x0E0, { fe0 with a1 := 2, a2 := 3 }), (0x0E1, { fe0 with a1 := 2, a2 := 3 }),
        (0x0E2, { fe0 with a1 := 2, a2 := 3, a3 := 4 }), (0x0E3, { fe0 with a1 := 2 }), (0x0E4, { fe0 with a1 := 2 }),
        (0x0E5, { fe0 with a1 := 2 })] → f.g = pass ∧ Executes eng f.g 0 0 [f.a1.toNat, f.a2.toNat, f.a3.toNat] [] ∧ EngineWitness eng f n) := by
  intro n f h
  have hf : f.g = pass := by
    simp only [List.mem_cons, Prod.mk.injEq, List.not_mem_nil, or_false] at h
    repeat' (refine Or.elim h ?_ ?_ <;> clear h <;> intro h)
    all_goals rw [h.2]; rfl
  refine ⟨hf, hf ▸ eng_executes _ _, ?_⟩
  clear hf
  simp only [List.mem_cons, Prod.mk.injEq, List.not_mem_nil, or_false] at h
  repeat' (refine Or.elim h ?_ ?_ <;> clear h <;> intro h)
  all_goals (obtain ⟨hn, hf⟩ := h; subst hn hf)
  · refine engine_witness (n := 0) rfl ?_ (eng_free (by decide +kernel)) (by decide +kernel)
    obtain ⟨tn, h1, h2⟩ := some_with (x := readTensor eng (eng.ctx eng.cur).asid (tidOf (eng.sreg eng.cur 2)))
      (p := fun tn => !tn.remote && decide (offOf (eng.sreg eng.cur 2) < tn.bytes) && tn.rd &&
        decide ((eng.sreg eng.cur 0).toNat % 2 ^ 7 + (tn.tbytes + 4095) / 4096 ≤ 128)) (by decide +kernel)
    simp only [Bool.and_eq_true, Bool.not_eq_true', decide_eq_true_eq] at h2
    exact ⟨tn, h1, h2.1.1.1, h2.1.1.2, h2.1.2, h2.2⟩
  · refine engine_witness (n := 1) rfl ?_ (eng_free (by decide +kernel)) (by decide +kernel)
    unfold nestReady
    refine ⟨by decide +kernel, by decide +kernel, by decide +kernel, Or.inr ?_⟩
    decide +kernel
  · exact engine_witness (n := 2) rfl (by decide +kernel) (eng_free (by decide +kernel)) (by decide +kernel)
  · refine engine_witness (n := 3) rfl ?_ (eng_free (by decide +kernel)) (by decide +kernel)
    unfold storeReady
    decide +kernel
  · exact engine_witness (n := 4) rfl (by decide +kernel) (eng_free (by decide +kernel)) (by decide +kernel)
  · exact engine_witness (n := 5) rfl (by decide +kernel) (eng_free (by decide +kernel)) (by decide +kernel)
  · exact engine_witness (n := 6) rfl (by decide +kernel) (eng_free (by decide +kernel)) (by decide +kernel)
  · exact engine_witness (n := 7) rfl (by decide +kernel) (eng_free (by decide +kernel)) (by decide +kernel)
  · exact engine_witness (n := 8) rfl (by decide +kernel) (eng_free (by decide +kernel)) (by decide +kernel)
  · exact engine_witness (n := 9) rfl trivial (eng_free (by decide +kernel)) (by decide +kernel)
  · exact engine_witness (n := 10) rfl (by decide +kernel) (eng_free (by decide +kernel)) (by decide +kernel)
  · exact engine_witness (n := 11) rfl (by decide +kernel) (eng_free (by decide +kernel)) (by decide +kernel)
  · exact engine_witness (n := 12) rfl (by decide +kernel) (eng_free (by decide +kernel)) (by decide +kernel)
  · exact engine_witness (n := 13) rfl (by decide +kernel) (eng_free (by decide +kernel)) (by decide +kernel)
  · exact engine_witness (n := 14) rfl trivial (eng_free (by decide +kernel)) (by decide +kernel)
  · exact engine_witness (n := 15) rfl trivial (eng_free (by decide +kernel)) (by decide +kernel)
  · exact engine_witness (n := 16) rfl (by decide +kernel) (eng_free (by decide +kernel)) (by decide +kernel)

/-- `base` with an xfence that waits for access 6. -/
def held : State := onBase fun c => { c with late := [⟨0, none, [6], none, none, [], true, some ⟨7, 0, 6, true, false⟩⟩] }

theorem held_kept (f : FE) : keptBack held f := Or.inl ⟨_, List.mem_cons_self, _, rfl, rfl⟩

/-- A read to the last register; an xfence, and a `.rel` with a store out, that keep an engine instruction back; the header row and a level row of
the table; a wait for a cancelled token. -/
theorem test_witness_EngineIssue :
    (∃ (s : State) (f : FE), f.a1.toNat + f.a2.toNat % 16 * 64 = 1023 ∧ Executes s f.g 0 0 [f.a3.toNat] [f.a1.toNat + f.a2.toNat % 16 * 64] ∧
      (∀ n ∈ feWaits f, (s.core (coreOf s.cur)).tok n ≠ .cancelled) ∧ (s.core (coreOf s.cur)).tok f.kp.toNat ≠ .incomplete ∧ ¬keptBack s f) ∧
    (∃ (s : State) (f : FE) (i : Instr) (e : EngineForm), (i, e) ∈ engineForms s f ∧ e.passes ∧ engineFree s f ∧
      Executes s f.g 0 0 [f.a1.toNat, f.a2.toNat, f.a3.toNat] [] ∧ (e.closes = true → s.now.open = false) ∧ keptBack s f) ∧
    (∃ (s : State) (f : FE), f.rel = 1 ∧ s.now.late = [] ∧ keptBack s f) ∧
    (∀ r ∈ [0, 6], ∃ (s : State) (f : FE) (lo hi : Word) (row : Nat), lo = s.sreg s.cur f.a1.toNat ∧ hi = s.sreg s.cur f.a2.toNat ∧
      row = (s.sreg s.cur f.a3.toNat).toNat % 8 ∧ row ≠ 7 ∧ row = r ∧ (if row = 0 then headOk lo hi else levelOk hi) = true ∧
      Executes s f.g 0 0 [f.a1.toNat, f.a2.toNat, f.a3.toNat] [] ∧
      ∀ n ∈ f.kp.toNat :: feWaits f, (s.core (coreOf s.cur)).tok n = .complete) ∧
    (∃ (s : State) (f : FE) (i : Instr) (e : EngineForm) (n : Nat), (i, e) ∈ engineForms s f ∧
      Executes s f.g 0 0 [f.a1.toNat, f.a2.toNat, f.a3.toNat] [] ∧ (e.closes = true → s.now.open = false) ∧
      (feWaits f).find? (fun n => (s.core (coreOf s.cur)).tok n == .cancelled) = some n ∧ s.now.tip = false) := by
  refine ⟨⟨eng, { fe0 with a1 := 63, a2 := 15, a3 := 3, kp := 5 }, by decide, eng_executes _ _, by decide +kernel, by decide +kernel, fun h =>
      h.elim (fun ⟨_, hl, _⟩ => no_mem (by decide +kernel) hl) fun ⟨h, _⟩ => absurd h (by decide)⟩,
    ⟨held, { fe0 with a1 := 2, a2 := 1 }, _, _, List.mem_of_getElem? (i := 9) rfl, trivial, eng_free (by decide +kernel),
      executes_of (issues_of (by decide +kernel)) (by decide +kernel), fun _ => by decide +kernel, held_kept _⟩,
    ⟨{ base with accs := [(7, some store1)] }, { fe0 with rel := 1, sc := 1 }, rfl, by decide +kernel, Or.inr ⟨rfl, by decide, (7, store1), by decide +kernel⟩⟩,
    fun r hr => ?_,
    onBaseCore fun c => { c with toks := [(7, .cancelled)] }, { fe0 with kw1 := 1, kw3 := 7 }, _, _, 7, List.mem_cons_self,
    executes_of (issues_of (by decide +kernel)) (by decide +kernel), fun _ => by decide +kernel, by decide +kernel, by decide +kernel⟩
  refine ⟨{ eng with sregs := [(66, BitVec.ofNat 64 r)] }, { fe0 with a3 := 2, kw1 := 9 }, _, _, r, rfl, rfl, ?_, ?_, rfl, ?_, ?_, ?_⟩
  · revert r; decide +kernel
  · revert r; decide +kernel
  · revert r; decide +kernel
  · refine executes_of (issues_of ?_) ?_ <;> revert r <;> decide +kernel
  · revert r; decide +kernel

/-- `eng` with operation 7, of stream M of core 0. -/
def withOp (o : Op) : State := { eng with ops := [(7, some o)] }

def op0 : Op := newOp eng 0x0D3 { fe0 with kp := 1, a1 := 3, a2 := 5 }
def unit0 : WUnit := ⟨0, 0, 0, [(keyPad 0 8, [1, 2])], none, []⟩
def piece0 : MPiece := ⟨1, ownPackage eng, [unit0], none, [], none, 0, 1, 0, []⟩

/-- Chain 7, whose entries are all over but for those that `l` holds. -/
def firedChain (l : List (Nat × Option Op)) : State :=
  { eng with ops := (7, some { op0 with op9 := 0x0E2, state := .fired, ended := [(0x0D5, 3, none)] }) :: l }

/-- An operation of each kind of step; one that has faulted and one that has not, of its own and in a chain; a chain that is over; a write that
waited; a piece of another package, one of this and the count of a drained tile. -/
theorem test_witness_OperationSteps :
    (∃ (s : State) (n : Nat) (o : Op), s.op n = some o ∧ mayStart s n o = true ∧ o.op9 = 0x0D3 ∧ o.a2.toNat = 16) ∧
    (∃ (s : State) (n : Nat) (o : Op), s.op n = some o ∧ mayStart s n o = true ∧ o.op9 = 0x0D4 ∧ o.kp ≠ 0 ∧ o.parent = none ∧ o.vd = 1023) ∧
    (∀ op9 ∈ [0x0D7, 0x0DC, 0x0E1], ∀ p ∈ [none, some 8], ∃ (s : State) (n : Nat) (o : Op), s.op n = some o ∧ o.state = .ready ∧ o.adds = [] ∧
      o.op9 = op9 ∧ o.op9 ≠ 0x0E5 ∧ o.parent = p ∧ o.fault ≠ none ∧ ∀ c, p = some c → c ≠ n ∧ (s.op c).isSome = true) ∧
    (∃ (s : State) (n : Nat) (o : Op), s.op n = some o ∧ o.state = .fired ∧ (∀ e ∈ s.ops, ∀ x, e.2 = some x → x.parent ≠ some n) ∧
      (s.core o.core).team = some o.team ∧ o.parent = none ∧ o.ended ≠ []) ∧
    (∃ (s : State) (n : Nat) (o : Op) (asid key : Nat) (bs : List Byte), s.op n = some o ∧ o.state = .writing ∧ o.pieces = [] ∧
      o.units = [⟨asid, 0, 0, [(key, bs)], none, []⟩] ∧ s.pkg.hbaseSet = false) ∧
    (∃ (s : State) (n j : Nat) (o : Op) (p : MPiece), s.op n = some o ∧ o.pieces[j]? = some p ∧ p.kind = 1 ∧ p.tag ≠ none ∧
      o.op9 ≠ 0x0E5 ∧ o.state = .writing ∧ o.units = [] ∧ o.pieces.length = 1) ∧
    (∃ (s : State) (n j : Nat) (o : Op) (p : MPiece) (asid key : Nat) (bs : List Byte), s.op n = some o ∧ o.pieces[j]? = some p ∧ p.kind = 1 ∧
      o.state = .writing ∧ o.units = [] ∧ o.pieces.length = 2 ∧ p.tag = none ∧ p.thru = none ∧ p.pkg = ownPackage s ∧ p.ctrs = [] ∧
      o.op9 ≠ 0x0E5 ∧ s.pkg.hbaseSet = false ∧ p.units = [⟨asid, 0, 0, [(key, bs)], none, []⟩]) ∧
    (∃ (s : State) (n j : Nat) (o : Op) (p : MPiece) (h : Word) (k : Nat), s.op n = some o ∧ o.pieces[j]? = some p ∧ p.kind = 1 ∧
      o.state = .writing ∧ o.units = [] ∧ o.pieces = [p] ∧ p.tag = none ∧ p.thru = none ∧ p.units = [] ∧ p.ctrs = [(h, k)] ∧ o.op9 = 0x0E5 ∧
      tidOf h = 2 ∧ offOf h / 8 * 8 + 8 = (opCtx s o).w2len ∧ s.pkg.hbaseSet = false) :=
  ⟨⟨withOp op0, 7, op0, by decide +kernel⟩, ⟨withOp { op0 with op9 := 0x0D4, vd := 1023 }, 7, _, rfl, by decide +kernel⟩,
    fun op9 h p hp => ⟨{ eng with ops := [(7, some { op0 with state := .ready, op9 := op9, fault := some (5, 6, true), parent := p }), (8, some op0)] }, 7,
      _, rfl, rfl, rfl, rfl, by show op9 ≠ 0x0E5; revert op9; decide, rfl, nofun,
      fun c hc => by rw [hc] at hp; obtain rfl : c = 8 := by simpa using hp
                     exact ⟨by decide, rfl⟩⟩,
    ⟨firedChain [], 7, _, rfl, rfl, by simp [firedChain, op0, newOp], by decide +kernel, rfl, nofun⟩,
    ⟨withOp { op0 with state := .writing, units := [unit0] }, 7, _, _, _, _, rfl, rfl, rfl, rfl, by decide +kernel⟩,
    ⟨withOp { op0 with state := .writing, pieces := [{ piece0 with tag := some 3 }] }, 7, 0, _, _, rfl, rfl, by decide +kernel⟩,
    ⟨withOp { op0 with state := .writing, pieces := [piece0, piece0] }, 7, 1, _, _, 0, keyPad 0 8, [1, 2], rfl, rfl, by decide +kernel⟩,
    withOp { op0 with op9 := 0x0E5, state := .writing, pieces := [{ piece0 with units := [], ctrs := [(handleOf 2 4088, 9)] }] }, 7, 0,
      _, _, handleOf 2 4088, 9, rfl, rfl, rfl, rfl, rfl, rfl, by decide +kernel⟩

theorem begins_of {s : State} {n op9 : Nat} {o : Op} (h : s.op n = some o ∧ mayStart s n o = true ∧ o.op9 = op9 ∧ o.deferred = false ∧ o.retagged = [] ∧
    o.seen = [] ∧ s.pkg.hbaseSet = false) : Begins s n o op9 := h

/-- What stands in window 2 can be read there. -/
theorem reads_window {s : State} {o : Op} (tid off n : Nat) (h : tid = 2 ∧ n ≠ 0 ∧ off + n ≤ (opCtx s o).w2len) :
    Reads s o tid off (s.bytes (window2 s o off) n) ∧ (s.bytes (window2 s o off) n).length = n := by
  have hl : (s.bytes (window2 s o off) n).length = n := length_readCells _ _ _
  refine ⟨⟨fun e => h.2.1 ?_, Or.inl ⟨h.1, ?_, ?_⟩⟩, hl⟩
  · rw [← hl, e]; rfl
  · rw [hl]; exact h.2.2
  · rw [hl]

/-- `formatted` with the first word of the tile of tensor 257, its FROZEN bit and operation 7. -/
def panelState (w0 : Nat) (frozen : Bool) (o : Op) : State :=
  { formatted with
    mem := writeCells (writeCells formatted.mem 0x20010 (natToBytes 8 w0)) (0x10000 + 64 * 257 + 7) [if frozen then 0xE9 else 0xE1]
    ops := [(7, some o)] }
def tensorOf (s : State) : Tensor := (readTensor s 0 257).getD tensor257

/-- A raw tile, one of two classes whose formats are well formed, and the last slot of the weight buffer. -/
theorem test_witness_EngineResults_wb : ∀ x ∈ [(0x0000031080000000, true), (0x0000031080005800, false), (0x0000031000005900, false)],
    ∃ (s : State) (n : Nat) (o : Op) (tn : Tensor) (e : Tile), Begins s n o 0x0D1 ∧ readTensor s o.asid (tidOf o.a1) = some tn ∧
      e = readTile s tn (offOf o.a1 / tn.tbytes) ∧ tidOf o.a1 ∉ (opCtx s o).froz ∧ o.a2.toNat % 128 * 4096 + tn.tbytes = 2 ^ 19 ∧ 0 < tn.tbytes ∧
      panelBad tn e.tag = x.2 ∧ (panelBad tn e.tag = false → e.valid = true ∨ classOf e.tag = 1) := by
  intro x hx
  let o : Op := { op0 with op9 := 0x0D1, a1 := handleOf 257 0, a2 := 127 }
  let s := panelState x.1 false o
  refine ⟨s, 7, o, tensorOf s, readTile s (tensorOf s) 0, begins_of ?_, ?_⟩
  all_goals
    simp only [List.mem_cons, List.not_mem_nil, or_false] at hx
    rcases hx with rfl | rfl | rfl <;> decide +kernel

/-- A nest of one eight-bit micro-op, with a slot that holds no panel and with one that does; a panel whose last element is read; rows of
accumulators to store, with and without clearing; a plan to load. -/
theorem test_witness_EngineResults_nest :
    (∀ ok ∈ [true, false], ∃ (s : State) (n : Nat) (o : Op) (us : List (Int × Int × Int × Int)) (row : Int × Int × Int × Int → List Byte),
      Begins s n o 0x0D2 ∧ us = nest (fun j => levelOf (o.table.getD (2 * j + 2) 0) (o.table.getD (2 * j + 3) 0)) ∧ us ≠ [] ∧
      slotOk s o.core (o.a2.toNat / 2 ^ 18 % 128) ((o.table.getD 0 0).toNat % 16) = ok ∧
      ∀ u ∈ us, (row u).length = rowBytes ((o.table.getD 0 0).toNat % 16) ((o.table.getD 0 0).toNat / 16 % 256 + 1) ∧ 0 ≤ (offOf o.a1 : Int) + u.1 ∧
        Reads s o (tidOf o.a1) ((offOf o.a1 : Int) + u.1).toNat (row u)) ∧
    (∃ (s : State) (core slot : Nat) (tag : BitVec 16) (s0 s1 tb : Nat) (h : Word) (k j : Nat),
      FMap.get .empty (s.core core).slots slot = .panel tag s0 s1 tb h ∧ classOf tag.toNat = 0 ∧ layoutOf tag.toNat = 0 ∧ k + 1 = s1 ∧ j + 1 = s0) ∧
    (∀ clr ∈ [false, true], ∃ (s : State) (n : Nat) (o : Op), Begins s n o 0x0D5 ∧ tidOf o.a1 = 2 ∧ bitOf o.a3 41 = clr ∧
      o.a3.toNat / 2 ^ 16 % 2 ^ 16 = (if clr then 1 else 2) ∧ o.a3.toNat % 2 ^ 16 = 65535) ∧
    (∃ (s : State) (n : Nat) (o : Op) (bs : List Byte), Begins s n o 0x0D8 ∧ bs.length = 64 ∧ Reads s o (tidOf o.a1) (offOf o.a1) bs) := by
  refine ⟨fun ok h => ?_, ?_, fun clr h => ?_, ?_⟩
  · let o : Op := { op0 with op9 := 0x0D2, a1 := handleOf 2 4095, a2 := 127 * 2 ^ 18, table := [5, 0, 1, 0, 1, 0, 1, 0, 1, 0, 1, 0, 1, 0] }
    let s : State := { withOp o with cores := [(0, { eng.core 0 with slots := if ok then [(127, .panel 0x0800 1 1 128 0)] else [] })] }
    refine ⟨s, 7, o, [(0, 0, 0, 0)], fun _ => s.bytes (window2 s o (offOf o.a1)) 1, begins_of ?_, by decide, by decide, ?_, fun u hu => ?_⟩
    · revert ok; decide +kernel
    · revert ok; decide +kernel
    · obtain rfl := List.mem_singleton.mp hu
      have hr := reads_window (s := s) (o := o) (tidOf o.a1) (offOf o.a1) 1 (by revert ok; decide +kernel)
      have e : ((offOf o.a1 : Int) + 0).toNat = offOf o.a1 := by omega
      refine ⟨hr.2.trans (by decide +kernel), ?_, ?_⟩
      · show (0 : Int) ≤ (offOf o.a1 : Int) + 0
        omega
      · show Reads s o (tidOf o.a1) ((offOf o.a1 : Int) + 0).toNat _
        rw [e]; exact hr.1
  · exact ⟨onBaseCore fun c => { c with slots := [(127, .panel 0x0800 4 8 128 0)] }, 0, 127, 0x0800, 4, 8, 128, 0, 7, 3, by decide +kernel⟩
  · let o : Op := { op0 with op9 := 0x0D5, a1 := handleOf 2 0, a3 := BitVec.ofNat 64 (if clr then 2 ^ 41 + 2 ^ 16 + 65535 else 2 ^ 17 + 65535) }
    exact ⟨withOp o, 7, o, begins_of (by revert clr; decide +kernel), by revert clr; decide +kernel, by revert clr; decide +kernel, by revert clr; decide +kernel,
      by revert clr; decide +kernel⟩
  · let o : Op := { op0 with op9 := 0x0D8, a1 := handleOf 2 4032 }
    have hr := reads_window (s := withOp o) (o := o) (tidOf o.a1) (offOf o.a1) 64 (by decide +kernel)
    exact ⟨withOp o, 7, o, _, begins_of (by decide +kernel), hr.2, hr.1⟩

/-- Plans of four points, of two rings of four in the second kind: a workspace at the start of window 2, latitudes at 1,024. -/
def plan0 (kind : Nat) : Plan :=
  ⟨[BitVec.ofNat 64 (kind * 2 ^ 62 + 2 ^ 55 + 3), 2, 2 ^ 32 + 1, 0, if kind = 0 then 0 else 2 ^ 32 + 0x10001, handleOf 2 0,
    if kind = 0 then 0 else handleOf 2 1024, 0], true, handleOf 2 64⟩
def transforming (op9 kind : Nat) (valid : Bool) : Op × State :=
  let o : Op := { op0 with op9 := op9, a1 := handleOf 2 2048, a2 := handleOf 2 512, a3 := 1 }
  (o, { withOp o with cores := [(0, { eng.core 0 with plan := some { plan0 kind with valid := valid } })] })

/-- A transform without a plan, with an invalid one, with one of the other kind and with one that can be used. -/
theorem test_witness_EngineResults_transform : ∀ x ∈ [(0x0D9, 0), (0x0DA, 1)],
    (∃ (s : State) (n : Nat) (o : Op), Begins s n o x.1 ∧ o.a3.toNat % 2 ^ 32 ≠ 0 ∧ (s.core o.core).plan = none) ∧
    (∀ v ∈ [false, true], ∃ (s : State) (n : Nat) (o : Op) (p : Plan), Begins s n o x.1 ∧ o.a3.toNat % 2 ^ 32 ≠ 0 ∧ (s.core o.core).plan = some p ∧
      (if v then p.valid = true ∧ p.kind ≠ x.2 else p.valid = false)) ∧
    (∃ (s : State) (n : Nat) (o : Op) (p : Plan) (bs ls work : List Byte), Begins s n o x.1 ∧ (s.core o.core).plan = some p ∧ p.valid = true ∧
      p.ok = true ∧ p.kind = x.2 ∧ o.a3.toNat % 2 ^ 32 = 1 ∧ p.istride = 1 ∧ p.ostride = 1 ∧ 0 < pointsIn p ∧ 0 < pointsOut p ∧
      bs.length = p.pointBytes * pointsIn p ∧ Reads s o (tidOf o.a2) (offOf o.a2) bs ∧ tidOf o.a1 = 2 ∧
      offOf o.a1 + p.pointBytes * pointsOut p ≤ (opCtx s o).w2len ∧
      (tidOf o.a2 = 2 → offOf o.a2 + bs.length ≤ offOf o.a1 ∨ offOf o.a1 + p.pointBytes * pointsOut p ≤ offOf o.a2) ∧
      (x.2 = 1 → ls.length = 32 * p.nlat ∧ Reads s o (tidOf p.lat) (offOf p.lat) ls) ∧ (x.2 = 0 → ls = []) ∧
      work.length = p.pointBytes * p.workPoints ∧ (work ≠ [] → tidOf p.work = 2 ∧ offOf p.work + work.length ≤ (opCtx s o).w2len) ∧
      ∀ i, i < work.length → work.getD i 0 = Config.workspaceByte o.order i) := by
  intro x hx
  have hx' : x = (0x0D9, 0) ∨ x = (0x0DA, 1) := by simpa using hx
  refine ⟨⟨withOp { op0 with op9 := x.1, a3 := 1 }, 7, { op0 with op9 := x.1, a3 := 1 }, begins_of ?_, ?_, ?_⟩, fun v hv => ⟨(transforming x.1 (if v then 1 - x.2 else x.2) v).2, 7,
    (transforming x.1 (if v then 1 - x.2 else x.2) v).1, { plan0 (if v then 1 - x.2 else x.2) with valid := v }, begins_of ?_, ?_, rfl, ?_⟩, ?_⟩
  any_goals first
    | (rcases hx' with rfl | rfl <;> decide +kernel)
    | (rcases hx' with rfl | rfl <;> revert v <;> decide +kernel)
  let s := (transforming x.1 x.2 true).2
  let o := (transforming x.1 x.2 true).1
  let n := (plan0 x.2).pointBytes * pointsIn (plan0 x.2)
  let w := (plan0 x.2).pointBytes * (plan0 x.2).workPoints
  have hr := reads_window (s := s) (o := o) (tidOf o.a2) (offOf o.a2) n (by rcases hx' with rfl | rfl <;> decide +kernel)
  have hl (h : x.2 = 1) := reads_window (s := s) (o := o) (tidOf (plan0 x.2).lat) (offOf (plan0 x.2).lat) 64 (by
    rcases hx' with rfl | rfl
    · exact absurd h (by decide)
    · decide +kernel)
  refine ⟨s, 7, o, plan0 x.2, s.bytes (window2 s o (offOf o.a2)) n, if x.2 = 0 then [] else s.bytes (window2 s o (offOf (plan0 x.2).lat)) 64,
    (List.range w).map (Config.workspaceByte o.order), begins_of ?_, ?_, rfl, ?_, ?_, ?_, ?_, ?_, ?_, ?_, hr.2, ?_, ?_, ?_, fun _ => ?_, fun (h : x.2 = 1) => ?_,
    fun h => if_pos h, by simp only [List.length_map, List.length_range]; rfl, fun _ => ?_, fun i hi => ?_⟩
  any_goals first
    | (rcases hx' with rfl | rfl <;> decide +kernel)
    | skip
  · exact hr.1
  · rw [if_neg (by omega)]
    refine ⟨(hl h).2.trans ?_, (hl h).1⟩
    rcases hx' with rfl | rfl
    · exact absurd h (by decide)
    · decide +kernel
  · rw [List.length_map, List.length_range] at hi
    rw [List.getD_eq_getElem _ _ (by simpa using hi), List.getElem_map, List.getElem_range]

/-- What stands in the tile of tensor 256 can be read there, and part of it written. -/
theorem reads_tile {s : State} {o : Op} (tid off n : Nat) (h : tid = 256 ∧ n ≠ 0 ∧ off + n ≤ 4096 ∧ o.asid = 0 ∧ 256 ∉ (opCtx s o).froz ∧
    (readTensor s 0 256).any (fun t => decide (t.tbytes = 4096 ∧ t.remote = false ∧ t.rd = true ∧ t.bytes = 4096 ∧ (readTile s t 0).tag = 0 ∧
      (readTile s t 0).valid = true ∧ (readTile s t 0).cow = false ∧ (readTile s t 0).moving = false ∧ (readTile s t 0).frame = 0x30)) = true) :
    (Reads s o tid off (s.bytes (frameKey 256 0x30 off) n) ∧ (s.bytes (frameKey 256 0x30 off) n).length = n) ∧
    (off + n < 4096 → GoesTo s o tid off n (frameKey 256 0x30 off)) := by
  obtain ⟨rfl, h0, h1, h2, h3, h4⟩ := h
  obtain ⟨t, ht, e⟩ := some_with h4
  simp only [decide_eq_true_eq] at e
  obtain ⟨e1, e2, e3, e4, e5, e6, e7, e8, e9⟩ := e
  have hl : (s.bytes (frameKey 256 0x30 off) n).length = n := length_readCells _ _ _
  have hd : off / t.tbytes = 0 := by rw [e1]; omega
  have hm : off % t.tbytes = off := by rw [e1]; omega
  refine ⟨⟨⟨fun e => h0 (by rw [← hl, e]; rfl), Or.inr ⟨t, readTile s t 0, ?_⟩⟩, hl⟩, fun hn => Or.inr ⟨t, readTile s t 0, ?_⟩⟩
  · rw [h2, hd, hm, hl, e1, e4, e9]
    exact ⟨ht, rfl, e2, e3, h3, h1, h1, e5, e6, rfl⟩
  · rw [h2, hd, hm, e1, e9]
    exact ⟨ht, rfl, e2, hn, e5, e6, e7, e8, rfl⟩

/-- `withOp o` with these bytes at the start of window 2. -/
def listed (o : Op) (bs : List Byte) : State := { withOp o with mem := writeCells eng.mem (window2 eng op0 0) bs }

/-- A copy from a tile to window 2 and the other way, with one byte less than the tile holds; a conversion; a gather of one row. -/
theorem test_witness_CopySteps_copy :
    (∀ toTile ∈ [true, false], ∃ (s : State) (n : Nat) (o : Op) (bs : List Byte) (key : Nat), Begins s n o 0x0DB ∧ o.a3.toNat = bs.length ∧ bs.length = 4095 ∧
      tidOf o.a1 = (if toTile then 256 else 2) ∧ Reads s o (tidOf o.a2) (offOf o.a2) bs ∧ GoesTo s o (tidOf o.a1) (offOf o.a1) bs.length key) ∧
    (∃ (s : State) (n : Nat) (o : Op) (m : Nat) (bs : List Byte) (key : Nat), Begins s n o 0x0DC ∧ o.a3.toNat / 2 ^ 32 % 16 = 11 ∧
      o.a3.toNat / 2 ^ 28 % 16 = 0 ∧ m = o.a3.toNat % 2 ^ 28 ∧ m ≠ 0 ∧ bs.length = m * (tyWidth 11 / 8) ∧ Reads s o (tidOf o.a2) (offOf o.a2) bs ∧
      GoesTo s o (tidOf o.a1) (offOf o.a1) (m * (tyWidth 0 / 8)) key) ∧
    (∃ (s : State) (n : Nat) (o : Op) (hd ls : List Byte) (idx : List Nat), Begins s n o 0x0DD ∧ o.fn = 0 ∧
      hd.length = 8 ∧ Reads s o (tidOf o.a3) (offOf o.a3) hd ∧ bytesToNat hd = idx.length ∧ 0 < idx.length ∧ idx.length < 2 ^ 32 ∧
      ls.length = 4 * idx.length ∧ Reads s o (tidOf o.a3) (offOf o.a3 + 8) ls ∧
      (∀ j, j < idx.length → idx.getD j 0 = bytesToNat ((ls.drop (4 * j)).take 4)) ∧ tidOf o.a2 = 2 ∧ tidOf o.a1 = 2 ∧
      offOf o.a1 + 128 * idx.length = (opCtx s o).w2len ∧ (∀ i ∈ idx, offOf o.a2 + 128 * i + 128 ≤ (opCtx s o).w2len ∧
        offOf o.a2 + 128 * i + 128 ≤ offOf o.a1)) := by
  refine ⟨fun b hb => ?_, ?_, ?_⟩
  · rcases List.mem_pair.mp hb with rfl | rfl
    · let o : Op := { op0 with op9 := 0x0DB, a1 := handleOf 256 0, a2 := handleOf 2 1, a3 := 4095 }
      have hr := reads_window (s := withOp o) (o := o) (tidOf o.a2) (offOf o.a2) 4095 (by decide +kernel)
      have ht := reads_tile (s := withOp o) (o := o) (tidOf o.a1) (offOf o.a1) 4095 (by decide +kernel)
      exact ⟨withOp o, 7, o, _, frameKey 256 0x30 (offOf o.a1), begins_of (by decide +kernel), by rw [hr.2]; rfl, hr.2,
        by decide, hr.1, by rw [hr.2]; exact ht.2 (by decide)⟩
    · let o : Op := { op0 with op9 := 0x0DB, a1 := handleOf 2 0, a2 := handleOf 256 1, a3 := 4095 }
      have hr := reads_tile (s := withOp o) (o := o) (tidOf o.a2) (offOf o.a2) 4095 (by decide +kernel)
      exact ⟨withOp o, 7, o, _, _, begins_of (by decide +kernel), by rw [hr.1.2]; rfl, hr.1.2, by decide, hr.1.1, Or.inl ⟨by decide, rfl⟩⟩
  · let o : Op := { op0 with op9 := 0x0DC, a1 := handleOf 2 0, a2 := handleOf 2 0, a3 := BitVec.ofNat 64 (11 * 2 ^ 32 + 512) }
    have hr := reads_window (s := withOp o) (o := o) (tidOf o.a2) (offOf o.a2) 4096 (by decide +kernel)
    exact ⟨withOp o, 7, o, 512, _, _, begins_of (by decide +kernel), by decide, by decide, by decide, by decide, hr.2, hr.1, Or.inl ⟨by decide, rfl⟩⟩
  · let o : Op := { op0 with op9 := 0x0DD, a1 := handleOf 2 3968, a2 := handleOf 2 1024, a3 := handleOf 2 0 }
    let s := listed o (natToBytes 8 1 ++ natToBytes 4 5)
    have h1 := reads_window (s := s) (o := o) (tidOf o.a3) (offOf o.a3) 8 (by decide +kernel)
    have h2 := reads_window (s := s) (o := o) (tidOf o.a3) (offOf o.a3 + 8) 4 (by decide +kernel)
    exact ⟨s, 7, o, _, _, [5], begins_of (by decide +kernel), rfl, h1.2, h1.1, by decide +kernel, by decide, by decide, h2.2, h2.1, by decide +kernel, by decide,
      by decide, by decide +kernel, by decide +kernel⟩

/-- A block for one participant: two by two bytes, from the start of the tile of tensor 256 to its middle. -/
def mpb0 : List Byte :=
  [2 ^ 34 + 2 ^ 30 + 1, 2 ^ 32 + 1, 0, 128 * 2 ^ 32, 0, 0, 0, 0, (handleOf 256 0).toNat, (handleOf 256 2048).toNat].flatMap (natToBytes 8)
def mirroring (o : Op) : State :=
  let s := listed o mpb0
  { s with mem := writeCells s.mem 0x40000 (natToBytes 8 (2 ^ 63)), pkg := { s.pkg with mapbase := 0x40000 } }

def bytesWith (x : ERead) (p : List Byte → Bool) : Bool := match x with | .bytes bs none => p bs | _ => false

theorem bytes_with {x : ERead} {p : List Byte → Bool} (h : bytesWith x p = true) : ∃ bs, x = .bytes bs none ∧ p bs = true := by
  unfold bytesWith at h
  split at h
  · exact ⟨_, rfl, h⟩
  · cases h

def mirOp : Op := { op0 with op9 := 0x0DE, a1 := handleOf 2 0, a2 := 0 }
def mirBytes : List Byte := (mirroring mirOp).bytes (window2 (mirroring mirOp) mirOp (offOf mirOp.a1)) 256
def mirBlock : Mpb := Mpb.mk (wordsOf mirBytes)

/-- A block of one participant of this package; a square one of two. -/
theorem test_witness_CopySteps_mirror :
    (∃ (s : State) (n : Nat) (o : Op) (m : Mpb) (bs data : List Byte), Begins s n o 0x0DE ∧ o.table = [] ∧ bs.length = 256 ∧
      Reads s o (tidOf o.a1) (offOf o.a1) bs ∧ m = Mpb.mk (wordsOf bs) ∧ m.ok = true ∧ m.p ≤ 12 ∧ o.a2.toNat < m.p ∧ joinCheck s o m.map = none ∧
      mirrorChecks s o m = none ∧
      (∀ q, q < m.p → partValid (mapEntry s m.map q) = true ∧ partPkg (mapEntry s m.map q) = ownPackage s) ∧
      engRead s (partCtx o (mapEntry s m.map o.a2.toNat)) (tagIn (m.ty + 1)) (tidOf (m.slab o.a2.toNat 0)) (offOf (m.slab o.a2.toNat 0))
        m.srcLen = .bytes data none) ∧
    (∃ m : Mpb, m.ok = true ∧ m.sax = 0 ∧ m.tax = 1 ∧ m.rank = 2 ∧ m.extent 0 = 4 ∧ 1 < m.extent 1 / m.p ∧ m.p = 2) := by
  refine ⟨?_, ⟨⟨wordsOf ([2 ^ 34 + 2 ^ 30 + 2, 3 * 2 ^ 32 + 3, 0, 128 * 2 ^ 32].flatMap (natToBytes 8))⟩, by decide +kernel⟩⟩
  have hr := reads_window (s := mirroring mirOp) (o := mirOp) (tidOf mirOp.a1) (offOf mirOp.a1) 256 (by decide +kernel)
  obtain ⟨data, hd, -⟩ := bytes_with (x := engRead (mirroring mirOp) (partCtx mirOp (mapEntry (mirroring mirOp) mirBlock.map mirOp.a2.toNat))
    (tagIn (mirBlock.ty + 1)) (tidOf (mirBlock.slab mirOp.a2.toNat 0)) (offOf (mirBlock.slab mirOp.a2.toNat 0)) mirBlock.srcLen) (p := fun _ => true)
    (by decide +kernel)
  exact ⟨mirroring mirOp, 7, mirOp, mirBlock, mirBytes, data, begins_of (by decide +kernel), rfl, hr.2, hr.1, rfl, by decide +kernel, by decide +kernel,
    by decide +kernel, by decide +kernel, by decide +kernel, by decide +kernel, hd⟩

/-- A tensor to freeze and a frozen one; one to drain that is not frozen, one that is, and the end of a drain with and without a reader. -/
theorem test_witness_CopySteps :
    (∀ frozen ∈ [true, false], ∃ (s : State) (n : Nat) (o : Op) (tn : Tensor), Begins s n o 0x0E4 ∧ o.fn = 0 ∧
      readTensor s o.asid (tidOf o.a1) = some tn ∧ tn.remote = false ∧ tn.wr = true ∧ offOf o.a1 + 1 = tn.bytes ∧ tn.frozen = frozen ∧
      ∀ i, i < tn.ntiles → tileAddr tn i + 16 ≤ tn.addr ∨ tn.addr + 64 ≤ tileAddr tn i) ∧
    (∀ frozen ∈ [true, false], ∃ (s : State) (n : Nat) (o : Op) (tn : Tensor), Begins s n o 0x0E5 ∧
      readTensor s o.asid (tidOf o.a1) = some tn ∧ tn.remote = false ∧ tn.rd = true ∧ offOf o.a1 < tn.bytes ∧ tn.frozen = frozen ∧
      (frozen = true → o.fn = 2 ∧ tidOf o.a2 = 2 ∧ tidOf o.a3 = 2 ∧ offOf o.a3 + 8 = (opCtx s o).w2len ∧ 0 < tn.ntiles ∧
        offOf o.a2 + tn.ntiles * tn.tbytes = (opCtx s o).w2len ∧ ∃ data : Nat → List Byte,
        ∀ i, i < tn.ntiles → malformed (frozenTag s tn i) = false ∧ frozenBytes s tn i = some (data i))) ∧
    (∀ read ∈ [true, false], ∃ (s : State) (n : Nat) (o : Op) (tn : Tensor), s.op n = some o ∧ o.op9 = 0x0E5 ∧ o.state = .ready ∧ o.adds = [] ∧
      o.table = [1] ∧ o.fault = none ∧ o.parent = none ∧ s.pkg.hbaseSet = false ∧ readTensor s o.asid (tidOf o.a1) = some tn ∧
      frozenUsers s o.asid tn.tid = read ∧ (∀ i, i < tn.ntiles → (readTile s tn i).fvalid = false) ∧
      ∀ i, i < tn.ntiles → tileAddr tn i + 16 ≤ tn.addr ∨ tn.addr + 8 ≤ tileAddr tn i) := by
  refine ⟨fun b hb => ?_, fun b hb => ?_, fun b hb => ?_⟩
  · let o : Op := { op0 with op9 := 0x0E4, a1 := handleOf 257 4095 }
    refine ⟨panelState 0x0000031080005800 b o, 7, o, tensorOf (panelState 0x0000031080005800 b o), begins_of ?_, ?_⟩ <;> revert b <;> decide +kernel
  · let o : Op := { op0 with op9 := 0x0E5, fn := 2, a1 := handleOf 257 4095, a2 := handleOf 2 0, a3 := handleOf 2 4088 }
    let s := panelState 0x0000031080005800 b o
    have hf : ∀ i, i < (tensorOf s).ntiles → malformed (frozenTag s (tensorOf s) i) = false ∧ (frozenBytes s (tensorOf s) i).isSome = true := by
      revert b; decide +kernel
    refine ⟨s, 7, o, tensorOf s, begins_of ?_, ?_, ?_, ?_, ?_, ?_, fun hb => ⟨rfl, by decide, by decide, ?_, ?_, ?_,
      fun i => (frozenBytes s (tensorOf s) i).getD [], fun i hi => ⟨(hf i hi).1, ?_⟩⟩⟩
    any_goals (clear hf; revert b; decide +kernel)
    obtain ⟨v, hv⟩ := Option.isSome_iff_exists.mp (hf i hi).2
    simp only [hv, Option.getD_some]
  · let o : Op := { op0 with op9 := 0x0E5, state := .ready, a1 := handleOf 257 0, table := [1] }
    let s : State := { panelState 0x0000031080005800 true o with teams := [(1, some { team1 with froz := if b then [257] else [] })] }
    refine ⟨s, 7, o, tensorOf s, rfl, rfl, rfl, rfl, rfl, rfl, rfl, ?_⟩
    revert b; decide +kernel

/-- `eng` with an armed chain: its counter is the doubleword 8 of window 1, which holds 5, its one entry the block at 256. -/
def chain0 (threshold : Word) : Op := { op0 with op9 := 0x0E2, state := .armed, a1 := handleOf 1 8, a2 := threshold, a3 := handleOf 1 256 }
def chained (threshold : Word) : State :=
  { withOp (chain0 threshold) with
    mem := writeCells (writeCells eng.mem (keyPad 0 8) [5]) (keyPad 0 256) (natToBytes 8 (0x0E3 * 2 ^ 50) ++ natToBytes 8 (handleOf 1 16).toNat) }

/-- A collective of one rank, and of the group whose tree has its root here, that has its contribution. -/
def contrib0 : Contrib := ⟨0, [0], 0, some 7, none, 0, 0, [0x0000080000000001, 1], [1, 0, 0, 0]⟩
def coll0 : Coll := ⟨0, 0, 1, [contrib0], some 0, false, none, none, [], [], 3⟩
def collective (st : OState) : State :=
  { withOp { op0 with op9 := 0x0E1, state := st } with colls := [(0, some coll0)], slots := [(0, some 0)], trees := [(0, 0xC000000000010000)] }

/-- A block of two ranks of this package, of four bytes from 256 on in window 2 to the tile of tensor 256; ONE with root 1 if asked. -/
def cb0 (one : Bool) : List Byte :=
  [(if one then 2 ^ 58 else 0) + 2, 4, (handleOf 2 256).toNat, (handleOf 256 256).toNat, 0, 0, if one then 2 ^ 32 else 0, 1].flatMap (natToBytes 8)
def collOp (op9 : Nat) : Op := { op0 with op9 := op9, a1 := handleOf 2 0, a2 := 0, a3 := 0 }
def collState (o : Op) (colls : List (Nat × Option Coll)) : State :=
  let s := listed o (cb0 false)
  { s with mem := writeCells s.mem 0x40000 ([2 ^ 63, 0, 2 ^ 63, 0].flatMap (natToBytes 8)), pkg := { s.pkg with mapbase := 0x40000 }, colls := colls }
def collBytes (o : Op) (colls : List (Nat × Option Coll)) : List Byte := (collState o colls).bytes (window2 (collState o colls) o (offOf o.a1)) 64
/-- The other rank's contribution, and its collective. -/
def contrib1 : Contrib := ⟨1, [1], 0, none, none, 1, 0, wordsOf (cb0 false), [1, 2, 3, 4]⟩
def coll1 : Coll := ⟨0, 0, 2, [contrib1], none, false, none, none, [], [], 3⟩

/-- A write and a contribution by a block that passes, the first and the second of its collective; the end of one where the result goes and where
it does not; two siblings. -/
theorem test_witness_CollectiveSteps_red :
    (∃ (s : State) (n : Nat) (o : Op) (bs data : List Byte) (cb : Cb) (e : Word), Begins s n o 0x0E0 ∧ bs.length = 64 ∧ Reads s o (tidOf o.a1) (offOf o.a1) bs ∧
      cb = Cb.mk (wordsOf bs) ∧ cbCheck s o cb true = none ∧ e = mapEntry s cb.map (o.a2.toNat % 2 ^ 12) ∧ partPkg e = ownPackage s ∧ data.length = cb.bytes ∧
      Reads s o (tidOf cb.src) (offOf cb.src) data ∧ dstChecks s (partCtx o e) (cb.dst + o.a3) cb.bytes cb.ctr = none) ∧
    (∀ colls ∈ [[], [(0, some coll1)]], ∃ (s : State) (n : Nat) (o : Op) (bs data : List Byte) (cb : Cb) (key : Nat) (c : Coll) (leaf : Nat × Nat) (x : Contrib),
      Begins s n o 0x0E1 ∧ bs.length = 64 ∧ Reads s o (tidOf o.a1) (offOf o.a1) bs ∧ cb = Cb.mk (wordsOf bs) ∧ cbCheck s o cb false = none ∧
      leafBlock cb o.a3 = some leaf ∧ cb.comp = 0 ∧ data.length = cb.bytes ∧ Reads s o (tidOf cb.src) (offOf cb.src) data ∧
      (partPkg (mapEntry s cb.map (o.a2.toNat % 2 ^ 12)) = ownPackage s →
        dstChecks s (partCtx o (mapEntry s cb.map (o.a2.toNat % 2 ^ 12))) cb.dst cb.bytes cb.ctr = none) ∧
      otherPackages s cb.map cb.p = [] ∧ otherPackages s c.map c.parts = [] ∧ wantedSlot s cb = none ∧ key = collKey cb.map cb.seq ∧
      (if colls = [] then s.coll key = none ∧ c = blankColl key cb.p s else s.coll key = some c ∧ c.over = false) ∧ c.aborted = none ∧ c.slot = none ∧
      x = { rank := o.a2.toNat % 2 ^ 12, ranks := [o.a2.toNat % 2 ^ 12], flags := 0, op := some n, port := none, lfirst := leaf.1
            llog2 := leaf.2, words := wordsOf bs, data := data } ∧
      (∀ y ∈ c.contribs, x.rank ∉ y.ranks ∧ Cb.agreed ⟨y.words⟩ = cb.agreed ∧ (cb.arrival = true ∨ overlaps x y = false)) ∧ x.rank ∉ c.told) ∧
    (∀ one ∈ [true, false], ∃ (s : State) (n : Nat) (o : Op) (cb : Cb) (c : Coll) (r : List Byte × BitVec 5), s.op n = some o ∧ o.state = .contributed ∧
      o.units = [] ∧ o.pieces = [] ∧ cb = Cb.mk o.table ∧ s.coll (collKey cb.map cb.seq) = some c ∧ collAnswer s c = some r ∧
      cb.destination (o.a2.toNat % 2 ^ 12) = !one ∧ partPkg (mapEntry s cb.map (o.a2.toNat % 2 ^ 12)) = ownPackage s ∧ o.fault = none) ∧
    (∃ (c : Coll) (x y : Contrib), c.contribs = [x, y] ∧ x.words = y.words ∧ Cb.red ⟨x.words⟩ = 0 ∧ Cb.arrival ⟨x.words⟩ = false ∧ Cb.ty ⟨x.words⟩ ≤ 7 ∧
      Cb.lroot ⟨x.words⟩ = 1 ∧ x.llog2 = 0 ∧ y.llog2 = 0 ∧ x.lfirst = 0 ∧ y.lfirst = 1) := by
  refine ⟨?_, fun colls h => ?_, fun one h => ?_, { coll1 with contribs := [{ contrib1 with rank := 0, ranks := [0], lfirst := 0 }, contrib1] }, _, _, rfl, by decide +kernel⟩
  · have hr := reads_window (s := collState (collOp 0x0E0) []) (o := collOp 0x0E0) (tidOf (collOp 0x0E0).a1) (offOf (collOp 0x0E0).a1) 64 (by decide +kernel)
    have hd := reads_window (s := collState (collOp 0x0E0) []) (o := collOp 0x0E0) (tidOf (Cb.mk (wordsOf (collBytes (collOp 0x0E0) []))).src)
      (offOf (Cb.mk (wordsOf (collBytes (collOp 0x0E0) []))).src) (Cb.mk (wordsOf (collBytes (collOp 0x0E0) []))).bytes (by decide +kernel)
    exact ⟨collState (collOp 0x0E0) [], 7, collOp 0x0E0, collBytes (collOp 0x0E0) [], _, Cb.mk (wordsOf (collBytes (collOp 0x0E0) [])), _,
      begins_of (by decide +kernel), hr.2, hr.1, rfl, by decide +kernel, rfl, by decide +kernel, hd.2, hd.1, by decide +kernel⟩
  · have hr := reads_window (s := collState (collOp 0x0E1) colls) (o := collOp 0x0E1) (tidOf (collOp 0x0E1).a1) (offOf (collOp 0x0E1).a1) 64
      (by revert colls; decide +kernel)
    have hd := reads_window (s := collState (collOp 0x0E1) colls) (o := collOp 0x0E1) (tidOf (Cb.mk (wordsOf (collBytes (collOp 0x0E1) colls))).src)
      (offOf (Cb.mk (wordsOf (collBytes (collOp 0x0E1) colls))).src) (Cb.mk (wordsOf (collBytes (collOp 0x0E1) colls))).bytes (by clear hr; revert colls; decide +kernel)
    refine ⟨collState (collOp 0x0E1) colls, 7, collOp 0x0E1, collBytes (collOp 0x0E1) colls, _, Cb.mk (wordsOf (collBytes (collOp 0x0E1) colls)), 0,
      if colls = [] then blankColl 0 2 (collState (collOp 0x0E1) colls) else coll1, (0, 0), _, begins_of ?_, hr.2, hr.1, rfl, ?_, ?_, ?_, hd.2, hd.1, ?_, ?_, ?_,
      ?_, ?_, ?_, ?_, ?_, rfl, ?_, ?_⟩
    any_goals (clear hr hd; revert colls; decide +kernel)
  · refine ⟨{ withOp { collOp 0x0E1 with state := .contributed, table := wordsOf (cb0 one) } with colls := [(0, some { coll1 with result := some ([1, 2, 3, 4], 0) })] },
      7, _, _, { coll1 with result := some ([1, 2, 3, 4], 0) }, ([1, 2, 3, 4], 0), rfl, rfl, rfl, rfl, rfl, ?_, rfl, ?_, ?_, rfl⟩ <;> revert one <;> decide +kernel

def wordsWith (x : BRead) (p : List Word → Bool) : Bool := match x with | .words ws none => p ws | _ => false

theorem words_with {x : BRead} {p : List Word → Bool} (h : wordsWith x p = true) : ∃ ws, x = .words ws none ∧ p ws = true := by
  unfold wordsWith at h
  split at h
  · exact ⟨_, rfl, h⟩
  · cases h

def isIssued (x : ChainRes) : Bool := match x with | .issued .. => true | _ => false

theorem issued_with {x : ChainRes} (h : isIssued x = true) : ∃ es f, x = .issued es f := by
  unfold isIssued at h
  split at h
  · exact ⟨_, _, rfl⟩
  · cases h

theorem chained_words (v : Word) (h : v = 5 ∨ v = 6) : ∃ ws, readBlock (chained v) (opCtx (chained v) (chain0 v)) (chain0 v).a1 1 = .words ws none ∧
    decide (ws.getD 0 0 = 5) = true := by
  rcases h with rfl | rfl <;> exact words_with (p := fun ws => decide (ws.getD 0 0 = 5)) (by decide +kernel)

/-- As many armed chains of the die as the unit holds, or one less. -/
def armedChains (n : Nat) : State :=
  { withOp { op0 with op9 := 0x0E2 } with ops := (7, some { op0 with op9 := 0x0E2 }) :: (List.range n).map fun i => (8 + i, some (chain0 5)) }

/-- An entry that adds to the last counter of window 2. -/
def entryOp : Op := { op0 with op9 := 0x0E2, state := .armed, a2 := 0, a3 := handleOf 2 0 }
def entryState : State := listed entryOp ([0x0E3 * 2 ^ 50, (handleOf 2 4088).toNat].flatMap (natToBytes 8))
def entryBytes : List Byte := entryState.bytes (window2 entryState entryOp (offOf entryOp.a3)) 64

/-- A slot that has its one input; a collective whose one operation has contributed or still writes; the last counter of window 2; one chain less than
the unit holds, and all; a threshold just above the counter, and the counter itself; an entry that passes its checks. -/
theorem test_witness_CollectiveSteps :
    (∃ (s : State) (n key : Nat) (c : Coll) (x : Contrib) (l : List Contrib), FMap.get none s.slots n = some key ∧ s.coll key = some c ∧
      c.contribs = x :: l ∧ c.emitted = false ∧ c.aborted = none ∧ treeValid (FMap.get 0 s.trees (Cb.group ⟨x.words⟩)) = true ∧
      field (FMap.get 0 s.trees (Cb.group ⟨x.words⟩)) 58 5 = 16 ∧
      (∀ i, i < 16 → bitOf (FMap.get 0 s.trees (Cb.group ⟨x.words⟩)) i = true → ∃ y ∈ c.contribs, y.port = some i) ∧
      (bitOf (FMap.get 0 s.trees (Cb.group ⟨x.words⟩)) 16 = true →
        ∀ r ∈ localRanks s (Cb.map ⟨x.words⟩) (Cb.p ⟨x.words⟩), ∃ y ∈ c.contribs, r ∈ y.ranks ∧ y.port = none) ∧
      c.parts ≤ (c.contribs.map (·.ranks.length)).sum) ∧
    (∀ st ∈ [OState.contributed, .writing], ∃ (s : State) (n : Nat) (c : Coll) (x : Contrib) (m : Nat) (o : Op), s.coll n = some c ∧ c.contribs ≠ [] ∧
      c.aborted = none ∧ x ∈ c.contribs ∧ x.op = some m ∧ s.op m = some o ∧ o.state = st) ∧
    (∃ (s : State) (n : Nat) (o : Op), Begins s n o 0x0E3 ∧ o.data = [] ∧ tidOf o.a1 = 2 ∧ offOf o.a1 / 8 * 8 + 8 = (opCtx s o).w2len ∧ o.fn = 2 ∧
      tidOf o.a3 = 2 ∧ offOf o.a3 + 8 = (opCtx s o).w2len) ∧
    (∀ k ∈ [255, 256], ∃ (s : State) (n : Nat) (o : Op), s.op n = some o ∧ mayStart s n o = true ∧ o.op9 = 0x0E2 ∧ chainsOf s o.vd = k) ∧
    (∀ threshold, threshold = 5 ∨ threshold = 6 → ∃ (s : State) (n : Nat) (o : Op) (ws : List Word) (g : Option Nat), s.op n = some o ∧ o.state = .armed ∧
      o.pieces = [] ∧ o.a2 = threshold ∧ o.a2 ≠ 0 ∧ readBlock s (opCtx s o) o.a1 1 = .words ws g ∧ decide (ws.getD 0 0 = 5) = true ∧
      (threshold = 5 → ∃ es x, chainEntries n o 256 o.a3 none (s.applyAll (touchFx o false g s)) = .issued es x)) ∧
    (∃ (s : State) (n : Nat) (o c : Op) (bs : List Byte) (w : List Word), s.op n = some o ∧ o.state = .armed ∧ o.pieces = [] ∧ o.seen = [] ∧ o.a2 = 0 ∧
      o.a3 ≠ 0 ∧ n ≠ s.nextId ∧ bs.length = 64 ∧ Reads s o (tidOf o.a3) (offOf o.a3) bs ∧ w = wordsOf bs ∧ entryOk w = true ∧ w.getD 4 0 = 0 ∧
      c = { o with
        op9 := (w.getD 0 0).toNat / 2 ^ 50 % 2 ^ 9, sc := (w.getD 0 0).toNat / 2 ^ 59 % 8, rel := bitOf (w.getD 0 0) 62
        fn := if (w.getD 0 0).toNat / 2 ^ 50 % 2 ^ 9 = 0x0E3 ∧ w.getD 3 0 ≠ 0 then 2 else 0, a1 := w.getD 1 0, a2 := w.getD 2 0, a3 := w.getD 3 0
        kws := [], order := s.nextId, table := [], cache := [], data := [], ended := [], state := .issued, region := false, parent := some n
        wprev := none } ∧
      entryCheck s c = none) := by
  refine ⟨⟨collective .contributed, 0, 0, coll0, contrib0, [], ?_⟩, fun st h => ⟨collective st, 0, coll0, contrib0, 7, { op0 with op9 := 0x0E1, state := st }, ?_⟩,
    ?_, fun k h => ⟨armedChains k, 7, { op0 with op9 := 0x0E2 }, ?_⟩, fun v hv => ?_, ?_⟩
  · refine ⟨?_, ?_, ?_, ?_, ?_, ?_, ?_, ?_, ?_, ?_⟩ <;> decide +kernel
  · revert st; decide +kernel
  · let o : Op := { op0 with op9 := 0x0E3, fn := 2, a1 := handleOf 2 4088, a3 := handleOf 2 4088 }
    exact ⟨withOp o, 7, o, begins_of (by decide +kernel), by decide +kernel⟩
  · revert k; decide +kernel
  · obtain ⟨ws, h1, h2⟩ := chained_words v hv
    refine ⟨chained v, 7, chain0 v, ws, none, rfl, rfl, rfl, rfl, by rcases hv with rfl | rfl <;> decide, h1, h2, fun e => ?_⟩
    rw [e]
    exact issued_with (by decide +kernel)
  · have hr := reads_window (s := entryState) (o := entryOp) (tidOf entryOp.a3) (offOf entryOp.a3) 64 (by decide +kernel)
    exact ⟨entryState, 7, entryOp, _, entryBytes, _, rfl, rfl, rfl, rfl, rfl, by decide, by decide +kernel, hr.2, hr.1, rfl, by decide +kernel, by decide +kernel, rfl,
      by decide +kernel⟩

/-- `base` with these bits set in the entry of tile 0 of tensor 256, its handle in s2, one tile in s3, one tile and frame 3 in s4. -/
def tiled (bits : Nat) : State :=
  { base with mem := writeCells base.mem 131072 (natToBytes 8 (0x0000030080000000 - 2 ^ 31 + bits)), sregs := [(66, fetchHandle), (67, 1), (68, 2 ^ 32 + 3)] }

def tileY : FY := { fy0 with sd := 5, sa := 2, sb := 4 }

def tileX : FY := { tileY with sb := 3 }

/-- The same with a load outstanding that was translated through the tile. -/
def loading (s : State) : State := { s with accs := [(6, some { load1 with kind := .loadS 9 true, pieces := [⟨.tile 0 256 8, 8, [], 0, 0⟩] })] }

theorem tileIssue_of {s : State} {f : FY} (h : guardTrue s s.cur f.g = true ∧ ∀ n, n < 4 → (s.now.loop n).lc = 0 ∨ (s.now.loop n).le ≠ s.now.pc)
    (h1 : s.now.legal = true ∧ (f.fo ≠ 0 → consumer (f.fo.toNat - 1) = kindOf s.cur ∧ s.tokens (f.fo.toNat - 1) ≠ 0) ∧
      (f.fp ≠ 0 → producer (f.fp.toNat - 1) = kindOf s.cur ∧ s.tokens (f.fp.toNat - 1) + pendingPush s (coreOf s.cur) f.fp < 64) ∧
      (∀ n ∈ [f.sd.toNat, f.sa.toNat, f.sb.toNat], n = 0 ∨ n ∉ pendingS s s.cur) ∧ (∀ n ∈ ([] : List Nat), n ∉ pendingV s s.cur) ∧
      (s.now.open = true → f.fp = 0 ∧ f.fo = 0) ∧ (s.now.prv = true ∨ s.now.step = false) ∧ (f.fp = 0 ∨ s.now.late = []))
    (h2 : s.now.prv = true ∧ s.now.open = false) : TileIssue s f := ⟨executes_of (issues_of h1) h, h2⟩

/-- An entry of `tileForms` whose range passes a check. -/
theorem tile_form {s : State} {f : FY} {i : Instr} {x : Option TRange} {ok : TRange → Prop} {act : TRange → Fx} (n : Nat) {q : TRange → Bool}
    (h1 : (tileForms s f)[n]? = some (i, x, ok, act)) (h2 : x.any q = true) (h3 : ∀ r, q r = true → ok r)
    (h4 : x.any (fun r => decide (r.count ≠ 0 ∧ (stale s r.set = [6] ∨ s.accs = []))) = true) :
    ∃ r, (i, some r, ok, act) ∈ tileForms s f ∧ r.count ≠ 0 ∧ (stale s r.set = [6] ∨ s.accs = []) ∧ ok r := by
  cases x with
  | none => cases h2
  | some r =>
    simp only [Option.any_some, decide_eq_true_eq] at h4
    exact ⟨r, List.mem_of_getElem? h1, h4.1, h4.2, h3 r h2⟩

/-- The range of tiles of `tileY`, which passes a check. -/
theorem range_of {s : State} {f : FY} {n : Nat} {q : TRange → Bool}
    (h : ((rangeOf s (f.k.toNat / 2 ^ 12) (s.sreg s.cur f.sa.toNat) n).any q) = true) :
    ∃ r, rangeOf s (f.k.toNat / 2 ^ 12) (s.sreg s.cur f.sa.toNat) n = some r ∧ q r = true := some_with h

/-- Entry `n` of `tileForms` can be issued on the tile in `s` with its change. -/
def TileWitness (s : State) (f : FY) (n : Nat) : Prop :=
  ∃ (i : Instr) (r : TRange) (ok : TRange → Prop) (act : TRange → Fx), TileIssue s f ∧ ((tileForms s f)[n]?).map (·.1) = some i ∧
    (i, some r, ok, act) ∈ tileForms s f ∧ writesOut s s.cur = false ∧ r.count ≠ 0 ∧ (stale s r.set = [6] ∨ s.accs = []) ∧ ok r

/-- The changes without a condition, on a tile that a load has been translated through. -/
theorem test_witness_TileForms_invalidate : ∀ n < 2, TileWitness (loading (tiled (2 ^ 31))) tileY n := by
  intro n hn
  obtain rfl | rfl : n = 0 ∨ n = 1 := by omega
  · obtain ⟨r, h⟩ := tile_form (s := loading (tiled (2 ^ 31))) (f := tileY) (q := fun _ => true) 0 rfl (by decide +kernel) (fun _ _ => trivial)
      (by decide +kernel)
    exact ⟨_, r, _, _, tileIssue_of (by decide +kernel) (by decide +kernel) (by decide +kernel), rfl, h.1, by decide +kernel, h.2⟩
  · obtain ⟨r, h⟩ := tile_form (s := loading (tiled (2 ^ 31))) (f := tileY) (q := fun _ => true) 1 rfl (by decide +kernel) (fun _ _ => trivial)
      (by decide +kernel)
    exact ⟨_, r, _, _, tileIssue_of (by decide +kernel) (by decide +kernel) (by decide +kernel), rfl, h.1, by decide +kernel, h.2⟩

/-- The changes of a tile that is present, or that moves, with no access out. -/
theorem test_witness_TileForms_change :
    TileWitness (tiled (2 ^ 31)) tileY 2 ∧ TileWitness (tiled (2 ^ 31)) tileY 3 ∧ TileWitness (tiled (2 ^ 31 + 2 ^ 28)) tileY 4 ∧
    TileWitness (tiled (2 ^ 31 + 2 ^ 28)) tileY 5 := by
  have hi (s : State) (h : s = tiled (2 ^ 31) ∨ s = tiled (2 ^ 31 + 2 ^ 28)) : TileIssue s tileY ∧ writesOut s s.cur = false := by
    rcases h with rfl | rfl <;>
      exact ⟨tileIssue_of (by decide +kernel) (by decide +kernel) (by decide +kernel), by decide +kernel⟩
  refine ⟨?_, ?_, ?_, ?_⟩
  · obtain ⟨r, h⟩ := tile_form (s := tiled (2 ^ 31)) (f := tileY)
      (q := fun r => decide (∀ n ∈ r.tiles, (readTile (tiled (2 ^ 31)) r.t n).pin = false)) 2 rfl (by decide +kernel) (fun _ h => of_decide_eq_true h)
      (by decide +kernel)
    exact ⟨_, r, _, _, (hi _ (Or.inl rfl)).1, rfl, h.1, (hi _ (Or.inl rfl)).2, h.2⟩
  · obtain ⟨r, h⟩ := tile_form (s := tiled (2 ^ 31)) (f := tileY)
      (q := fun r => decide (∀ n ∈ r.tiles, (readTile (tiled (2 ^ 31)) r.t n).pin = false ∧ (readTile (tiled (2 ^ 31)) r.t n).valid = true ∧
        classOf (readTile (tiled (2 ^ 31)) r.t n).tag ≠ 1)) 3 rfl (by decide +kernel) (fun _ h => of_decide_eq_true h) (by decide +kernel)
    exact ⟨_, r, _, _, (hi _ (Or.inl rfl)).1, rfl, h.1, (hi _ (Or.inl rfl)).2, h.2⟩
  · obtain ⟨r, h⟩ := tile_form (s := tiled (2 ^ 31 + 2 ^ 28)) (f := tileY)
      (q := fun r => decide (∀ n ∈ r.tiles, (readTile (tiled (2 ^ 31 + 2 ^ 28)) r.t n).moving = true)) 4 rfl (by decide +kernel)
      (fun _ h => of_decide_eq_true h) (by decide +kernel)
    exact ⟨_, r, _, _, (hi _ (Or.inr rfl)).1, rfl, h.1, (hi _ (Or.inr rfl)).2, h.2⟩
  · obtain ⟨r, h⟩ := tile_form (s := tiled (2 ^ 31 + 2 ^ 28)) (f := tileY)
      (q := fun r => decide (∀ n ∈ r.tiles, (readTile (tiled (2 ^ 31 + 2 ^ 28)) r.t n).moving = true)) 5 rfl (by decide +kernel)
      (fun _ h => of_decide_eq_true h) (by decide +kernel)
    exact ⟨_, r, _, _, (hi _ (Or.inr rfl)).1, rfl, h.1, (hi _ (Or.inr rfl)).2, h.2⟩

/-- An address space with and without an access that was translated in it. -/
theorem test_witness_TileForms_asid : ∀ l ∈ [[], [6]], ∃ (s : State) (f : FY), TileIssue s f ∧ writesOut s s.cur = false ∧
    asValid s (f.k.toNat / 2 ^ 12) = true ∧ stale s (f.k.toNat / 2 ^ 12, none) = l := by
  intro l hl
  rcases List.mem_pair.mp hl with rfl | rfl
  · exact ⟨tiled (2 ^ 31), tileY, tileIssue_of (by decide +kernel) (by decide +kernel) (by decide +kernel), by decide +kernel⟩
  · exact ⟨loading (tiled (2 ^ 31)), tileY, tileIssue_of (by decide +kernel) (by decide +kernel) (by decide +kernel), by decide +kernel⟩

/-- One that `lockedBytes` adds up again and again. -/
theorem locked_replicate (s : State) (p : Nat × Nat) (d b : Nat) (h : ∀ a, lockedBytes s [p] d = b ∧ (match readTensor s (p.1 / 2 ^ 20) (p.1 % 2 ^ 20) with
    | some t => if 256 ≤ p.1 % 2 ^ 20 ∧ (readTile s t p.2).frame / 2 ^ 24 = d then a + t.g * 4096 else a
    | none => a) = a + b) (n : Nat) : lockedBytes s (List.replicate n p) d = n * b := by
  suffices ∀ a, (List.replicate n p).foldl (fun a p =>
      let tid := p.1 % 2 ^ 20
      match readTensor s (p.1 / 2 ^ 20) tid with
      | some t => if 256 ≤ tid ∧ (readTile s t p.2).frame / 2 ^ 24 = d then a + t.g * 4096 else a
      | none => a) a = a + n * b from (this 0).trans (Nat.zero_add _)
  induction n with
  | zero => simp
  | succ n ih =>
    intro a
    rw [List.replicate_succ, List.foldl_cons, ih]
    simp only [(h a).2]
    ring

/-- A pinned tile, an absent one, one that does not move; a tile to pin, an absent one to pin, one beyond the limit. -/
theorem test_witness_TileInstructions :
    (∀ x ∈ [(2 ^ 31 + 2 ^ 29, 0), (0, 1), (2 ^ 31, 2)], ∃ (s : State) (f : FY) (r : TRange), TileIssue s f ∧
      rangeOf s (f.k.toNat / 2 ^ 12) (s.sreg s.cur f.sa.toNat) ((s.sreg s.cur f.sb.toNat).toNat / 2 ^ 32) = some r ∧ writesOut s s.cur = false ∧
      ∃ n ∈ r.tiles, (x.2 = 0 → (readTile s r.t n).pin = true ∧
          ¬∃ n ∈ r.tiles, (readTile s r.t n).valid = false ∨ classOf (readTile s r.t n).tag = 1) ∧
        (x.2 = 1 → (readTile s r.t n).valid = false) ∧ (x.2 = 2 → (readTile s r.t n).moving = false)) ∧
    (∀ x ∈ [0, 1, 2], ∃ (s : State) (f : FY) (r : TRange) (pins : List (Nat × Nat)), TileIssue s f ∧
      rangeOf s (f.k.toNat / 2 ^ 12) (s.sreg s.cur f.sa.toNat) ((s.sreg s.cur f.sb.toNat).toNat % 2 ^ 32) = some r ∧
      pins = s.pins ++ ((r.tiles.map fun n => (f.k.toNat / 2 ^ 12 * 2 ^ 20 + r.t.tid, n)).filter (fun p => !s.pins.contains p)) ∧
      (∀ n ∈ r.tiles, (readTile s r.t n).moving = false) ∧
      (x = 0 → ∃ n ∈ r.tiles, (readTile s r.t n).valid = false ∨ classOf (readTile s r.t n).tag = 1) ∧
      (x ≠ 0 → ∀ n ∈ r.tiles, (readTile s r.t n).valid = true ∧ classOf (readTile s r.t n).tag ≠ 1) ∧
      (x = 1 → ∃ d, d < 8 ∧ 24 * 2 ^ 20 < lockedBytes s pins d) ∧ (x = 2 → pins ≠ [] ∧ ∀ d, d < 8 → lockedBytes s pins d ≤ 24 * 2 ^ 20)) := by
  refine ⟨fun x hx => ?_, fun x hx => ?_⟩
  · have h : TileIssue (tiled x.1) tileY ∧ writesOut (tiled x.1) (tiled x.1).cur = false ∧ ((rangeOf (tiled x.1) (tileY.k.toNat / 2 ^ 12)
        ((tiled x.1).sreg (tiled x.1).cur tileY.sa.toNat) (((tiled x.1).sreg (tiled x.1).cur tileY.sb.toNat).toNat / 2 ^ 32)).any fun r =>
          decide (∃ n ∈ r.tiles, (x.2 = 0 → (readTile (tiled x.1) r.t n).pin = true ∧
            ¬∃ n ∈ r.tiles, (readTile (tiled x.1) r.t n).valid = false ∨ classOf (readTile (tiled x.1) r.t n).tag = 1) ∧
          (x.2 = 1 → (readTile (tiled x.1) r.t n).valid = false) ∧ (x.2 = 2 → (readTile (tiled x.1) r.t n).moving = false))) = true := by
      simp only [List.mem_cons, List.not_mem_nil, or_false] at hx
      rcases hx with rfl | rfl | rfl <;>
        exact ⟨tileIssue_of (by decide +kernel) (by decide +kernel) (by decide +kernel), by decide +kernel, by decide +kernel⟩
    obtain ⟨r, h1, h2⟩ := range_of h.2.2
    exact ⟨tiled x.1, tileY, r, h.1, h1, h.2.1, of_decide_eq_true h2⟩
  · let f := tileX
    let u (x : Nat) : State := { tiled (if x = 0 then 0 else 2 ^ 31) with pins := if x = 1 then List.replicate 6145 (256, 0) else [] }
    have h : TileIssue (u x) f ∧ ((rangeOf (u x) (f.k.toNat / 2 ^ 12) ((u x).sreg (u x).cur f.sa.toNat)
        (((u x).sreg (u x).cur f.sb.toNat).toNat % 2 ^ 32)).any fun r => decide (r.tiles = [0] ∧ r.t.tid = 256 ∧
          (∀ n ∈ r.tiles, (readTile (u x) r.t n).moving = false) ∧
          (x = 0 → ∃ n ∈ r.tiles, (readTile (u x) r.t n).valid = false ∨ classOf (readTile (u x) r.t n).tag = 1) ∧
          (x ≠ 0 → ∀ n ∈ r.tiles, (readTile (u x) r.t n).valid = true ∧ classOf (readTile (u x) r.t n).tag ≠ 1) ∧
          (x = 2 → ∀ d, d < 8 → lockedBytes (u x) [(256, 0)] d ≤ 24 * 2 ^ 20))) = true ∧
        (x = 1 → (u x).pins ++ ([(256, 0)].filter fun p => !(u x).pins.contains p) = List.replicate 6145 (256, 0) ∧
          24 * 2 ^ 20 < lockedBytes (u x) (List.replicate 6145 (256, 0)) 0) ∧
        (x = 2 → (u x).pins ++ ([(256, 0)].filter fun p => !(u x).pins.contains p) = [(256, 0)]) := by
      simp only [List.mem_cons, List.not_mem_nil, or_false] at hx
      rcases hx with rfl | rfl | rfl
      · exact ⟨tileIssue_of (by decide +kernel) (by decide +kernel) (by decide +kernel), by decide +kernel, by decide, by decide⟩
      · refine ⟨tileIssue_of (by decide +kernel) (by decide +kernel) (by decide +kernel), by decide +kernel, fun _ => ⟨?_, ?_⟩, by decide⟩
        · have : (List.replicate 6145 (256, 0)).contains ((256, 0) : Nat × Nat) = true := by simp
          show List.replicate 6145 (256, 0) ++ [(256, 0)].filter (fun p => !(List.replicate 6145 (256, 0)).contains p) = _
          simp only [List.filter, this, Bool.not_true, List.append_nil]
        · rw [locked_replicate _ _ 0 4096]
          · decide
          · intro a
            refine ⟨by decide +kernel, ?_⟩
            have h0 : (match readTensor (u 1) 0 256 with
                | some t => decide ((readTile (u 1) t 0).frame / 2 ^ 24 = 0 ∧ t.g * 4096 = 4096) | none => false) = true := by decide +kernel
            show (match readTensor (u 1) 0 256 with
                | some t => if 256 ≤ 256 ∧ (readTile (u 1) t 0).frame / 2 ^ 24 = 0 then a + t.g * 4096 else a | none => a) = a + 4096
            split at h0
            · rename_i t ht
              have h1 := of_decide_eq_true h0
              simp only [h1.1, h1.2, le_refl, and_self, if_true]
            · cases h0
      · exact ⟨tileIssue_of (by decide +kernel) (by decide +kernel) (by decide +kernel), by decide +kernel, by decide, fun _ => by decide +kernel⟩
    obtain ⟨r, h1, h2⟩ := range_of h.2.1
    obtain ⟨h3, h4, h5, h6, h7, h8⟩ := of_decide_eq_true h2
    have e : (r.tiles.map fun n => (f.k.toNat / 2 ^ 12 * 2 ^ 20 + r.t.tid, n)) = [(256, 0)] := by
      rw [h3, h4, show f = tileX from rfl]
      decide +kernel
    refine ⟨u x, f, r, _, h.1, h1, rfl, h5, h6, h7, fun hx1 => ⟨0, by decide, ?_⟩, fun hx2 => ?_⟩
    · rw [e, (h.2.2.1 hx1).1]; exact (h.2.2.1 hx1).2
    · rw [e, h.2.2.2 hx2]; exact ⟨by decide, h8 hx2⟩

/-- A walk for tile 0 of tensor 256 that is current. -/
def walk0 : Walk :=
  let tn := (readTensor base 0 256).getD tensor257
  ⟨0, 0, 256, 0, iseqOf base 0, (readTile base tn 0).w0, (readTile base tn 0).w1⟩

/-- A reply to come, for a stream that waits for it; a lost transaction of an access, of an operation, of one that had a fault
and of a col.red that has not contributed; a walk that is current and one that is stale. -/
theorem test_witness_WaitsEnd :
    (∃ (s : State) (n : Nat) (a : Access), s.access n = some a ∧ a.remote = true ∧ (s.ctl a.k).run = .atRemote n) ∧
    (∃ (s : State) (n a : Nat) (p : Access) (q : Piece), accessWith s n = some (a, p) ∧ p.pieces = [q] ∧ q.elem = n ∧ p.got = [] ∧
      s.colls = []) ∧
    (∀ x ∈ [none, some (5, 6, true)], ∃ (s : State) (n m : Nat) (o : Op) (p : MPiece), accessWith s n = none ∧
      pieceWith s n = some (m, o, p) ∧ o.op9 ≠ 0x0E1 ∧ s.colls = [] ∧ o.fault = x) ∧
    (∃ (s : State) (n m : Nat) (o : Op) (p : MPiece), accessWith s n = none ∧ pieceWith s n = some (m, o, p) ∧ o.op9 = 0x0E1 ∧ s.colls = [] ∧
      redKey s o = none ∧ s.op m = some o ∧ o.fault = none) ∧
    (∃ (s : State) (n : Nat) (w : Walk) (tn : Tensor), FMap.get none s.walks n = some w ∧ readTensor s w.asid w.tid = some tn ∧
      iseqOf s w.asid = w.iseq ∧ (readTile s tn w.n).w0 = w.w0 ∧ (readTile s tn w.n).w1 = w.w1) ∧
    (∃ (s : State) (n : Nat) (w : Walk) (tn : Tensor), FMap.get none s.walks n = some w ∧ readTensor s w.asid w.tid = some tn ∧
      ¬(iseqOf s w.asid = w.iseq ∧ (readTile s tn w.n).w0 = w.w0 ∧ (readTile s tn w.n).w1 = w.w1)) := by
  refine ⟨⟨{ onBase fun c => { c with run := .atRemote 7 } with accs := [(7, some { load1 with remote := true })] }, 7, _, rfl, rfl, by decide +kernel⟩,
    ⟨{ base with accs := [(7, some { load1 with remote := true, pieces := [⟨.key 0, 8, [], 9, 0⟩] })] }, 9, 7,
      { load1 with remote := true, pieces := [⟨.key 0, 8, [], 9, 0⟩] }, _, by decide +kernel, rfl, rfl, rfl, rfl⟩,
    fun x hx => ⟨withOp { op0 with fault := x, pieces := [{ piece0 with tag := some 3 }] }, 3, 7,
      { op0 with fault := x, pieces := [{ piece0 with tag := some 3 }] }, { piece0 with tag := some 3 }, rfl, rfl, by show (0x0D3 : Nat) ≠ 0x0E1; decide, rfl, rfl⟩,
    ⟨withOp { op0 with op9 := 0x0E1, pieces := [{ piece0 with tag := some 3 }] }, 3, 7, { op0 with op9 := 0x0E1, pieces := [{ piece0 with tag := some 3 }] },
      { piece0 with tag := some 3 }, rfl, rfl, rfl, rfl, by decide +kernel, rfl, rfl⟩, ?_, ?_⟩
  · obtain ⟨tn, h1, h2⟩ := some_with (x := readTensor base walk0.asid walk0.tid) (p := fun tn => decide (iseqOf base walk0.asid = walk0.iseq ∧
      (readTile base tn walk0.n).w0 = walk0.w0 ∧ (readTile base tn walk0.n).w1 = walk0.w1)) (by decide +kernel)
    exact ⟨{ base with walks := [(3, some walk0)] }, 3, walk0, tn, rfl, h1, of_decide_eq_true h2⟩
  · obtain ⟨tn, h1, h2⟩ := some_with (x := readTensor base walk0.asid walk0.tid) (p := fun tn => decide (¬(iseqOf base walk0.asid = walk0.iseq + 1 ∧
      (readTile base tn walk0.n).w0 = walk0.w0 ∧ (readTile base tn walk0.n).w1 = walk0.w1))) (by decide +kernel)
    exact ⟨{ base with walks := [(3, some { walk0 with iseq := walk0.iseq + 1 })] }, 3, { walk0 with iseq := walk0.iseq + 1 }, tn, rfl, h1, of_decide_eq_true h2⟩

/-- A launch whose node 0 has one run of two shares, with an entry for stream M. -/
def run0 : RunRec := ⟨0, 1, [], 0, [0, 0, 0, 0, fetchHandle, 0, word6, 0], [], 2, 0, 0, .ready⟩
def inst1 : Inst := { inst0 with nst := [(0, { NodeSt.reset with state := .running, runs := [run0] })] }
def entry0 : PoolE := ⟨0, [0], false, 0, 0, 0, none, none, 4, 0, none⟩
def pooled : State := { base with insts := [(0, some inst1)], pool := [(2, some entry0)] }

theorem test_witness_ShareStarts : ∃ (s : State) (p : Nat) (x : PoolE) (i : Inst) (run : RunRec) (c g : Nat),
    FMap.get none s.pool p = some x ∧ x.team = none ∧ x.conv = none ∧ s.inst x.inst = some i ∧ (i.node x.node).runs[x.run]? = some run ∧
    placeable s x = some (c, g) ∧ poolTurn s x = true :=
  ⟨pooled, 2, entry0, inst1, run0, 1, 1, by decide +kernel, rfl, rfl, by decide +kernel, by decide +kernel, by decide +kernel, by decide +kernel⟩

/-- `base` with one frame slot of 8 MiB. -/
def framed : State := { base with mem := writeCells base.mem 40 (natToBytes 8 0x400000 ++ natToBytes 8 (2 ^ 48 + 2048) ++ natToBytes 8 0x50000) }

/-- A request of a launch of an address space that cannot be placed, against a team of priority 0. -/
def contended : State :=
  { framed with
    teams := [(1, some { team1 with request := true })], insts := [(0, some { inst1 with asid := 1 })], pool := [(2, some entry0)]
    pkg := { framed.pkg with trsPre := 2 ^ 32 }, cores := [(0, { Core.reset with team := some 1 })] }

/-- The run of a share that is over, and its launch. -/
def run1 : RunRec := { run0 with placed := 1, live := 1 }
def inst1b : Inst := { inst0 with nst := [(0, { NodeSt.reset with state := .running, runs := [run1] })] }
def ended : State := { pooled with ctls := [(1, { ctl1 with run := .finished })], insts := [(0, some inst1b)] }

/-- A team blocked at a barrier, with a frame slot of 8 MiB and with one that holds nothing. -/
def blocked (slots : Bool) : State :=
  { framed with
    ctls := [(1, { ctl1 with run := .atTbar fy0 })]
    mem := if slots then framed.mem else writeCells framed.mem 48 (natToBytes 8 (2 ^ 48)) }

theorem length_flatMap {α : Type} (n : Nat) (f : α → List Byte) (h : ∀ x, (f x).length = n) : ∀ l : List α, (l.flatMap f).length = l.length * n
  | [] => by simp
  | a :: l => by rw [List.flatMap_cons, List.length_append, h, length_flatMap n f h l, List.length_cons]; ring

theorem length_padTo (n : Nat) (bs : List Byte) : (padTo n bs).length = n := by
  rw [padTo, List.length_append, List.length_take, List.length_replicate]; omega

theorem length_tokenBytes (c : Core) (n : Nat) : (tokenBytes c n).length = 16 := by
  unfold tokenBytes
  split <;> simp [length_natToBytes]

/-- A whole save takes at most this many bytes for a core. -/
theorem length_coreBytes (s : State) (tm : Team) (c : Nat) : (coreBytes s tm c true).length ≤ 21504 + 64 * 65536 + 2 ^ 20 + 131072 := by
  have hp (live : Word) (n : Nat) : (padPages true live n).length ≤ 64 :=
    (List.length_filter_le _ _).trans (by simp)
  have ha (live : Word) : (accPages true live).length = 64 := by simp [accPages]
  have hw (s : State) (x : Ctx) (m : Nat) : (windowBytes s x m 65536).length = 65536 := length_padTo _ _
  have hb (c n : Nat) : (accBytes s c n).length = 4096 * 4 := by
    rw [accBytes, length_flatMap 4 _ (fun _ => length_natToBytes 4 _), List.length_range]
  have hq (r : DQ) : (padTo 2048 (r.rows.flatMap vecBytes)).length = 2048 := length_padTo _ _
  simp only [coreBytes, liveVectors, if_true, List.length_append, length_padTo, length_natToBytes, engineBytes,
    length_flatMap 16 _ (length_tokenBytes _), length_flatMap 2048 _ (fun n => length_padTo 2048 _), length_flatMap 1024 _ (fun _ => length_padTo 1024 _),
    length_flatMap 128 _ (fun _ => length_natToBytes 128 _), length_flatMap 65536 _ (fun _ => hw _ _ _),
    length_flatMap (4096 * 4) (accBytes s c) (hb c), List.length_range, streamBytes, vecBytes, ha]
  have := hp (s.core c).livesp (teamCtx tm c (3 * c) false).w1len
  omega

theorem length_frameBytes (s : State) (tm : Team) (c : Nat) (h : tm.cores = [c]) :
    128 ≤ (frameBytes s tm 0 true 0).length ∧
    (frameBytes s tm 0 true 0).length ≤ 128 + (21504 + 64 * 65536 + 2 ^ 20 + 131072) + cmemOf tm.method6 * 4096 := by
  have := length_coreBytes s tm c
  simp only [frameBytes, h, List.flatMap_cons, List.flatMap_nil, List.append_nil, List.length_append, length_padTo, State.bytes, length_readCells]
  omega

/-- A share that is over, not the last of its run; a team blocked at a barrier, whose frame fits and does not; the victim of a pre-emption. -/
theorem test_witness_TeamMoves :
    (∃ (s : State) (n : Nat) (tm : Team) (i : Inst) (run : RunRec), s.team n = some tm ∧ shareOver s n tm = true ∧ tm.conv = none ∧
      s.inst tm.inst = some i ∧ (i.node tm.node).runs[tm.run]? = some run ∧ (run.placed ≠ run.shares ∨ 1 < run.live)) ∧
    (∀ fits ∈ [true, false], ∃ (s : State) (n : Nat) (tm : Team) (slot : Nat) (u : State), s.team n = some tm ∧ teamBlocked s tm = true ∧
      Quiet s n tm ∧ freeSlotOf s tm.asid = some slot ∧ u = stopped s n tm 0 true slot ∧
      decide ((frameBytes u tm 0 true 0).length ≤ slotSize u tm.asid) = fits) ∧
    (∃ (s : State) (n : Nat) (tm : Team), s.team n = some tm ∧ preemptVictim s = some n ∧ preemptor s tm = true) := by
  refine ⟨⟨ended, 1, team1, inst1b, run1, by decide +kernel, by decide +kernel, by decide +kernel, by decide +kernel, by decide +kernel,
      by decide +kernel⟩, fun fits h => ?_,
    ⟨{ contended with teams := [(1, some { team1 with rgn := true })] }, 1, { team1 with rgn := true }, by decide +kernel⟩⟩
  refine ⟨blocked fits, 1, team1, 0, stopped (blocked fits) 1 team1 0 true 0, ?_, ?_, ?_, ?_, rfl, ?_⟩
  · revert fits; decide +kernel
  · revert fits; decide +kernel
  · unfold Quiet; revert fits; decide +kernel
  · revert fits; decide +kernel
  · have hl := length_frameBytes (stopped (blocked fits) 1 team1 0 true 0) team1 0 rfl
    have hm : cmemOf team1.method6 = 1 := by decide +kernel
    have hs : ∀ u : State, u.mem = writeCells (blocked fits).mem 0x50000 [1] → u.pkg = (blocked fits).pkg → slotSize u 0 = if fits then 2 ^ 23 else 0 := by
      intro u h1 h2
      simp only [slotSize, asWord, asAddr, State.word, State.bytes, h1, h2]
      clear hl h1 h2 u
      revert fits; decide +kernel
    have hz : slotSize (stopped (blocked fits) 1 team1 0 true 0) team1.asid = if fits then 2 ^ 23 else 0 :=
      hs _ (by clear hl hs; revert fits; decide +kernel) (by clear hl hs; revert fits; decide +kernel)
    rw [hm] at hl
    rw [hz]
    cases fits
    · exact decide_eq_false (by simp only [Bool.false_eq_true, if_false]; omega)
    · exact decide_eq_true (by simp only [if_true]; omega)

/-- A requested team inside a region and outside, which stops; one whose request ends, as the waiting node has been placed or no slot is free. -/
theorem test_witness_TeamMoves_preempted :
    (∀ ready ∈ [true, false], ∃ (s : State) (n : Nat) (tm : Team) (slot : Nat) (u : State), s.team n = some tm ∧ regionReady s tm = ready ∧
      tm.request = true ∧ preemptor s tm = true ∧ Quiet s n tm ∧ freeSlotOf s tm.asid = some slot ∧ u = stopped s n tm 2 (!ready) slot) ∧
    (∀ x ∈ [(true, true), (true, false), (false, false)], ∃ (s : State) (n : Nat) (tm : Team), s.team n = some tm ∧
      tm.request = true ∧ tm.state = .placed ∧ atBoundary s tm = true ∧ regionReady s tm = x.1 ∧
      if x.2 then preemptor s tm = false else freeSlotOf s tm.asid = none) := by
  refine ⟨fun ready h => ⟨{ contended with ctls := [(1, { ctl1 with rgn := if ready then 2 ^ 63 else 0 })] }, 1, { team1 with request := true }, 0, _,
      ?_, ?_, ?_, ?_, ?_, ?_, rfl⟩, fun x h => ?_⟩
  · revert ready; decide +kernel
  · revert ready; decide +kernel
  · rfl
  · revert ready; decide +kernel
  · unfold Quiet; revert ready; decide +kernel
  · revert ready; decide +kernel
  · refine ⟨{ contended with
        ctls := [(1, { ctl1 with rgn := if x.1 then 2 ^ 63 else 0 })], pool := if x.2 then [] else contended.pool, mem := base.mem }, 1,
      { team1 with request := true }, ?_, rfl, rfl, ?_, ?_, ?_⟩ <;> revert x <;> decide +kernel

/-- A swapped team whose entry waits. -/
theorem test_witness_TeamMoves_resume : ∃ (s : State) (n : Nat) (tm : Team) (slot reason : Nat) (p : PoolE) (q c g size : Nat), s.team n = some tm ∧
    tm.state = .swapped reason slot ∧ size = teamSize tm.method6 ∧
    (s.pool.find? fun e => match e.2 with | some p => p.team == some n | none => false) = some (q, some p) ∧ p.rooted = false ∧
    clusterRun s (dieOf c) (clusterOf c % 4) (cmemOf tm.method6) = some g ∧ c < 192 ∧ c % 6 % size = 0 ∧ setFree s c size = true ∧
    reservedFor s p (dieOf c) (clusterOf c % 4) size = false ∧ poolTurn s p = true ∧ asValid s tm.asid = true ∧ 0 < size :=
  ⟨{ framed with
      teams := [(1, some { team1 with state := .swapped 0 0, cores := [] })], insts := [(0, some inst1)], pool := [(2, some { entry0 with team := some 1 })] },
    1, { team1 with state := .swapped 0 0, cores := [] }, 0, 0, { entry0 with team := some 1 }, 2, 191, 0, 1, by decide +kernel⟩

/-- A queue with one record, of a launch of a graph of one kernel node, which lies in tensor 256. -/
def queue0 : LQ := { LQ.reset with en := true, log2n := 6, tail := 1 }
def belled : State :=
  { base with mem := writeCells base.mem 0x30100 [1, 0, 1, 0], hostMem := writeCells [] 0 (natToBytes 8 (fetchHandle.toNat + 256)), queues := [(0, queue0)] }

def isStarted (x : Checked) (p : List (List Word) → Bool) : Bool := match x with | .ok _ nodes _ => p nodes | _ => false

theorem started_of {x : Checked} {p : List (List Word) → Bool} (h : isStarted x p = true) : ∃ hd nodes succ, x = .ok hd nodes succ ∧ p nodes = true := by
  unfold isStarted at h
  split at h
  · exact ⟨_, _, _, rfl, h⟩
  · cases h

def writesOk (x : Option (Except Byte (List Eff))) : Bool := match x with | some (.ok _) => true | _ => false

theorem writes_of {x : Option (Except Byte (List Eff))} (h : writesOk x = true) : ∃ e, x = some (.ok e) := by
  unfold writesOk at h
  split at h
  · exact ⟨_, rfl⟩
  · cases h

/-- A queue whose record names this graph and has its completion record in tensor 256. -/
def refusable (marks : List (BitVec 32)) (graph : Nat) : State :=
  { base with
    hostMem := writeCells (writeCells [] 0 (natToBytes 8 graph)) 16 (natToBytes 8 (fetchHandle.toNat + 16)), queues := [(0, some { queue0 with marks := marks })] }

def isRefused (x : Checked) (d : Nat) : Bool := match x with | .refused e => decide (e = d) | _ => false

theorem refused_of {x : Checked} {d : Nat} (h : isRefused x d = true) : x = .refused d := by
  unfold isRefused at h
  split at h
  · simpa using h
  · cases h

/-- A record that is marked, one that is malformed and one whose graph is not there; a launch that is not fetched, the last that a queue can have
cancelled, and one beyond it and in a queue that the part has not. -/
theorem test_witness_Launches_refused :
    (∀ x ∈ ([([0], 0, 3, 0), ([], 1, 2, 1), ([], 300 * 2 ^ 44, 2, 7)] : List (List (BitVec 32) × Nat × Nat × Nat)), ∃ (s : State) (q : Nat) (d : LQ) (ws : List Word) (i : Inst) (u : State) (v : Nat × Nat)
        (e : List Eff), d = s.queue q ∧ d.en = true ∧ d.err = false ∧ d.log2n = 6 ∧ d.head ≠ d.tail ∧
      ws = hostWords s (d.ring.toNat / 64 * 64 + 64 * (d.head.toNat % 2 ^ d.log2n)) 8 ∧ i = blankInst q d ws ∧
      u = (s.apply (.queue q { d with head := d.head + 1, marks := d.marks.filter (· != d.head) })).apply .fresh ∧ v = x.2.2 ∧
      ((d.head ∈ d.marks ∧ v = (3, 0)) ∨ (d.head ∉ d.marks ∧ launchRecordOk ws = false ∧ v = (2, 1)) ∨
        (d.head ∉ d.marks ∧ launchRecordOk ws = true ∧ ∃ detail, checkLaunch s d.asid (ws.getD 0 0) = .refused detail ∧ v = (2, detail))) ∧
      offOf i.compl % 16 = 0 ∧ seqWrite u i.asid i.compl [BitVec.ofNat 64 (i.cookie.toNat * 2 ^ 32 + v.1 * 2 ^ 24), timeWord u v.2] = some (.ok e)) ∧
    (∀ x ∈ [(131071, 0x3F), (131071, 0x40), (131072, 0)], ∃ (s : State) (q : Nat) (m : BitVec 32), q = x.1 ∧
      (s.insts.find? fun e => match e.2 with | some j => j.queue == q && j.number == m | none => false) = none ∧ (s.queue q).log2n = 6 ∧
      (m - (s.queue q).head).toNat = x.2 ∧ m ∉ (s.queue q).marks) := by
  refine ⟨fun x hx => ?_, fun x hx => ⟨{ base with queues := [(x.1, some queue0)] }, x.1, BitVec.ofNat 32 x.2, rfl, rfl, ?_⟩⟩
  · have hw : writesOk (seqWrite (((refusable x.1 x.2.1).apply (.queue 0 { (refusable x.1 x.2.1).queue 0 with head := 1, marks := [] })).apply .fresh) 0
        (fetchHandle + 16) [BitVec.ofNat 64 (x.2.2.1 * 2 ^ 24), timeWord base x.2.2.2]) = true := by
      simp only [List.mem_cons, List.not_mem_nil, or_false] at hx
      rcases hx with rfl | rfl | rfl <;> decide +kernel
    obtain ⟨e, he⟩ := writes_of hw
    have hc : checkLaunch (refusable [] (300 * 2 ^ 44)) 0 (BitVec.ofNat 64 (300 * 2 ^ 44)) = .refused 7 := refused_of (by decide +kernel)
    have hg : (hostWords (refusable [] (300 * 2 ^ 44)) 0 8).getD 0 0 = BitVec.ofNat 64 (300 * 2 ^ 44) := by decide +kernel
    refine ⟨refusable x.1 x.2.1, 0, (refusable x.1 x.2.1).queue 0, _, _, _, x.2.2, e, rfl, ?_, ?_, ?_, ?_, rfl, rfl, rfl, rfl, ?_, ?_, ?_⟩
    any_goals
      clear hw he hc hg
      simp only [List.mem_cons, List.not_mem_nil, or_false] at hx
      rcases hx with rfl | rfl | rfl <;> decide +kernel
    · simp only [List.mem_cons, List.not_mem_nil, or_false] at hx
      rcases hx with rfl | rfl | rfl
      · exact Or.inl (by decide +kernel)
      · exact Or.inr (Or.inl (by decide +kernel))
      · refine Or.inr (Or.inr ⟨by decide +kernel, by decide +kernel, 7, ?_, rfl⟩)
        show checkLaunch (refusable [] (300 * 2 ^ 44)) 0 ((hostWords (refusable [] (300 * 2 ^ 44)) 0 8).getD 0 0) = .refused 7
        rw [hg]; exact hc
    · clear hc hg
      simp only [List.mem_cons, List.not_mem_nil, or_false] at hx
      rcases hx with rfl | rfl | rfl <;> exact he
  · revert x; decide +kernel

/-- A record that starts a launch, at the smallest ring; a launch that is cancelled, by one command and by the other; one that has stopped. -/
theorem test_witness_Launches :
    (∃ (s : State) (q : Nat) (ws hd : List Word) (nodes : List (List Word)) (succ : List Nat), (s.queue q).en = true ∧ (s.queue q).err = false ∧
      6 = (s.queue q).log2n ∧ (s.queue q).head ≠ (s.queue q).tail ∧ (s.queue q).head ∉ (s.queue q).marks ∧
      ws = hostWords s ((s.queue q).ring.toNat / 64 * 64 + 64 * ((s.queue q).head.toNat % 2 ^ (s.queue q).log2n)) 8 ∧ launchRecordOk ws = true ∧
      checkLaunch s (s.queue q).asid (ws.getD 0 0) = .ok hd nodes succ ∧ decide (nodes.length = 1) = true) ∧
    (∃ (s : State) (q l : Nat) (i : Inst), Running s l i ∧ i.record = none ∧ teamsOf s l none = [] ∧
      (s.insts.find? fun e => match e.2 with | some j => j.queue == q && j.number == i.number | none => false) = some (l, some i) ∧
      (s.insts.filterMap fun e => match e.2 with | some j => if j.queue = q then some e.1 else none | none => none) = [l]) ∧
    (∃ (s : State) (l : Nat) (i : Inst) (e : List Eff), s.inst l = some i ∧ i.cancelled = true ∧ i.record = none ∧ teamsOf s l none = [] ∧
      offOf i.compl % 16 = 0 ∧ seqWrite s i.asid i.compl [recordWord i 3 0 i.cancelNode, timeWord s 0] = some (.ok e)) := by
  refine ⟨?_, ⟨{ base with insts := [(7, some inst1)], teams := [] }, 0, 7, inst1, by unfold Running; decide +kernel⟩, ?_⟩
  · obtain ⟨hd, nodes, succ, h1, h2⟩ := started_of (x := checkLaunch belled (belled.queue 0).asid ((hostWords belled ((belled.queue 0).ring.toNat / 64 * 64 +
      64 * ((belled.queue 0).head.toNat % 2 ^ (belled.queue 0).log2n)) 8).getD 0 0)) (p := fun nodes => decide (nodes.length = 1)) (by decide +kernel)
    exact ⟨belled, 0, _, hd, nodes, succ, by decide +kernel, by decide +kernel, by decide +kernel, by decide +kernel, by decide +kernel, rfl,
      by decide +kernel, h1, h2⟩
  · have h : writesOk (seqWrite { base with insts := [(7, some { inst1 with cancelled := true, compl := fetchHandle + 16 })], teams := [] } 0
      (fetchHandle + 16) [recordWord { inst1 with cancelled := true, compl := fetchHandle + 16 } 3 0 0, timeWord base 0]) = true := by decide +kernel
    obtain ⟨e, h⟩ := writes_of h
    exact ⟨_, 7, { inst1 with cancelled := true, compl := fetchHandle + 16 }, e, rfl, rfl, rfl, by decide +kernel, by decide +kernel, h⟩

/-- A launch of one ready kernel node, for which the method table has an entry, and the arena tensor 256. -/
def inst2 : Inst := { inst1 with arena := fetchHandle, nodes := [List.replicate 16 0], nst := [(0, { NodeSt.reset with state := .ready })] }
def methodical (i : Inst) : State :=
  { base with mem := writeCells (writeCells base.mem 8 (natToBytes 8 0x60000)) 0x60000 (natToBytes 8 (2 ^ 63)), insts := [(0, some i)] }

def withRun (r : RunRec) : Inst := { inst2 with nst := [(0, { NodeSt.reset with state := .running, runs := [r] })] }
def conv0 : Conv := ⟨0, 0, List.replicate 8 0, none, 1, 0, 0, 0⟩

/-- A launch whose node 0 has risen to priority 6. -/
def risen : Inst := { inst2 with nst := [(0, { NodeSt.reset with state := .running, runs := [run0], rise := 3 })] }

/-- The same machine with, perhaps, a launch whose node waits at the root for the pool of shard 0, with a higher priority. -/
def crowded (waits : Bool) : State :=
  { methodical inst2 with insts := (0, some inst2) :: if waits then
      [(1, some { inst2 with prio := 7, nst := [(0, { NodeSt.reset with state := .ready, rooted := [0, 1, 2, 3, 4, 5, 6, 7] })] })] else [] }

/-- The runs of node 0, resolved, and the entries of the pools that they give. -/
def resolved0 (waits : Bool) : Option (List ((Nat × Nat × List Nat) × Resolved)) :=
  allSome ((runsFrom 0 ((List.range (axisOf (List.replicate 16 0))).map (tupleAt (crowded waits) 0 (List.replicate 16 0)))).map
    fun r => (resolve (crowded waits) 0 fetchHandle (methodTable (crowded waits) 0) (List.replicate 16 0) r.2.2).map fun x => (r, x))
def entries0 (waits : Bool) (res : List ((Nat × Nat × List Nat) × Resolved)) : List PoolE :=
  (newRuns inst2 0 res).zipIdx.filterMap (fun r => if r.1.state = .ended then none else some (newEntry (entryOrder (crowded waits)
    (inst2.setNode 0 { inst2.node 0 with state := .running, rooted := [], runs := newRuns inst2 0 res, args := List.replicate 16 0 }) 0 r.1 none)
    0 0 r.2 none (inst2.node 0).stamp))

/-- A node that resolves, with and without one that waits at the root before it; a run that waits for one arena tile; one whose conversion is
over; a node and a swapped team that can rise; an entry to reserve for; a fault-swapped team. -/
theorem test_witness_Dispatches :
    (∀ waits ∈ [false, true], ∃ (s : State) (l n : Nat) (i : Inst) (runs : List (Nat × Nat × List Nat)) (res : List ((Nat × Nat × List Nat) × Resolved)) (es : List PoolE)
        (ws : List Word), Running s l i ∧ ws = i.nodes.getD n [] ∧ n < i.nodes.length ∧ i.kind n = 0 ∧ (i.node n).state = .ready ∧ ws.getD 5 0 = 0 ∧
      runs = runsFrom 0 ((List.range (axisOf ws)).map (tupleAt s i.asid ws)) ∧ runs.length ≤ 16 ∧
      allSome (runs.map fun r => (resolve s i.asid i.arena (methodTable s i.asid) ws r.2.2).map fun x => (r, x)) = some res ∧
      (∀ r ∈ newRuns i n res, (r.convs.map (·.tiles)).foldl (· + ·) 0 ≤ ((readTensor s i.asid (tidOf i.arena)).map Tensor.ntiles).getD 0) ∧
      es = (newRuns i n res).zipIdx.filterMap (fun r => if r.1.state = .ended then none else some (newEntry (entryOrder s
        (i.setNode n { i.node n with state := .running, rooted := [], runs := newRuns i n res, args := List.replicate 16 0 }) n r.1 none)
        l n r.2 none (i.node n).stamp)) ∧ es ≠ [] ∧ roomFor s es = true ∧
      rootBefore s (es.map (·.shard)) (nodePrio i n, (i.node n).stamp) = waits) ∧
    (∃ (s : State) (l n r : Nat) (i : Inst) (run : RunRec) (tn : Tensor) (fs : List Nat) (cur : Nat), Running s l i ∧ (i.node n).runs[r]? = some run ∧
      run.state = .arena ∧ readTensor s i.asid (tidOf i.arena) = some tn ∧
      takeRanges tn.ntiles (run.convs.map (·.tiles)) ((s.busy.filter (·.1 == arenaKey i)).map (·.2)) (FMap.get 0 s.arenas (arenaKey i)) =
        some (fs, cur) ∧ fs ≠ [] ∧ (∀ d, d < 8 → poolCount s d + run.convs.length ≤ 4096) ∧
      isSkip run.entry = false) ∧
    (∃ (s : State) (l n r : Nat) (i : Inst) (run : RunRec), Running s l i ∧ (i.node n).runs[r]? = some run ∧ run.state = .converting ∧
      (∀ c ∈ run.convs, c.placed = c.tiles ∧ c.live = 0) ∧ run.convs ≠ []) ∧
    (∃ (s : State) (l n p : Nat) (i : Inst) (x : PoolE), Running s l i ∧ nodePrio i n = 6 ∧ FMap.get none s.pool p = some x ∧ x.inst = l ∧ x.node = n ∧
      x.team = none ∧ n < 2 ^ 16 ∧ FMap.get none s.pool (rootNumber l n) = none) ∧
    (∃ (s : State) (l p m : Nat) (i : Inst) (x : PoolE), Running s l i ∧ FMap.get none s.pool p = some x ∧ x.inst = l ∧ x.team = some m ∧
      entryPrio s x = 6) ∧
    (∃ (s : State) (l p : Nat) (i : Inst) (x : PoolE), Running s l i ∧ FMap.get none s.pool p = some x ∧ x.inst = l ∧
      (∀ e ∈ s.pool, ∀ y, e.2 = some y → y.id = x.id → y.resv = none) ∧ x.rooted = false ∧ s.reserved = []) ∧
    (∃ (s : State) (l m asid : Nat) (i : Inst) (tm : Team) (v : Word), Running s l i ∧ (s.teams.find? fun e => match e.2 with
        | some tm => tm.asid == asid && tm.state == .swapped 1 (v.toNat % 2 ^ 16) | none => false) = some (m, some tm) ∧
      ∀ e ∈ s.pool, ∀ p, e.2 = some p → p.team ≠ some m) := by
  refine ⟨?_, ?_, ⟨methodical (withRun { run0 with state := .converting, convs := [{ conv0 with placed := 1 }] }), 0, 0, 0, _, _,
      ⟨rfl, rfl⟩, rfl, rfl, by decide +kernel, by decide⟩,
    ⟨{ methodical risen with pool := [(2, some entry0)] }, 0, 0, 2, risen, entry0, ⟨rfl, rfl⟩, by decide +kernel⟩,
    ⟨{ methodical (withRun run0) with pool := [(2, some { entry0 with rise := 3, team := some 1 })] }, 0, 2, 1, _, _, ⟨rfl, rfl⟩, rfl, rfl, rfl,
      by decide +kernel⟩,
    ⟨{ methodical (withRun run0) with pool := [(2, some entry0)] }, 0, 2, _, entry0, ⟨rfl, rfl⟩, rfl, rfl, by decide +kernel, rfl, rfl⟩,
    ⟨{ methodical (withRun run0) with teams := [(4, some { team1 with state := .swapped 1 9 })] }, 0, 4, 0, _, { team1 with state := .swapped 1 9 }, 9, ⟨rfl, rfl⟩,
      by decide +kernel, by decide +kernel⟩⟩
  · intro waits hw
    have he : ∀ res, entries0 waits res = (newRuns inst2 0 res).zipIdx.filterMap (fun r => if r.1.state = .ended then none else
        some (newEntry (entryOrder (crowded waits)
          (inst2.setNode 0 { inst2.node 0 with state := .running, rooted := [], runs := newRuns inst2 0 res, args := List.replicate 16 0 }) 0 r.1 none)
          0 0 r.2 none (inst2.node 0).stamp)) := fun _ => rfl
    obtain ⟨res, h1, h2⟩ := some_with (x := resolved0 waits) (p := fun res => decide (entries0 waits res ≠ [] ∧
        roomFor (crowded waits) (entries0 waits res) = true ∧
        rootBefore (crowded waits) ((entries0 waits res).map (·.shard)) (nodePrio inst2 0, (inst2.node 0).stamp) = waits ∧
        ∀ r ∈ newRuns inst2 0 res, (r.convs.map (·.tiles)).foldl (· + ·) 0 ≤ ((readTensor (crowded waits) 0 256).map Tensor.ntiles).getD 0))
      (by clear he; revert waits; decide +kernel)
    obtain ⟨h3, h4, h5, h6⟩ := of_decide_eq_true h2
    exact ⟨crowded waits, 0, 0, inst2, _, res, entries0 waits res, List.replicate 16 0, ⟨rfl, rfl⟩, rfl, by decide, by decide +kernel, rfl, rfl, rfl,
      by clear he h1 h2 h3 h4 h5 h6; revert waits; decide +kernel, h1, h6, he res, h3, h4, h5⟩
  · obtain ⟨tn, h1, h2⟩ := some_with (x := readTensor base 0 256) (p := fun tn => decide (takeRanges tn.ntiles [1] [] 0 = some ([0], 0))) (by decide +kernel)
    exact ⟨{ base with insts := [(0, some (withRun { run0 with state := .arena, convs := [conv0] }))] }, 0, 0, 0, _, _, tn, [0], 0, ⟨rfl, rfl⟩, rfl, rfl, h1,
      of_decide_eq_true h2, by decide, by decide +kernel, by decide +kernel⟩

/-- A launch whose node 0 is the record `ws`, in state `st`, beside a ready kernel node. -/
def nodeInst (ws : List Word) (st : NState) : Inst :=
  { inst0 with
    nodes := [ws, List.replicate 16 0]
    nst := [(0, { NodeSt.reset with state := st, met := [false, false] }), (1, { NodeSt.reset with state := .ready })] }

/-- It, in a state in which the word at 2048 of tensor 256 is `v`. -/
def control (i : Inst) (v : Byte) : State := { base with mem := writeCells base.mem 0x30800 [v], insts := [(0, some i)] }

/-- A record of this kind that reads that word, with words 6 to 8. -/
def record (kind : Nat) (w6 w7 w8 : Word) : List Word :=
  [BitVec.ofNat 64 (kind * 2 ^ 61), 0, 0, 0, 0, fetchHandle + 2048, w6, w7, w8, 0, 0, 0, 0, 0, 0, 0]

def wordIs (x : BRead) (w : Word) : Bool := match x with | .words [v] _ => decide (v = w) | _ => false

theorem word_is {x : BRead} {w : Word} (h : wordIs x w = true) : ∃ g, x = .words [w] g := by
  unfold wordIs at h
  split at h
  · exact ⟨_, by rw [of_decide_eq_true h]⟩
  · cases h

def readIs (x : Option (Except Byte Bool)) (b : Bool) : Bool := match x with | some (.ok v) => v == b | _ => false

theorem read_is {x : Option (Except Byte Bool)} {b : Bool} (h : readIs x b = true) : x = some (.ok b) := by
  unfold readIs at h
  split at h
  · rw [of_decide_eq_true h]
  · cases h

/-- The state with tensor 257, whose one tile is absent. -/
def absentTile (s : State) : State :=
  { s with mem := writeCells s.mem (0x10000 + 64 * 257) ([0xE100580000001000, 1023, 1023, 4096, 0x20010, 0, 0, 0].flatMap fun x : Nat => natToBytes 8 x) }

/-- An event node of two words with this QUORUM and RESULT. -/
def eventInst (x : Nat × Word) (st : NState) : Inst :=
  nodeInst (record 4 5 (BitVec.ofNat 64 (0x0008020000000007 + x.1 * 2 ^ 32)) x.2) st

/-- One whose words lie in the absent tile; and one that is decided. -/
def farInst : Inst := nodeInst ((record 4 5 0x0008020200000007 0).set 5 (handleOf 257 0)) .running
def decidedInst (result : Word) : Inst :=
  let i := eventInst (2, result) .running
  i.setNode 0 { i.node 0 with latched := true }

theorem absent_of {x : BRead} (h : (match x with | .absent _ => true | _ => false) = true) : ∃ a, x = .absent a := by
  split at h
  · exact ⟨_, rfl⟩
  · cases h

theorem none_of {α : Type} {x : Option α} (h : x.isNone = true) : x = none := by
  cases x with
  | none => rfl
  | some a => cases h

theorem reads_ok {s : State} {i : Inst} {n : Nat} (h : ∀ j, j < eventWords i n →
    (match eventRead s i n j with | some (.error _) => false | _ => true) = true) : ∀ j, j < eventWords i n → ∀ code, eventRead s i n j ≠ some (.error code) := by
  intro j hj code hc
  have := h j hj
  rw [hc] at this
  cases this

/-- What the clauses on a ready node share. -/
def ReadyNode (s : State) (l n : Nat) (i : Inst) (w : Word) (k : Nat) : Prop :=
  Running s l i ∧ n < i.nodes.length ∧ (i.node n).state = .ready ∧ (endNode s.nextId n .completed (some k) i).isOver = false ∧
  ∃ g, seqRead s i.asid (i.word n 5) 1 = .words [w] g

theorem ready_node {i : Inst} {v : Byte} {w : Word} {k : Nat} (h : i.cancelled = false ∧ 0 < i.nodes.length ∧ (i.node 0).state = .ready ∧
    (endNode (control i v).nextId 0 .completed (some k) i).isOver = false) (h2 : wordIs (seqRead (control i v) i.asid (i.word 0 5) 1) w = true) :
    ReadyNode (control i v) 0 0 i w k :=
  ⟨⟨rfl, h.1⟩, h.2.1, h.2.2.1, h.2.2.2, word_is h2⟩

/-- A condition that holds and one that does not; a switch within its sets and at their end; a loop of no iteration and of five; a word whose tile
is absent. -/
theorem test_witness_ControlNodes :
    (∃ (s : State) (l n : Nat) (i : Inst) (w : Word), ReadyNode s l n i w 0 ∧ i.kind n = 1 ∧ holds (field (i.word n 8) 0 3) (w &&& i.word n 7) (i.word n 6)) ∧
    (∃ (s : State) (l n : Nat) (i : Inst) (w : Word), ReadyNode s l n i w 2 ∧ i.kind n = 1 ∧ ¬holds (field (i.word n 8) 0 3) (w &&& i.word n 7) (i.word n 6)) ∧
    (∃ (s : State) (l n : Nat) (i : Inst) (w : Word), ReadyNode s l n i w (3 + w.toNat) ∧ i.kind n = 3 ∧ w.toNat < field (i.word n 6) 0 5) ∧
    (∃ (s : State) (l n : Nat) (i : Inst) (w : Word), ReadyNode s l n i w 0 ∧ i.kind n = 3 ∧ w.toNat = field (i.word n 6) 0 5) ∧
    (∃ (s : State) (l n : Nat) (i : Inst) (w : Word), ReadyNode s l n i w 0 ∧ i.kind n = 2 ∧ w.toNat % 2 ^ 32 = 0) ∧
    (∃ (s : State) (l n : Nat) (i : Inst) (w : Word), ReadyNode s l n i w 0 ∧ i.kind n = 2 ∧ w.toNat % 2 ^ 32 ≠ 0 ∧ n < bodyFirst (i.nodes.getD n [])) ∧
    (∃ (s : State) (l n : Nat) (i : Inst), Running s l i ∧ n < i.nodes.length ∧ (i.node n).state = .ready ∧
      ∃ a, seqRead s i.asid (i.word n 5) 1 = .absent a) := by
  refine ⟨⟨_, 0, 0, _, 5, ready_node (i := nodeInst (record 1 5 7 0) .ready) (v := 5) (by decide +kernel) (by decide +kernel), by decide +kernel, ?_⟩,
    ⟨_, 0, 0, _, 5, ready_node (i := nodeInst (record 1 5 7 1) .ready) (v := 5) (by decide +kernel) (by decide +kernel), by decide +kernel, ?_⟩,
    ⟨_, 0, 0, _, 5, ready_node (i := nodeInst (record 3 6 0 0) .ready) (v := 5) (by decide +kernel) (by decide +kernel), by decide +kernel, by decide +kernel⟩,
    ⟨_, 0, 0, _, 5, ready_node (i := nodeInst (record 3 5 0 0) .ready) (v := 5) (by decide +kernel) (by decide +kernel), by decide +kernel, by decide +kernel⟩,
    ⟨_, 0, 0, _, 0, ready_node (i := nodeInst (record 2 0x0001000100000000 0 0) .ready) (v := 0) (by decide +kernel) (by decide +kernel), by decide +kernel,
      by decide +kernel⟩,
    ⟨_, 0, 0, _, 5, ready_node (i := nodeInst (record 2 0x0001000100000000 0 0) .ready) (v := 5) (by decide +kernel) (by decide +kernel), by decide +kernel,
      by decide +kernel⟩,
    ⟨absentTile (control (nodeInst ((record 1 5 7 0).set 5 (handleOf 257 0)) .ready) 5), 0, 0, nodeInst ((record 1 5 7 0).set 5 (handleOf 257 0)) .ready,
      ⟨rfl, rfl⟩, by decide +kernel, by decide +kernel, absent_of (by decide +kernel)⟩⟩
  · exact (by decide +kernel : (5#64 &&& 7#64) = 5#64)
  · exact (by decide +kernel : ¬(5#64 &&& 7#64) ≠ 5#64)

/-- An event node of two words, the first of which is met, with this QUORUM and RESULT: a QUORUM of two, one met, one met with a RESULT in an
absent tile, and one with a RESULT that can be written. -/
abbrev eventCases : List (Nat × Word) := [(2, 0), (1, 0), (1, handleOf 257 0), (1, fetchHandle + 1024)]

/-- A RESULT in an absent tile waits, one in tensor 256 is written. -/
def ResultGoes (x : Word) (r : Option (Except Byte (List Eff))) : Prop :=
  (x = handleOf 257 0 → r = none) ∧ (x = fetchHandle + 1024 → ∃ e, r = some (.ok e))

theorem result_goes {x : Word} {r : Option (Except Byte (List Eff))}
    (h : (x = handleOf 257 0 → r.isNone = true) ∧ (x = fetchHandle + 1024 → writesOk r = true)) : ResultGoes x r :=
  ⟨fun e => none_of (h.1 e), fun e => writes_of (h.2 e)⟩

def eventAt (x : Nat × Word) (st : NState) : State := absentTile (control (eventInst x st) 5)

/-- Its state once the first word is found met. -/
def eventMet (x : Nat × Word) (st : NState) : State :=
  (eventAt x st).apply (.inst 0 (some ((eventInst x st).setNode 0 { (eventInst x st).node 0 with state := .running, met := [true, false] })))

theorem event_facts : ∀ x ∈ eventCases, ∀ st ∈ [NState.ready, .running],
    (eventInst x st).nodes.length = 2 ∧ (eventInst x st).kind 0 = 4 ∧ ((eventInst x st).node 0).state = st ∧
    ((eventInst x st).node 0).latched = false ∧ ((eventInst x st).node 0).met = [false, false] ∧ eventWords (eventInst x st) 0 = 2 ∧
    field ((eventInst x st).word 0 7) 32 8 = x.1 ∧ (eventInst x st).word 0 8 = x.2 := by decide +kernel

theorem event_reads : ∀ x ∈ eventCases, ∀ st ∈ [NState.ready, .running],
    readIs (eventRead (eventAt x st) (eventInst x st) 0 0) true = true ∧ readIs (eventRead (eventAt x st) (eventInst x st) 0 1) false = true := by
  decide +kernel

theorem event_mask : ([BitVec.ofNat 64 ((([true, false].zipIdx.map fun x => if x.1 then 2 ^ x.2 else 0).foldl (· + ·) 0) : Nat)] : List Word) = [1] := by
  decide

theorem event_waits : ∀ x ∈ eventCases, ∀ st ∈ [NState.ready, .running],
    (x.2 = handleOf 257 0 → (seqWrite (eventMet x st) (eventInst x st).asid x.2 [1]).isNone = true) ∧
    (x.2 = fetchHandle + 1024 → writesOk (seqWrite (eventMet x st) (eventInst x st).asid x.2 [1]) = true) := by decide +kernel

theorem test_witness_ControlNodes_eventNode : ∀ x ∈ eventCases,
    ∃ (s : State) (l n : Nat) (i : Inst) (m : List Bool), Running s l i ∧ n < i.nodes.length ∧ i.kind n = 4 ∧ (i.node n).state = .ready ∧
      (∀ j, j < eventWords i n → ∀ code, eventRead s i n j ≠ some (.error code)) ∧
      m = ((List.range (eventWords i n)).map fun j => match eventRead s i n j with | some (.ok b) => b | _ => false) ∧
      (m.filter id).length = 1 ∧ field (i.word n 7) 32 8 = x.1 ∧ i.word n 8 = x.2 ∧
      ResultGoes x.2 (seqWrite (s.apply (.inst l (some (i.setNode n { i.node n with state := .running, met := m })))) i.asid (i.word n 8)
        [BitVec.ofNat 64 ((m.zipIdx.map fun x => if x.1 then 2 ^ x.2 else 0).foldl (· + ·) 0)]) := by
  intro x hx
  obtain ⟨h1, h2, h3, -, -, h4, h5, h6⟩ := event_facts x hx .ready (by decide)
  obtain ⟨h7, h8⟩ := event_reads x hx .ready (by decide)
  refine ⟨eventAt x .ready, 0, 0, eventInst x .ready, [true, false], ⟨rfl, rfl⟩, h1 ▸ by decide, h2, h3, ?_, ?_, rfl, h5, h6, ?_⟩
  · rw [h4]
    intro j hj code hc
    obtain rfl | rfl : j = 0 ∨ j = 1 := by omega
    · rw [read_is h7] at hc; cases hc
    · rw [read_is h8] at hc; cases hc
  · rw [h4, show List.range 2 = [0, 1] from rfl, List.map_cons, List.map_cons, List.map_nil, read_is h7, read_is h8]
  · rw [h6, event_mask]
    exact result_goes (event_waits x hx .ready (by decide))

theorem test_witness_ControlNodes_eventReread : ∀ x ∈ eventCases,
    ∃ (s : State) (l n j : Nat) (i : Inst) (b : Bool) (m : List Bool), Running s l i ∧ n < i.nodes.length ∧ i.kind n = 4 ∧ (i.node n).state = .running ∧
      (i.node n).latched = false ∧ j < eventWords i n ∧ eventRead s i n j = some (.ok b) ∧ m = (i.node n).met.set j b ∧ (m.filter id).length = 1 ∧
      field (i.word n 7) 32 8 = x.1 ∧ i.word n 8 = x.2 ∧
      ResultGoes x.2 (seqWrite (s.apply (.inst l (some (i.setNode n { i.node n with state := .running, met := m })))) i.asid (i.word n 8)
        [BitVec.ofNat 64 ((m.zipIdx.map fun x => if x.1 then 2 ^ x.2 else 0).foldl (· + ·) 0)]) := by
  intro x hx
  obtain ⟨h1, h2, h3, h9, h10, h4, h5, h6⟩ := event_facts x hx .running (by decide)
  refine ⟨eventAt x .running, 0, 0, 0, eventInst x .running, true, [true, false], ⟨rfl, rfl⟩, h1 ▸ by decide, h2, h3, h9, h4 ▸ by decide,
    read_is (event_reads x hx .running (by decide)).1, by rw [h10]; rfl, rfl, h5, h6, ?_⟩
  rw [h6, event_mask]
  exact result_goes (event_waits x hx .running (by decide))

/-- Time that is up, without a RESULT, with one in an absent tile and one that is written; a word whose tile is absent; a decided node whose RESULT
waits, and one whose RESULT can be written. -/
theorem test_witness_ControlNodes_late :
    (∀ x ∈ [(2, 0), (2, handleOf 257 0), (2, fetchHandle + 1024)], ∃ (s : State) (l n : Nat) (i : Inst), Running s l i ∧ n < i.nodes.length ∧ i.kind n = 4 ∧
      (i.node n).state = .running ∧ (i.node n).latched = false ∧ field (i.word n 7) 0 32 ≠ 0 ∧ i.word n 8 = x.2 ∧
      ResultGoes x.2 (seqWrite s i.asid (i.word n 8)
        [BitVec.ofNat 64 (((i.node n).met.zipIdx.map fun x => if x.1 then 2 ^ x.2 else 0).foldl (· + ·) 0)])) ∧
    (∃ (s : State) (l n j : Nat) (i : Inst), Running s l i ∧ n < i.nodes.length ∧ i.kind n = 4 ∧ (i.node n).state = .running ∧ j < eventWords i n ∧
      (i.node n).latched = false ∧ eventRead s i n j = none) ∧
    (∀ h ∈ [handleOf 257 0, fetchHandle + 1024], ∃ (s : State) (l n j : Nat) (i : Inst), Running s l i ∧ n < i.nodes.length ∧ i.kind n = 4 ∧
      (i.node n).state = .running ∧ j < eventWords i n ∧ (i.node n).latched = true ∧ i.word n 8 ≠ 0 ∧ ResultGoes h (seqWrite s i.asid (i.word n 8)
        [BitVec.ofNat 64 (((i.node n).met.zipIdx.map fun x => if x.1 then 2 ^ x.2 else 0).foldl (· + ·) 0)])) := by
  refine ⟨fun x hx => ?_,
    ⟨absentTile (control farInst 5), 0, 0, 0, farInst, ⟨rfl, rfl⟩, by decide +kernel, by decide +kernel, by decide +kernel, by decide +kernel,
      by decide +kernel, none_of (by decide +kernel)⟩,
    fun h hh => ⟨absentTile (control (decidedInst h) 5), 0, 0, 0, decidedInst h, ⟨rfl, rfl⟩, ?_, ?_, ?_, ?_, ?_, ?_, result_goes ?_⟩⟩
  refine ⟨absentTile (control (eventInst x .running) 5), 0, 0, eventInst x .running, ⟨rfl, rfl⟩, ?_, ?_, ?_, ?_, ?_, ?_, result_goes ?_⟩
  any_goals (revert x; decide +kernel)
  all_goals (rcases List.mem_pair.mp hh with rfl | rfl <;> decide +kernel)


def onBasePkg (f : Pkg → Pkg) : State := { base with pkg := f base.pkg }

/-- A core that runs; the last queue, and a read of each of its words; a budget that is written. -/
theorem test_witness_PackageEvents : (∃ s : State, activeCores s ≠ []) ∧ (∃ q : Nat, q < 131072 ∧ q + 1 = 131072) ∧
    (∀ ix ∈ [4096 + 4 * 131071, 4096 + 4 * 131071 + 1, 4096 + 4 * 131071 + 2, 4096 + 4 * 131071 + 3], ∃ r : Req, r.kind = 23 ∧
      r.handle = BitVec.ofNat 64 ix) ∧
    (∃ v : Word, 12 ≤ field v 16 5 ∧ field v 16 5 ≤ 24) ∧ (∃ v : Word, bitOf v 63 = true) ∧ ∃ v : Word, bitOf v 63 = false ∧ bitOf v 62 = true :=
  ⟨⟨base, by decide +kernel⟩, ⟨131071, by decide⟩, fun ix _ => ⟨{ kind := 23, asid := 0, handle := BitVec.ofNat 64 ix, bytes := 8, value := 0, compare := 0, user := false }, rfl, rfl⟩, ⟨0x180960, by decide⟩,
    ⟨0xC000000000000000, by decide⟩, 0x4000000000000000, by decide⟩

/-- Starts from a package that is up, from one that is held and from one whose recovery image has failed; a start in progress, of each kind, with
its counters at their ends, and its ports' first and last; each reason for which one fails; a tamper event of level 3 outside a start, and one of level 1 in it. -/
theorem test_witness_Starts :
    (∃ s : State, s.pkg.recovFailed = false ∧ s.pkg.phase = .held) ∧ (∃ s : State, s.pkg.recovFailed = true) ∧
    (∃ s : State, s.pkg.recovFailed = false ∧ s.pkg.phase ≠ .held ∧ Memory.wf s.mem = true) ∧
    (∀ x ∈ [(Phase.warm, 2, 0), (Phase.warm, 1, 1), (Phase.cold, 0, 0), (Phase.cold, 0, 1), (Phase.recovery, 0, 2)], ∃ s : State,
      starting s.pkg.phase = true ∧ (s.pkg.phase, s.pkg.wfail, s.pkg.cfail) = x) ∧
    (∀ p ∈ [0, 10, 11, 15], ∃ s : State, starting s.pkg.phase = true ∧ s.pkg.phase = .warm ∧ (s.port p).state = 1 ∧ (s.pkg.lnkId &&& 0x3FF).toNat = 731) ∧
    (∀ ph ∈ [Phase.warm, .cold, .recovery], ∀ r ∈ [1, 2, 3, 5, 6, 7, 8, 10, 11], ¬(ph = .warm ∧ (r = 1 ∨ r = 10)) → ∃ s : State, s.pkg.phase = ph ∧
      starting s.pkg.phase = true ∧ ((r = 6 ∨ r = 10) → tamperLevel s.pkg 5 ≠ 3)) ∧
    (∃ (s : State) (e : BitVec 3), starting s.pkg.phase = false ∧ tamperLevel s.pkg e.toNat = 3) ∧
    (∃ (s : State) (e : BitVec 3), starting s.pkg.phase = true ∧ tamperLevel s.pkg e.toNat = 1) := by
  refine ⟨⟨onBasePkg fun p => { p with phase := .held }, by decide +kernel⟩, ⟨onBasePkg fun p => { p with recovFailed := true }, by decide +kernel⟩,
    ⟨base, by decide +kernel⟩, fun x hx => ⟨onBasePkg fun p => { p with phase := x.1, wfail := x.2.1, cfail := x.2.2 }, ?_, rfl⟩,
    fun p hp => ⟨{ onBasePkg (fun p => { p with phase := .warm, lnkId := 731 }) with ports := [(p, { Port.reset with state := 1 })] }, rfl, rfl, ?_, ?_⟩,
    fun ph h r _ _ => ⟨onBasePkg fun p => { p with phase := ph, tfuse := 0 }, rfl, ?_, fun _ => ?_⟩,
    ⟨onBasePkg fun p => { p with tfuse := 0xFFFF }, 7, by decide +kernel⟩,
    onBasePkg fun p => { p with phase := .cold, tfuse := 0 }, 0, by decide +kernel⟩
  · revert x; decide +kernel
  · revert p; decide +kernel
  · revert p; decide +kernel
  · clear * - h; revert ph; decide +kernel
  · clear * - h; revert ph; decide +kernel

/-- An idle attestation unit, one with a report and a certificate to make, and one whose buffer is the header of a hamper; a part whose recovery
image has failed and one whose has not; tamper events outside a start. -/
theorem test_witness_Management :
    (∃ (s : State) (v : Word), s.pkg.attestDone = true ∧ field v 0 12 = 0) ∧
    (∀ k ∈ [1, 2], ∃ (s : State) (v : Word) (a : Nat), s.pkg.attestReq = some v ∧ s.pkg.hbaseSet = false ∧ a = field v 0 39 ∧ field v 62 2 = k) ∧
    (∃ (s : State) (v : Word), s.pkg.attestReq = some v ∧ (s.headerAt (field v 0 39)).isSome = true) ∧
    (∃ s : State, s.pkg.recovFailed = false) ∧ (∃ s : State, s.pkg.recovFailed = true) ∧
    (∃ ix : BitVec 16, ix ≠ 0x902 ∧ ix ≠ 0x903) ∧ ∃ s : State, starting s.pkg.phase = false := by
  refine ⟨⟨base, 0x1000, by decide +kernel⟩, fun k hk => ⟨onBasePkg fun p => { p with attestReq := some (BitVec.ofNat 64 (k * 2 ^ 62 + 0x1000)) }, _, 0x1000, rfl,
      (by decide +kernel : base.pkg.hbaseSet = false), ?_, ?_⟩,
    ⟨onBasePkg fun p => { p with hbaseSet := true, hbase := 0x100000, attestReq := some 0x103000 }, 0x103000, rfl, by decide +kernel⟩,
    ⟨base, by decide +kernel⟩, ⟨onBasePkg fun p => { p with recovFailed := true }, by decide +kernel⟩, ⟨0x800, by decide⟩, base, by decide +kernel⟩ <;>
    revert k <;> decide

/-- The descriptor at 0x2000 of an episode on hamper 3: its entry point is 0 of window 1, which is the first 4 KiB of the hub. -/
def desc0 (word0 : Nat) : List Word :=
  (List.range 32).map fun i => match i with
    | 0 => BitVec.ofNat 64 word0
    | 1 => BitVec.ofNat 64 (2 ^ 32)
    | 8 => 0xF800000000000001
    | _ => 0

/-- A package with a hamper base and that descriptor; camp core 5 runs an episode on hamper 3, with `w4` in its word 4, `aseq` in its word 0, 1 in
its word 2, and `w2`, `w3` in words 2 and 3 of its descriptor. -/
def camping (w4 aseq w2 w3 : Nat) : State :=
  let m := writeCells base.mem 0x2000 ((desc0 (3 * 2 ^ 52 + 9)).flatMap fun w => natToBytes 8 w.toNat)
  { base with
    mem := writeCells (writeCells (writeCells m (0x100000 + 12288 * 3) (natToBytes 8 aseq)) (0x100000 + 12288 * 3 + 16) [1]) (0x100000 + 12288 * 3 + 32) (natToBytes 8 w4)
    camps := [(5, { Camp.reset with ep := some ⟨3, 0, ((desc0 9).set 2 (BitVec.ofNat 64 w2)).set 3 (BitVec.ofNat 64 w3)⟩ })]
    pkg := { base.pkg with hbase := 0x100000, hbaseSet := true } }

def ep0 (w2 w3 : Nat) : Episode := ⟨3, 0, ((desc0 9).set 2 (BitVec.ofNat 64 w2)).set 3 (BitVec.ofNat 64 w3)⟩
def req0 (kind : Nat) (a : Word) : Req := { kind := kind, asid := 0, handle := a, bytes := 8, value := 7, compare := 0, user := false }

theorem on_episode (w4 aseq w2 w3 : Nat) (h : stateOf (camping w4 aseq w2 w3) 3 = 1) : OnEpisode (camping w4 aseq w2 w3) 5 3 (ep0 w2 w3) := by
  refine ⟨by unfold hamperOk; rfl, h, rfl, rfl, rfl, ?_⟩
  intro e he q _ _
  rw [List.mem_singleton.mp he]

/-- An idle Campground and a busy one; a descriptor that starts an episode and one that is refused; an episode with both limits, which reaches
outside its windows. -/
theorem test_witness_Episodes :
    (∃ s : State, cmpBusy s = 0) ∧ (∃ s : State, cmpBusy s ≠ 0) ∧
    (∃ (s : State) (v : Word) (c : Nat) (d : List Word) (h : Nat), c = field v 40 6 ∧
      d = (List.range 32).map (fun i => s.word (keyHbm (field v 8 31 * 256 + 8 * i))) ∧ h = field (d.getD 0 0) 52 12 ∧ s.pkg.hbaseSet = true ∧
      descOk d = true ∧ (s.camp c).ep = none ∧ stateOf s h ≠ 1 ∧ (reach d (BitVec.ofNat 64 (field (d.getD 1 0) 0 35)) 1 (·.x)).isSome = true) ∧
    (∃ (s : State) (v : Word) (d : List Word), d = (List.range 32).map (fun i => s.word (keyHbm (field v 8 31 * 256 + 8 * i))) ∧ s.pkg.hbaseSet = true ∧
      descOk d = false) ∧
    (∃ (s : State) (v : Word) (d : List Word), d = (List.range 32).map (fun i => s.word (keyHbm (field v 8 31 * 256 + 8 * i))) ∧ s.pkg.hbaseSet = true ∧
      descOk d = true ∧ (s.camp (field v 40 6)).ep ≠ none ∧ stateOf s (field (d.getD 0 0) 52 12) = 1) ∧
    (∃ (s : State) (c h : Nat) (ep : Episode) (v : Word) (r r' : Req), OnEpisode s c h ep ∧ field v 0 6 = c ∧ v ≠ 0 ∧ pending s h = true ∧
      field (ep.desc.getD 2 0) 32 32 ≠ 0 ∧ field (ep.desc.getD 3 0) 32 32 ≠ 0 ∧ r.kind = 0 ∧ r.bytes = 8 ∧ (s.camp c).ops = [] ∧
      reach ep.desc r.handle 8 (·.r) = none ∧ r'.kind = 1 ∧ r'.bytes = 8 ∧ reach ep.desc r'.handle 8 (·.w) = none) :=
  ⟨⟨base, by decide +kernel⟩, ⟨camping 0 0 0 0, by decide +kernel⟩,
    ⟨camping 0 0 0 0, 0x2000, 0, _, 3, by decide, rfl, by decide +kernel, rfl, by decide +kernel, by decide +kernel, by decide +kernel, by decide +kernel⟩,
    ⟨camping 0 0 0 0, 0x14000, _, rfl, rfl, by decide +kernel⟩,
    ⟨camping (2 ^ 56) 0 0 0, 0x50000002000, _, rfl, rfl, by decide +kernel, by decide +kernel, by decide +kernel⟩,
    camping (2 ^ 56) 1 (2 ^ 32) (2 ^ 32), 5, 3, ep0 (2 ^ 32) (2 ^ 32), 5, req0 0 (2 ^ 33), req0 1 (2 ^ 33), on_episode _ _ _ _ (by decide +kernel),
    by decide +kernel⟩

theorem camp_at {x : CampFind} {n : Nat} (h : (match x with | .at (.key a) => a == n | _ => false) = true) : x = .at (.key n) := by
  split at h
  · rw [of_decide_eq_true h]
  · cases h

/-- An action that is accepted and one that is not; a post that moves the policy, one within the leash, one that ends the episode; one that is
refused; writes of CUR, of OLEN and of another field from each side; an access of the episode. -/
theorem test_witness_HamperProtocol :
    (∃ (s : State) (c h : Nat) (ep : Episode) (v : Word), OnEpisode s c h ep ∧ field s.pkg.hbase 0 12 = 0 ∧ s.hamper h 0 = s.hamper h 1 ∧
      v = s.hamper h 1 + 1) ∧
    (∃ (s : State) (c h : Nat) (ep : Episode) (v : Word), OnEpisode s c h ep ∧ field s.pkg.hbase 0 12 = 0 ∧
      ¬(s.hamper h 0 = s.hamper h 1 ∧ v = s.hamper h 1 + 1) ∧ pending s h = true ∧ v = s.hamper h 0 ∧
      field (s.hamper h 2) 0 32 ≠ field (s.hamper h 3) 0 32 ∧ field (ep.desc.getD 3 0) 16 16 = 1 ∧ field (ep.desc.getD 2 0) 0 32 = 1) ∧
    (∃ (s : State) (c h : Nat) (ep : Episode) (v : Word), OnEpisode s c h ep ∧ field s.pkg.hbase 0 12 = 0 ∧ (pending s h = false ∨ v ≠ s.hamper h 0)) ∧
    (∃ bs : List Byte, bs.length = 4) ∧ (∃ bs : List Byte, bs.length = 2) ∧ (∃ bs : List Byte, bs.length = 8) ∧
    (∀ k ∈ [0, 1, 2], ∃ (s : State) (c h : Nat) (ep : Episode) (r : Req) (a : Nat), OnEpisode s c h ep ∧ field s.pkg.hbase 0 12 = 0 ∧ r.bytes = 8 ∧
      r.handle.toNat % 8 = 0 ∧ (s.camp c).ops = [] ∧ campPlace s ep r.handle 8 r.kind = .at (.key a) ∧ r.kind = k) := by
  refine ⟨⟨camping (2 ^ 56) 0 0 0, 5, 3, ep0 0 0, 1, on_episode _ _ _ _ (by decide +kernel), by decide +kernel⟩,
    ⟨camping (2 ^ 56) 1 1 (2 ^ 16), 5, 3, ep0 1 (2 ^ 16), 1, on_episode _ _ _ _ (by decide +kernel), by decide +kernel⟩,
    ⟨camping (2 ^ 56) 0 0 0, 5, 3, ep0 0 0, 1, on_episode _ _ _ _ (by decide +kernel), by decide +kernel⟩,
    ⟨[0, 0, 0, 0], rfl⟩, ⟨[0, 0], rfl⟩, ⟨List.replicate 8 0, rfl⟩, fun k hk =>
    ⟨camping (2 ^ 56) 0 0 0, 5, 3, ep0 0 0, req0 k (2 ^ 32 + 8), keyHub 8, on_episode _ _ _ _ (by decide +kernel), ?_, ?_, ?_, ?_, camp_at ?_, rfl⟩⟩ <;>
    revert k <;> decide +kernel

/-- `base` with port 0 up on its four wavelengths, changed by `f`. -/
def port0 : Port := { Port.reset with state := 2, active := 0xF, lit := 0xF }
def linked (f : Port → Port) : State := { base with ports := [(0, f port0)] }
def flit0 : Flit := mkFlit 1 0 0 .none
def txn0 (dst kind : Nat) : Txn := { newTxn base dst 0 kind with src := 9 }
def carrying (w : Txn) : Flit := { mkFlit 1 0 1 .none with txn := some w }
def read0 (h : Word) : Req := { asid := 0, handle := h, kind := 0, bytes := 8, value := 0, compare := 0, user := false }
def arrived (s : State) (h : Word) : State := { s with inbox := [newArrival { txn0 0 0 with reqs := [(0, read0 h)] }] }

/-- Port 0 is up, and this is it. -/
abbrev Up (s : State) (x : Port) : Prop := x = s.port 0 ∧ x.state = 2

/-- A damaged flit; one in order without a transaction, with a NAK, and with a transaction performed before; one with an access for this
package, one for another; one received before, and one behind a gap, with room for one more flit; a NAK and a time-out with a flit to send again. -/
theorem test_witness_LinkTransfers :
    (∃ (s : State) (x : Port) (f : Flit), Up s x ∧ f.bad = true ∧ x.active ≠ 0 ∧ x.buffer.length = 511) ∧
    (∃ (s : State) (x : Port) (f : Flit), Up s x ∧ f.bad = false ∧ f.seq = x.rxSeq + 1 ∧ x.waiting = [] ∧ f.typ ≠ 1 ∧ f.typ ≠ 2) ∧
    (∃ (s : State) (x : Port) (f : Flit), Up s x ∧ f.bad = false ∧ f.seq = x.rxSeq + 1 ∧ x.waiting = [] ∧ f.typ = 1 ∧ f.txn = none) ∧
    (∃ (s : State) (x : Port) (f : Flit) (w : Txn), Up s x ∧ f.bad = false ∧ f.seq = x.rxSeq + 1 ∧ x.waiting = [] ∧ f.typ = 1 ∧
      f.txn = some w ∧ w.dst = ownPackage s ∧ w.kind ≠ 5 ∧ (w.src, w.tag) ∈ s.done) ∧
    (∃ (s : State) (x : Port) (f : Flit) (w : Txn), Up s x ∧ f.bad = false ∧ f.seq = x.rxSeq + 1 ∧ f.typ = 1 ∧ f.txn = some w ∧
      w.dst = ownPackage s ∧ w.kind ∉ [2, 3, 4, 5] ∧ (w.src, w.tag) ∉ s.done) ∧
    (∃ (s : State) (x : Port) (f : Flit) (w : Txn), Up s x ∧ f.bad = false ∧ f.seq = x.rxSeq + 1 ∧ f.typ = 1 ∧ f.txn = some w ∧
      w.dst ≠ ownPackage s ∧ x.waiting = [] ∧ ∀ g ∈ x.buffer, notAfter g.seq f.ack = false) ∧
    (∃ (s : State) (x : Port) (f : Flit), Up s x ∧ f.bad = false ∧ f.seq ≠ x.rxSeq + 1 ∧ notAfter f.seq x.rxSeq = true ∧ x.waiting = []) ∧
    (∃ (s : State) (x : Port) (f : Flit) (l : List Flit), Up s x ∧ f.bad = false ∧ f.seq ≠ x.rxSeq + 1 ∧ notAfter f.seq x.rxSeq = false ∧ x.waiting = [] ∧
      x.active ≠ 0 ∧ l = x.buffer.filter (fun g => !notAfter g.seq f.ack) ∧ l.length = 511) ∧
    (∃ (s : State) (x : Port) (g : Flit) (l : List Flit), Up s x ∧ x.waiting = [] ∧ x.buffer = g :: l) := by
  refine ⟨⟨linked fun x => { x with buffer := List.replicate 511 flit0 }, _, { flit0 with uncorrectable := true }, ⟨rfl, rfl⟩, rfl, by decide,
      by decide +kernel⟩,
    ⟨linked id, _, flit0, ⟨rfl, rfl⟩, by decide +kernel, rfl, rfl, by decide⟩,
    ⟨linked id, _, mkFlit 1 0 1 .none, ⟨rfl, rfl⟩, by decide +kernel, rfl, rfl, rfl, rfl⟩,
    ⟨{ linked id with done := [(9, 0)] }, _, carrying (txn0 0 0), _, ⟨rfl, rfl⟩, by decide +kernel, rfl, rfl, rfl, rfl, by decide +kernel, by decide,
      by decide⟩,
    ⟨linked id, _, carrying (txn0 0 0), _, ⟨rfl, rfl⟩, by decide +kernel, rfl, rfl, rfl, by decide +kernel, by decide, by decide⟩,
    ⟨linked id, _, carrying (txn0 5 0), _, ⟨rfl, rfl⟩, by decide +kernel, rfl, rfl, rfl, by decide +kernel, rfl, by decide⟩,
    ⟨linked fun x => { x with rxSeq := 1 }, _, flit0, ⟨rfl, rfl⟩, by decide +kernel, by decide, by decide, rfl⟩,
    ⟨linked fun x => { x with buffer := List.replicate 511 flit0 }, _, mkFlit 2 0 0 .none, _, ⟨rfl, rfl⟩, by decide +kernel, by decide, by decide, rfl,
      by decide, rfl, by decide +kernel⟩,
    linked fun x => { x with buffer := [flit0] }, _, flit0, [], ⟨rfl, rfl⟩, rfl, rfl⟩

def isDid (x : HomeRes) : Bool := match x with | .did .. => true | _ => false
def isHomeTrap (x : HomeRes) : Bool := match x with | .trap .. => true | _ => false
def isWaiting (x : HomeRes) : Bool := match x with | .wait => true | _ => false
def isMoving (x : HomeRes) (p : Nat → Nat → Nat → Nat → Bool) : Bool := match x with | .moving a t n l => p a t n l | _ => false

theorem did_of {x : HomeRes} (h : isDid x = true) : ∃ fl v e, x = .did fl v e := by
  unfold isDid at h
  split at h
  · exact ⟨_, _, _, rfl⟩
  · cases h

theorem home_trap_of {x : HomeRes} (h : isHomeTrap x = true) : ∃ c a, x = .trap c a := by
  unfold isHomeTrap at h
  split at h
  · exact ⟨_, _, rfl⟩
  · cases h

theorem waiting_of {x : HomeRes} (h : isWaiting x = true) : x = .wait := by
  unfold isWaiting at h
  split at h
  · rfl
  · cases h

theorem moving_of {x : HomeRes} {p : Nat → Nat → Nat → Nat → Bool} (h : isMoving x p = true) : ∃ a t n l, x = .moving a t n l ∧ p a t n l = true := by
  unfold isMoving at h
  split at h
  · exact ⟨_, _, _, _, rfl, h⟩
  · cases h

/-- A store that arrived at the MOVING tile of tensor 256, whose slice holds `n` writes. -/
def store0 : Req := { read0 fetchHandle with kind := 1 }
def slice0 : Nat := match homeOne (tiled (2 ^ 31 + 2 ^ 28)) store0 with | .moving _ _ _ l => l | _ => 0
def movingState (n : Nat) : State :=
  { tiled (2 ^ 31 + 2 ^ 28) with
    inbox := [newArrival { txn0 0 0 with reqs := [(0, store0)] }], held := (List.range n).map fun i => ⟨0, 256, 0, slice0, .access i elem0⟩ }

/-- A read that arrived: of a present tile, of a tensor that is not there, of an absent tile; a store to a MOVING tile, whose slice has room for one
more and for none. -/
theorem test_witness_LinkTransfers_serve :
    (∃ (s : State) (j : Nat) (w : Txn) (i : Nat) (r : Req) (fl : Byte) (v : List Byte) (e : List Eff),
      s.inbox[j]? = some (newArrival w) ∧ w.kind = 0 ∧ w.reqs = [(i, r)] ∧ homeOne s r = .did fl v e) ∧
    (∃ (s : State) (j : Nat) (w : Txn) (i : Nat) (r : Req) (code : Byte) (a : Nat),
      s.inbox[j]? = some (newArrival w) ∧ w.kind = 0 ∧ w.reqs = [(i, r)] ∧ r.kind ∉ [15, 16] ∧ homeOne s r = .trap code a) ∧
    (∃ (s : State) (j : Nat) (w : Txn) (i : Nat) (r : Req),
      s.inbox[j]? = some (newArrival w) ∧ w.kind = 0 ∧ w.reqs = [(i, r)] ∧ homeOne s r = .wait) ∧
    (∀ k ∈ [255, 256], ∃ (s : State) (j : Nat) (w : Txn) (i : Nat) (r : Req) (asid tid n slice : Nat),
      s.inbox[j]? = some (newArrival w) ∧ w.kind = 0 ∧ w.reqs = [(i, r)] ∧ homeOne s r = .moving asid tid n slice ∧
      (takeHeld s asid tid n slice (.elem w i)).isNone = decide (k = 256)) := by
  obtain ⟨fl, v, e, h1⟩ := did_of (x := homeOne (arrived base fetchHandle) (read0 fetchHandle)) (by decide +kernel)
  obtain ⟨c, a, h2⟩ := home_trap_of (x := homeOne (arrived base (handleOf 300 0)) (read0 (handleOf 300 0))) (by decide +kernel)
  refine ⟨⟨_, 0, _, 0, _, fl, v, e, rfl, rfl, rfl, h1⟩, ⟨_, 0, _, 0, _, c, a, rfl, rfl, rfl, by decide, h2⟩,
    ⟨arrived (absentTile base) (handleOf 257 0), 0, _, 0, _, rfl, rfl, rfl, waiting_of (by decide +kernel)⟩, fun k hk => ?_⟩
  obtain ⟨a, t, n, l, h3, h4⟩ := moving_of (x := homeOne (movingState k) store0)
    (p := fun a t n l => (takeHeld (movingState k) a t n l (.elem { txn0 0 0 with reqs := [(0, store0)] } 0)).isNone == decide (k = 256))
    (by rcases List.mem_pair.mp hk with rfl | rfl <;> decide +kernel)
  exact ⟨movingState k, 0, _, 0, store0, a, t, n, l, rfl, rfl, rfl, h3, eq_of_beq h4⟩

def hostReq (kind bytes : Nat) : Req := { asid := 0, handle := handleOf 257 0, kind := kind, bytes := bytes, value := 7, compare := 0, user := true }
def hostState (r : Req) : State := formatted.apply (.inbox (formatted.inbox ++ [newArrival { newTxn formatted 0 0 9 with req := r }]))

/-- What a host access passes. -/
structure HostPasses (u : State) (r : Req) (ps : List (Nat × Nat)) (pl : Place) (l : List (Spot × Nat)) : Prop where
  reach : homeReach u r true = .ok ps
  place : placeCheck u (agentCtx r.asid true) (tidOf r.handle) (ps.headD (0, 0)).1 r.bytes (r.kind != 0) = .ok pl
  spots : homeSpots u (agentCtx r.asid true) pl (tidOf r.handle) (if r.kind = 0 then .load else .row) ps = .ok l

def hostOk (u : State) (r : Req) : Bool :=
  match homeReach u r true with
  | .error _ => false
  | .ok ps => match placeCheck u (agentCtx r.asid true) (tidOf r.handle) (ps.headD (0, 0)).1 r.bytes (r.kind != 0) with
    | .error _ => false
    | .ok pl => match homeSpots u (agentCtx r.asid true) pl (tidOf r.handle) (if r.kind = 0 then .load else .row) ps with
      | .error _ => false
      | .ok l => r.kind == 0 || (match homeWrites (overSpots l (natToBytes r.bytes r.value.toNat)) u with | .ok _ => true | .error _ => false)

theorem host_ok {u : State} {r : Req} (h : hostOk u r = true) : ∃ ps pl l, HostPasses u r ps pl l ∧
    (r.kind ≠ 0 → ∃ e, homeWrites (overSpots l (natToBytes r.bytes r.value.toNat)) u = .ok e) := by
  unfold hostOk at h
  split at h
  · cases h
  · rename_i ps h1
    split at h
    · cases h
    · rename_i pl h2
      split at h
      · cases h
      · rename_i l h3
        refine ⟨ps, pl, l, ⟨h1, h2, h3⟩, fun hk => ?_⟩
        rw [beq_false_of_ne hk, Bool.false_or] at h
        split at h
        · exact ⟨_, by assumption⟩
        · cases h

/-- Host accesses: a read of one byte and a write of 128; and one behind another. -/
theorem test_witness_LinkTransfers_host :
    (∀ b ∈ [(0, 1), (1, 128)], ∃ (s u : State) (r : Req) (ps : List (Nat × Nat)) (pl : Place) (l : List (Spot × Nat)), (r.kind, r.bytes) = b ∧
      (∀ a ∈ s.inbox, a.txn.kind ≠ 9) ∧ u = s.apply (.inbox (s.inbox ++ [newArrival { newTxn s 0 0 9 with req := { r with user := true } }])) ∧
      HostPasses u { r with user := true } ps pl l ∧
      (r.kind ≠ 0 → ∃ e, homeWrites (overSpots l (natToBytes r.bytes r.value.toNat)) u = .ok e)) ∧
    ∃ (s : State) (r : Req), r.kind = 1 ∧ r.bytes = 128 ∧ ∃ a ∈ s.inbox, a.txn.kind = 9 := by
  refine ⟨fun b hb => ?_, hostState (hostReq 0 1), hostReq 1 128, rfl, rfl, _, List.mem_singleton_self _, rfl⟩
  obtain ⟨ps, pl, l, h1, h2⟩ := host_ok (u := hostState (hostReq b.1 b.2)) (r := hostReq b.1 b.2) (by revert b; decide +kernel)
  exact ⟨formatted, _, hostReq b.1 b.2, ps, pl, l, rfl, fun a ha => absurd ha (no_mem rfl), rfl, h1, h2⟩

/-- A port that narrows to wavelength 0, at step `n`. -/
def narrowing (n : BitVec 3) : State := linked fun x => { x with nstep := n, target := 1, mseq := 5 }
def leaving (n : BitVec 3) : State := linked fun x => { x with lstate := 1, lreq := 2, active := 1, lit := 1, nstep := n }
def failing (w : Nat) (f : Port → Port) : State := linked fun x => f { x with resends := [(w, 16)], buffer := [flit0] }

/-- Changes of the mask start in four ways; their marker is drained, and acknowledged. -/
theorem test_witness_LinkStates :
    (∃ (s : State) (x : Port), Up s x ∧ x.nstep = 0 ∧ x.lstate = 0 ∧ x.lreq = 0 ∧ x.lmask ≠ x.active ∧ x.lmask &&& ~~~x.lit = 0) ∧
    (∃ (s : State) (x : Port), Up s x ∧ x.nstep = 0 ∧ x.lstate = 0 ∧ x.lreq ≠ 0 ∧ x.active ≠ lowest x.lmask ∧
      lowest x.lmask &&& ~~~x.lit = 0) ∧
    (∃ (s : State) (x : Port), Up s x ∧ x.nstep = 0 ∧ x.lstate = 1 ∧ x.lreq ≠ 2 ∧ x.active ≠ lowest x.lmask ∧ lowest x.lmask &&& ~~~x.lit = 0) ∧
    (∃ (s : State) (x : Port), Up s x ∧ x.nstep = 0 ∧ x.lstate = 1 ∧ x.lreq = 2 ∧ x.waiting = []) ∧
    (∃ (s : State) (x : Port), Up s x ∧ x.nstep = 2 ∧ x.buffer = [] ∧ x.target ≠ 0) ∧
    (∃ (s : State) (x : Port), Up s x ∧ x.nstep = 2 ∧ x.buffer = [] ∧ x.target = 0) ∧
    (∃ (s : State) (x : Port), Up s x ∧ x.nstep = 3 ∧ x.target ≠ 0 ∧ (∀ f ∈ x.buffer, f.seq ≠ x.mseq) ∧ x.waiting = []) :=
  ⟨⟨linked fun x => { x with lmask := 1 }, _, ⟨rfl, rfl⟩, by decide +kernel⟩, ⟨linked fun x => { x with lreq := 1 }, _, ⟨rfl, rfl⟩, by decide +kernel⟩,
    ⟨linked fun x => { x with lstate := 1, lreq := 1, active := 1, lit := 9, lmask := 8 }, _, ⟨rfl, rfl⟩, by decide +kernel⟩,
    ⟨leaving 0, _, ⟨rfl, rfl⟩, by decide +kernel⟩, ⟨narrowing 2, _, ⟨rfl, rfl⟩, by decide +kernel⟩,
    ⟨leaving 2, _, ⟨rfl, rfl⟩, by decide +kernel⟩, narrowing 3, _, ⟨rfl, rfl⟩, by decide +kernel⟩

/-- Each way between laser states, and a transaction that wakes a dark direction. -/
theorem test_witness_LinkStates_laser :
    (∃ (s : State) (x : Port), Up s x ∧ x.nstep = 0 ∧ x.lstate = 1 ∧ x.lreq = 0) ∧
    (∃ (s : State) (x : Port), Up s x ∧ x.nstep = 0 ∧ x.lstate = 0 ∧ x.lreq ≠ 0) ∧
    (∃ (s : State) (x : Port), Up s x ∧ x.lstate = 0 ∧ x.lreq ≠ 0 ∧ x.nstep = 0 ∧ x.active = lowest x.lmask) ∧
    (∃ (s : State) (x : Port), Up s x ∧ x.lstate = 2 ∧ x.lreq ≠ 2 ∧ x.waiting = []) ∧
    (∃ (s : State) (x : Port), Up s x ∧ x.lstate = 2 ∧ x.lreq = 2 ∧ x.waking = true ∧ x.waiting = []) ∧
    (∃ (s : State) (x : Port), Up s x ∧ x.lstate = 1 ∧ x.nstep = 3 ∧ x.target = 0 ∧ ∀ f ∈ x.buffer, f.seq ≠ x.mseq) ∧
    (∃ (s : State) (x : Port), Up s x ∧ x.lstate = 2 ∧ x.waiting ≠ []) :=
  ⟨⟨linked fun x => { x with lstate := 1 }, _, ⟨rfl, rfl⟩, by decide +kernel⟩,
    ⟨linked fun x => { x with lreq := 1 }, _, ⟨rfl, rfl⟩, by decide +kernel⟩,
    ⟨linked fun x => { x with lreq := 2, active := 1 }, _, ⟨rfl, rfl⟩, by decide +kernel⟩,
    ⟨linked fun x => { x with lstate := 2 }, _, ⟨rfl, rfl⟩, by decide +kernel⟩,
    ⟨linked fun x => { x with lstate := 2, lreq := 2, waking := true }, _, ⟨rfl, rfl⟩, by decide +kernel⟩,
    ⟨leaving 3, _, ⟨rfl, rfl⟩, by decide +kernel⟩,
    linked fun x => { x with lstate := 2, waiting := [.none] }, _, ⟨rfl, rfl⟩, by decide +kernel⟩

/-- A wavelength that fails beside others: outside a change, in one that goes on without it, in one to it alone; one that fails alone;
a lit wavelength and a dark one. -/
theorem test_witness_LinkStates_failures :
    (∃ (s : State) (x : Port) (w : Nat), Up s x ∧ w = 3 ∧ 16 ≤ FMap.get 0 x.resends w ∧ x.active &&& ~~~(BitVec.ofNat 4 (2 ^ w)) ≠ 0 ∧ x.nstep = 0) ∧
    (∃ (s : State) (x : Port) (w : Nat), Up s x ∧ w = 3 ∧ 16 ≤ FMap.get 0 x.resends w ∧ x.active &&& ~~~(BitVec.ofNat 4 (2 ^ w)) ≠ 0 ∧ x.nstep ≠ 0 ∧
      x.target &&& ~~~(BitVec.ofNat 4 (2 ^ w)) ≠ 0) ∧
    (∃ (s : State) (x : Port) (w : Nat), Up s x ∧ w = 3 ∧ 16 ≤ FMap.get 0 x.resends w ∧ x.active &&& ~~~(BitVec.ofNat 4 (2 ^ w)) ≠ 0 ∧ x.nstep ≠ 0 ∧
      x.target &&& ~~~(BitVec.ofNat 4 (2 ^ w)) = 0) ∧
    (∃ (s : State) (x : Port) (w : Nat), Up s x ∧ w = 0 ∧ 16 ≤ FMap.get 0 x.resends w ∧ x.active &&& ~~~(BitVec.ofNat 4 (2 ^ w)) = 0) ∧
    (∃ (s : State) (x : Port), x = s.port 15 ∧ x.lit.getLsbD 3 = true) ∧ ∃ (s : State) (x : Port), x = s.port 0 ∧ x.lit.getLsbD 0 = false :=
  ⟨⟨failing 3 id, _, 3, ⟨rfl, rfl⟩, by decide +kernel⟩,
    ⟨failing 3 fun x => { x with nstep := 2, target := 12 }, _, 3, ⟨rfl, rfl⟩, by decide +kernel⟩,
    ⟨failing 3 fun x => { x with nstep := 3, target := 8 }, _, 3, ⟨rfl, rfl⟩, by decide +kernel⟩,
    ⟨failing 0 fun x => { x with active := 1 }, _, 0, ⟨rfl, rfl⟩, by decide +kernel⟩,
    ⟨{ base with ports := [(15, port0)] }, _, rfl, by decide +kernel⟩, base, _, rfl, by decide +kernel⟩

theorem exec_next (x : Instr) (s : State) : ∃ t, exec x s = .next t := (exec_answers x s).elim fun _ h => ⟨_, h⟩

theorem test_witness_Frame :
    (∃ (s t : State) (x : Instr) (d : Nat), exec x s = .next t ∧ ScalarForm x d ∧ d ≠ 0) ∧
    (∃ (s t : State) (x : Instr) (d : Nat), exec x s = .next t ∧ VectorForm x d) := by
  obtain ⟨t, h⟩ := exec_next (.add fs0) base
  obtain ⟨u, h2⟩ := exec_next (.vadd x30) base
  exact ⟨⟨base, t, _, _, h, Or.inl ⟨fs0, 0, 0, 0, _, List.mem_cons_self, rfl⟩, by decide⟩,
    base, u, _, _, h2, Or.inl ⟨x30, 0, 0, 0, _, List.mem_append_left _ List.mem_cons_self, rfl⟩⟩

/-- Stream M of core 0 is next: its bytes decode, cannot be fetched, or do not decode. -/
def stepping (w : Nat) : State := State.reset.withFetchWord 32 w
def mute (s : State) : State := { s with ctls := [], schedule := [] }

/-- `base` with an instruction of this kind that has issued and not retired, at the word `w`, before the agent `a` of its schedule. -/
def lateState (l : List Late) (w : Nat) (a : Agent) : State :=
  let s : State := { onBase fun c => { c with late := l } with mem := writeCells base.mem 0x30000 (natToBytes 8 w) }
  { s with schedule := [(agents s).findIdx (· == a)] }

def wordBytes (x : FWord) (p : List Byte → Bool) : Bool := match x with | .bytes bs => p bs | _ => false

theorem bytes_with' {x : FWord} {p : List Byte → Bool} (h : wordBytes x p = true) : ∃ bs, x = .bytes bs ∧ p bs = true := by
  unfold wordBytes at h
  split at h
  · exact ⟨_, rfl, h⟩
  · cases h

def nextWith (x : Host.Outcome State Fault Refusal) (p : State → Bool) : Bool := match x with | .next t => p t | _ => false

theorem next_with {x : Host.Outcome State Fault Refusal} {p : State → Bool} (h : nextWith x p = true) : ∃ t, x = .next t ∧ p t = true := by
  unfold nextWith at h
  split at h
  · exact ⟨_, rfl, h⟩
  · cases h

/-- An addition of vectors that is to issue ahead of its retirement, and the state in which it does. -/
def ahead : Instr := .vadd { x30 with ty := 2 }
def aheadState : State := lateState [] ((encode ahead).getD (0, 0)).2 (.early 1)
def issuing : State :=
  let u := chosen aheadState (.early 1)
  u.applyAll (onCtl 1 (fun c => { c with status := setField c.status 3 1 0 }) u)

def aheadWord : BitVec 32 := BitVec.ofNat 32 ((encode ahead).getD (0, 0)).2

/-- What the package holds matters to `holdable` only in that it is the same. -/
theorem holdable_pkg {u t : State} {k : Nat} (p : Pkg) (h : t.pkg = u.pkg) (h2 : holdable { u with pkg := p } { t with pkg := p } k = true) :
    holdable u t k = true := by
  simp only [holdable, h, beq_self_eq_true, Bool.and_true] at h2 ⊢
  exact h2

theorem ahead_holds : ∃ t, exec ahead (issuing.begin 1 aheadWord) = .next t ∧ holdable issuing t 1 = true ∧ t.wrote.isSome = true := by
  obtain ⟨t, h1, h2⟩ := next_with (x := exec ahead (issuing.begin 1 aheadWord)) (p := fun t => t.wrote.isSome && holdable { issuing with pkg := base.pkg } { t with pkg := base.pkg } 1)
    (by decide +kernel)
  have h3 : (match exec ahead (issuing.begin 1 aheadWord) with | .next t => t.pkg | _ => issuing.pkg) = issuing.pkg := rfl
  rw [h1] at h3
  rw [Bool.and_eq_true] at h2
  exact ⟨t, h1, holdable_pkg base.pkg h3 h2.2, h2.1⟩

/-- A stream whose word decodes, by itself and behind a vector instruction that has not retired; one whose fetch traps, and one whose word does not
decode; one that issues ahead of its retirement; the retirement of an instruction; an event of the machine and one from outside. -/
theorem test_witness_StepRuns :
    (∀ b ∈ [false, true], ∃ (s : State) (a : Agent) (k : Nat) (bs : List Byte) (i : Instr) (rest : List Byte) (t : State), pick s = some a ∧
      a = .stream k ∧ (chosen s a).wordAt k = .bytes bs ∧ decode bs = .ok (i, rest) ∧
      exec i ((chosen s a).begin k (BitVec.ofNat 32 (bytesToNat bs))) = .next t ∧ writesLate (chosen s a) k = b) ∧
    (∃ (s : State) (a : Agent) (k : Nat) (code : Byte) (h w0 : Word), pick s = some a ∧ a = .stream k ∧ writesLate (chosen s a) k = false ∧
      (chosen s a).wordAt k = .trap code h w0) ∧
    (∃ (s : State) (a : Agent) (k : Nat) (bs : List Byte) (e : Reject), pick s = some a ∧ a = .stream k ∧ writesLate (chosen s a) k = false ∧
      (chosen s a).wordAt k = .bytes bs ∧ decode bs = .error e) ∧
    (∃ (s v t : State) (a : Agent) (k : Nat) (bs : List Byte) (i : Instr) (rest : List Byte), pick s = some a ∧ a = .early k ∧
      v = (chosen s a).applyAll (onCtl k (fun c => { c with status := setField c.status 3 1 0 }) (chosen s a)) ∧
      v.wordAt k = .bytes bs ∧ decode bs = .ok (i, rest) ∧ exec i (v.begin k (BitVec.ofNat 32 (bytesToNat bs))) = .next t ∧
      holdable v t k = true ∧ t.wrote.isSome = true) ∧
    (∃ (s : State) (a : Agent) (k i : Nat), pick s = some a ∧ a = .retire k i) ∧
    (∃ (s : State) (a : Agent) (i : Instr) (t : State), pick s = some a ∧ a = .due i ∧ exec i (chosen s a) = .next t) ∧
    (∃ (s : State) (a : Agent) (i : Instr) (t : State), pick s = some a ∧ a = .input i ∧ accepted (chosen s a).pkg.phase i = true ∧
      exec i (chosen s a) = .next t) := by
  refine ⟨fun b hb => ?_, ?_, ?_, ?_, ⟨lateState [lateOne 0 6] 0x00A98C00 (.retire 1 0), .retire 1 0, 1, 0, by decide +kernel, rfl⟩, ?_, ?_⟩
  · let s := lateState (if b then [⟨0, none, [], none, none, [(9, 0, 0)], true, none⟩] else []) 0x00A98C00 (.stream 1)
    obtain ⟨bs, h1, h2⟩ := bytes_with' (x := (chosen s (.stream 1)).wordAt 1) (p := fun bs => (decode bs).isOk) (by revert b; decide +kernel)
    obtain ⟨⟨i, rest⟩, h3⟩ := ok_of h2
    obtain ⟨t, h4⟩ := exec_next i ((chosen s (.stream 1)).begin 1 (BitVec.ofNat 32 (bytesToNat bs)))
    exact ⟨s, .stream 1, 1, bs, i, rest, t, by clear h1 h2 h3 h4; revert b; decide +kernel, rfl, h1, h3, h4, by clear h1 h2 h3 h4; revert b; decide +kernel⟩
  · obtain ⟨code, h, w0, h1⟩ := trap_of (x := (chosen { stepping 0 with ctls := [(1, { ctl1 with pc := handleOf 300 0 })] } (.stream 1)).wordAt 1)
      (by decide +kernel)
    exact ⟨_, .stream 1, 1, code, h, w0, by decide +kernel, rfl, by decide +kernel, h1⟩
  · obtain ⟨bs, h1, h2⟩ := bytes_with' (x := (chosen (stepping 0) (.stream 1)).wordAt 1) (p := fun bs => !(decode bs).isOk) (by decide +kernel)
    cases h3 : decode bs with
    | ok r => rw [h3] at h2; cases h2
    | error e => exact ⟨stepping 0, .stream 1, 1, bs, e, by decide +kernel, rfl, by decide +kernel, h1, h3⟩
  · obtain ⟨bs, h1, h2⟩ := bytes_with' (x := issuing.wordAt 1) (p := fun bs => okWith (decode bs) fun i _ =>
      decide (i = ahead ∧ BitVec.ofNat 32 (bytesToNat bs) = aheadWord)) (by decide +kernel)
    obtain ⟨i, rest, h3, h4⟩ := ok_with h2
    simp only [decide_eq_true_eq] at h4
    obtain ⟨rfl, h4⟩ := h4
    obtain ⟨t, h5, h6⟩ := ahead_holds
    exact ⟨aheadState, issuing, t, .early 1, 1, bs, ahead, rest, by decide +kernel, rfl, rfl, h1, h3, h4.symm ▸ h5, h6⟩
  · obtain ⟨t, h⟩ := exec_next (.teamSwap 1) (chosen (mute (stepping 0)) (.due (.teamSwap 1)))
    exact ⟨mute (stepping 0), _, _, t, by decide +kernel, rfl, h⟩
  · obtain ⟨t, h⟩ := exec_next .coldStart (chosen { State.reset with inputs := [.coldStart] } (.input .coldStart))
    exact ⟨{ State.reset with inputs := [.coldStart] }, _, _, t, by decide +kernel, rfl, by decide +kernel, h⟩

theorem test_witness_InvStep : ∃ s : State, s.Inv ∧ s.pregs = [] := ⟨State.reset, ⟨rfl, rfl, rfl, fun e he => by cases he⟩, rfl⟩

/-- An instruction of each length. -/
theorem test_witness_DecodeEncode :
    ∀ n ∈ [4, 8, 12], ∃ (i : Instr) (w : Nat), i.wf ∧ encode i = some (n, w) := by
  intro n hn
  have h : n = 4 ∨ n = 8 ∨ n = 12 := by revert n; decide
  rcases h with rfl | rfl | rfl
  · exact ⟨.addX32 csT, _, by decide +kernel, rfl⟩
  · exact ⟨.add { fs0 with sc := 0 }, _, by decide +kernel, rfl⟩
  · exact ⟨.addiX96 ⟨pass, 4, 1, 0, 0, -1⟩, _, by decide +kernel, rfl⟩

/-- A form whose guard is false; one that takes from a FIFO of another stream, one that gives to one, and one that takes from an empty FIFO. -/
theorem test_witness_GuardsAndFifos :
    (∃ (s : State) (fs : FS) (fi : FI) (fl : FI96) (fb : FB) (fm : FB96) (y : GuardedForm), y ∈ guardedForms fs fi fl fb fm ∧
      Issues s y.fp y.fo y.sregs [] ∧ NoLoopEnd s.now ∧ guardTrue s s.cur y.g = false ∧ y.fp ≠ 0 ∧ y.fo ≠ 0) ∧
    (∃ (s : State) (fs : FS) (fi : FI) (fl : FI96) (fb : FB) (fm : FB96) (y : GuardedForm), y ∈ guardedForms fs fi fl fb fm ∧
      s.now.legal = true ∧ s.now.tip = false ∧ y.fo ≠ 0 ∧ consumer (y.fo.toNat - 1) ≠ kindOf s.cur) ∧
    (∃ (s : State) (fs : FS) (fi : FI) (fl : FI96) (fb : FB) (fm : FB96) (y : GuardedForm), y ∈ guardedForms fs fi fl fb fm ∧
      s.now.legal = true ∧ s.now.tip = false ∧ (y.fo ≠ 0 → consumer (y.fo.toNat - 1) = kindOf s.cur) ∧ y.fp ≠ 0 ∧
      producer (y.fp.toNat - 1) ≠ kindOf s.cur) ∧
    (∃ (s : State) (fs : FS) (fi : FI) (fl : FI96) (fb : FB) (fm : FB96) (y : GuardedForm), y ∈ guardedForms fs fi fl fb fm ∧
      y.fo ≠ 0 ∧ consumer (y.fo.toNat - 1) = kindOf s.cur ∧ s.tokens (y.fo.toNat - 1) = 0 ∧
      (y.fp ≠ 0 → producer (y.fp.toNat - 1) = kindOf s.cur) ∧ ∀ n ∈ y.sregs, n = 0 ∨ n ∉ pendingS s s.cur) :=
  ⟨⟨onBaseCore fun c => { c with fifo := [(0, 1), (2, 63)] }, { fs0 with g := ⟨0, 3⟩, fp := 3, fo := 1 }, fi0, ⟨pass, 4, 1, 0, 0, -1⟩, fb0, fb96,
      ⟨.add { fs0 with g := ⟨0, 3⟩, fp := 3, fo := 1 }, ⟨0, 3⟩, 3, 1, 8, [4, 1, 3, 0]⟩, List.mem_append_left _ (List.mem_append_left _ (List.mem_append_left _
        (List.mem_append_left _ List.mem_cons_self))), issues_of (by decide +kernel), noLoop_of (by decide +kernel), by decide +kernel⟩,
    ⟨base, { fs0 with fo := 2 }, fi0, ⟨pass, 4, 1, 0, 0, -1⟩, fb0, fb96, ⟨.add { fs0 with fo := 2 }, pass, 0, 2, 8, [4, 1, 3, 0]⟩,
      List.mem_append_left _ (List.mem_append_left _ (List.mem_append_left _ (List.mem_append_left _ List.mem_cons_self))), by decide +kernel⟩,
    ⟨base, { fs0 with fp := 1 }, fi0, ⟨pass, 4, 1, 0, 0, -1⟩, fb0, fb96, ⟨.add { fs0 with fp := 1 }, pass, 1, 0, 8, [4, 1, 3, 0]⟩,
      List.mem_append_left _ (List.mem_append_left _ (List.mem_append_left _ (List.mem_append_left _ List.mem_cons_self))), by decide +kernel⟩,
    base, { fs0 with fo := 1 }, fi0, ⟨pass, 4, 1, 0, 0, -1⟩, fb0, fb96, ⟨.add { fs0 with fo := 1 }, pass, 0, 1, 8, [4, 1, 3, 0]⟩,
      List.mem_append_left _ (List.mem_append_left _ (List.mem_append_left _ (List.mem_append_left _ List.mem_cons_self))), by decide +kernel⟩

end Sys2Proof.Tests
end

section
/-!
PROOFS. The sequential machine (01): the constant registers, taking a trap and returning from one.
-/
namespace Sys2Proof

/-! ### Single bits of a word -/

theorem field_one_mod_two (w : Word) (i : Nat) : decide (field w i 1 % 2 = 1) = w.getLsbD i := by
  rw [← bitOf_eq_getLsbD, bitOf, field, Nat.pow_one, Nat.mod_mod]
  rfl

/-- A bit of a word of which one bit was replaced. -/
theorem getLsbD_setField_one (w : Word) (lo v i : Nat) (hi : i < 64) :
    (setField w lo 1 v).getLsbD i = if i = lo then decide (v % 2 = 1) else w.getLsbD i := by
  rw [← bitOf_eq_getLsbD, bitOf_setField w lo v i hi, bitOf_eq_getLsbD]

namespace Machine

/-! ### The constant registers (01 R14) -/

@[simp] theorem State.sreg_zero (s : State) (k : Nat) : s.sreg k 0 = 0 := rfl
@[simp] theorem State.preg_zero (s : State) (k : Nat) : s.preg k 0 = BitVec.allOnes 128 := rfl
@[simp] theorem State.apply_sreg_zero (s : State) (k : Nat) (v : Word) : s.apply (.sreg k 0 v) = s := rfl
@[simp] theorem State.apply_preg_zero (s : State) (k : Nat) (v : Pred) : s.apply (.preg k 0 v) = s := rfl

/-- Settles O53: the three laws of a read after a write, for the registers that are not hard-wired. -/
theorem zeroRegisters : Obligations.ZeroRegisters := by
  intro s k n
  refine ⟨⟨s.sreg_zero k, s.preg_zero k⟩, s.apply_sreg_zero k, s.apply_preg_zero k, ?_, ?_, ?_⟩
  · intro v j m hn0 hn hm
    have written : (m ≠ 0 ∧ j = k ∧ m = n % 64) ↔ (j = k ∧ m = n) := by omega
    simp only [State.sreg_apply_sreg s k n v j m hm, written]
  · intro v j m hn0 hn hm
    have written : (m ≠ 0 ∧ j = k ∧ m = n % 16) ↔ (j = k ∧ m = n) := by omega
    simp only [State.preg_apply_preg s k n v j m hm, written]
  · intro v j m hn hm
    rw [State.vreg_apply_vreg s k n v j m hm, Nat.mod_eq_of_lt hn]

/-! ### Taking a trap (01 R35) -/

/-- The control record of a stream that takes a trap with none in progress. -/
def Ctl.entered (c : Ctl) (code : Byte) (imp : Bool) (val : Word) (flt : Flt) : Ctl :=
  { c with
    epc := c.pc
    cause := BitVec.ofNat 64 ((if imp then 256 else 0) + code.toNat)
    tval := val
    status := setField (setField (setField c.status 5 1 (field c.status 4 1)) 4 1 1) 6 1 1
    pc := c.tvec
    run := .running
    blocked := none
    spin := none
    walked := []
    code := none
    flt := flt }

/-- The control record of a stream that takes a trap with one in progress. -/
def Ctl.doubled (c : Ctl) : Ctl := { c with status := setField c.status 7 1 1, run := .stopped }

theorem takeTrap_of_not_tip {s : State} {k : Nat} (h : (s.ctl k).tip = false) (code : Byte) (imp : Bool) (val : Word) (flt : Flt) :
    takeTrap k code imp val flt s = [.ctl k ((s.ctl k).entered code imp val flt)] := by
  simp only [takeTrap, h, Bool.false_eq_true, if_false, Ctl.entered]

/-- A double trap changes the stream's record and, of a stream with a team, lists the team as failing. -/
theorem applyAll_takeTrap_of_tip {s : State} {k : Nat} (h : (s.ctl k).tip = true) (code : Byte) (imp : Bool) (val : Word) (flt : Flt) :
    ∃ l, s.applyAll (takeTrap k code imp val flt s) = { s.apply (.ctl k (s.ctl k).doubled) with failing := l } := by
  simp only [takeTrap, h, if_true]
  split
  · exact ⟨_, rfl⟩
  · exact ⟨s.failing, rfl⟩

/-- Taking a trap changes the stream's own record and the list of failing teams alone. -/
theorem applyAll_takeTrap (s : State) (k : Nat) (code : Byte) (imp : Bool) (val : Word) (flt : Flt) :
    ∃ l, s.applyAll (takeTrap k code imp val flt s) =
      { s.apply (.ctl k (if (s.ctl k).tip then (s.ctl k).doubled else (s.ctl k).entered code imp val flt)) with failing := l } := by
  cases h : (s.ctl k).tip with
  | false => exact ⟨s.failing, by rw [takeTrap_of_not_tip h]; rfl⟩
  | true => exact applyAll_takeTrap_of_tip h code imp val flt

/-- `trapped_takeTrap` for any stream: taking a trap does not read which stream acts. IMP shows in the cause alone. -/
theorem trapped_entered {s : State} {k : Nat} (hl : (s.ctl k).legal = true) (ht : (s.ctl k).tip = false) (code : Byte) (val : Word)
    (flt : Flt) : Trapped (s.apply (.cur k)) ((s.apply (.cur k)).apply (.ctl k ((s.ctl k).entered code false val flt))) code val := by
  have h := trapped_takeTrap (s := s.apply (.cur k)) hl ht code val flt
  rwa [takeTrap_of_not_tip (s := s.apply (.cur k)) (k := (s.apply (.cur k)).cur) ht] at h

/-- A cause, IMP bit and code, fits in the bits that STM_CAUSE has. -/
theorem cause_and_mask (code : Byte) (imp : Bool) :
    BitVec.ofNat 64 ((if imp then 256 else 0) + code.toNat) &&& 0x1FF#64 = BitVec.ofNat 64 ((if imp then 256 else 0) + code.toNat) := by
  have hc : code.toNat < 256 := code.isLt
  have hi : (if imp then 256 else 0) ≤ 256 := by split <;> omega
  apply BitVec.eq_of_toNat_eq
  rw [BitVec.toNat_and, show (0x1FF#64).toNat = 2 ^ 9 - 1 from rfl, Nat.and_two_pow_sub_one_eq_mod, BitVec.toNat_ofNat]
  omega

/-- The bits of STM_STATUS that a double trap leaves. -/
theorem getLsbD_status_doubled {c : Ctl} (hl : c.legal = true) {b : Nat} (hb : b < 64) :
    c.doubled.norm.status.getLsbD b = (c.status.getLsbD b || decide (b = 7)) := by
  have hs : c.status &&& 0xF8#64 = c.status := congrArg Ctl.status (Ctl.norm_of_legal hl)
  show (setField c.status 7 1 1 &&& 0xF8#64).getLsbD b = _
  rw [BitVec.getLsbD_and, getLsbD_setField_one _ _ _ _ hb]
  by_cases h7 : b = 7
  · subst h7; simp
  · rw [if_neg h7, ← BitVec.getLsbD_and, hs]; simp [h7]

/-- Settles O31: the record of the stream is the only one that taking a trap changes, and it is read off in either case. -/
theorem trapEntry : Obligations.TrapEntry := by
  intro s k code imp val flt t hl ht
  obtain ⟨l, he⟩ := applyAll_takeTrap s k code imp val flt
  rw [← ht] at he
  have hctl : ∀ j, t.ctl j = if j = k then
      (if (s.ctl k).tip then (s.ctl k).doubled else (s.ctl k).entered code imp val flt).norm else s.ctl j := fun j => by
    rw [he]; exact State.ctl_apply_ctl s k _ j
  refine ⟨fun h => ?_, fun h => ?_, fun j hj => (hctl j).trans (if_neg hj), by rw [he]; rfl, by rw [he]; rfl, by rw [he]; rfl,
    by rw [he]; rfl⟩
  · have hk : t.ctl k = ((s.ctl k).entered code imp val flt).norm := by rw [hctl k, if_pos rfl, h]; rfl
    have hT := trapped_entered hl h code val flt
    have hT' : ((s.apply (.cur k)).apply (.ctl k ((s.ctl k).entered code false val flt))).ctl k =
        ((s.ctl k).entered code false val flt).norm := (State.ctl_apply_ctl _ k _ k).trans (if_pos rfl)
    obtain ⟨pc, epc, -, tval, prv, pprv, tip, status, -, -, -, -⟩ := hT
    rw [show (s.apply (.cur k)).cur = k from rfl, hT'] at pc epc tval prv pprv tip status
    rw [hk]
    exact ⟨epc, cause_and_mask code imp, tval, pprv, prv, tip, pc, status⟩
  · have hk : t.ctl k = (s.ctl k).doubled.norm := by rw [hctl k, if_pos rfl, h]; rfl
    have hn := Ctl.norm_of_legal hl
    rw [hk]
    exact ⟨rfl, (congrArg Ctl.pc hn :), (congrArg Ctl.epc hn :), (congrArg Ctl.cause hn :), rfl, fun b => getLsbD_status_doubled hl⟩

/-! ### Returning from a trap (01 R36) -/

/-- What a jump leaves does not depend on the pc of the record that it starts from. -/
theorem Retired.of_setCtl_pc {s t : State} {c : Ctl} {p pc : Word} {fp fo : BitVec 3}
    (h : Retired (s.setCtl { c with pc := p }) t pc fp fo) : Retired (s.setCtl c) t pc fp fo := by
  have hx : ∀ x : Ctl, (s.setCtl x).now = x.norm := fun x => (State.ctl_apply_ctl s s.cur x s.cur).trans (if_pos rfl)
  have hy : ∀ x j, j ≠ s.cur → (s.setCtl x).ctl j = s.ctl j := fun x j hj =>
    (State.ctl_apply_ctl s s.cur x j).trans (if_neg hj)
  obtain ⟨ctl, ctls, fifos, core, cores, rest⟩ := h
  refine ⟨?_, fun j hj => ?_, fifos, core, cores, congrArg (fun u : State => { u with ctls := (s.setCtl c).ctls }) rest⟩
  · rw [hx] at ctl ⊢; exact ctl
  · rw [ctls j hj, hy _ j hj, hy _ j hj]

/-- An instruction that changes the acting stream's record and goes to `pc`. -/
theorem issue_jump_setCtl {s : State} {d : Desc} {body : State → Act} {f : Ctl → Ctl} {pc : Word}
    (h : Executes s d.g d.fp d.fo d.sregs d.vregs) (hp : s.now.prv = true) (hc : d.closes = false) (hq : d.bq = none)
    (hb : body s = .jump (onCtl s.cur f) pc) (hf : (f s.now).late = s.now.late) (hpc : pc.toNat % 4 = 0) :
    ∃ t, issue s d body = .next t ∧ Retired (s.setCtl (f s.now)) t pc d.fp d.fo := by
  have he : onCtl s.cur f (s.popped d.fo) = [.ctl s.cur (f s.now)] := by
    rw [onCtl, (fifoStep_popped s d.fo).rest]; rfl
  have hn : (s.applyAll [.ctl s.cur (f s.now)]).now = (f s.now).norm :=
    (State.ctl_apply_ctl s s.cur (f s.now) s.cur).trans (if_pos rfl)
  exact issue_jump h.toIssues (fun _ => hp) (by simp [hc]) (by simp [hq]) (Or.inr h.guard) hb he (by simp [Eff.light])
    (hn ▸ Ctl.legal_norm _) (fun hfp => by rw [hn]; exact hf.trans (h.settled hfp)) (Or.inl hp) hpc

/-- The status that `rte` leaves: PRV is PPRV, TIP is 0. -/
theorem getLsbD_status_rteCtl (c : Ctl) {b : Nat} (hb : b < 64) :
    (rteCtl c).status.getLsbD b = if b = 4 then c.status.getLsbD 5 else if b = 6 then false else c.status.getLsbD b := by
  rw [rteCtl, getLsbD_setField_one _ _ _ _ hb, getLsbD_setField_one _ _ _ _ hb, field_one_mod_two]
  by_cases h4 : b = 4
  · subst h4; rfl
  · rw [if_neg h4, if_neg h4]; rfl

/-- Settles O32: `rte` is a jump to the saved pc with the record that `rteCtl` gives. -/
theorem trapReturn : Obligations.TrapReturn := by
  intro s f h hp
  have hepc : s.now.epc &&& ~~~3#64 = s.now.epc := congrArg Ctl.epc (Ctl.norm_of_legal h.legal)
  obtain ⟨t, ht, hr⟩ := issue_jump_setCtl (s := s) (d := { fyDesc f 0x0F1 [] with priv := true })
    (body := fun t => .jump (onCtl t.cur rteCtl) (t.ctl t.cur).epc) h hp rfl rfl rfl rfl ((aligned_iff _).1 hepc)
  exact ⟨t, (rteCtl s.now).status, ht, Retired.of_setCtl_pc (p := s.now.epc) hr, fun b => getLsbD_status_rteCtl s.now⟩

end Machine
end Sys2Proof
end

section
/-!
PROOFS. The scalar instructions that write one register (04 R86 to R91): each operation of the model is the value that the rules give, and
an instruction that issues writes it to its destination.
-/
namespace Sys2Proof.Machine
open Sys2Proof.Statements

/-! ### The operations as the rules write them -/

/-- The clamp to 64 bits has the bounds of 02 R39, in the other order. -/
theorem satS64_eq (z : Int) : satS64 z = clamp z := by
  rw [clamp, min_comm]
  rfl

/-- The left shift is a product, also when all bits leave the word. -/
theorem shl7_eq (a b : Word) : shl7 a b = Statements.shiftLeft a b := by
  apply BitVec.eq_of_toNat_eq
  rw [shl7, Statements.shiftLeft, BitVec.toNat_shiftLeft, BitVec.toNat_ofNat, Nat.shiftLeft_eq]

/-- The right shift is a quotient. -/
theorem shr7_eq (a b : Word) : shr7 a b = Statements.shiftRight a b := by
  rw [shr7, Statements.shiftRight, ← Nat.shiftRight_eq_div_pow, ← BitVec.toNat_ushiftRight, BitVec.ofNat_toNat, BitVec.setWidth_eq]

/-- The signed right shift is a quotient rounded down. -/
theorem sar7_eq (a b : Word) : sar7 a b = shiftSigned a b := by
  rw [sar7, shiftSigned, BitVec.sshiftRight_eq, Int.shiftRight_eq_div_pow]
  rfl

theorem bit64_slt (a b : Word) : bit64 (a.slt b) = ofBool (decide (a.toInt < b.toInt)) := by
  rw [BitVec.slt_eq_decide]; rfl

theorem bit64_ult (a b : Word) : bit64 (a.ult b) = ofBool (decide (a.toNat < b.toNat)) := by
  rw [BitVec.ult_eq_decide]; rfl

/-- The low half of a product is that of the signed product. -/
theorem mul_eq_ofInt (a b : Word) : a * b = BitVec.ofInt 64 (a.toInt * b.toInt) := by
  rw [BitVec.ofInt_mul, BitVec.ofInt_toInt, BitVec.ofInt_toInt]

/-- The remainder belongs to the quotient rounded towards zero. -/
theorem remS_eq (a b : Word) : remS a b = if b = 0 then a else BitVec.ofInt 64 (a.toInt.tmod b.toInt) := by
  rw [remS, Int.tmod_def, Int.mul_comm]

theorem ite_sle_eq_min (a b : Word) : (if a.sle b then a else b) = if a.toInt ≤ b.toInt then a else b := by
  simp only [BitVec.sle_iff_toInt_le]

theorem ite_ule_eq_min (a b : Word) : (if a.ule b then a else b) = if a.toNat ≤ b.toNat then a else b := by
  simp only [BitVec.ule_iff_toNat_le]

/-- Whichever of two equal words is taken, the maximum is the same. -/
theorem ite_sle_eq_max (a b : Word) : (if b.sle a then a else b) = if a.toInt ≤ b.toInt then b else a := by
  simp only [BitVec.sle_iff_toInt_le]
  split_ifs with hba hab hab
  · exact BitVec.eq_of_toInt_eq (le_antisymm hab hba)
  · rfl
  · rfl
  · omega

theorem ite_ule_eq_max (a b : Word) : (if b.ule a then a else b) = if a.toNat ≤ b.toNat then b else a := by
  simp only [BitVec.ule_iff_toNat_le]
  split_ifs with hba hab hab
  · exact BitVec.eq_of_toNat_eq (le_antisymm hab hba)
  · rfl
  · rfl
  · omega

/-- Of a word that is not 0 the highest one bit is the floor of its logarithm. -/
theorem leadZeros_eq (a : Word) : leadZeros a = if a = 0 then 64 else BitVec.ofNat 64 (63 - a.toNat.log2) := by
  by_cases h : a = 0
  · subst h; rfl
  · have h0 : a.toNat ≠ 0 := fun h0 => h (BitVec.eq_of_toNat_eq h0)
    rw [leadZeros, bitLen, if_neg h0, if_neg h, Nat.add_comm, Nat.sub_add_eq]

/-- Counting the zero bits from bit `i` up finds the first one bit. -/
theorem lowZeros_eq_find (a : Word) (n i : Nat) : lowZeros a n i = ((List.range' i n).find? a.getLsbD).getD (i + n) := by
  induction n generalizing i with
  | zero => rfl
  | succ n ih =>
    rw [lowZeros, List.range'_succ, List.find?_cons]
    cases a.getLsbD i with
    | true => rfl
    | false => rw [if_neg Bool.false_ne_true, ih, Nat.add_right_comm, Nat.add_assoc]

theorem trailZeros_eq (a : Word) : trailZeros a = BitVec.ofNat 64 (((List.range 64).find? a.getLsbD).getD 64) := by
  rw [trailZeros, lowZeros_eq_find, List.range_eq_range']

theorem onesBelow_eq_countP (p : Nat → Bool) (n : Nat) : onesBelow p n = (List.range n).countP p := by
  induction n with
  | zero => rfl
  | succ n ih => rw [onesBelow, ih, List.range_succ, List.countP_append, List.countP_singleton, Nat.add_comm]

theorem countOnes_eq (a : Word) : countOnes a = BitVec.ofNat 64 ((List.range 64).countP a.getLsbD) := by
  rw [countOnes, onesBelow_eq_countP]

/-- A field is negative when its highest bit is 1. -/
theorem extField_eq (a : Word) (pos len : Nat) (zero : Bool) : extField a pos len zero = bitField a pos len zero := by
  simp only [extField, bitField, intVal, Nat.mod_mod]
  generalize a.toNat / 2 ^ pos % 2 ^ len = x
  cases zero with
  | true => rfl
  | false =>
    by_cases h : x < 2 ^ (len - 1)
    · simp [h, Nat.not_le.2 h]
    · simp [h, Nat.le_of_not_lt h]

/-- A 96-bit `li` holds the high half of its constant in k32. -/
theorem append_eq_ofNat (x y : BitVec 32) : (x ++ y : Word) = BitVec.ofNat 64 (x.toNat * 2 ^ 32 + y.toNat) := by
  have hx := x.isLt
  have hy := y.isLt
  apply BitVec.eq_of_toNat_eq
  rw [BitVec.toNat_append, ← Nat.shiftLeft_add_eq_or_of_lt hy, Nat.shiftLeft_eq, BitVec.toNat_ofNat, Nat.mod_eq_of_lt (by omega)]

/-! ### Register-register instructions -/

/-- A register-register instruction: its 64-bit and its 32-bit word, its OP9 and its operation. -/
structure RegisterOp where
  wide : FS → Instr
  short : CS → Instr
  op9 : Nat
  op : Op3

/-- The register-register instructions in the order of 04 R87. -/
def registerOps : List RegisterOp := [
  ⟨.add, .addX32, 0x001, addOp⟩, ⟨.sub, .subX32, 0x002, subOp⟩,
  ⟨.and, .andX32, 0x003, plain (· &&& ·)⟩, ⟨.or, .orX32, 0x004, plain (· ||| ·)⟩, ⟨.xor, .xorX32, 0x005, plain (· ^^^ ·)⟩,
  ⟨.sll, .sllX32, 0x006, plain shl7⟩, ⟨.srl, .srlX32, 0x007, plain shr7⟩, ⟨.sra, .sraX32, 0x008, plain sar7⟩,
  ⟨.slt, .sltX32, 0x009, plain fun a b => bit64 (a.slt b)⟩, ⟨.sltu, .sltuX32, 0x00A, plain fun a b => bit64 (a.ult b)⟩,
  ⟨.mul, .mulX32, 0x00B, plain (· * ·)⟩, ⟨.mulh, .mulhX32, 0x00C, plain mulHigh⟩, ⟨.mulhu, .mulhuX32, 0x00D, plain mulHighU⟩,
  ⟨.div, .divX32, 0x00E, plain divS⟩, ⟨.divu, .divuX32, 0x00F, plain divU⟩,
  ⟨.rem, .remX32, 0x010, plain remS⟩, ⟨.remu, .remuX32, 0x011, plain remU⟩,
  ⟨.min, .minX32, 0x012, plain fun a b => if a.sle b then a else b⟩, ⟨.max, .maxX32, 0x013, plain fun a b => if b.sle a then a else b⟩,
  ⟨.minu, .minuX32, 0x014, plain fun a b => if a.ule b then a else b⟩, ⟨.maxu, .maxuX32, 0x015, plain fun a b => if b.ule a then a else b⟩,
  ⟨.clz, .clzX32, 0x016, plain fun a _ => leadZeros a⟩, ⟨.ctz, .ctzX32, 0x017, plain fun a _ => trailZeros a⟩,
  ⟨.popc, .popcX32, 0x018, plain fun a _ => countOnes a⟩, ⟨.sel, .selX32, 0x019, selOp⟩]

/-- The table gives what `exec` does with both words of each instruction. -/
theorem exec_registerOp : ∀ o ∈ registerOps, ∀ (s : State),
    (∀ f, exec (o.wide f) s = aluFS o.op9 8 o.op f s) ∧ ∀ f, exec (o.short f) s = aluFS o.op9 4 o.op f.wide s := by
  simp only [registerOps, List.forall_mem_cons, List.not_mem_nil, false_implies, implies_true, and_true]
  and_intros
  all_goals exact fun s => ⟨fun f => rfl, fun f => rfl⟩

/-- The values of R87 and R88 are those of the table. -/
theorem registerResults_eq (f : FS) (a b c : Word) : registerResults f a b c = registerOps.map fun o => (o.wide f, o.op f.fn a b c) := by
  simp only [registerOps, List.map_cons, List.map_nil, addOp, subOp, selOp, plain, satS64_eq, shl7_eq, shr7_eq, sar7_eq, bit64_slt, bit64_ult,
    mul_eq_ofInt, remS_eq, ite_sle_eq_min, ite_sle_eq_max, ite_ule_eq_min, ite_ule_eq_max, leadZeros_eq, trailZeros_eq, countOnes_eq]
  rfl

/-- In a 32-bit word FN is 0, so that nothing saturates, and sc is s0, so that `sel` takes sb. -/
theorem shortResults_eq (f : CS) (a b : Word) : shortResults f a b = registerOps.map fun o => (o.short f, o.op 0 a b 0) := by
  simp only [registerOps, List.map_cons, List.map_nil, addOp, subOp, selOp, plain, shl7_eq, shr7_eq, sar7_eq, bit64_slt, bit64_ult,
    mul_eq_ofInt, remS_eq, ite_sle_eq_min, ite_sle_eq_max, ite_ule_eq_min, ite_ule_eq_max, leadZeros_eq, trailZeros_eq, countOnes_eq]
  rfl

/-- A register-register instruction writes its operation's value of the sources as they were. -/
theorem aluFS_retires {s : State} {f : FS} (op9 : Nat) {len : Nat} (h : Op3) (hlen : len % 4 = 0)
    (hx : Executes s f.g f.fp f.fo [f.sd.toNat, f.sa.toNat, f.sb.toNat, f.sc.toNat] []) :
    ∃ t, aluFS op9 len h f s = .next t ∧
      Retired (s.setS f.sd.toNat (h f.fn (s.sreg s.cur f.sa.toNat) (s.sreg s.cur f.sb.toNat) (s.sreg s.cur f.sc.toNat))) t
        (s.now.pc + BitVec.ofNat 64 len) f.fp f.fo :=
  issue_setS (d := scalarDesc op9 len f.g f.fp f.fo [f.sd.toNat, f.sa.toNat, f.sb.toNat, f.sc.toNat]) hx rfl rfl rfl rfl hlen

theorem register_retires {s : State} {f : FS} {i : Instr} {r : Word}
    (hr : (i, r) ∈ registerResults f (s.sreg s.cur f.sa.toNat) (s.sreg s.cur f.sb.toNat) (s.sreg s.cur f.sc.toNat))
    (hx : Executes s f.g f.fp f.fo [f.sd.toNat, f.sa.toNat, f.sb.toNat, f.sc.toNat] []) :
    ∃ t, exec i s = .next t ∧ Retired (s.setS f.sd.toNat r) t (s.now.pc + 8) f.fp f.fo := by
  rw [registerResults_eq, List.mem_map] at hr
  obtain ⟨o, ho, he⟩ := hr
  obtain ⟨rfl, rfl⟩ := Prod.mk.inj he
  rw [(exec_registerOp o ho s).1]
  exact aluFS_retires o.op9 o.op rfl hx

/-- The 5-bit register fields of a 32-bit word name the same registers when widened. -/
theorem toNat_setWidth_six (x : BitVec 5) : (x.setWidth 6).toNat = x.toNat :=
  BitVec.toNat_setWidth_of_le (by decide)

theorem shortRegister_retires {s : State} {f : CS} {i : Instr} {r : Word}
    (hr : (i, r) ∈ shortResults f (s.sreg s.cur f.sa.toNat) (s.sreg s.cur f.sb.toNat))
    (hx : Executes s unguarded 0 0 [f.sd.toNat, f.sa.toNat, f.sb.toNat, 0] []) :
    ∃ t, exec i s = .next t ∧ Retired (s.setS f.sd.toNat r) t (s.now.pc + 4) 0 0 := by
  rw [shortResults_eq, List.mem_map] at hr
  obtain ⟨o, ho, he⟩ := hr
  obtain ⟨rfl, rfl⟩ := Prod.mk.inj he
  rw [(exec_registerOp o ho s).2]
  have := aluFS_retires (s := s) (f := f.wide) o.op9 (len := 4) o.op rfl
  simp only [CS.wide, toNat_setWidth_six] at this
  exact this hx

/-! ### Immediate instructions -/

/-- An immediate instruction in one of its words: its OP9 and its operation. -/
structure ImmediateOp (α : Type) where
  instr : α → Instr
  op9 : Nat
  op : Word → Word → Word

def immediateOps : List (ImmediateOp FI) := [
  ⟨.addi, 0x020, (· + ·)⟩, ⟨.andi, 0x021, (· &&& ·)⟩, ⟨.ori, 0x022, (· ||| ·)⟩, ⟨.xori, 0x023, (· ^^^ ·)⟩,
  ⟨.slli, 0x024, shl7⟩, ⟨.srli, 0x025, shr7⟩, ⟨.srai, 0x026, sar7⟩,
  ⟨.slti, 0x027, fun a b => bit64 (a.slt b)⟩, ⟨.sltiu, 0x028, fun a b => bit64 (a.ult b)⟩,
  ⟨.extI, 0x029, fun a imm => extField a (imm.toNat % 64) (imm.toNat / 64 % 64 + 1) (imm.getLsbD 12)⟩]

def shortImmediateOps : List (ImmediateOp CI) := [
  ⟨.addiX32, 0x020, (· + ·)⟩, ⟨.andiX32, 0x021, (· &&& ·)⟩, ⟨.oriX32, 0x022, (· ||| ·)⟩, ⟨.xoriX32, 0x023, (· ^^^ ·)⟩,
  ⟨.slliX32, 0x024, shl7⟩, ⟨.srliX32, 0x025, shr7⟩, ⟨.sraiX32, 0x026, sar7⟩,
  ⟨.sltiX32, 0x027, fun a b => bit64 (a.slt b)⟩, ⟨.sltiuX32, 0x028, fun a b => bit64 (a.ult b)⟩]

def longImmediateOps : List (ImmediateOp FI96) := [
  ⟨.addiX96, 0x020, (· + ·)⟩, ⟨.andiX96, 0x021, (· &&& ·)⟩, ⟨.oriX96, 0x022, (· ||| ·)⟩, ⟨.xoriX96, 0x023, (· ^^^ ·)⟩,
  ⟨.sltiX96, 0x027, fun a b => bit64 (a.slt b)⟩, ⟨.sltiuX96, 0x028, fun a b => bit64 (a.ult b)⟩]

theorem exec_immediateOp : ∀ o ∈ immediateOps, ∀ (f : FI) (s : State), exec (o.instr f) s = aluImm o.op9 o.op f.form s := by
  simp only [immediateOps, List.forall_mem_cons, List.not_mem_nil, false_implies, implies_true, and_true]
  and_intros
  all_goals exact fun f s => rfl

theorem exec_shortImmediateOp : ∀ o ∈ shortImmediateOps, ∀ (f : CI) (s : State), exec (o.instr f) s = aluImm o.op9 o.op f.form s := by
  simp only [shortImmediateOps, List.forall_mem_cons, List.not_mem_nil, false_implies, implies_true, and_true]
  and_intros
  all_goals exact fun f s => rfl

theorem exec_longImmediateOp : ∀ o ∈ longImmediateOps, ∀ (f : FI96) (s : State), exec (o.instr f) s = aluImm o.op9 o.op f.form s := by
  simp only [longImmediateOps, List.forall_mem_cons, List.not_mem_nil, false_implies, implies_true, and_true]
  and_intros
  all_goals exact fun f s => rfl

/-- Sign extension keeps the low 30 bits of the immediate. -/
theorem toNat_sext_mod (x : BitVec 30) : (sext 30 x).toNat % 2 ^ 30 = x.toNat := by
  have hx := x.isLt
  rw [sext, BitVec.toNat_signExtend, BitVec.toNat_setWidth_of_le (by decide)]
  split <;> omega

/-- The fields of `ext` lie in the low 13 bits of the immediate, which its sign extension keeps. -/
theorem extField_sext (a : Word) (x : BitVec 30) :
    extField a ((sext 30 x).toNat % 64) ((sext 30 x).toNat / 64 % 64 + 1) ((sext 30 x).getLsbD 12) =
      bitField a (x.toNat % 64) (x.toNat / 64 % 64 + 1) (x.getLsbD 12) := by
  have low := toNat_sext_mod x
  have hpos : (sext 30 x).toNat % 64 = x.toNat % 64 := by omega
  have hlen : (sext 30 x).toNat / 64 % 64 = x.toNat / 64 % 64 := by omega
  have hzero : (sext 30 x).getLsbD 12 = x.getLsbD 12 := by rw [sext, BitVec.getLsbD_signExtend]; rfl
  rw [hpos, hlen, hzero, extField_eq]

theorem immediateResults_eq (f : FI) (a : Word) : immediateResults f a = immediateOps.map fun o => (o.instr f, o.op a f.form.imm) := by
  simp only [immediateOps, List.map_cons, List.map_nil, shl7_eq, shr7_eq, sar7_eq, bit64_slt, bit64_ult, FI.form, extField_sext]
  rfl

theorem shortImmediates_eq (f : CI) (a : Word) : shortImmediates f a = shortImmediateOps.map fun o => (o.instr f, o.op a f.form.imm) := by
  simp only [shortImmediateOps, List.map_cons, List.map_nil, shl7_eq, shr7_eq, sar7_eq, bit64_slt, bit64_ult]
  rfl

theorem longImmediates_eq (f : FI96) (a : Word) : longImmediates f a = longImmediateOps.map fun o => (o.instr f, o.op a f.form.imm) := by
  simp only [longImmediateOps, List.map_cons, List.map_nil, bit64_slt, bit64_ult]
  rfl

/-- An immediate instruction writes its operation's value of sa as it was and the immediate. -/
theorem aluImm_retires {s : State} {f : ImmForm} (op9 : Nat) (h : Word → Word → Word) (hlen : f.len % 4 = 0)
    (hx : Executes s f.g f.fp f.fo [f.sd, f.sa] []) :
    ∃ t, aluImm op9 h f s = .next t ∧
      Retired (s.setS f.sd (h (s.sreg s.cur f.sa) f.imm)) t (s.now.pc + BitVec.ofNat 64 f.len) f.fp f.fo :=
  issue_setS (d := scalarDesc op9 f.len f.g f.fp f.fo [f.sd, f.sa]) hx rfl rfl rfl rfl hlen

/-- The immediate instructions of one word, given by their table. -/
theorem immediate_retires {α : Type} {ops : List (ImmediateOp α)} {form : α → ImmForm} {s : State} {f : α} {i : Instr} {r : Word}
    (hops : ∀ o ∈ ops, ∀ f s, exec (o.instr f) s = aluImm o.op9 o.op (form f) s)
    (hr : (i, r) ∈ ops.map fun o => (o.instr f, o.op (s.sreg s.cur (form f).sa) (form f).imm)) (hlen : (form f).len % 4 = 0)
    (hx : Executes s (form f).g (form f).fp (form f).fo [(form f).sd, (form f).sa] []) :
    ∃ t, exec i s = .next t ∧ Retired (s.setS (form f).sd r) t (s.now.pc + BitVec.ofNat 64 (form f).len) (form f).fp (form f).fo := by
  rw [List.mem_map] at hr
  obtain ⟨o, ho, he⟩ := hr
  obtain ⟨rfl, rfl⟩ := Prod.mk.inj he
  rw [hops o ho]
  exact aluImm_retires o.op9 o.op hlen hx

/-! ### Constants and `nop` -/

/-- `nop`, in either word, has no effect of its own. -/
theorem nop_retires {s : State} {g : Guard} {fp fo : BitVec 3} {len : Nat} (hlen : len % 4 = 0) (hx : Executes s g fp fo [] []) :
    ∃ t, issue s (scalarDesc 0x01A len g fp fo []) (fun _ => .seq Fx.none) = .next t ∧
      Retired s t (s.now.pc + BitVec.ofNat 64 len) fp fo :=
  issue_plain (l := []) hx rfl rfl rfl rfl (fun _ h => absurd h List.not_mem_nil) rfl hlen

/-- `li`, in either word, writes a value that depends on no register. -/
theorem li_retires {s : State} {g : Guard} {sd len : Nat} (v : Word) (hlen : len % 4 = 0) (hx : Executes s g 0 0 [sd] []) :
    ∃ t, issue s (scalarDesc 0x02A len g 0 0 [sd]) (fun t => .seq fun _ => [.sreg t.cur sd v]) = .next t ∧
      Retired (s.setS sd v) t (s.now.pc + BitVec.ofNat 64 len) 0 0 :=
  issue_setS (d := scalarDesc 0x02A len g 0 0 [sd]) hx rfl rfl rfl rfl hlen

/-- Settles O1: each word's instructions stand in a table of operations, whose values are those of the rules, and every one of them issues
and writes its value. -/
theorem scalarResults : Obligations.ScalarResults := by
  refine ⟨fun s f => ⟨fun i r => register_retires, nop_retires rfl⟩, fun s f i r => ⟨shortRegister_retires, nop_retires rfl⟩,
    fun s i r => ⟨fun f hr => ?_, fun f hr => ?_, fun f hr => ?_⟩, fun s => ⟨fun f => li_retires _ rfl, fun f => ?_⟩⟩
  · rw [immediateResults_eq] at hr
    exact immediate_retires exec_immediateOp hr (show 8 % 4 = 0 from rfl)
  · rw [shortImmediates_eq] at hr
    exact immediate_retires exec_shortImmediateOp hr (show 4 % 4 = 0 from rfl)
  · rw [longImmediates_eq] at hr
    exact immediate_retires exec_longImmediateOp hr (show 12 % 4 = 0 from rfl)
  · rw [← append_eq_ofNat]
    exact li_retires _ rfl

end Sys2Proof.Machine
end

section
/-!
PROOFS. The predicate instructions (06 R147): an element instruction that issues writes its one register, and the value written is, bit by
bit, the one that the rule gives.
-/
namespace Sys2Proof.Machine
open Sys2Proof.Statements

/-! ### Element instructions without flags -/

/-- An element instruction runs whatever bit 0 of its guard is: its guard governs elements (03 R65). -/
theorem issue_element {s : State} {f : X3} {op9 : Nat} {ss vs : List Nat} {body : State → Act} {l : List Eff}
    (hx : Issues s f.fp f.fo ss vs) (hloop : NoLoopEnd s.now) (hb : body s = .seq fun _ => l) (hl : ∀ x ∈ l, x.light = true)
    (hn : (s.applyAll l).now = s.now) :
    ∃ t, issue s (x3Desc op9 8 f ss vs) body = .next t ∧ Retired (s.applyAll l) t (s.now.pc + 8) f.fp f.fo := by
  have := issue_seq (d := x3Desc op9 8 f ss vs) hx nofun nofun nofun (Or.inl rfl) hb rfl hl (hn ▸ hx.legal)
    (fun hf => by rw [hn]; exact hx.settled hf) (hn ▸ hloop) (by rw [hn]; exact hx.noStep) (show 8 % 4 = 0 from rfl)
  rwa [hn] at this

theorem issue_element_setS {s : State} {f : X3} {op9 n : Nat} {ss vs : List Nat} {body : State → Act} {v : Word}
    (hx : Issues s f.fp f.fo ss vs) (hloop : NoLoopEnd s.now) (hb : body s = .seq fun _ => [.sreg s.cur n v]) :
    ∃ t, issue s (x3Desc op9 8 f ss vs) body = .next t ∧ Retired (s.setS n v) t (s.now.pc + 8) f.fp f.fo :=
  issue_element hx hloop hb (by simp [Eff.light]) (by simp [State.now])

/-- An element instruction that writes one predicate, whose bits are `h`. -/
theorem issue_element_setP {s : State} {f : X3} {op9 n : Nat} {ss vs : List Nat} {body : State → Act} {v : Pred} {h : Nat → Bool}
    (hx : Issues s f.fp f.fo ss vs) (hloop : NoLoopEnd s.now) (hb : body s = .seq fun _ => [.preg s.cur n v])
    (hv : ∀ i, i < 128 → v.getLsbD i = h i) :
    ∃ t r, issue s (x3Desc op9 8 f ss vs) body = .next t ∧ Retired (s.setP n r) t (s.now.pc + 8) f.fp f.fo ∧
      ∀ i, i < 128 → r.getLsbD i = h i := by
  obtain ⟨t, ht, hr⟩ := issue_element (op9 := op9) hx hloop hb (by simp [Eff.light]) (by simp [State.now])
  exact ⟨t, v, ht, hr, hv⟩

/-! ### The bits of a predicate -/

/-- A number put together from bits, the first of the list lowest. -/
theorem testBit_foldr_bits (p : Nat → Bool) (l : List Nat) (i : Nat) :
    (l.foldr (fun j acc => 2 * acc + (if p j then 1 else 0)) 0).testBit i = l[i]?.any p := by
  induction l generalizing i with
  | nil => simp
  | cons j l ih =>
    have bit_eq : ∀ n, 2 * n + (if p j then 1 else 0) = Nat.bit (p j) n := fun n => by cases p j <;> rfl
    rw [List.foldr_cons, bit_eq]
    cases i with
    | zero => simp
    | succ i => rw [Nat.testBit_bit_succ, ih, List.getElem?_cons_succ]

theorem getLsbD_predOf (n : Nat) (p : Nat → Bool) {i : Nat} (hi : i < 128) : (predOf n p).getLsbD i = (decide (i < n) && p i) := by
  rw [predOf, BitVec.getLsbD_ofNat, testBit_foldr_bits, decide_eq_true hi, Bool.true_and]
  by_cases hn : i < n <;> simp [hn]

/-- A predicate and its negative have only the lowest one bit in common. -/
theorem getLsbD_and_neg (p : Pred) {i : Nat} (hi : i < 128) :
    (p &&& (~~~p + 1)).getLsbD i = (p.getLsbD i && (List.range i).all fun j => !p.getLsbD j) := by
  rw [show ~~~p + 1 = -p from (BitVec.neg_eq_not_add p).symm, BitVec.getLsbD_and, BitVec.getLsbD_neg]
  cases p.getLsbD i with
  | false => rfl
  | true =>
    rw [decide_eq_true hi, Bool.true_and, Bool.true_and, Bool.true_and, Bool.true_xor, Bool.eq_iff_iff]
    simp

theorem predCount_eq_countP (p : Pred) : predCount p = (List.range 128).countP p.getLsbD := by
  rw [predCount, List.foldl_ite_left, List.foldl_add_const, List.countP_eq_length_filter]
  simp

theorem any_getLsbD_iff (p : Pred) : (List.range 128).any p.getLsbD = true ↔ p ≠ 0 := by
  simp [BitVec.eq_of_getLsbD_eq_iff]

/-! ### The instructions -/

/-- Each enabled bit is the operation of the two source bits. -/
theorem predOp_retires {s : State} {f : X3} (op9 : Nat) (op : Bool → Bool → Bool) (hx : Issues s f.fp f.fo [] []) (hloop : NoLoopEnd s.now) :
    ∃ t r, predOp op9 op f s = .next t ∧ Retired (s.setP f.vd.toNat r) t (s.now.pc + 8) f.fp f.fo ∧ ∀ i, i < 128 → r.getLsbD i =
      ((guardPred s s.cur f.g).getLsbD i && op ((s.preg s.cur f.va.toNat).getLsbD i) ((s.preg s.cur f.vb.toNat).getLsbD i)) :=
  issue_element_setP hx hloop rfl fun i hi => by rw [getLsbD_predOf _ _ hi, decide_eq_true hi, Bool.true_and]

/-- Every instruction of R147 that writes a predicate. -/
theorem predicate_retires {s : State} {f : X3} {x : Instr} {ss : List Nat} {h : Nat → Bool}
    (hm : (x, ss, h) ∈ predicates s f (guardPred s s.cur f.g)) (hx : Issues s f.fp f.fo ss []) (hloop : NoLoopEnd s.now) :
    ∃ t r, exec x s = .next t ∧ Retired (s.setP f.vd.toNat r) t (s.now.pc + 8) f.fp f.fo ∧ ∀ i, i < 128 → r.getLsbD i = h i := by
  simp only [predicates, List.mem_cons, Prod.mk.injEq, List.not_mem_nil, or_false] at hm
  -- pand, por, pxor, pnot, pfirst and pcnt
  obtain ⟨rfl, rfl, rfl⟩ | ⟨rfl, rfl, rfl⟩ | ⟨rfl, rfl, rfl⟩ | ⟨rfl, rfl, rfl⟩ | ⟨rfl, rfl, rfl⟩ | ⟨rfl, rfl, rfl⟩ := hm
  · exact predOp_retires 0x071 (fun a b => a && b) hx hloop
  · exact predOp_retires 0x072 (fun a b => a || b) hx hloop
  · exact predOp_retires 0x073 (fun a b => a != b) hx hloop
  · exact predOp_retires 0x074 (fun a _ => !a) hx hloop
  · exact issue_element_setP hx hloop rfl fun i hi => by simp only [getLsbD_and_neg _ hi, BitVec.getLsbD_and]
  · exact issue_element_setP hx hloop rfl fun i hi => by rw [getLsbD_predOf _ _ hi, Bool.and_assoc, elemCount]

theorem ppopc_retires {s : State} {f : X3} (hx : Issues s f.fp f.fo [f.vd.toNat] []) (hloop : NoLoopEnd s.now) :
    ∃ t, exec (.ppopc f) s = .next t ∧ Retired (s.setS f.vd.toNat (BitVec.ofNat 64 ((List.range 128).countP fun i =>
      (guardPred s s.cur f.g).getLsbD i && (s.preg s.cur f.va.toNat).getLsbD i))) t (s.now.pc + 8) f.fp f.fo := by
  simp only [← BitVec.getLsbD_and, ← predCount_eq_countP]
  exact issue_element_setS hx hloop rfl

theorem pany_retires {s : State} {f : X3} (hx : Issues s f.fp f.fo [f.vd.toNat] []) (hloop : NoLoopEnd s.now) :
    ∃ t, exec (.pany f) s = .next t ∧ Retired (s.setS f.vd.toNat (if (List.range 128).any (fun i =>
      (guardPred s s.cur f.g).getLsbD i && (s.preg s.cur f.va.toNat).getLsbD i) then 1 else 0)) t (s.now.pc + 8) f.fp f.fo := by
  simp only [← BitVec.getLsbD_and, any_getLsbD_iff, ne_eq, ite_not]
  exact issue_element_setS hx hloop rfl

/-- Settles O12: each instruction is an element instruction that writes one register, with the bits, the number of the ones or their
presence as R147 says. -/
theorem predicateResults : Obligations.PredicateResults := fun _ _ hloop =>
  ⟨fun _ _ _ hm _ hx => predicate_retires hm hx hloop, fun hx => ⟨ppopc_retires hx hloop, pany_retires hx hloop⟩⟩

end Sys2Proof.Machine
end
